-- ==== Sys2Proof/Word.lean ====
section
/-! DEFINITION. Word.lean: the widths the manual works in. -/

namespace Sys2Proof

/-- A byte of memory (R34). -/
abbrev Byte := BitVec 8
/-- A lane slice of a vector register, and a 32-bit operand (R34). -/
abbrev W32 := BitVec 32
/-- A scalar register, an address, a pair (R21, R34). -/
abbrev W64 := BitVec 64
/-- A translation entry, a capability, a barrier object (R276, R298, R140). -/
abbrev W128 := BitVec 128

end Sys2Proof
end

