-- ==== Sys2Proof/Syntax.lean ====
section
/-! DEFINITION. Syntax.lean: the operands of every instruction, the arguments of every event, and the one inductive Instr with a constructor for each row of the opcode table. -/

namespace Sys2Proof

/-! ## Fields common to the instruction words -/

/-- LEN by R10: the three lengths. -/
inductive Len where
  | w64 | w96 | w128
deriving DecidableEq, Repr

/-- GUARD and NEG by R13. -/
structure Guard where
  p   : BitVec 4
  neg : Bool
deriving DecidableEq, Repr

/-- TYPE of the integer blocks (R28). -/
inductive IntTy where
  | i8 | i16 | i32 | i64 | b8 | b16 | b32 | b64
deriving DecidableEq, Repr

/-- FMT of the floating-point block (R29, R35). -/
inductive FFmt where
  | f32 | f16 | bf16 | e4m3 | e5m2
deriving DecidableEq, Repr

/-- RM by R29 and R39. -/
inductive Rm where
  | rne | rz | rd | ru
deriving DecidableEq, Repr

/-- TYPE of SCAN and REDUCE: the eight integer types and .f32 (R103). -/
inductive LaneTy where
  | int (t : IntTy)
  | f32
deriving DecidableEq, Repr

/-- TYPE of the access word (R124). -/
inductive MemTy where
  | int (t : IntTy)
  | flt (f : FFmt)
deriving DecidableEq, Repr

/-- Scope codes by R123. -/
inductive Scope where
  | core | quad | die | pkg | pod
deriving DecidableEq, Repr

/-- ORD of R124 and R132: relaxed (none) or ordered at a scope. -/
abbrev Ord := Option Scope

/-- A lane pattern by R23. -/
inductive LanePat where
  | ident
  | rot (n : BitVec 6)
  | bc (n : BitVec 6)
  | xor (n : BitVec 6)
  | mir (k : BitVec 3)
  | shd (n : BitVec 6)
  | shu (n : BitVec 6)
deriving DecidableEq, Repr

/-- A vector source: a window-relative register read through a pattern (R21, R23). -/
structure VSrc where
  r   : BitVec 7
  pat : LanePat
deriving DecidableEq, Repr

/-- The B source of R20: a vector register, a scalar register or an immediate (X16 or IMM32, held as 32 bits). -/
inductive BSrc where
  | vec (v : VSrc)
  | scalar (s : BitVec 6)
  | imm (x : BitVec 32)
deriving DecidableEq, Repr

/-- A B source without an immediate. -/
inductive RSrc where
  | vec (v : VSrc)
  | scalar (s : BitVec 6)
deriving DecidableEq, Repr

/-- The B source of a scalar instruction (R81). -/
inductive SSrc where
  | reg (s : BitVec 6)
  | imm (x : BitVec 32)
deriving DecidableEq, Repr

/-- A branch target of BRX and CALLX (R113): a vector pair or a scalar register. -/
inductive Target where
  | vec (r : BitVec 7)
  | scalar (s : BitVec 6)
deriving DecidableEq, Repr

/-- ISET and SSET conditions (R79). -/
inductive Cond where
  | eq | ne | lt | le | gt | ge | tst
deriving DecidableEq, Repr

/-- FSET conditions (R92). -/
inductive FCond where
  | eq | ne | lt | le | gt | ge | un | num
deriving DecidableEq, Repr

/-- Half routes of the packed forms (R99). -/
inductive Route where
  | straight | sw | bl | bh
deriving DecidableEq, Repr

/-- OPN of SCAN and REDUCE (R109). -/
inductive CombOp where
  | add | min | max | and | or | xor
deriving DecidableEq, Repr

/-- VOTE kinds (R108). -/
inductive VoteKind where
  | all | any | uni
deriving DecidableEq, Repr

/-- Base of a memory address (R124): a scalar register or an even vector pair, numbered by A[5:0]. -/
inductive ABase where
  | scalar (s : BitVec 6)
  | pair (k : BitVec 6)
deriving DecidableEq, Repr

/-- Offset register of a memory address (R124, R125). -/
inductive AOff where
  | absent
  | vec (v : VSrc)
  | scalar (s : BitVec 6)
deriving DecidableEq, Repr

/-- OPN of the atomics (R132). -/
inductive AtomOp where
  | add | minS | maxS | minU | maxU | and | or | xor | exch | cas | fadd
deriving DecidableEq, Repr

/-- Fence kinds (R135). -/
inductive FenceKind where
  | acq | rel | acqrel
deriving DecidableEq, Repr

/-- Spaces of the engine instructions (R149). -/
inductive Space where
  | global | scratch | cap
deriving DecidableEq, Repr

/-- MMA formats (R166): five codes b + 2 for q2 to q8. -/
inductive MFmt where
  | bf16 | f16 | e4m3 | e5m2 | q2 | q3 | q4 | q5 | q6 | q7 | q8
deriving DecidableEq, Repr

/-- MEPI output types (R169). -/
inductive EpiOut where
  | f32 | bf16 | f16 | e4m3 | e5m2 | i8
deriving DecidableEq, Repr

/-- MEPI kinds (R169). -/
inductive EpiKind where
  | plain | relu | clamp
deriving DecidableEq, Repr

/-- An identity operand (R174). -/
inductive IdSrc where
  | vec (v : VSrc)
  | scalar (s : BitVec 6)
deriving DecidableEq, Repr

/-- SRD's destination (R184). -/
inductive SrdDst where
  | vec (r : BitVec 7)
  | scalar (s : BitVec 6)
deriving DecidableEq, Repr

/-! ## Operands of the instruction words, by shape -/

/-- A 64-bit word with no operand. -/
structure OpBare where
  g : Guard
deriving DecidableEq, Repr

/-- NOP: 64 or 96 bits (R30). -/
structure OpNop where
  g   : Guard
  len : Len
deriving DecidableEq, Repr

/-- BRA: X16 in 4-byte units at 96 bits, IMM32 in bytes at 128 bits (R113). -/
structure OpBra where
  g   : Guard
  len : Len
  off : BitVec 32
deriving DecidableEq, Repr

structure OpBrx where
  g   : Guard
  tgt : Target
deriving DecidableEq, Repr

structure OpCall where
  g     : Guard
  off   : BitVec 32
  frame : BitVec 7
deriving DecidableEq, Repr

structure OpCallx where
  g     : Guard
  tgt   : Target
  frame : BitVec 7
deriving DecidableEq, Repr

structure OpFork where
  g    : Guard
  d    : BitVec 4
  mask : BitVec 6
  off  : BitVec 32
deriving DecidableEq, Repr

/-- TRAP and BRK. -/
structure OpCode where
  g    : Guard
  code : BitVec 16
deriving DecidableEq, Repr

/-- Two-source vector integer forms. -/
structure OpV2 where
  g   : Guard
  len : Len
  ty  : IntTy
  sat : Bool
  d   : BitVec 7
  a   : VSrc
  b   : BSrc
deriving DecidableEq, Repr

/-- ADDC and SUBB (R70). -/
structure OpCarry where
  g    : Guard
  ty   : IntTy
  d    : BitVec 7
  a    : VSrc
  b    : RSrc
  cin  : BitVec 4
  cout : BitVec 4
deriving DecidableEq, Repr

/-- MAD, MADW, BFI. -/
structure OpV3 where
  g   : Guard
  ty  : IntTy
  sat : Bool
  d   : BitVec 7
  a   : VSrc
  b   : RSrc
  c   : VSrc
deriving DecidableEq, Repr

structure OpLea where
  g     : Guard
  ty    : IntTy
  scale : BitVec 3
  d     : BitVec 7
  a     : VSrc
  b     : RSrc
  c     : VSrc
deriving DecidableEq, Repr

structure OpSel where
  g  : Guard
  ty : IntTy
  d  : BitVec 7
  a  : VSrc
  b  : RSrc
  c  : BitVec 4
deriving DecidableEq, Repr

structure OpV1 where
  g   : Guard
  ty  : IntTy
  sat : Bool
  d   : BitVec 7
  a   : VSrc
deriving DecidableEq, Repr

structure OpIset where
  g    : Guard
  len  : Len
  ty   : IntTy
  cond : Cond
  d    : BitVec 4
  a    : VSrc
  b    : BSrc
deriving DecidableEq, Repr

/-- Two-source scalar forms. -/
structure OpS2 where
  g   : Guard
  len : Len
  ty  : IntTy
  sat : Bool
  d   : BitVec 6
  a   : BitVec 6
  b   : SSrc
deriving DecidableEq, Repr

structure OpSset where
  g    : Guard
  len  : Len
  ty   : IntTy
  cond : Cond
  d    : BitVec 4
  a    : BitVec 6
  b    : SSrc
deriving DecidableEq, Repr

/-- SLI: X16 at 96 bits, X32 and IMM32 at 128 bits (R83). -/
structure OpSli where
  g   : Guard
  len : Len
  ty  : IntTy
  d   : BitVec 6
  imm : BitVec 64
deriving DecidableEq, Repr

structure OpSmov where
  g  : Guard
  ty : IntTy
  d  : BitVec 6
  a  : BitVec 6
deriving DecidableEq, Repr

structure OpSlea where
  g     : Guard
  ty    : IntTy
  scale : BitVec 3
  d     : BitVec 6
  a     : BitVec 6
  b     : BitVec 6
  c     : BitVec 6
deriving DecidableEq, Repr

/-- FADD, FSUB, FMUL, FSCALE. -/
structure OpF2 where
  g   : Guard
  len : Len
  fmt : FFmt
  rm  : Rm
  d   : BitVec 7
  a   : VSrc
  b   : BSrc
deriving DecidableEq, Repr

/-- FMIN and FMAX; num selects minimumNumber and maximumNumber. -/
structure OpFmm where
  g   : Guard
  len : Len
  fmt : FFmt
  num : Bool
  d   : BitVec 7
  a   : VSrc
  b   : BSrc
deriving DecidableEq, Repr

structure OpFset where
  g    : Guard
  len  : Len
  fmt  : FFmt
  cond : FCond
  d    : BitVec 4
  a    : VSrc
  b    : BSrc
deriving DecidableEq, Repr

/-- FMA, FDOT2, FDOT4. -/
structure OpF3 where
  g   : Guard
  fmt : FFmt
  rm  : Rm
  d   : BitVec 7
  a   : VSrc
  b   : RSrc
  c   : VSrc
deriving DecidableEq, Repr

/-- PKADD and PKMUL. -/
structure OpPk2 where
  g     : Guard
  len   : Len
  fmt   : FFmt
  rm    : Rm
  route : Route
  d     : BitVec 7
  a     : VSrc
  b     : BSrc
deriving DecidableEq, Repr

structure OpPk3 where
  g     : Guard
  fmt   : FFmt
  rm    : Rm
  route : Route
  d     : BitVec 7
  a     : VSrc
  b     : RSrc
  c     : VSrc
deriving DecidableEq, Repr

/-- FCLASS. -/
structure OpFclass where
  g   : Guard
  fmt : FFmt
  d   : BitVec 7
  a   : VSrc
deriving DecidableEq, Repr

/-- FRND; exact is the .x form. -/
structure OpFrnd where
  g     : Guard
  fmt   : FFmt
  rm    : Rm
  exact : Bool
  d     : BitVec 7
  a     : VSrc
deriving DecidableEq, Repr

/-- FRCP to FCOSPI. -/
structure OpF1 where
  g   : Guard
  fmt : FFmt
  rm  : Rm
  d   : BitVec 7
  a   : VSrc
deriving DecidableEq, Repr

/-- FCVT: target fmt, source src. -/
structure OpFcvt where
  g   : Guard
  fmt : FFmt
  src : FFmt
  rm  : Rm
  d   : BitVec 7
  a   : VSrc
deriving DecidableEq, Repr

/-- FTOI and ITOF. -/
structure OpFint where
  g   : Guard
  fmt : FFmt
  ty  : IntTy
  rm  : Rm
  d   : BitVec 7
  a   : VSrc
deriving DecidableEq, Repr

structure OpMov where
  g  : Guard
  ty : IntTy
  d  : BitVec 7
  a  : VSrc
deriving DecidableEq, Repr

structure OpMovi where
  g   : Guard
  len : Len
  ty  : LaneTy
  d   : BitVec 7
  imm : BitVec 32
deriving DecidableEq, Repr

structure OpPerm where
  g  : Guard
  ty : IntTy
  d  : BitVec 7
  a  : VSrc
  b  : RSrc
deriving DecidableEq, Repr

structure OpBallot where
  g : Guard
  d : BitVec 6
  a : BitVec 4
deriving DecidableEq, Repr

structure OpVote where
  g    : Guard
  kind : VoteKind
  d    : BitVec 4
  a    : BitVec 4
deriving DecidableEq, Repr

structure OpRdlane where
  g   : Guard
  len : Len
  ty  : IntTy
  d   : BitVec 6
  a   : VSrc
  n   : BSrc
deriving DecidableEq, Repr

structure OpWrlane where
  g   : Guard
  len : Len
  ty  : IntTy
  d   : BitVec 7
  a   : BitVec 6
  n   : BSrc
deriving DecidableEq, Repr

structure OpBsel where
  g : Guard
  d : BitVec 7
  a : VSrc
  b : RSrc
  c : VSrc
deriving DecidableEq, Repr

/-- SCAN (excl is X) and REDUCE (excl false). -/
structure OpScan where
  g    : Guard
  op   : CombOp
  ty   : LaneTy
  excl : Bool
  d    : BitVec 7
  a    : VSrc
deriving DecidableEq, Repr

structure OpP2 where
  g    : Guard
  invA : Bool
  invB : Bool
  d    : BitVec 4
  a    : BitVec 4
  b    : BitVec 4
deriving DecidableEq, Repr

structure OpP1 where
  g : Guard
  d : BitVec 4
  a : BitVec 4
deriving DecidableEq, Repr

/-- LD and ST: D is a vector register. -/
structure OpMem where
  g    : Guard
  len  : Len
  ty   : MemTy
  ord  : Ord
  base : ABase
  off  : AOff
  disp : BitVec 32
  d    : BitVec 7
deriving DecidableEq, Repr

/-- LDS and STS: scalar base, vector D. -/
structure OpMemS where
  g    : Guard
  len  : Len
  ty   : MemTy
  ord  : Ord
  base : BitVec 6
  off  : AOff
  disp : BitVec 32
  d    : BitVec 7
deriving DecidableEq, Repr

/-- LDU and STU: scalar base, scalar D. -/
structure OpMemU where
  g    : Guard
  len  : Len
  ty   : MemTy
  ord  : Ord
  base : BitVec 6
  off  : AOff
  disp : BitVec 32
  d    : BitVec 6
deriving DecidableEq, Repr

/-- PREF: l2only is TYPE 1. -/
structure OpPref where
  g      : Guard
  len    : Len
  l2only : Bool
  base   : ABase
  off    : AOff
  disp   : BitVec 32
deriving DecidableEq, Repr

/-- ATOM: cmp is the comparand register of the 128-bit cas form (R132). -/
structure OpAtom where
  g    : Guard
  op   : AtomOp
  wide : Bool
  ord  : Ord
  base : ABase
  off  : RSrc
  d    : BitVec 7
  c    : VSrc
  cmp  : BitVec 7
deriving DecidableEq, Repr

structure OpRed where
  g    : Guard
  op   : AtomOp
  wide : Bool
  ord  : Ord
  base : ABase
  off  : RSrc
  c    : VSrc
deriving DecidableEq, Repr

structure OpAtoms where
  g    : Guard
  op   : AtomOp
  wide : Bool
  ord  : Ord
  base : BitVec 6
  off  : RSrc
  d    : BitVec 7
  c    : VSrc
  cmp  : BitVec 7
deriving DecidableEq, Repr

structure OpFence where
  g     : Guard
  kind  : FenceKind
  scope : Scope
deriving DecidableEq, Repr

/-- BINIT: the 96-bit register form and the 128-bit immediate form (R143). -/
inductive BinitSrc where
  | regs (b c : BitVec 6)
  | imm (arrivals : BitVec 16) (bytes : BitVec 32)
deriving DecidableEq, Repr

structure OpBinit where
  g   : Guard
  a   : BitVec 6
  src : BinitSrc
deriving DecidableEq, Repr

structure OpArrive where
  g : Guard
  a : BitVec 6
deriving DecidableEq, Repr

structure OpExpect where
  g   : Guard
  len : Len
  a   : BitVec 6
  b   : BSrc
deriving DecidableEq, Repr

/-- WAIT and BTEST. -/
structure OpWait where
  g   : Guard
  len : Len
  d   : BitVec 4
  a   : BitVec 6
  b   : BSrc
deriving DecidableEq, Repr

structure OpBphase where
  g : Guard
  d : BitVec 6
  a : BitVec 6
deriving DecidableEq, Repr

/-- CPY to COLL: the fields of R149 and R150. D, A and B name scalar registers, B a vector register where bv is set. -/
structure OpEng where
  g    : Guard
  ssp  : Space
  dsp  : Space
  var  : BitVec 3
  gate : Bool
  d    : BitVec 6
  a    : BitVec 6
  b    : BitVec 7
  imm  : BitVec 32
  hnd  : BitVec 6
  bv   : Bool
  mc   : BitVec 4
  scap : BitVec 3
  dcap : BitVec 3
  qb   : BitVec 3
  qsrc : BitVec 2
deriving DecidableEq, Repr

structure OpRpush where
  g    : Guard
  d    : BitVec 6
  a    : BitVec 6
  b    : BitVec 6
  c    : BitVec 6
  twod : Bool
  rot  : BitVec 3
  ssp  : Space
  scap : BitVec 3
deriving DecidableEq, Repr

structure OpRfree where
  g : Guard
  a : BitVec 6
  b : BitVec 6
deriving DecidableEq, Repr

/-- An MMA operand (R166): a register slice, or a scratchpad descriptor pair. -/
inductive MSrc where
  | regs (r : BitVec 7)
  | desc (s : BitVec 6)
deriving DecidableEq, Repr

/-- MMA: ea, eb and kappa are C, X16[6:0] and X16[15:7] of the 96-bit form, zero at 64 bits. -/
structure OpMma where
  g     : Guard
  len   : Len
  fmt   : MFmt
  a     : MSrc
  b     : MSrc
  ea    : BitVec 7
  eb    : BitVec 7
  kappa : BitVec 9
deriving DecidableEq, Repr

structure OpMepi where
  g    : Guard
  out  : EpiOut
  kind : EpiKind
  a    : BitVec 6
  b    : BitVec 6
  lo   : BitVec 32
  hi   : BitVec 32
deriving DecidableEq, Repr

structure OpMsts where
  g     : Guard
  fmt   : FFmt
  rm    : Rm
  a     : BitVec 6
  b     : BitVec 6
  c     : BitVec 6
  row0  : BitVec 6
  n     : BitVec 7
  trans : Bool
deriving DecidableEq, Repr

structure OpBequeath where
  g    : Guard
  a    : BitVec 7
  id   : IdSrc
  c    : BitVec 4
  mask : BitVec 8
  tag  : MemTy
deriving DecidableEq, Repr

structure OpClaim where
  g   : Guard
  d   : BitVec 7
  a   : BitVec 6
  id  : IdSrc
  c   : BitVec 4
  n   : BitVec 4
  tag : MemTy
deriving DecidableEq, Repr

structure OpEstate where
  g  : Guard
  d  : BitVec 7
  a  : BitVec 6
  id : IdSrc
deriving DecidableEq, Repr

structure OpMigrate where
  g : Guard
  d : BitVec 4
  a : ABase
deriving DecidableEq, Repr

structure OpLaunch where
  g : Guard
  d : BitVec 4
  a : BitVec 6
deriving DecidableEq, Repr

structure OpRemit where
  g : Guard
  d : BitVec 4
  a : BitVec 6
  b : BitVec 6
deriving DecidableEq, Repr

/-- SRD: wide is .b64; idx 0 to 26; elem is used by %ltop only (R184). -/
structure OpSrd where
  g    : Guard
  wide : Bool
  d    : SrdDst
  idx  : BitVec 7
  elem : AOff
deriving DecidableEq, Repr

/-- SWR of %fflags, the one writable register (R184). -/
structure OpSwr where
  g    : Guard
  wide : Bool
  a    : BitVec 6
deriving DecidableEq, Repr

structure OpGrow where
  g   : Guard
  len : Len
  d   : BitVec 4
  b   : BSrc
deriving DecidableEq, Repr

structure OpShrink where
  g   : Guard
  len : Len
  b   : BSrc
deriving DecidableEq, Repr

/-! ## Arguments of the events -/

/-- A lane's access in a wave's issue list. -/
structure AccRef where
  wave  : Nat
  entry : Nat
  lane  : Nat
deriving DecidableEq, Repr

/-- A quarter of the package: die, logical core, quarter. -/
structure QRef where
  die     : Nat
  core    : Nat
  quarter : Nat
deriving DecidableEq, Repr

/-- A channel between two dies (0 to 7; 8 and 9 are the hubs), or inside one. -/
structure ChanRef where
  src : Nat
  dst : Nat
  org : Nat
deriving DecidableEq, Repr

/-- Where a copy of a line is held (R219): a core's L1, under the space and the page (bits 63:16) that its address was
translated by (R210), or a die's L2. -/
inductive CopyAt where
  | l1 (die core space vpage : Nat)
  | l2 (die : Nat)
deriving DecidableEq, Repr

/-- A boot or firmware image, with the stage that it is for (R310). -/
structure Image where
  stage     : Nat
  bytes     : List (BitVec 8)
  signature : BitVec 512
  version   : Nat
deriving DecidableEq, Repr

/-- Where a page goes: its new frame, and its new scale frame where it is a q page (R283). -/
structure MoveTo where
  frame  : Nat
  sframe : Nat
deriving DecidableEq, Repr

/-- How an SPDM request comes to hub 1 (R312). -/
inductive SpdmVia where
  | doe
  | mctp
deriving DecidableEq, Repr

/-- A configuration register without a row of its own (R310). -/
inductive CfgReg where
  | quantum (part entry : Nat)
  | share (part world : Nat)
  | ramp (part : Nat)
  | ember (part : Nat)
  | prefetch (part : Nat)
  | rick (part : Nat)
deriving DecidableEq, Repr

/-- The faults of R5, with the reserved names of R240. -/
inductive FaultName where
  | illegal | align | windowBound | windowStore | nonuniform | mode | format | lease | cap | gate
  | keyRetired | phaseAhead | trap | brk | poison | remoteRefused | remoteUnreachable
  | barrierOverflow | watch | stall | replayDiverged
deriving DecidableEq, Repr

/-- A leaf as firmware writes it (R276), with the virtual page it maps. -/
structure MapReq where
  space : Nat
  va    : BitVec 64
  big   : Bool
  leaf  : BitVec 128
deriving DecidableEq, Repr

/-- An ECC word or register hit by an error (R322). -/
inductive EccAt where
  | memory (pa : Nat)
  | scratch (group off : Nat)
  | vreg (wave reg lane : Nat)
  | sreg (wave reg : Nat)
  | pred (wave lane : Nat)
  | object (scope : Scope) (home index : Nat)
  | estate (holding lane reg : Nat)
  | copy (place : CopyAt) (line off : Nat)
deriving DecidableEq, Repr

/-- One instruction word or one event: a constructor for each row of spec/opcode_table.json, in its order. -/
inductive Instr where
  | nop (o : OpNop)
  | bra (o : OpBra)
  | brx (o : OpBrx)
  | call (o : OpCall)
  | callx (o : OpCallx)
  | ret (o : OpBare)
  | fork (o : OpFork)
  | endF (o : OpBare)
  | yield (o : OpBare)
  | region (o : OpBare)
  | trap (o : OpCode)
  | brk (o : OpCode)
  | add (o : OpV2)
  | sub (o : OpV2)
  | addc (o : OpCarry)
  | subb (o : OpCarry)
  | mul (o : OpV2)
  | mulh (o : OpV2)
  | mad (o : OpV3)
  | madw (o : OpV3)
  | div (o : OpV2)
  | rem (o : OpV2)
  | abs (o : OpV1)
  | neg (o : OpV1)
  | min (o : OpV2)
  | max (o : OpV2)
  | and (o : OpV2)
  | or (o : OpV2)
  | xor (o : OpV2)
  | andn (o : OpV2)
  | shl (o : OpV2)
  | shr (o : OpV2)
  | sar (o : OpV2)
  | rot (o : OpV2)
  | clz (o : OpV1)
  | popc (o : OpV1)
  | brev (o : OpV1)
  | bfe (o : OpV2)
  | bfi (o : OpV3)
  | lea (o : OpLea)
  | sel (o : OpSel)
  | iset (o : OpIset)
  | sadd (o : OpS2)
  | ssub (o : OpS2)
  | smul (o : OpS2)
  | sand (o : OpS2)
  | sor (o : OpS2)
  | sxor (o : OpS2)
  | sshl (o : OpS2)
  | sshr (o : OpS2)
  | ssar (o : OpS2)
  | smin (o : OpS2)
  | smax (o : OpS2)
  | sset (o : OpSset)
  | sli (o : OpSli)
  | smov (o : OpSmov)
  | sbfe (o : OpS2)
  | slea (o : OpSlea)
  | fadd (o : OpF2)
  | fsub (o : OpF2)
  | fmul (o : OpF2)
  | fma (o : OpF3)
  | fmin (o : OpFmm)
  | fmax (o : OpFmm)
  | fset (o : OpFset)
  | fclass (o : OpFclass)
  | frnd (o : OpFrnd)
  | fscale (o : OpF2)
  | frcp (o : OpF1)
  | fsqrt (o : OpF1)
  | frsq (o : OpF1)
  | fexp2 (o : OpF1)
  | flog2 (o : OpF1)
  | fsinpi (o : OpF1)
  | fcospi (o : OpF1)
  | fcvt (o : OpFcvt)
  | ftoi (o : OpFint)
  | itof (o : OpFint)
  | pkadd (o : OpPk2)
  | pkmul (o : OpPk2)
  | pkfma (o : OpPk3)
  | fdot2 (o : OpF3)
  | fdot4 (o : OpF3)
  | mov (o : OpMov)
  | movi (o : OpMovi)
  | perm (o : OpPerm)
  | ballot (o : OpBallot)
  | vote (o : OpVote)
  | rdlane (o : OpRdlane)
  | wrlane (o : OpWrlane)
  | bsel (o : OpBsel)
  | scan (o : OpScan)
  | reduce (o : OpScan)
  | pand (o : OpP2)
  | por (o : OpP2)
  | pxor (o : OpP2)
  | pnot (o : OpP1)
  | pmov (o : OpP1)
  | ld (o : OpMem)
  | lds (o : OpMemS)
  | ldu (o : OpMemU)
  | st (o : OpMem)
  | sts (o : OpMemS)
  | stu (o : OpMemU)
  | pref (o : OpPref)
  | atom (o : OpAtom)
  | red (o : OpRed)
  | atoms (o : OpAtoms)
  | fence (o : OpFence)
  | binit (o : OpBinit)
  | arrive (o : OpArrive)
  | expect (o : OpExpect)
  | wait (o : OpWait)
  | btest (o : OpWait)
  | bphase (o : OpBphase)
  | cpy (o : OpEng)
  | cpy2d (o : OpEng)
  | gather (o : OpEng)
  | scatter (o : OpEng)
  | qcpy (o : OpEng)
  | coll (o : OpEng)
  | rpush (o : OpRpush)
  | rfree (o : OpRfree)
  | mmodeOn (o : OpBare)
  | mmodeOff (o : OpBare)
  | mzero (o : OpBare)
  | mma (o : OpMma)
  | mepi (o : OpMepi)
  | msts (o : OpMsts)
  | bequeath (o : OpBequeath)
  | claim (o : OpClaim)
  | estate (o : OpEstate)
  | estateDrop (o : OpEstate)
  | migrate (o : OpMigrate)
  | launch (o : OpLaunch)
  | remit (o : OpRemit)
  | srd (o : OpSrd)
  | swr (o : OpSwr)
  | grow (o : OpGrow)
  | shrink (o : OpShrink)
  | growServe (q : QRef)
  | growDeadlockBreak (q : QRef)
  | missRetry (wave : Nat) (pc : BitVec 64)
  | loadDataReturn (r : AccRef)
  | accept (r : AccRef)
  | reveal (store wave : Nat)
  | send (store : Nat)
  | perform (store : Nat)
  | inval (c : ChanRef)
  | fill (line : Nat) (k : CopyAt)
  | read (r : AccRef)
  | atomic (r : AccRef)
  | event (c : ChanRef)
  | engineRead (req piece : Nat)
  | engineLanding (req piece : Nat)
  | ringFreeWaitMet (req : Nat)
  | collStart (req : Nat)
  | mmaLanding (q : QRef)
  | gridOpLanding (q : QRef)
  | claimDelivery (wave entry : Nat)
  | migrateGrant (wave : Nat)
  | migrationLanding (c : ChanRef)
  | xlateRetryResend (r : AccRef)
  | launchPacket (queue : Nat)
  | waitPacket (queue : Nat)
  | waitPacketReturn (queue : Nat)
  | arrivePacket (queue : Nat)
  | binitPacket (queue : Nat)
  | seqopen (queue : Nat)
  | seqclose (queue : Nat)
  | seqcloseDrained (world seq : Nat)
  | seqcloseEnginesDone (world seq : Nat)
  | seqcloseInvalDone (world seq : Nat)
  | sweep (queue : Nat)
  | queueMap (queue world part : Nat)
  | dependenceRelease (launch : Nat)
  | leaseSetup (launch : Nat)
  | groupPlacement (launch : Nat)
  | timedStart (launch : Nat)
  | priorityDiscard (launch : Nat)
  | discardRestart (saved die core : Nat)
  | launchEnd (launch : Nat)
  | nodeBatchTimer (world node : Nat)
  | networkLaunchRequest (world index source : Nat) (args : List (BitVec 8))
  | launchTableWrite (world index : Nat) (entry : List (BitVec 8))
  | nodeTableWrite (world node : Nat) (template : List (BitVec 8)) (z g t capacity : Nat)
  | capabilityMint (world comp : Nat) (va : BitVec 64) (capability : BitVec 128)
  | worldCreate (world : Nat) (manifest : List (BitVec 8)) (spaces : List Nat)
  | worldDestroy (world : Nat)
  | powerCapWrite (value : BitVec 64)
  | partitionRegisterWrite (value : BitVec 64)
  | configRegisterWrite (reg : CfgReg) (value : BitVec 64)
  | watchRangeWrite (part range : Nat) (base ctl : BitVec 64)
  | rampInterval (part : Nat)
  | droopStretch (die : Nat)
  | persistentDroopStep (part : Nat)
  | droopRestore (part : Nat)
  | thermalLimitStep (part : Nat)
  | thermalRestore (part : Nat)
  | emberCheck (part : Nat)
  | hostThaw (part : Nat)
  | hostEndLaunch (launch : Nat)
  | bandwidthRefill (part : Nat)
  | quantumExpiry (part : Nat)
  | contextRestore (part world : Nat)
  | invalidation (space : Nat) (va : BitVec 64) (bytes : Nat)
  | invalidationComplete (id : Nat)
  | pageMove (space : Nat) (va : BitVec 64) (frame : MoveTo)
  | peerDownNotice (peer : Nat)
  | flitResend (link : Nat)
  | linkRetrain (link : Nat)
  | retrainComplete (link : Nat) (ok : Bool)
  | eccCorrected (loc : EccAt)
  | eccUncorrectable (loc : EccAt)
  | patrolScrub (die stack : Nat)
  | roundBoundary (die : Nat)
  | rick (die : Nat)
  | sendLogFull (src dst : Nat)
  | warmReset (die : Nat)
  | rejoin (die : Nat)
  | lemmelContinue (wave : Nat)
  | lemmelStep (wave : Nat)
  | lemmelEndLaunch (wave : Nat)
  | lemmelArmDiscard (launch group wave : Nat) (pc : BitVec 64) (pass split : Nat)
  | lemmelArmReset (die count group : Nat)
  | powerOn (images : List Image)
  | firmwareLoad (image : Image)
  | getVersion
  | getCapabilities
  | negotiateAlgorithms
  | getDigests
  | getCertificate
  | challenge (nonce : BitVec 256)
  | getMeasurements (index : Nat) (nonce : BitVec 256)
  | keyExchange (share : BitVec 256)
  | finish
  | endSession
  | counterSnapshot (world : Nat) (nonce : BitVec 256)
  | energyApportion (die : Nat) (energy : Nat)
  | ageUpdate (die : Nat) (age eol : Nat)
  | illegalWordFetch (fault : FaultName) (step : Nat)
  | queueUnmap (queue : Nat)
  | mappingRequest (world comp : Nat) (m : MapReq)
  | expanderStopsAnswering (port : Nat)
  | linkKeyReplace (link : Nat)
deriving DecidableEq, Repr

end Sys2Proof
end

