-- ==== Sys2Proof/WellFormed.lean ====
section
/-! DEFINITION. WellFormed.lean: what an instruction must satisfy to be one the words of the manual can carry: the step 8 limits (fnOk) and the step 9 limits (fieldsOk) of R31. -/

namespace Sys2Proof

/-! ## Properties of the types -/

/-- Width in bits (R34). -/
def IntTy.width : IntTy → Nat
  | .i8 | .b8 => 8
  | .i16 | .b16 => 16
  | .i32 | .b32 => 32
  | .i64 | .b64 => 64

/-- The .i types are signed (R34). -/
def IntTy.signed : IntTy → Bool
  | .i8 | .i16 | .i32 | .i64 => true
  | .b8 | .b16 | .b32 | .b64 => false

/-- A 64-bit type names a register pair (R21). -/
def IntTy.wide : IntTy → Bool
  | .i64 | .b64 => true
  | .i8 | .i16 | .i32 | .b8 | .b16 | .b32 => false

/-- 32 or 64 bits: the types of LEA and MOVI (R68, R103). -/
def IntTy.word : IntTy → Bool
  | .i32 | .b32 | .i64 | .b64 => true
  | .i8 | .i16 | .b8 | .b16 => false

def LaneTy.wide : LaneTy → Bool
  | .int t => t.wide
  | .f32 => false

def MemTy.wide : MemTy → Bool
  | .int t => t.wide
  | .flt _ => false

/-- Width of a floating format in bits (R35). -/
def FFmt.width : FFmt → Nat
  | .f32 => 32
  | .f16 | .bf16 => 16
  | .e4m3 | .e5m2 => 8

def MemTy.width : MemTy → Nat
  | .int t => t.width
  | .flt f => f.width

/-- The formats of the arithmetic instructions (R86). -/
def FFmt.arith : FFmt → Bool
  | .f32 | .f16 | .bf16 => true
  | .e4m3 | .e5m2 => false

/-- The formats of the packed forms (R86). -/
def FFmt.packed : FFmt → Bool
  | .f16 | .bf16 => true
  | .f32 | .e4m3 | .e5m2 => false

/-- The formats of the functions (R86). -/
def FFmt.func : FFmt → Bool
  | .f32 | .f16 => true
  | .bf16 | .e4m3 | .e5m2 => false

/-- Length of an instruction in bytes (R10). -/
def Len.bytes : Len → Nat
  | .w64 => 8
  | .w96 => 12
  | .w128 => 16

/-- Block width b of a matrix format, none for a floating one (R166). -/
def MFmt.block : MFmt → Option Nat
  | .bf16 | .f16 | .e4m3 | .e5m2 => none
  | .q2 => some 2
  | .q3 => some 3
  | .q4 => some 4
  | .q5 => some 5
  | .q6 => some 6
  | .q7 => some 7
  | .q8 => some 8

/-- Registers of one K-slice (R47, R166). -/
def MFmt.slice (f : MFmt) : Nat := f.block.getD 8

/-! ## Field checks -/

/-- R23, R24: the legal mirror depths. -/
def LanePat.ok : LanePat → Bool
  | .mir k => 1 ≤ k.toNat && k.toNat ≤ 6
  | .ident | .rot _ | .bc _ | .xor _ | .shd _ | .shu _ => true

/-- A register of a 64-bit operand is even (R21). -/
def evenIf (w : Bool) (r : BitVec 7) : Bool := !w || r.toNat % 2 == 0

def VSrc.ok (w : Bool) (v : VSrc) : Bool := v.pat.ok && evenIf w v.r

/-- R22: an integer immediate fits its type, and an X16 one is 16 bits. -/
def immFits (len : Len) (ty : IntTy) (x : BitVec 32) : Bool :=
  match len with
  | .w64 => false
  | .w96 =>
    x.toNat < 65536 && (match ty with
      | .i8 => (x.setWidth 16 : BitVec 16) == ((x.setWidth 8).signExtend 16)
      | .b8 => x.toNat < 256
      | .i16 | .b16 | .i32 | .b32 | .i64 | .b64 => true)
  | .w128 =>
    match ty with
    | .i8 => x == (x.setWidth 8).signExtend 32
    | .i16 => x == (x.setWidth 16).signExtend 32
    | .b8 => x.toNat < 256
    | .b16 => x.toNat < 65536
    | .i32 | .b32 | .i64 | .b64 => true

/-- R66, R90, R99, R145: an immediate taken as a .b32 or by a rule of the entry. -/
def immAny (len : Len) (x : BitVec 32) : Bool :=
  match len with
  | .w64 => false
  | .w96 => x.toNat < 65536
  | .w128 => true

/-- R22: a floating immediate. -/
def immFlt (len : Len) (f : FFmt) (x : BitVec 32) : Bool :=
  match len with
  | .w64 => false
  | .w96 => x.toNat < 65536
  | .w128 => match f with
    | .f32 => true
    | .f16 | .bf16 => x.toNat < 65536
    | .e4m3 | .e5m2 => x.toNat < 256

/-- A B source: the pair rule for a vector, the given rule for an immediate. -/
def BSrc.ok (w : Bool) (imm : BitVec 32 → Bool) : BSrc → Bool
  | .vec v => v.ok w
  | .scalar _ => true
  | .imm x => imm x

def RSrc.ok (w : Bool) : RSrc → Bool
  | .vec v => v.ok w
  | .scalar _ => true

def SSrc.ok (imm : BitVec 32 → Bool) : SSrc → Bool
  | .reg _ => true
  | .imm x => imm x

def AOff.ok : AOff → Bool
  | .absent | .scalar _ => true
  | .vec v => v.ok false

/-- R20: an immediate needs a 96- or 128-bit word. -/
def BSrc.lenOk (len : Len) : BSrc → Bool
  | .vec _ | .scalar _ => true
  | .imm _ => len != .w64

def SSrc.lenOk (len : Len) : SSrc → Bool
  | .reg _ => true
  | .imm _ => len != .w64

/-- Scope codes of the ORD field: any of R123, or core only for the scratchpad (R124, R132). -/
def ordCore : Ord → Bool
  | none => true
  | some sc => sc == .core

/-- An MMA operand (R166): registers inside v0 to v63, or an even descriptor register. -/
def MSrc.ok (f : MFmt) : MSrc → Bool
  | .regs r => r.toNat + f.slice ≤ 64
  | .desc s => s.toNat % 2 == 0

/-- R166: the exponent register of an operand. -/
def MSrc.expOk (f : MFmt) (len : Len) (e : BitVec 7) : MSrc → Bool
  | .desc _ => e == 0
  | .regs r => match f.block, len with
    | none, _ => e == 0
    | some b, .w64 => r.toNat + b < 64 && e == 0
    | some _, _ => e.toNat < 64

/-- .f32 bits: NaN, and the order key used by R169's lo ≤ hi. -/
def nanBits32 (x : BitVec 32) : Bool := (x &&& 0x7FFFFFFF#32).toNat > 0x7F800000

def keyBits32 (x : BitVec 32) : Int :=
  if x.msb then -(Int.ofNat (x &&& 0x7FFFFFFF#32).toNat) else Int.ofNat x.toNat

/-! ## The step 8 limits, entry by entry (R31) -/

/-- R68: .sat allowed. -/
def satAll (o : OpV2) : Bool := o.b.lenOk o.len
def satNone (o : OpV2) : Bool := !o.sat && o.b.lenOk o.len
def bOnly (o : OpV2) : Bool := satNone o && !o.ty.signed
def sAll (o : OpS2) : Bool := o.b.lenOk o.len
def sNone (o : OpS2) : Bool := !o.sat && o.b.lenOk o.len
def sBOnly (o : OpS2) : Bool := sNone o && !o.ty.signed
def v1Count (o : OpV1) : Bool := !o.ty.signed && !o.sat
def f2Ok (o : OpF2) : Bool := o.fmt.arith && o.b.lenOk o.len
def scanOk (o : OpScan) : Bool :=
  match o.op, o.ty with
  | .add, _ | .min, _ | .max, _ => true
  | .and, .int t | .or, .int t | .xor, .int t => !t.signed
  | .and, .f32 | .or, .f32 | .xor, .f32 => false
def lensMem (l : Len) : Bool := l != .w96
def atomOk (op : AtomOp) (wide : Bool) : Bool := !(op == .fadd && wide)

/-- The limits whose breach is ILLEGAL at step 7 or 8. -/
def Instr.fnOk : Instr → Bool
  | .nop o => o.len != .w128
  | .bra o => o.len != .w64
  | .brx _ | .call _ | .callx _ | .ret _ | .fork _ | .endF _ | .yield _ | .region _ | .trap _ | .brk _ => true
  | .add o | .sub o | .mul o => satAll o
  | .addc o | .subb o => o.ty == .b32 || o.ty == .b64
  | .mulh o | .rem o | .min o | .max o | .bfe o => satNone o
  | .mad _ => true
  | .madw o => o.ty == .i32 || o.ty == .b32
  | .div o => (!o.sat || o.ty.signed) && o.b.lenOk o.len
  | .abs o | .neg o => o.ty.signed
  | .and o | .or o | .xor o | .andn o | .shr o | .rot o => bOnly o
  | .shl o => satAll o
  | .sar o => satNone o && o.ty.signed
  | .clz o | .popc o | .brev o => v1Count o
  | .bfi o => !o.sat && !o.ty.signed
  | .lea o => o.ty.word
  | .sel _ => true
  | .iset o => o.b.lenOk o.len
  | .sadd o | .ssub o | .smul o | .sshl o => sAll o
  | .sand o | .sor o | .sxor o | .sshr o => sBOnly o
  | .ssar o => sNone o && o.ty.signed
  | .smin o | .smax o | .sbfe o => sNone o
  | .sset o => o.b.lenOk o.len
  | .sli o => o.len == .w96 || (o.len == .w128 && o.ty.wide)
  | .smov _ => true
  | .slea o => o.ty.word
  | .fadd o | .fsub o | .fmul o | .fscale o => f2Ok o
  | .fma o => o.fmt.arith
  | .fmin o | .fmax o => o.fmt.arith && o.b.lenOk o.len
  | .fset o => o.fmt.arith && o.b.lenOk o.len
  | .fclass o => o.fmt.arith
  | .frnd o => o.fmt.arith
  | .frcp o | .fsqrt o | .frsq o | .fexp2 o | .flog2 o | .fsinpi o | .fcospi o => o.fmt.func
  | .fcvt o => o.src != o.fmt
  | .ftoi _ | .itof _ => true
  | .pkadd o | .pkmul o => o.fmt.packed && o.b.lenOk o.len
  | .pkfma o => o.fmt.packed
  | .fdot2 o => o.fmt == .bf16
  | .fdot4 o => o.fmt == .e4m3
  | .mov o => o.ty == .b32 || o.ty == .b64
  | .movi o => o.len != .w64 && (match o.ty with
      | .int t => t.word
      | .f32 => true)
  | .perm o => o.ty == .b32 || o.ty == .b64
  | .ballot _ | .vote _ => true
  | .rdlane o => (o.ty == .i32 || o.ty == .b32 || o.ty == .b64) && o.len != .w128 && o.n.lenOk o.len
  | .wrlane o => (o.ty == .b32 || o.ty == .b64) && o.len != .w128 && o.n.lenOk o.len
  | .bsel _ => true
  | .scan o => scanOk o
  | .reduce o => scanOk o && !o.excl
  | .pand _ | .por _ | .pxor _ | .pnot _ | .pmov _ => true
  | .ld o | .st o => lensMem o.len
  | .lds o | .sts o => lensMem o.len && ordCore o.ord
  | .ldu o | .stu o => lensMem o.len
  | .pref o => lensMem o.len
  | .atom o => atomOk o.op o.wide
  | .red o => atomOk o.op o.wide && o.op != .exch && o.op != .cas
  | .atoms o => atomOk o.op o.wide && ordCore o.ord
  | .fence _ | .binit _ | .arrive _ | .bphase _ => true
  | .expect o => o.b.lenOk o.len
  | .wait o | .btest o => o.len != .w128 && o.b.lenOk o.len
  | .cpy o => o.var == 0 && (!o.gate || (o.ssp == .cap && o.dsp == .cap))
  | .cpy2d o => !o.gate
  | .gather o | .scatter o => !o.gate && o.var == 0
  | .qcpy o => !o.gate && o.var.toNat ≤ 2
  | .coll o => !o.gate && o.var.toNat ≤ 4 && o.ssp == .scratch && o.dsp == .scratch
  | .rpush _ | .rfree _ | .mmodeOn _ | .mmodeOff _ | .mzero _ => true
  | .mma o => o.len != .w128
  | .mepi _ => true
  | .msts o => o.fmt != .f32 || o.rm == .rne
  | .bequeath _ | .claim _ | .estate _ | .estateDrop _ | .migrate _ | .launch _ | .remit _ => true
  | .srd _ | .swr _ => true
  | .grow o => o.len != .w128 && o.b.lenOk o.len
  | .shrink o => o.len != .w128 && o.b.lenOk o.len
  | .growServe .. | .growDeadlockBreak .. | .missRetry .. | .loadDataReturn .. | .accept .. | .reveal ..
  | .send .. | .perform .. | .inval .. | .fill .. | .read .. | .atomic .. | .event .. | .engineRead ..
  | .engineLanding .. | .ringFreeWaitMet .. | .collStart .. | .mmaLanding .. | .gridOpLanding ..
  | .claimDelivery .. | .migrateGrant .. | .migrationLanding .. | .xlateRetryResend .. | .launchPacket ..
  | .waitPacket .. | .waitPacketReturn .. | .arrivePacket .. | .binitPacket .. | .seqopen .. | .seqclose ..
  | .seqcloseDrained .. | .seqcloseEnginesDone .. | .seqcloseInvalDone .. | .sweep .. | .queueMap ..
  | .dependenceRelease .. | .leaseSetup .. | .groupPlacement .. | .timedStart .. | .priorityDiscard ..
  | .discardRestart .. | .launchEnd .. | .nodeBatchTimer .. | .networkLaunchRequest .. | .launchTableWrite ..
  | .nodeTableWrite .. | .capabilityMint .. | .worldCreate .. | .worldDestroy .. | .powerCapWrite ..
  | .partitionRegisterWrite .. | .configRegisterWrite .. | .watchRangeWrite .. | .rampInterval ..
  | .droopStretch .. | .persistentDroopStep .. | .droopRestore .. | .thermalLimitStep .. | .thermalRestore ..
  | .emberCheck .. | .hostThaw .. | .hostEndLaunch .. | .bandwidthRefill .. | .quantumExpiry ..
  | .contextRestore .. | .invalidation .. | .invalidationComplete .. | .pageMove .. | .peerDownNotice ..
  | .flitResend .. | .linkRetrain .. | .retrainComplete .. | .eccCorrected .. | .eccUncorrectable ..
  | .patrolScrub .. | .roundBoundary .. | .rick .. | .sendLogFull .. | .warmReset .. | .rejoin ..
  | .lemmelContinue .. | .lemmelStep .. | .lemmelEndLaunch .. | .lemmelArmDiscard .. | .lemmelArmReset ..
  | .powerOn .. | .firmwareLoad .. | .getVersion .. | .getCapabilities .. | .negotiateAlgorithms .. | .getDigests ..
  | .getCertificate .. | .challenge .. | .getMeasurements .. | .keyExchange .. | .finish .. | .endSession ..
  | .counterSnapshot .. | .energyApportion .. | .ageUpdate .. | .illegalWordFetch .. | .queueUnmap ..
  | .mappingRequest .. | .expanderStopsAnswering .. | .linkKeyReplace .. => true

/-! ## The step 9 limits, entry by entry (R31) -/

def v2Fields (o : OpV2) : Bool :=
  evenIf o.ty.wide o.d && o.a.ok o.ty.wide && o.b.ok o.ty.wide (immFits o.len o.ty)

/-- R66: B is a single register, and its immediate a .b32. -/
def v2Count (o : OpV2) : Bool :=
  evenIf o.ty.wide o.d && o.a.ok o.ty.wide && o.b.ok false (immAny o.len)

def carryFields (o : OpCarry) : Bool := evenIf o.ty.wide o.d && o.a.ok o.ty.wide && o.b.ok o.ty.wide

def f2Fields (o : OpF2) : Bool := o.a.ok false && o.b.ok false (immFlt o.len o.fmt)

def s2Fields (o : OpS2) : Bool := o.b.ok (immFits o.len o.ty)
def s2Count (o : OpS2) : Bool := o.b.ok (immAny o.len)

def scanFields (o : OpScan) : Bool := evenIf o.ty.wide o.d && o.a.ok o.ty.wide

def BSrc.laneOk : BSrc → Bool
  | .vec v => v.pat == .ident
  | .scalar _ => true
  | .imm x => x.toNat ≤ 63

/-- R30: WAIT, BTEST, EXPECT, GROW and SHRINK use no LB. -/
def BSrc.plain : BSrc → Bool
  | .vec v => v.pat == .ident
  | .scalar _ | .imm _ => true

def BSrc.tokenOk : BSrc → Bool
  | .vec v => v.pat == .ident
  | .scalar _ => true
  | .imm x => x.toNat ≤ 15

def BSrc.growOk : BSrc → Bool
  | .vec v => v.pat == .ident
  | .scalar _ => true
  | .imm x => x.toNat % 16 == 0 && x.toNat ≤ 96

def dispOk (len : Len) (disp : BitVec 32) : Bool := len == .w128 || disp == 0

/-- R132: the comparand register exists in the cas form only. -/
def casOk (op : AtomOp) (wide : Bool) (cmp : BitVec 7) : Bool :=
  if op == .cas then evenIf wide cmp else cmp == 0

def IdSrc.ok : IdSrc → Bool
  | .vec v => v.ok true
  | .scalar _ => true

/-- Highest set bit of a BEQUEATH mask, plus one. -/
def maskTop (m : BitVec 8) : Nat :=
  ((List.range 8).filter (fun k => m.getLsbD k)).foldl (fun _ k => k + 1) 0

/-- R150: the fields every engine word shares: a capability number only where its space is capability, a scalar B below 64. -/
def engBase (o : OpEng) : Bool :=
  (o.ssp == .cap || o.scap == 0) && (o.dsp == .cap || o.dcap == 0) && (o.bv || o.b.toNat < 64)

def engPlain (o : OpEng) : Bool := engBase o && o.qb == 0 && o.qsrc == 0

def oneBit (m : BitVec 4) : Bool := m == 1 || m == 2 || m == 4 || m == 8

/-- The limits whose breach is ILLEGAL at step 9, the MC limits of R158 and R160 among them, which name no fault (DEDUCED, log
entry 105). -/
def Instr.fieldsOk : Instr → Bool
  | .nop _ => true
  | .bra o => o.len == .w128 || o.off.toNat < 65536
  | .brx o => match o.tgt with
    | .vec r => evenIf true r
    | .scalar _ => true
  | .call o => o.frame != 0
  | .callx o => o.frame != 0 && (match o.tgt with
    | .vec r => evenIf true r
    | .scalar _ => true)
  | .ret _ | .fork _ | .endF _ | .yield _ | .region _ | .trap _ | .brk _ => true
  | .add o | .sub o | .mul o | .mulh o | .div o | .rem o | .min o | .max o | .and o | .or o | .xor o
  | .andn o => v2Fields o
  | .shl o | .shr o | .sar o | .rot o | .bfe o => v2Count o
  | .addc o | .subb o => carryFields o
  | .mad o => evenIf o.ty.wide o.d && o.a.ok o.ty.wide && o.b.ok o.ty.wide && o.c.ok o.ty.wide
  | .madw o => evenIf true o.d && o.a.ok false && o.b.ok false && o.c.ok true
  | .bfi o => evenIf o.ty.wide o.d && o.a.ok o.ty.wide && o.b.ok o.ty.wide && o.c.ok false
  | .lea o => evenIf o.ty.wide o.d && o.a.ok o.ty.wide && o.b.ok false && o.c.ok o.ty.wide
  | .sel o => evenIf o.ty.wide o.d && o.a.ok o.ty.wide && o.b.ok o.ty.wide
  | .abs o | .neg o | .brev o => evenIf o.ty.wide o.d && o.a.ok o.ty.wide
  | .clz o | .popc o => o.a.ok o.ty.wide
  | .iset o => o.a.ok o.ty.wide && o.b.ok o.ty.wide (immFits o.len o.ty)
  | .sadd o | .ssub o | .smul o | .sand o | .sor o | .sxor o | .smin o | .smax o => s2Fields o
  | .sshl o | .sshr o | .ssar o | .sbfe o => s2Count o
  | .sset o => o.b.ok (immFits o.len o.ty)
  | .sli o => o.len == .w128 || (o.imm.toNat < 65536 && immFits .w96 o.ty (o.imm.setWidth 32))
  | .smov _ | .slea _ => true
  | .fadd o | .fsub o | .fmul o => f2Fields o
  | .fscale o => o.a.ok false && o.b.ok false (immAny o.len)
  | .fma o | .fdot2 o | .fdot4 o => o.a.ok false && o.b.ok false && o.c.ok false
  | .fmin o | .fmax o => o.a.ok false && o.b.ok false (immFlt o.len o.fmt)
  | .fset o => o.a.ok false && o.b.ok false (immFlt o.len o.fmt)
  | .fclass o => o.a.ok false
  | .frnd o => o.a.ok false
  | .frcp o | .fsqrt o | .frsq o | .fexp2 o | .flog2 o | .fsinpi o | .fcospi o => o.a.ok false
  | .fcvt o => o.a.ok false
  | .ftoi o => evenIf o.ty.wide o.d && o.a.ok false
  | .itof o => o.a.ok o.ty.wide
  | .pkadd o | .pkmul o => o.a.ok false && o.b.ok false (immAny o.len)
  | .pkfma o => o.a.ok false && o.b.ok false && o.c.ok false
  | .mov o => evenIf o.ty.wide o.d && o.a.ok o.ty.wide
  | .movi o => evenIf o.ty.wide o.d && immAny o.len o.imm
  | .perm o => evenIf o.ty.wide o.d && o.a.ok o.ty.wide && o.b.ok false
  | .ballot _ | .vote _ => true
  | .rdlane o => o.a.ok o.ty.wide && o.n.laneOk
  | .wrlane o => evenIf o.ty.wide o.d && o.n.laneOk
  | .bsel o => o.a.ok false && o.b.ok false && o.c.ok false
  | .scan o | .reduce o => scanFields o
  | .pand _ | .por _ | .pxor _ | .pnot _ | .pmov _ => true
  | .ld o | .st o => evenIf o.ty.wide o.d && o.off.ok && dispOk o.len o.disp
  | .lds o | .sts o => evenIf o.ty.wide o.d && o.off.ok && dispOk o.len o.disp
  | .ldu o | .stu o => o.off.ok && dispOk o.len o.disp
  | .pref o => o.off.ok && dispOk o.len o.disp
  | .atom o => evenIf o.wide o.d && o.off.ok false && o.c.ok o.wide && casOk o.op o.wide o.cmp
  | .red o => o.off.ok false && o.c.ok o.wide
  | .atoms o => evenIf o.wide o.d && o.off.ok false && o.c.ok o.wide && casOk o.op o.wide o.cmp
  | .fence _ | .arrive _ | .bphase _ => true
  | .binit o => match o.src with
    | .regs _ _ => true
    | .imm _ n => n.toNat < 2147483648
  | .expect o => o.b.plain && o.b.ok false (immAny o.len)
  | .wait o | .btest o => o.b.tokenOk
  | .cpy o => engPlain o && o.imm.toNat < 2147483648 && (o.gate || (o.b == 0 && !o.bv))
  | .cpy2d o => engPlain o && !o.bv
  | .gather o | .scatter o => engPlain o && o.bv && o.mc == 0
  | .qcpy o =>
    let rows := o.imm.toNat / 65536
    let cols := o.imm.toNat % 65536
    engBase o && !o.bv && rows != 0 && cols != 0 && o.qb.toNat ≤ 6 && !(o.qsrc == 3 && o.var != 0)
      && (o.var != 1 || o.d.toNat % 2 == 0)
      && (o.var == 2 || cols % 32 == 0) && (o.var == 0 || rows % 32 == 0)
  | .coll o => engPlain o && !o.bv && (if o.var == 3 then oneBit o.mc else o.mc == 15)
  | .rpush o => (o.ssp == .cap || o.scap == 0) && (o.twod || (o.rot == 0 && o.c == 0))
  | .rfree _ | .mmodeOn _ | .mmodeOff _ | .mzero _ => true
  | .mma o =>
    o.a.ok o.fmt && o.b.ok o.fmt && o.a.expOk o.fmt o.len o.ea && o.b.expOk o.fmt o.len o.eb
      && (o.len == .w96 || o.kappa == 0)
      && (match o.a, o.b with
        | .regs _, .regs _ => o.kappa == 0
        | _, _ => true)
  | .mepi o => match o.kind with
    | .clamp => !nanBits32 o.lo && !nanBits32 o.hi && decide (keyBits32 o.lo ≤ keyBits32 o.hi)
    | .plain | .relu => o.lo == 0 && o.hi == 0
  | .msts o => 1 ≤ o.n.toNat && o.row0.toNat + o.n.toNat ≤ 64
  | .bequeath o => o.id.ok && o.mask != 0 && o.a.toNat + maskTop o.mask ≤ 128
  | .claim o => o.id.ok && 1 ≤ o.n.toNat && o.n.toNat ≤ 8 && o.d.toNat + o.n.toNat ≤ 128
  | .estate o | .estateDrop o => o.id.ok
  | .migrate _ | .launch _ | .remit _ => true
  | .srd o => o.idx.toNat ≤ 26 && (match o.d with
      | .vec r => evenIf o.wide r
      | .scalar _ => true)
      && o.elem.ok && ((o.idx == 25) == (o.elem != .absent))
  | .swr _ => true
  | .grow o => o.b.growOk
  | .shrink o => o.b.growOk
  | .growServe .. | .growDeadlockBreak .. | .missRetry .. | .loadDataReturn .. | .accept .. | .reveal ..
  | .send .. | .perform .. | .inval .. | .fill .. | .read .. | .atomic .. | .event .. | .engineRead ..
  | .engineLanding .. | .ringFreeWaitMet .. | .collStart .. | .mmaLanding .. | .gridOpLanding ..
  | .claimDelivery .. | .migrateGrant .. | .migrationLanding .. | .xlateRetryResend .. | .launchPacket ..
  | .waitPacket .. | .waitPacketReturn .. | .arrivePacket .. | .binitPacket .. | .seqopen .. | .seqclose ..
  | .seqcloseDrained .. | .seqcloseEnginesDone .. | .seqcloseInvalDone .. | .sweep .. | .queueMap ..
  | .dependenceRelease .. | .leaseSetup .. | .groupPlacement .. | .timedStart .. | .priorityDiscard ..
  | .discardRestart .. | .launchEnd .. | .nodeBatchTimer .. | .networkLaunchRequest .. | .launchTableWrite ..
  | .nodeTableWrite .. | .capabilityMint .. | .worldCreate .. | .worldDestroy .. | .powerCapWrite ..
  | .partitionRegisterWrite .. | .configRegisterWrite .. | .watchRangeWrite .. | .rampInterval ..
  | .droopStretch .. | .persistentDroopStep .. | .droopRestore .. | .thermalLimitStep .. | .thermalRestore ..
  | .emberCheck .. | .hostThaw .. | .hostEndLaunch .. | .bandwidthRefill .. | .quantumExpiry ..
  | .contextRestore .. | .invalidation .. | .invalidationComplete .. | .pageMove .. | .peerDownNotice ..
  | .flitResend .. | .linkRetrain .. | .retrainComplete .. | .eccCorrected .. | .eccUncorrectable ..
  | .patrolScrub .. | .roundBoundary .. | .rick .. | .sendLogFull .. | .warmReset .. | .rejoin ..
  | .lemmelContinue .. | .lemmelStep .. | .lemmelEndLaunch .. | .lemmelArmDiscard .. | .lemmelArmReset ..
  | .powerOn .. | .firmwareLoad .. | .getVersion .. | .getCapabilities .. | .negotiateAlgorithms .. | .getDigests ..
  | .getCertificate .. | .challenge .. | .getMeasurements .. | .keyExchange .. | .finish .. | .endSession ..
  | .counterSnapshot .. | .energyApportion .. | .ageUpdate .. | .illegalWordFetch .. | .queueUnmap ..
  | .mappingRequest .. | .expanderStopsAnswering .. | .linkKeyReplace .. => true

/-- GUARD and NEG of an instruction word; none for an event. -/
def Instr.guard? : Instr → Option Guard
  | .nop o => some o.g
  | .bra o => some o.g
  | .brx o => some o.g
  | .call o => some o.g
  | .callx o => some o.g
  | .ret o | .endF o | .yield o | .region o | .mmodeOn o | .mmodeOff o | .mzero o => some o.g
  | .fork o => some o.g
  | .trap o | .brk o => some o.g
  | .add o | .sub o | .mul o | .mulh o | .div o | .rem o | .min o | .max o | .and o | .or o | .xor o
  | .andn o | .shl o | .shr o | .sar o | .rot o | .bfe o => some o.g
  | .addc o | .subb o => some o.g
  | .mad o | .madw o | .bfi o => some o.g
  | .abs o | .neg o | .clz o | .popc o | .brev o => some o.g
  | .lea o => some o.g
  | .sel o => some o.g
  | .iset o => some o.g
  | .sadd o | .ssub o | .smul o | .sand o | .sor o | .sxor o | .sshl o | .sshr o | .ssar o | .smin o
  | .smax o | .sbfe o => some o.g
  | .sset o => some o.g
  | .sli o => some o.g
  | .smov o => some o.g
  | .slea o => some o.g
  | .fadd o | .fsub o | .fmul o | .fscale o => some o.g
  | .fma o | .fdot2 o | .fdot4 o => some o.g
  | .fmin o | .fmax o => some o.g
  | .fset o => some o.g
  | .fclass o => some o.g
  | .frnd o => some o.g
  | .frcp o | .fsqrt o | .frsq o | .fexp2 o | .flog2 o | .fsinpi o | .fcospi o => some o.g
  | .fcvt o => some o.g
  | .ftoi o | .itof o => some o.g
  | .pkadd o | .pkmul o => some o.g
  | .pkfma o => some o.g
  | .mov o => some o.g
  | .movi o => some o.g
  | .perm o => some o.g
  | .ballot o => some o.g
  | .vote o => some o.g
  | .rdlane o => some o.g
  | .wrlane o => some o.g
  | .bsel o => some o.g
  | .scan o | .reduce o => some o.g
  | .pand o | .por o | .pxor o => some o.g
  | .pnot o | .pmov o => some o.g
  | .ld o | .st o => some o.g
  | .lds o | .sts o => some o.g
  | .ldu o | .stu o => some o.g
  | .pref o => some o.g
  | .atom o => some o.g
  | .red o => some o.g
  | .atoms o => some o.g
  | .fence o => some o.g
  | .binit o => some o.g
  | .arrive o => some o.g
  | .expect o => some o.g
  | .wait o | .btest o => some o.g
  | .bphase o => some o.g
  | .cpy o | .cpy2d o | .gather o | .scatter o | .qcpy o | .coll o => some o.g
  | .rpush o => some o.g
  | .rfree o => some o.g
  | .mma o => some o.g
  | .mepi o => some o.g
  | .msts o => some o.g
  | .bequeath o => some o.g
  | .claim o => some o.g
  | .estate o | .estateDrop o => some o.g
  | .migrate o => some o.g
  | .launch o => some o.g
  | .remit o => some o.g
  | .srd o => some o.g
  | .swr o => some o.g
  | .grow o => some o.g
  | .shrink o => some o.g
  | .growServe .. | .growDeadlockBreak .. | .missRetry .. | .loadDataReturn .. | .accept .. | .reveal ..
  | .send .. | .perform .. | .inval .. | .fill .. | .read .. | .atomic .. | .event .. | .engineRead ..
  | .engineLanding .. | .ringFreeWaitMet .. | .collStart .. | .mmaLanding .. | .gridOpLanding ..
  | .claimDelivery .. | .migrateGrant .. | .migrationLanding .. | .xlateRetryResend .. | .launchPacket ..
  | .waitPacket .. | .waitPacketReturn .. | .arrivePacket .. | .binitPacket .. | .seqopen .. | .seqclose ..
  | .seqcloseDrained .. | .seqcloseEnginesDone .. | .seqcloseInvalDone .. | .sweep .. | .queueMap ..
  | .dependenceRelease .. | .leaseSetup .. | .groupPlacement .. | .timedStart .. | .priorityDiscard ..
  | .discardRestart .. | .launchEnd .. | .nodeBatchTimer .. | .networkLaunchRequest .. | .launchTableWrite ..
  | .nodeTableWrite .. | .capabilityMint .. | .worldCreate .. | .worldDestroy .. | .powerCapWrite ..
  | .partitionRegisterWrite .. | .configRegisterWrite .. | .watchRangeWrite .. | .rampInterval ..
  | .droopStretch .. | .persistentDroopStep .. | .droopRestore .. | .thermalLimitStep .. | .thermalRestore ..
  | .emberCheck .. | .hostThaw .. | .hostEndLaunch .. | .bandwidthRefill .. | .quantumExpiry ..
  | .contextRestore .. | .invalidation .. | .invalidationComplete .. | .pageMove .. | .peerDownNotice ..
  | .flitResend .. | .linkRetrain .. | .retrainComplete .. | .eccCorrected .. | .eccUncorrectable ..
  | .patrolScrub .. | .roundBoundary .. | .rick .. | .sendLogFull .. | .warmReset .. | .rejoin ..
  | .lemmelContinue .. | .lemmelStep .. | .lemmelEndLaunch .. | .lemmelArmDiscard .. | .lemmelArmReset ..
  | .powerOn .. | .firmwareLoad .. | .getVersion .. | .getCapabilities .. | .negotiateAlgorithms .. | .getDigests ..
  | .getCertificate .. | .challenge .. | .getMeasurements .. | .keyExchange .. | .finish .. | .endSession ..
  | .counterSnapshot .. | .energyApportion .. | .ageUpdate .. | .illegalWordFetch .. | .queueUnmap ..
  | .mappingRequest .. | .expanderStopsAnswering .. | .linkKeyReplace .. => none

/-- R15, R31 step 6: GUARD 15 with NEG 1 is not a guard. -/
def Guard.ok (g : Guard) : Bool := !(g.p == 15 && g.neg)

/-- A well-formed instruction word, or any event (whose arguments its meaning checks). -/
def Instr.wf (i : Instr) : Bool :=
  (match i.guard? with
    | some g => g.ok
    | none => true) && i.fnOk && i.fieldsOk

end Sys2Proof
end

