-- ==== Sys2Proof/Machine/Float.lean ====
section
/-! DEFINITION. Machine/Float.lean: the floating-point arithmetic of R35 to R43, R50 to R52, R89 to R100: exact dyadic values, one rounding, flags. -/

namespace Sys2Proof

/-! ## Formats (R35, R36) -/

/-- Fraction width. -/
def FFmt.frac : FFmt → Nat
  | .f32 => 23
  | .f16 => 10
  | .bf16 => 7
  | .e4m3 => 3
  | .e5m2 => 2

def FFmt.expBits : FFmt → Nat
  | .f32 => 8
  | .f16 => 5
  | .bf16 => 8
  | .e4m3 => 4
  | .e5m2 => 5

def FFmt.bias : FFmt → Int
  | .f32 => 127
  | .f16 => 15
  | .bf16 => 127
  | .e4m3 => 7
  | .e5m2 => 15

/-- R36: canonical NaN. -/
def FFmt.cnan : FFmt → Nat
  | .f32 => 0x7FC00000
  | .f16 => 0x7E00
  | .bf16 => 0x7FC0
  | .e4m3 => 0x7F
  | .e5m2 => 0x7E

/-- R35: largest finite value. -/
def FFmt.maxBits : FFmt → Nat
  | .f32 => 0x7F7FFFFF
  | .f16 => 0x7BFF
  | .bf16 => 0x7F7F
  | .e4m3 => 0x7E
  | .e5m2 => 0x7B

/-- R36: infinity. .e4m3 has none: its largest finite value stands in its place (R39). -/
def FFmt.infBits : FFmt → Nat
  | .f32 => 0x7F800000
  | .f16 => 0x7C00
  | .bf16 => 0x7F80
  | .e4m3 => 0x7E
  | .e5m2 => 0x7C

end Sys2Proof

namespace Sys2Proof.Machine

/-- A bit pattern with the sign set or clear. -/
def fSigned (f : FFmt) (neg : Bool) (mag : Nat) : Nat := if neg then 2 ^ (f.width - 1) + mag else mag

/-- The value a pattern stands for: an exact dyadic (-1)^neg * m * 2^e, an infinity, or a NaN. -/
inductive Fx where
  | nan (signalling : Bool)
  | inf (neg : Bool)
  | fin (neg : Bool) (m : Nat) (e : Int)
deriving DecidableEq, Repr

def fSign (f : FFmt) (x : Nat) : Bool := x.testBit (f.width - 1)
def fMag (f : FFmt) (x : Nat) : Nat := x % 2 ^ (f.width - 1)

/-- R35, R36. -/
def fDecode (f : FFmt) (x : Nat) : Fx :=
  let neg := fSign f x
  let mag := fMag f x
  let ex := mag / 2 ^ f.frac
  let fr := mag % 2 ^ f.frac
  if f = .e4m3 && mag = 0x7F then .nan false
  else if f != .e4m3 && ex = 2 ^ f.expBits - 1 then
    if fr = 0 then .inf neg else .nan (!fr.testBit (f.frac - 1))
  else if ex = 0 then .fin neg fr (1 - f.bias - f.frac)
  else .fin neg (2 ^ f.frac + fr) (ex - f.bias - f.frac)

/-! ## Flags (R40) -/

abbrev FFlags := BitVec 5
def flagNV : FFlags := 1
def flagDZ : FFlags := 2
def flagOF : FFlags := 4
def flagUF : FFlags := 8
def flagNX : FFlags := 16

/-- A result pattern with the flags it raises. -/
abbrev FRes := Nat × FFlags

/-- R37: the canonical NaN, with NV where the operation says so. -/
def fNan (f : FFmt) (nv : Bool) : FRes := (f.cnan, if nv then flagNV else 0)

/-! ## Rounding (R39) -/

/-- Number of bits of m. -/
def bitLen (m : Nat) : Nat := if m = 0 then 0 else m.log2 + 1

/-- m * 2^sh as a whole number, rounded; sticky says that the exact value lies above m * 2^sh by less than one
unit of m. Gives the rounded magnitude and whether it differs from the exact one. -/
def roundShift (rm : Rm) (neg : Bool) (m : Nat) (sh : Int) (sticky : Bool) : Nat × Bool :=
  if 0 ≤ sh then
    let q := m * 2 ^ sh.toNat
    let up := sticky && (match rm with
      | .rne | .rz => false
      | .rd => neg
      | .ru => !neg)
    (if up then q + 1 else q, sticky)
  else
    let k := (-sh).toNat
    if bitLen m + 1 < k then
      let inexact := m != 0 || sticky
      let up := inexact && (match rm with
        | .rne | .rz => false
        | .rd => neg
        | .ru => !neg)
      (if up then 1 else 0, inexact)
    else
      let q := m / 2 ^ k
      let r := m % 2 ^ k
      let half := 2 ^ (k - 1)
      let inexact := r != 0 || sticky
      let up := match rm with
        | .rne => half < r || (r == half && (sticky || q % 2 == 1))
        | .rz => false
        | .rd => neg && inexact
        | .ru => !neg && inexact
      (if up then q + 1 else q, inexact)

/-- Round((-1)^neg * (m + sticky) * 2^e, f, rm) of R39, with OF, UF and NX. -/
def fRound (f : FFmt) (rm : Rm) (neg : Bool) (m : Nat) (e : Int) (sticky : Bool) : FRes :=
  if m = 0 && !sticky then (fSigned f neg 0, 0)
  else
    let p := f.frac + 1
    let emin := 1 - f.bias
    let top := e + bitLen m
    let qf := top - p
    let q := if qf < emin - f.frac then emin - f.frac else qf
    let (n, inexact) := roundShift rm neg m (e - q) sticky
    -- the largest finite value as mMax * 2^eMax
    let mMax := 2 ^ f.frac + f.maxBits % 2 ^ f.frac
    let eMax := Int.ofNat (f.maxBits / 2 ^ f.frac) - f.bias - f.frac
    let isOver := if q < eMax then decide (mMax * 2 ^ (eMax - q).toNat < n) else decide (mMax < n * 2 ^ (q - eMax).toNat)
    if isOver then
      let inf := match rm with
        | .rne => true
        | .rz => false
        | .rd => neg
        | .ru => !neg
      (fSigned f neg (if inf then f.infBits else f.maxBits), flagOF ||| flagNX)
    else
      -- tiny after rounding with unbounded exponent (R40)
      let (t, _) := roundShift rm neg m (e - qf) sticky
      let tiny := if qf < emin - f.frac then decide (qf + bitLen t ≤ emin) else false
      let n' := if n = 2 ^ p then 2 ^ f.frac else n
      let q' := if n = 2 ^ p then q + 1 else q
      let mag := if n' < 2 ^ f.frac then n' else (q' + f.frac + f.bias).toNat * 2 ^ f.frac + (n' - 2 ^ f.frac)
      (fSigned f neg mag, (if inexact then flagNX else 0) ||| (if tiny && inexact then flagUF else 0))

/-! ## Exact sums (R39, R50, R100, R109) -/

/-- Whether a term, or a product of two, is a NaN that is signalling. -/
def Fx.isSig : Fx → Bool
  | .nan s => s
  | .inf _ | .fin _ _ _ => false

def Fx.isNan : Fx → Bool
  | .nan _ => true
  | .inf _ | .fin _ _ _ => false

def Fx.neg : Fx → Fx
  | .nan s => .nan s
  | .inf n => .inf (!n)
  | .fin n m e => .fin (!n) m e

/-- An exact product; none where it is 0 times infinity. -/
def Fx.mul : Fx → Fx → Option Fx
  | .nan s, .nan t => some (.nan (s || t))
  | .nan s, .inf _ => some (.nan s)
  | .nan s, .fin _ _ _ => some (.nan s)
  | .inf _, .nan t => some (.nan t)
  | .fin _ _ _, .nan t => some (.nan t)
  | .inf a, .inf b => some (.inf (a != b))
  | .inf a, .fin b m _ => if m = 0 then none else some (.inf (a != b))
  | .fin a m _, .inf b => if m = 0 then none else some (.inf (a != b))
  | .fin a m e, .fin b n g => some (.fin (a != b) (m * n) (e + g))

/-- The exact sum of finite terms as k * 2^e, with e the least exponent given. -/
def Fx.finSum (e : Int) (ts : List Fx) : Int :=
  ts.foldl (fun acc t => match t with
    | .fin n m x => acc + (if n then -1 else 1) * Int.ofNat (m * 2 ^ (x - e).toNat)
    | .nan _ | .inf _ => acc) 0

def Fx.minExp (ts : List Fx) : Option Int :=
  ts.foldl (fun acc t => match t with
    | .fin _ m x => if m = 0 then acc else some (match acc with
      | none => x
      | some y => if x < y then x else y)
    | .nan _ | .inf _ => acc) none

/-- RoundF of the exact sum of the terms, rounded once. A term that is none is 0 times infinity. -/
def fSum (f : FFmt) (rm : Rm) (terms : List (Option Fx)) : FRes :=
  let ts := terms.filterMap id
  let posInf := ts.any (fun t => t == .inf false)
  let negInf := ts.any (fun t => t == .inf true)
  let nv := terms.any (·.isNone) || ts.any Fx.isSig || (posInf && negInf)
  if nv || ts.any Fx.isNan then fNan f nv
  else if posInf || negInf then
    if f = .e4m3 then fNan f true else (fSigned f negInf f.infBits, 0)
  else
    let e := (Fx.minExp ts).getD 0
    let s := Fx.finSum e (ts.filter (fun t => match t with
      | .fin _ m _ => m != 0
      | .nan _ | .inf _ => false))
    if s = 0 then
      let allNeg := !ts.isEmpty && ts.all (fun t => match t with
        | .fin n m _ => n && m = 0
        | .nan _ | .inf _ => false)
      (fSigned f (allNeg || rm = .rd) 0, 0)
    else fRound f rm (s < 0) s.natAbs e false

/-! ## The arithmetic of R89, R90, R100 -/

def fAdd (f : FFmt) (rm : Rm) (a b : Nat) : FRes := fSum f rm [some (fDecode f a), some (fDecode f b)]

def fSub (f : FFmt) (rm : Rm) (a b : Nat) : FRes := fSum f rm [some (fDecode f a), some (fDecode f b).neg]

/-- Round of one exact value, a NaN or an infinity included; nv is NV already raised. -/
def fDeliver (f : FFmt) (rm : Rm) (x : Fx) : FRes :=
  match x with
  | .nan s => fNan f s
  | .inf n => if f = .e4m3 then fNan f true else (fSigned f n f.infBits, 0)
  | .fin n m e => fRound f rm n m e false

def fMul (f : FFmt) (rm : Rm) (a b : Nat) : FRes :=
  match (fDecode f a).mul (fDecode f b) with
  | none => fNan f true
  | some x => fDeliver f rm x

def fFma (f : FFmt) (rm : Rm) (a b c : Nat) : FRes :=
  fSum f rm [(fDecode f a).mul (fDecode f b), some (fDecode f c)]

def fScale (f : FFmt) (rm : Rm) (a : Nat) (n : Int) : FRes :=
  match fDecode f a with
  | .nan s => fNan f s
  | .inf g => (fSigned f g f.infBits, 0)
  | .fin g m e => fRound f rm g m (e + n) false

/-- Bits [w*k + w - 1 : w*k] of x. -/
def elemBits (w k x : Nat) : Nat := x / 2 ^ (w * k) % 2 ^ w

/-- FDOT2 and FDOT4 (R100): n elements of format g per slice, the sum rounded once to .f32. -/
def fDot (g : FFmt) (n : Nat) (rm : Rm) (a b c : Nat) : FRes :=
  fSum .f32 rm ((List.range n).map (fun k =>
    (fDecode g (elemBits g.width k a)).mul (fDecode g (elemBits g.width k b))) ++ [some (fDecode .f32 c)])

/-! ## Selection, comparison, classification (R91 to R93) -/

/-- An order key of non-NaN patterns of one format: -0 below +0. -/
def fKey (f : FFmt) (x : Nat) : Int :=
  if fSign f x then -(Int.ofNat (fMag f x)) - 1 else Int.ofNat (fMag f x)

/-- R91. -/
def fMinMax (f : FFmt) (isMax num : Bool) (a b : Nat) : FRes :=
  let x := fDecode f a
  let y := fDecode f b
  let nv := x.isSig || y.isSig
  if x.isNan && y.isNan then fNan f nv
  else if x.isNan then (if num then (b, if nv then flagNV else 0) else fNan f nv)
  else if y.isNan then (if num then (a, if nv then flagNV else 0) else fNan f nv)
  else
    let aLess := decide (fKey f a ≤ fKey f b)
    (if aLess != isMax then a else b, 0)

/-- R92. Zeros compare equal. -/
def fCond (f : FFmt) (c : FCond) (a b : Nat) : Bool × FFlags :=
  let x := fDecode f a
  let y := fDecode f b
  let un := x.isNan || y.isNan
  let key := fun v => if fSign f v then -(Int.ofNat (fMag f v)) else Int.ofNat (fMag f v)
  let i := key a
  let j := key b
  let r := match c with
    | .eq => !un && i == j
    | .ne => un || i != j
    | .lt => !un && decide (i < j)
    | .le => !un && decide (i ≤ j)
    | .gt => !un && decide (j < i)
    | .ge => !un && decide (j ≤ i)
    | .un => un
    | .num => !un
  (r, if x.isSig || y.isSig then flagNV else 0)

/-- R93: the number of the one bit that the mask has set. -/
def fClassBit (f : FFmt) (x : Nat) : Nat :=
  match fDecode f x with
  | .nan s => if s then 0 else 1
  | .inf n => if n then 2 else 9
  | .fin n m _ =>
    if m = 0 then (if n then 5 else 6)
    else if fMag f x / 2 ^ f.frac = 0 then (if n then 4 else 7)
    else (if n then 3 else 8)

/-- R93: the mask. -/
def fClass (f : FFmt) (x : Nat) : Nat := 2 ^ fClassBit f x

/-! ## Rounding to an integer, conversions (R42, R43, R94) -/

def fRnd (f : FFmt) (rm : Rm) (exact : Bool) (x : Nat) : FRes :=
  match fDecode f x with
  | .nan s => fNan f s
  | .inf _ => (x, 0)
  | .fin n m e =>
    let (k, inexact) := roundShift rm n m e false
    if k = 0 then (fSigned f n 0, if exact && inexact then flagNX else 0)
    else ((fRound f .rz n k 0 false).1, if exact && inexact then flagNX else 0)

/-- R42. -/
def fConvert (dst src : FFmt) (rm : Rm) (x : Nat) : FRes := fDeliver dst rm (fDecode src x)

/-- R43: the integer and the flags. -/
def fToInt (lo hi : Int) (f : FFmt) (rm : Rm) (x : Nat) : Int × FFlags :=
  match fDecode f x with
  | .nan _ => (0, flagNV)
  | .inf n => (if n then lo else hi, flagNV)
  | .fin n m e =>
    -- past 2^64 every type overflows, so the magnitude is cut there
    if 70 < e + bitLen m then (if n then lo else hi, flagNV)
    else
      let (k, inexact) := roundShift rm n m e false
      let v : Int := if n then -(Int.ofNat k) else Int.ofNat k
      if v < lo then (lo, flagNV) else if hi < v then (hi, flagNV)
      else (v, if inexact then flagNX else 0)

/-- R43: ITOF. The integer 0 converts to +0 in every mode: R39 signs the zeros of sums and products only (DEDUCED, log entry 100). -/
def fOfInt (f : FFmt) (rm : Rm) (n : Int) : FRes := fRound f rm (n < 0) n.natAbs 0 false

/-! ## Correctly rounded functions (R52) -/

/-- Integer square root, one result bit per unit of fuel. -/
def isqrtAux (n : Nat) : Nat → Nat → Nat
  | 0, r => r
  | k + 1, r =>
    let t := r + 2 ^ k
    isqrtAux n k (if t * t ≤ n then t else r)

def isqrt (n : Nat) : Nat := isqrtAux n (bitLen n / 2 + 1) 0

/-- Fixed-point places of the function evaluation. -/
def fixP : Nat := 384

/-- The evaluation error allowed for, in units of 2^-fixP. -/
def fixErr : Nat := 2 ^ 24

/-- Sum of series terms: t starts the term, next steps it, div gives the term's divisor; fuel terms at most. -/
def seriesSum (next : Nat → Nat → Nat) (div : Nat → Nat) (alt : Bool) : Nat → Nat → Nat → Int → Int
  | 0, _, _, acc => acc
  | fuel + 1, k, t, acc =>
    let term := Int.ofNat (t / div k)
    seriesSum next div alt fuel (k + 1) (next k t) (if alt && k % 2 == 1 then acc - term else acc + term)

/-- 2^p * atanh(z / 2^p) for 0 <= z < 2^p / 2. -/
def fixAtanh (p z : Nat) : Nat :=
  let z2 := z * z / 2 ^ p
  (seriesSum (fun _ t => t * z2 / 2 ^ p) (fun k => 2 * k + 1) false (p / 2 + 8) 0 z 0).toNat

/-- 2^p * atan(1/n). -/
def fixAtanInv (p n : Nat) : Int :=
  seriesSum (fun _ t => t / (n * n)) (fun k => 2 * k + 1) true (p / 2 + 8) 0 (2 ^ p / n) 0

/-- 2^p * ln 2 = 2 atanh(1/3). -/
def fixLn2 (p : Nat) : Nat := 2 * fixAtanh p (2 ^ p / 3)

/-- 2^p * pi = 4 * (4 atan(1/5) - atan(1/239)). -/
def fixPi (p : Nat) : Nat := (4 * (4 * fixAtanInv p 5 - fixAtanInv p 239)).toNat

/-- 2^p * exp(y / 2^p) for 0 <= y < 2^p. -/
def fixExp (p y : Nat) : Nat :=
  (seriesSum (fun k t => t * y / (2 ^ p * (k + 1))) (fun _ => 1) false 128 0 (2 ^ p) 0).toNat

/-- 2^p * sin(y / 2^p) and cos, 0 <= y < 2^p. -/
def fixSin (p y : Nat) : Nat :=
  (seriesSum (fun k t => t * y / 2 ^ p * y / (2 ^ p * ((2 * k + 2) * (2 * k + 3)))) (fun _ => 1) true 64 0 y 0).toNat

def fixCos (p y : Nat) : Nat :=
  (seriesSum (fun k t => t * y / 2 ^ p * y / (2 ^ p * ((2 * k + 1) * (2 * k + 2)))) (fun _ => 1) true 64 0 (2 ^ p) 0).toNat

/-- Rounds an irrational value known as v * 2^-(fixP + drop) to within fixErr. Both ends of the interval give one
result except where no such precision decides it, and then the lower end's is taken (log entry 9). -/
def fRoundApprox (f : FFmt) (rm : Rm) (neg : Bool) (v : Nat) (e : Int) : FRes :=
  fRound f rm neg (v - fixErr) e true

/-- m * 2^e as a fixed-point number with fixP places, exact for every .f32 and .f16 value. -/
def toFix (m : Nat) (e : Int) : Nat :=
  if 0 ≤ e + fixP then m * 2 ^ (e + fixP).toNat else m / 2 ^ (-(e + fixP)).toNat

/-- Whether m * 2^e is a whole number. -/
def isWhole (m : Nat) (e : Int) : Bool := 0 ≤ e || m % 2 ^ (-e).toNat == 0

/-- FRCP. -/
def fRcp (f : FFmt) (rm : Rm) (x : Nat) : FRes :=
  match fDecode f x with
  | .nan s => fNan f s
  | .inf n => (fSigned f n 0, 0)
  | .fin n m e =>
    if m = 0 then (fSigned f n f.infBits, flagDZ)
    else
      let k := bitLen m + 64
      fRound f rm n (2 ^ k / m) (-e - k) (2 ^ k % m != 0)

/-- FSQRT. -/
def fSqrt (f : FFmt) (rm : Rm) (x : Nat) : FRes :=
  match fDecode f x with
  | .nan s => fNan f s
  | .inf n => if n then fNan f true else (fSigned f false f.infBits, 0)
  | .fin n m e =>
    if m = 0 then (fSigned f n 0, 0)
    else if n then fNan f true
    else
      let odd := (e % 2).toNat
      let v := m * 2 ^ (128 + odd)
      let r := isqrt v
      fRound f rm false r ((e - odd - 128) / 2) (r * r != v)

/-- FRSQ. -/
def fRsq (f : FFmt) (rm : Rm) (x : Nat) : FRes :=
  match fDecode f x with
  | .nan s => fNan f s
  | .inf n => if n then fNan f true else (fSigned f false 0, 0)
  | .fin n m e =>
    if m = 0 then (fSigned f n f.infBits, flagDZ)
    else if n then fNan f true
    else
      let odd := (e % 2).toNat
      let d := m * 2 ^ odd
      let k := bitLen d + 128
      let v := 2 ^ (2 * k) / d
      let r := isqrt v
      fRound f rm false r (-(e - odd) / 2 - k) (r * r * d != 2 ^ (2 * k))

/-- FEXP2. -/
def fExp2 (f : FFmt) (rm : Rm) (x : Nat) : FRes :=
  match fDecode f x with
  | .nan s => fNan f s
  | .inf n => if n then (fSigned f false 0, 0) else (fSigned f false f.infBits, 0)
  | .fin n m e =>
    if m = 0 then fRound f rm false 1 0 false
    else if 12 < e + bitLen m then fRound f rm false 1 (if n then -4096 else 4096) false
    else if isWhole m e then
      let k := if 0 ≤ e then m * 2 ^ e.toNat else m / 2 ^ (-e).toNat
      fRound f rm false 1 (if n then -(Int.ofNat k) else Int.ofNat k) false
    else
      let v : Int := if n then -(Int.ofNat (toFix m e)) else Int.ofNat (toFix m e)
      let whole := v.fdiv (2 ^ fixP)
      let part := (v % (2 ^ fixP : Int)).toNat
      fRoundApprox f rm false (fixExp fixP (part * fixLn2 fixP / 2 ^ fixP)) (whole - fixP)

/-- FLOG2. The exact zero of FLOG2(1.0) is +0 in every mode: R39 signs the zeros of sums and products only (DEDUCED, log entry 100). -/
def fLog2 (f : FFmt) (rm : Rm) (x : Nat) : FRes :=
  match fDecode f x with
  | .nan s => fNan f s
  | .inf n => if n then fNan f true else (fSigned f false f.infBits, 0)
  | .fin n m e =>
    if m = 0 then (fSigned f true f.infBits, flagDZ)
    else if n then fNan f true
    else
      let k : Int := e + (bitLen m - 1 : Nat)
      if m = 2 ^ (bitLen m - 1) then fRound f rm (k < 0) k.natAbs 0 false
      else
        -- m * 2^e = g * 2^k with 1 < g < 2; log2 g = 2 atanh((g - 1) / (g + 1)) / ln 2
        let d := 2 ^ (bitLen m - 1)
        let z := (m - d) * 2 ^ fixP / (m + d)
        let l := 2 * fixAtanh fixP z * 2 ^ fixP / fixLn2 fixP
        let v : Int := k * 2 ^ fixP + Int.ofNat l
        fRoundApprox f rm (v < 0) v.natAbs (-(fixP : Int))

/-- sin(pi r) and cos(pi r) for a fixed-point r in [0, 1/2], each by the series whose angle is at most pi/4. -/
def fixSinPi (r : Nat) : Nat :=
  if 4 * r ≤ 2 ^ fixP then fixSin fixP (r * fixPi fixP / 2 ^ fixP)
  else fixCos fixP ((2 ^ fixP / 2 - r) * fixPi fixP / 2 ^ fixP)

/-- sin(pi v) for v in units of 2^-fixP, reduced modulo 2: sign and magnitude of the result. -/
def fixSinPiAll (v : Nat) : Bool × Nat :=
  let one := 2 ^ fixP
  let r := v % (2 * one)
  let neg := one ≤ r
  let r1 := r % one
  (neg, fixSinPi (if one / 2 < r1 then one - r1 else r1))

/-- FSINPI. -/
def fSinPi (f : FFmt) (rm : Rm) (x : Nat) : FRes :=
  match fDecode f x with
  | .nan s => fNan f s
  | .inf _ => fNan f true
  | .fin n m e =>
    if m = 0 || isWhole m e then (fSigned f n 0, 0)
    else
      let v := toFix m e
      let (s, r) := fixSinPiAll v
      if isWhole m (e + 1) then fRound f rm (n != s) 1 0 false
      else fRoundApprox f rm (n != s) r (-(fixP : Int))

/-- FCOSPI: cos(pi x) = sin(pi (|x| + 1/2)). -/
def fCosPi (f : FFmt) (rm : Rm) (x : Nat) : FRes :=
  match fDecode f x with
  | .nan s => fNan f s
  | .inf _ => fNan f true
  | .fin _ m e =>
    let v := toFix m e
    let (s, r) := fixSinPiAll (v + 2 ^ fixP / 2)
    if m = 0 || isWhole m e then fRound f rm s 1 0 false
    else if isWhole m (e + 1) then (fSigned f false 0, 0)
    else fRoundApprox f rm s r (-(fixP : Int))

/-! ## Matrix arithmetic (R50, R51) -/

/-- One accumulator element: the exact sum of the products, scaled by 2^sc, added to c and rounded once. -/
def mmaElem (terms : List (Option Fx)) (sc : Int) (c : Nat) : FRes :=
  fSum .f32 .rne ((terms.map (fun t => t.map (fun x => match x with
    | .fin n m e => .fin n m (e + sc)
    | .nan s => .nan s
    | .inf n => .inf n))) ++ [some (fDecode .f32 c)])

/-- R51 steps 1 to 4. -/
def epiScale (kind : EpiKind) (lo hi : Nat) (c r s b : Nat) : FRes :=
  let t1 := fMul .f32 .rne c r
  let t2 := fMul .f32 .rne t1.1 s
  let t3 := fAdd .f32 .rne t2.1 b
  let fl := t1.2 ||| t2.2 ||| t3.2
  let v := match kind with
    | .plain => t3.1
    | .relu => if (fDecode .f32 t3.1).isNan then t3.1 else if fSign .f32 t3.1 then 0 else t3.1
    | .clamp =>
      if (fDecode .f32 t3.1).isNan then t3.1
      else if (fCond .f32 .lt t3.1 lo).1 then lo
      else if (fCond .f32 .gt t3.1 hi).1 then hi else t3.1
  (v, fl)

/-- R51 step 5: the output bits and its width in bytes. -/
def epiOut (o : EpiOut) (x : Nat) : FRes :=
  match o with
  | .f32 => (x, 0)
  | .bf16 => fConvert .bf16 .f32 .rne x
  | .f16 => fConvert .f16 .f32 .rne x
  | .e4m3 => fConvert .e4m3 .f32 .rne x
  | .e5m2 => fConvert .e5m2 .f32 .rne x
  | .i8 => let r := fToInt (-128) 127 .f32 .rne x
           ((r.1 % 256).toNat, r.2)

def epiBytes : EpiOut → Nat
  | .f32 => 4
  | .bf16 | .f16 => 2
  | .e4m3 | .e5m2 | .i8 => 1

/-! ## Floating combining (R109) -/

/-- The combination of the values of the lanes of L, in lane order. -/
def fCombine (op : CombOp) (vs : List Nat) : FRes :=
  match op with
  | .min | .max =>
    let isMax := op == .max
    match vs with
    | [] => (if isMax then 0xFF800000 else 0x7F800000, 0)
    | v :: rest =>
      let r := rest.foldl (fun acc x => let q := fMinMax .f32 isMax false acc.1 x; (q.1, acc.2 ||| q.2)) (v, 0)
      if rest.isEmpty then
        (if (fDecode .f32 v).isNan then (fNan .f32 (fDecode .f32 v).isSig) else r)
      else r
  | .add | .and | .or | .xor =>
    match vs with
    | [] => (0, 0)
    | _ => fSum .f32 .rne (vs.map (fun v => some (fDecode .f32 v)))

end Sys2Proof.Machine
end

