-- ==== Sys2Proof/Machine/IntAlu.lean ====
section
/-! DEFINITION. Machine/IntAlu.lean: the integer arithmetic of R69 to R79 and the integer atomics of R133, on 64-bit carriers that hold a value extended by its type. -/

namespace Sys2Proof.Machine

/-- The low w bits of an operand. -/
def intBits (t : IntTy) (x : W64) : Nat := x.toNat % 2 ^ t.width

/-- Val(x) of R68: the exact integer the low w bits hold. -/
def intVal (t : IntTy) (x : W64) : Int :=
  let n := intBits t x
  if t.signed && 2 ^ (t.width - 1) ≤ n then Int.ofNat n - Int.ofNat (2 ^ t.width) else Int.ofNat n

/-- Least and greatest value of a type. -/
def intMin (t : IntTy) : Int := if t.signed then -(2 ^ (t.width - 1) : Int) else 0
def intMax (t : IntTy) : Int := if t.signed then 2 ^ (t.width - 1) - 1 else 2 ^ t.width - 1

/-- A w-bit pattern extended to 64 bits: sign for .i, zero for .b (R21, R65). -/
def intExtend (t : IntTy) (n : Nat) : W64 :=
  let n := n % 2 ^ t.width
  if t.signed && 2 ^ (t.width - 1) ≤ n then BitVec.ofInt 64 (Int.ofNat n - Int.ofNat (2 ^ t.width)) else BitVec.ofNat 64 n

/-- e mod 2^w, extended. -/
def intWrap (t : IntTy) (e : Int) : W64 := intExtend t (e % (2 ^ t.width : Int)).toNat

def intClamp (t : IntTy) (e : Int) : Int :=
  if e < intMin t then intMin t else if intMax t < e then intMax t else e

/-- Store(e) of R68. -/
def intStore (t : IntTy) (sat : Bool) (e : Int) : W64 := intWrap t (if sat then intClamp t e else e)

/-! ## R69 to R72 -/

def intAdd (t : IntTy) (sat : Bool) (a b : W64) : W64 := intStore t sat (intVal t a + intVal t b)
def intSub (t : IntTy) (sat : Bool) (a b : W64) : W64 := intStore t sat (intVal t a - intVal t b)
def intMul (t : IntTy) (sat : Bool) (a b : W64) : W64 := intStore t sat (intVal t a * intVal t b)

/-- Bits [2w-1 : w] of the product. -/
def intMulh (t : IntTy) (a b : W64) : W64 := intWrap t ((intVal t a * intVal t b).fdiv (2 ^ t.width))

def intMad (t : IntTy) (sat : Bool) (a b c : W64) : W64 := intStore t sat (intVal t a * intVal t b + intVal t c)

/-- The 64-bit type of MADW's C and D. -/
def wideOf (t : IntTy) : IntTy := if t.signed then .i64 else .b64

def intMadw (t : IntTy) (sat : Bool) (a b c : W64) : W64 :=
  intStore (wideOf t) sat (intVal t a * intVal t b + intVal (wideOf t) c)

/-- R70: the sum with carry in, and the carry out. -/
def intAddc (t : IntTy) (a b : W64) (cin : Bool) : W64 × Bool :=
  let e := intBits t a + intBits t b + (if cin then 1 else 0)
  (intExtend t e, 2 ^ t.width ≤ e)

def intSubb (t : IntTy) (a b : W64) (bin : Bool) : W64 × Bool :=
  let e : Int := Int.ofNat (intBits t a) - Int.ofNat (intBits t b) - (if bin then 1 else 0)
  (intWrap t e, e < 0)

/-- R71. -/
def intDiv (t : IntTy) (sat : Bool) (a b : W64) : W64 :=
  let x := intVal t a
  let y := intVal t b
  if y = 0 then intExtend t (2 ^ t.width - 1)
  else if t.signed && x == intMin t && y == -1 then intWrap t (if sat then intMax t else intMin t)
  else intWrap t (x.tdiv y)

def intRem (t : IntTy) (a b : W64) : W64 :=
  let x := intVal t a
  let y := intVal t b
  if y = 0 then intWrap t x
  else if t.signed && x == intMin t && y == -1 then 0
  else intWrap t (x - x.tdiv y * y)

/-- R72. -/
def intAbs (t : IntTy) (sat : Bool) (a : W64) : W64 := intStore t sat (Int.ofNat (intVal t a).natAbs)
def intNeg (t : IntTy) (sat : Bool) (a : W64) : W64 := intStore t sat (-(intVal t a))
def intMinOf (t : IntTy) (a b : W64) : W64 := intWrap t (if intVal t a ≤ intVal t b then intVal t a else intVal t b)
def intMaxOf (t : IntTy) (a b : W64) : W64 := intWrap t (if intVal t a ≤ intVal t b then intVal t b else intVal t a)

/-! ## R73 to R76 -/

def intAnd (t : IntTy) (a b : W64) : W64 := intExtend t (a &&& b).toNat
def intOr (t : IntTy) (a b : W64) : W64 := intExtend t (a ||| b).toNat
def intXor (t : IntTy) (a b : W64) : W64 := intExtend t (a ^^^ b).toNat
def intAndn (t : IntTy) (a b : W64) : W64 := intExtend t (a &&& ~~~b).toNat

/-- A count, control or index: the low 32 bits of its source, unsigned (R66). -/
def low32 (x : W64) : Nat := x.toNat % 2 ^ 32

def intShl (t : IntTy) (sat : Bool) (a : W64) (n : Nat) : W64 :=
  if n < t.width then intStore t sat (intVal t a * 2 ^ n)
  else if !sat || intVal t a = 0 then 0
  else intWrap t (if intVal t a < 0 then intMin t else intMax t)

def intShr (t : IntTy) (a : W64) (n : Nat) : W64 :=
  if n < t.width then intExtend t (intBits t a >>> n) else 0

def intSar (t : IntTy) (a : W64) (n : Nat) : W64 :=
  intWrap t ((intVal t a).fdiv (2 ^ (min n t.width)))

def intRot (t : IntTy) (a : W64) (n : Nat) : W64 :=
  let k := n % t.width
  intExtend t ((intBits t a <<< k) ||| (intBits t a >>> (t.width - k)))

/-- R74: the count of zero bits above the highest one bit. -/
def intClz (t : IntTy) (a : W64) : Nat :=
  let n := intBits t a
  if n = 0 then t.width else t.width - 1 - n.log2

def intPopc (t : IntTy) (a : W64) : Nat := ((List.range t.width).filter (fun k => (intBits t a).testBit k)).length

/-- The low n bits of x in reverse order. -/
def revBits (n x : Nat) : Nat :=
  (List.range n).foldl (fun acc k => 2 * acc + (if x.testBit k then 1 else 0)) 0

def intBrev (t : IntTy) (a : W64) : W64 := intExtend t (revBits t.width (intBits t a))

/-- R75. -/
def intBfe (t : IntTy) (a : W64) (ctrl : Nat) : W64 :=
  let len := min ((ctrl / 256) % 256) t.width
  let pos := ctrl % 256
  if len = 0 then 0
  else
    let f := ((intVal t a).fdiv (2 ^ pos) % (2 ^ len : Int)).toNat
    if t.signed && f.testBit (len - 1) then intWrap t (Int.ofNat f - 2 ^ len) else intExtend t f

/-- R76. -/
def intBfi (t : IntTy) (a b : W64) (ctrl : Nat) : W64 :=
  let len := min ((ctrl / 256) % 256) t.width
  let pos := ctrl % 256
  let mask := ((2 ^ len - 1) <<< pos) % 2 ^ t.width
  let keep := intBits t b - (intBits t b &&& mask)
  intExtend t (keep ||| ((intBits t a <<< pos) &&& mask))

/-- R77: the index is sign- or zero-extended from 32 bits. -/
def intLea (t : IntTy) (scale : Nat) (a : W64) (i : Nat) (c : W64) : W64 :=
  let i32 : Int := if t.signed && 2 ^ 31 ≤ i then Int.ofNat i - 2 ^ 32 else Int.ofNat i
  intWrap t (intVal t a + i32 * 2 ^ scale + intVal t c)

/-- R79. -/
def intCond (t : IntTy) (c : Cond) (a b : W64) : Bool :=
  let x := intVal t a
  let y := intVal t b
  match c with
  | .eq => x == y
  | .ne => x != y
  | .lt => decide (x < y)
  | .le => decide (x ≤ y)
  | .gt => decide (y < x)
  | .ge => decide (y ≤ x)
  | .tst => intBits t a &&& intBits t b != 0

/-! ## Immediates of integer operations (R22, R66, R83) -/

/-- An immediate widened to the operation's type. -/
def intImm (len : Len) (t : IntTy) (x : BitVec 32) : W64 :=
  match len with
  | .w96 => if t.signed then (x.setWidth 16).signExtend 64 else (x.setWidth 16).setWidth 64
  | .w64 | .w128 => if t.signed then x.signExtend 64 else x.setWidth 64

/-- R66: an immediate taken as a .b32 value. -/
def immB32 (len : Len) (x : BitVec 32) : W64 :=
  match len with
  | .w96 => (x.setWidth 16).setWidth 64
  | .w64 | .w128 => x.setWidth 64

/-! ## Combining lanes (R109) -/

def intIdentity (op : CombOp) (t : IntTy) : W64 :=
  match op with
  | .add | .or | .xor => 0
  | .min => intWrap t (intMax t)
  | .max => intWrap t (intMin t)
  | .and => intExtend t (2 ^ t.width - 1)

def intCombine (op : CombOp) (t : IntTy) (a b : W64) : W64 :=
  match op with
  | .add => intAdd t false a b
  | .min => intMinOf t a b
  | .max => intMaxOf t a b
  | .and => intAnd t a b
  | .or => intOr t a b
  | .xor => intXor t a b

/-! ## Bytes of a pool (R107) -/

/-- One output byte of BSEL from the pool of eight bytes and a control byte. -/
def bselByte (pool : BitVec 64) (ctl : BitVec 8) : BitVec 8 :=
  let b : BitVec 8 := pool.extractLsb' (8 * (ctl.toNat % 8)) 8
  match (ctl.extractLsb' 3 2).toNat with
  | 0 => b
  | 1 => 0
  | 2 => if b.msb then 255 else 0
  | _ => BitVec.ofNat 8 (revBits 8 b.toNat)

def bselWord (a b ctl : BitVec 32) : BitVec 32 :=
  let pool : BitVec 64 := b ++ a
  bselByte pool (ctl.extractLsb' 24 8) ++ bselByte pool (ctl.extractLsb' 16 8)
    ++ bselByte pool (ctl.extractLsb' 8 8) ++ bselByte pool (ctl.extractLsb' 0 8)

end Sys2Proof.Machine
end

