-- ==== Sys2Proof/Config.lean ====
section
/-! DEFINITION. Config.lean: what the manual leaves to the part, its firmware and its cryptography. Each constant is without a body: a claim holds whatever it is. -/

namespace Sys2Proof.Config

/-- How far %tick advances at a step (log entry 3). -/
opaque elapsed : Nat → Nat

/-- What a byte written under one key reads as under another: by physical address and by the reader's key (R293). -/
opaque freeByte : Nat → Nat → Byte

/-- What a byte of another package's memory reads as (R285, log entry 20), by a fresh number. -/
opaque peerByte : Nat → Byte

/-- Whether another package refuses an access (R285, log entry 20), by a fresh number. -/
opaque peerRefuses : Nat → Bool

/-- A byte of an instruction fetched from another package (R285), by step and address. -/
opaque peerFetch : Nat → Nat → Byte

/-- Whether another package refuses a fetch (R285), by step and address. -/
opaque refusesFetch : Nat → Nat → Bool

/-- How far past a word that gives no length a step moves (R241): its LEN is 0, or cannot be read. By step number. -/
opaque pastWord : Nat → Nat

/-- Whether a racing scratchpad byte reaches a grid operation in its new state (R168, log entry 15). -/
opaque raceBit : Nat → Bool

/-- Which kept physical register an estate's register takes (R266). -/
opaque preg : Nat → Nat

/-- SHA-512 (R295, R301, R310). -/
opaque sha512 : List Byte → BitVec 512

/-- Ed25519: signing by the attestation key, and the check of an image against the manufacturer key (R310, R312). -/
opaque sign : List Byte → BitVec 512
opaque verify : List Byte → BitVec 512 → Bool

/-- The device's share of a key exchange (R312). -/
opaque keyShare : BitVec 256 → BitVec 256

/-- The certificate chain of the device (R312). -/
opaque certificates : List Byte

/-- Fused facts: the smallest version accepted of the image of each boot stage, and the present cores of each die (R310, R321). -/
opaque minVersion : Nat → Nat
opaque presentCores : Nat → BitVec 36

/-- What a device configuration holds (R310): the partition split (R302), the power cap in watts (R320), and the quantum table
entries of each partition (R303). -/
opaque imageSplit : List Byte → Nat
opaque imageCap : List Byte → Nat
opaque imageQuantum : List Byte → Nat → Nat → BitVec 64

/-- Whether a TLB or a cache drops an entry of its own accord (R279, R219): by step and by place in its list. -/
opaque dropsTlb : Nat → Nat → Bool
opaque dropsCopy : Nat → Nat → Bool

/-- Whether an instruction fetch reads its line from memory, and not from an instruction cache (R316, log entry 125), by step. -/
opaque fetchMisses : Nat → Bool

/-- The payload of a barrier event on a die link (R316, log entry 125). -/
opaque eventBytes : Nat

/-- The frame that firmware brings an absent page into (R280, R284), and a byte of what the page holds on the host or on
storage, by a fresh number. -/
opaque setupFrame : Nat → Nat
opaque storedByte : Nat → Nat → Byte

/-- The firmware's power model (R260): milliwatts of a granted set (mat, vec, net, mem), with or without matrix power. -/
opaque power : Bool → Nat → Nat → Nat → Nat → Nat

/-- What the hottest sensor of a die shows, by die and step (R321). -/
opaque hottest : Nat → Nat → Nat

/-- The weight of each counter class in the energy model (R317). -/
opaque energyWeight : Nat → Nat

/-- Whether a replay sends a message whose digest differs from that of the first (R335), by step and sequence number. -/
opaque digestDiffers : Nat → Nat → Bool

/-- The bytes of a message between dies, whose form the manual does not give, by what it says (R333). -/
opaque wire : List Nat → List Byte

end Sys2Proof.Config
end

