-- ==== Sys2Proof/Decode.lean ====
section
/-! DEFINITION. Decode.lean: the bit fields of the three word formats (R10 to R18), the codes of the field values, the opcode map (R26, R30), the decoder with the check steps 3 to 9 of R31, and the encoder. -/

namespace Sys2Proof

/-! ## The fields of a word -/

/-- The fields of R13 and R16 to R18. The fields a length does not hold are zero. -/
structure Raw where
  len   : Len
  op    : BitVec 8
  g     : Guard
  d     : BitVec 7
  a     : BitVec 7
  la    : BitVec 9
  b     : BitVec 7
  lb    : BitVec 9
  fn    : BitVec 10
  c     : BitVec 7
  lc    : BitVec 9
  x16   : BitVec 16
  imm32 : BitVec 32
  x32   : BitVec 32
deriving DecidableEq, Repr

/-- LEN (R10). -/
def Len.code : Len → BitVec 2
  | .w64 => 1
  | .w96 => 2
  | .w128 => 3

def Len.ofCode (x : BitVec 2) : Option Len :=
  match x.toNat with
  | 1 => some .w64
  | 2 => some .w96
  | 3 => some .w128
  | _ => none

/-- Bits [63:0] of a word (R13, R16). -/
def Raw.low (r : Raw) : BitVec 64 :=
  r.fn ++ r.lb ++ r.b ++ r.la ++ r.a ++ r.d ++ BitVec.ofBool r.g.neg ++ r.g.p ++ r.op ++ r.len.code

/-- Bits [127:64] of a word, zero past its length (R17, R18). -/
def Raw.high (r : Raw) : BitVec 64 :=
  match r.len with
  | .w64 => 0
  | .w96 => (0 : BitVec 32) ++ r.x16 ++ r.lc ++ r.c
  | .w128 => r.x32 ++ r.imm32

/-- The word, zero past its length. -/
def Raw.word (r : Raw) : BitVec 128 := r.high ++ r.low

/-- The fields of a word of the given length. -/
def Raw.ofWord (len : Len) (w : BitVec 128) : Raw where
  len := len
  op := w.extractLsb' 2 8
  g := ⟨w.extractLsb' 10 4, w.getLsbD 14⟩
  d := w.extractLsb' 15 7
  a := w.extractLsb' 22 7
  la := w.extractLsb' 29 9
  b := w.extractLsb' 38 7
  lb := w.extractLsb' 45 9
  fn := w.extractLsb' 54 10
  c := if len = .w96 then w.extractLsb' 64 7 else 0
  lc := if len = .w96 then w.extractLsb' 71 9 else 0
  x16 := if len = .w96 then w.extractLsb' 80 16 else 0
  imm32 := if len = .w128 then w.extractLsb' 64 32 else 0
  x32 := if len = .w128 then w.extractLsb' 96 32 else 0

/-! ## Codes of field values -/

/-- TYPE (R28). -/
def IntTy.code : IntTy → BitVec 4
  | .i8 => 0 | .i16 => 1 | .i32 => 2 | .i64 => 3 | .b8 => 4 | .b16 => 5 | .b32 => 6 | .b64 => 7

def IntTy.ofCode (n : Nat) : Option IntTy :=
  match n with
  | 0 => some .i8 | 1 => some .i16 | 2 => some .i32 | 3 => some .i64
  | 4 => some .b8 | 5 => some .b16 | 6 => some .b32 | 7 => some .b64
  | _ => none

/-- FMT (R29). -/
def FFmt.code : FFmt → BitVec 3
  | .f32 => 0 | .f16 => 1 | .bf16 => 2 | .e4m3 => 3 | .e5m2 => 4

def FFmt.ofCode (n : Nat) : Option FFmt :=
  match n with
  | 0 => some .f32 | 1 => some .f16 | 2 => some .bf16 | 3 => some .e4m3 | 4 => some .e5m2
  | _ => none

/-- RM (R29). -/
def Rm.code : Rm → BitVec 2
  | .rne => 0 | .rz => 1 | .rd => 2 | .ru => 3

def Rm.ofCode (n : Nat) : Rm :=
  match n with
  | 0 => .rne | 1 => .rz | 2 => .rd | _ => .ru

/-- TYPE of the lane block (R103). -/
def LaneTy.code : LaneTy → BitVec 4
  | .int t => t.code
  | .f32 => 8

def LaneTy.ofCode (n : Nat) : Option LaneTy :=
  if n = 8 then some .f32 else (IntTy.ofCode n).map .int

/-- TYPE of the access word (R124). -/
def MemTy.code : MemTy → BitVec 4
  | .int t => t.code
  | .flt f => match f with
    | .f32 => 8 | .f16 => 9 | .bf16 => 10 | .e4m3 => 11 | .e5m2 => 12

def MemTy.ofCode (n : Nat) : Option MemTy :=
  if n < 8 then (IntTy.ofCode n).map .int else (FFmt.ofCode (n - 8)).map .flt

/-- Scope codes (R123). -/
def Scope.code : Scope → BitVec 3
  | .core => 1 | .quad => 2 | .die => 3 | .pkg => 4 | .pod => 5

def Scope.ofCode (n : Nat) : Option Scope :=
  match n with
  | 1 => some .core | 2 => some .quad | 3 => some .die | 4 => some .pkg | 5 => some .pod
  | _ => none

def ordCode : Ord → BitVec 3
  | none => 0
  | some s => s.code

/-- ORD (R124, R132): 0 relaxed, 1 to 5 a scope. -/
def ordOf (n : Nat) : Option Ord :=
  if n = 0 then some none else (Scope.ofCode n).map some

/-- Lane patterns (R23). -/
def LanePat.code : LanePat → BitVec 9
  | .ident => 0
  | .rot n => (1 : BitVec 3) ++ n
  | .bc n => (2 : BitVec 3) ++ n
  | .xor n => (3 : BitVec 3) ++ n
  | .mir k => (4 : BitVec 3) ++ (0 : BitVec 3) ++ k
  | .shd n => (5 : BitVec 3) ++ n
  | .shu n => (6 : BitVec 3) ++ n

/-- The pattern a field names. A field that names none (R24) gives the identity, whose code differs from it. -/
def LanePat.ofCode (x : BitVec 9) : LanePat :=
  let n := x.extractLsb' 0 6
  match (x.extractLsb' 6 3).toNat with
  | 1 => .rot n
  | 2 => .bc n
  | 3 => .xor n
  | 4 => .mir (n.extractLsb' 0 3)
  | 5 => .shd n
  | 6 => .shu n
  | _ => .ident

/-- ISET and SSET conditions (R79). -/
def Cond.code : Cond → BitVec 3
  | .eq => 0 | .ne => 1 | .lt => 2 | .le => 3 | .gt => 4 | .ge => 5 | .tst => 6

def Cond.ofCode (n : Nat) : Option Cond :=
  match n with
  | 0 => some .eq | 1 => some .ne | 2 => some .lt | 3 => some .le | 4 => some .gt | 5 => some .ge
  | 6 => some .tst
  | _ => none

/-- FSET conditions (R92). -/
def FCond.code : FCond → BitVec 3
  | .eq => 0 | .ne => 1 | .lt => 2 | .le => 3 | .gt => 4 | .ge => 5 | .un => 6 | .num => 7

def FCond.ofCode (n : Nat) : FCond :=
  match n with
  | 0 => .eq | 1 => .ne | 2 => .lt | 3 => .le | 4 => .gt | 5 => .ge | 6 => .un | _ => .num

/-- Half routes (R99). -/
def Route.code : Route → BitVec 3
  | .straight => 0 | .sw => 1 | .bl => 2 | .bh => 3

def Route.ofCode (n : Nat) : Option Route :=
  match n with
  | 0 => some .straight | 1 => some .sw | 2 => some .bl | 3 => some .bh
  | _ => none

/-- OPN of SCAN and REDUCE (R109). -/
def CombOp.code : CombOp → BitVec 3
  | .add => 0 | .min => 1 | .max => 2 | .and => 3 | .or => 4 | .xor => 5

def CombOp.ofCode (n : Nat) : Option CombOp :=
  match n with
  | 0 => some .add | 1 => some .min | 2 => some .max | 3 => some .and | 4 => some .or | 5 => some .xor
  | _ => none

/-- OPN of VOTE (R103). -/
def VoteKind.code : VoteKind → BitVec 3
  | .all => 0 | .any => 1 | .uni => 2

def VoteKind.ofCode (n : Nat) : Option VoteKind :=
  match n with
  | 0 => some .all | 1 => some .any | 2 => some .uni
  | _ => none

/-- OPN of the atomics (R132). -/
def AtomOp.code : AtomOp → BitVec 4
  | .add => 0 | .minS => 1 | .maxS => 2 | .minU => 3 | .maxU => 4 | .and => 5 | .or => 6 | .xor => 7
  | .exch => 8 | .cas => 9 | .fadd => 10

def AtomOp.ofCode (n : Nat) : Option AtomOp :=
  match n with
  | 0 => some .add | 1 => some .minS | 2 => some .maxS | 3 => some .minU | 4 => some .maxU | 5 => some .and
  | 6 => some .or | 7 => some .xor | 8 => some .exch | 9 => some .cas | 10 => some .fadd
  | _ => none

/-- FENCE kinds (R135). -/
def FenceKind.code : FenceKind → BitVec 2
  | .acq => 1 | .rel => 2 | .acqrel => 3

def FenceKind.ofCode (n : Nat) : Option FenceKind :=
  match n with
  | 1 => some .acq | 2 => some .rel | 3 => some .acqrel
  | _ => none

/-- SSP and DSP (R149). -/
def Space.code : Space → BitVec 2
  | .global => 0 | .scratch => 1 | .cap => 2

def Space.ofCode (n : Nat) : Option Space :=
  match n with
  | 0 => some .global | 1 => some .scratch | 2 => some .cap
  | _ => none

/-- FMTM (R166). -/
def MFmt.code : MFmt → BitVec 4
  | .bf16 => 0 | .f16 => 1 | .e4m3 => 2 | .e5m2 => 3 | .q2 => 4 | .q3 => 5 | .q4 => 6 | .q5 => 7 | .q6 => 8
  | .q7 => 9 | .q8 => 10

def MFmt.ofCode (n : Nat) : Option MFmt :=
  match n with
  | 0 => some .bf16 | 1 => some .f16 | 2 => some .e4m3 | 3 => some .e5m2 | 4 => some .q2 | 5 => some .q3
  | 6 => some .q4 | 7 => some .q5 | 8 => some .q6 | 9 => some .q7 | 10 => some .q8
  | _ => none

/-- Output types of MEPI (R169). -/
def EpiOut.code : EpiOut → BitVec 3
  | .f32 => 0 | .bf16 => 1 | .f16 => 2 | .e4m3 => 3 | .e5m2 => 4 | .i8 => 5

def EpiOut.ofCode (n : Nat) : Option EpiOut :=
  match n with
  | 0 => some .f32 | 1 => some .bf16 | 2 => some .f16 | 3 => some .e4m3 | 4 => some .e5m2 | 5 => some .i8
  | _ => none

/-- MEPI kinds (R169). -/
def EpiKind.code : EpiKind → BitVec 2
  | .plain => 0 | .relu => 1 | .clamp => 2

def EpiKind.ofCode (n : Nat) : Option EpiKind :=
  match n with
  | 0 => some .plain | 1 => some .relu | 2 => some .clamp
  | _ => none

/-- Output formats of MSTS (R170), numbered as EpiOut's floating ones. -/
def mstsCode : FFmt → BitVec 3
  | .f32 => 0 | .bf16 => 1 | .f16 => 2 | .e4m3 => 3 | .e5m2 => 4

def mstsOf (n : Nat) : Option FFmt :=
  match n with
  | 0 => some .f32 | 1 => some .bf16 | 2 => some .f16 | 3 => some .e4m3 | 4 => some .e5m2
  | _ => none

/-! ## Encoding -/

/-- A word with every operand field zero. -/
def Raw.base (len : Len) (op : BitVec 8) (g : Guard) : Raw :=
  ⟨len, op, g, 0, 0, 0, 0, 0, 0, 0, 0, 0, 0, 0⟩

/-- FN of the integer blocks (R20, R28). -/
def intFn (sel : BitVec 2) (sub : BitVec 3) (sat : Bool) (ty : IntTy) : BitVec 10 :=
  sel ++ sub ++ BitVec.ofBool sat ++ ty.code

/-- FN of the floating-point block (R20, R29). -/
def fltFn (sel : BitVec 2) (sub : BitVec 3) (fmt : FFmt) (rm : Rm) : BitVec 10 :=
  sel ++ sub ++ fmt.code ++ rm.code

/-- FN of the lane block (R103). -/
def laneFn (sel : BitVec 2) (x : Bool) (opn : BitVec 3) (ty : BitVec 4) : BitVec 10 :=
  sel ++ BitVec.ofBool x ++ opn ++ ty

/-- FN of the access word (R124). -/
def memFn (sel : BitVec 2) (noofs : Bool) (ord : Ord) (ty : BitVec 4) : BitVec 10 :=
  sel ++ BitVec.ofBool noofs ++ ordCode ord ++ ty

/-- FN of the atomics (R132). -/
def atomFn (sel : BitVec 2) (ord : Ord) (wide : Bool) (op : AtomOp) : BitVec 10 :=
  sel ++ ordCode ord ++ BitVec.ofBool wide ++ op.code

/-- FN[9:8] of a B source (R20). -/
def BSrc.sel : BSrc → BitVec 2
  | .vec _ => 0
  | .scalar _ => 2
  | .imm _ => 1

def RSrc.sel : RSrc → BitVec 2
  | .vec _ => 0
  | .scalar _ => 2

def SSrc.sel : SSrc → BitVec 2
  | .reg _ => 0
  | .imm _ => 1

def AOff.sel : AOff → BitVec 2
  | .absent | .vec _ => 0
  | .scalar _ => 2

def IdSrc.sel : IdSrc → BitVec 2
  | .vec _ => 0
  | .scalar _ => 2

def Raw.setA (r : Raw) (v : VSrc) : Raw := { r with a := v.r, la := v.pat.code }

def Raw.setC (r : Raw) (v : VSrc) : Raw := { r with c := v.r, lc := v.pat.code }

/-- The immediate field of a length: X16 at 96 bits, IMM32 at 128 (R22). -/
def Raw.setImm (r : Raw) (x : BitVec 32) : Raw :=
  match r.len with
  | .w64 => r
  | .w96 => { r with x16 := x.setWidth 16 }
  | .w128 => { r with imm32 := x }

def Raw.setB (r : Raw) : BSrc → Raw
  | .vec v => { r with b := v.r, lb := v.pat.code }
  | .scalar s => { r with b := s.setWidth 7 }
  | .imm x => r.setImm x

def Raw.setRB (r : Raw) : RSrc → Raw
  | .vec v => { r with b := v.r, lb := v.pat.code }
  | .scalar s => { r with b := s.setWidth 7 }

def Raw.setSB (r : Raw) : SSrc → Raw
  | .reg s => { r with b := s.setWidth 7 }
  | .imm x => r.setImm x

def Raw.setOff (r : Raw) : AOff → Raw
  | .absent => r
  | .vec v => { r with b := v.r, lb := v.pat.code }
  | .scalar s => { r with b := s.setWidth 7 }

def Raw.setId (r : Raw) : IdSrc → Raw
  | .vec v => { r with b := v.r, lb := v.pat.code }
  | .scalar s => { r with b := s.setWidth 7 }

/-- A of LD (R124). -/
def ABase.code : ABase → BitVec 7
  | .scalar s => s.setWidth 7
  | .pair k => (1 : BitVec 1) ++ k

def ABase.ofCode (x : BitVec 7) : ABase :=
  if x.toNat < 64 then .scalar (x.setWidth 6) else .pair (x.setWidth 6)

def Target.code : Target → BitVec 7
  | .vec r => r
  | .scalar s => s.setWidth 7

def Target.fn : Target → BitVec 10
  | .vec _ => 0
  | .scalar _ => 1

def OpBare.raw (op : BitVec 8) (o : OpBare) : Raw := .base .w64 op o.g

def OpV2.raw (op : BitVec 8) (o : OpV2) : Raw :=
  (({ Raw.base o.len op o.g with d := o.d, fn := intFn o.b.sel 0 o.sat o.ty }).setA o.a).setB o.b

def OpCarry.raw (op : BitVec 8) (o : OpCarry) : Raw :=
  (({ Raw.base .w96 op o.g with d := o.d, c := o.cin.setWidth 7, x16 := o.cout.setWidth 16, fn := intFn o.b.sel 0 false o.ty }).setA o.a).setRB o.b

def OpV3.raw (op : BitVec 8) (o : OpV3) : Raw :=
  ((({ Raw.base .w96 op o.g with d := o.d, fn := intFn o.b.sel 0 o.sat o.ty }).setA o.a).setRB o.b).setC o.c

def OpLea.raw (op : BitVec 8) (o : OpLea) : Raw :=
  ((({ Raw.base .w96 op o.g with d := o.d, fn := intFn o.b.sel o.scale false o.ty }).setA o.a).setRB o.b).setC o.c

def OpSel.raw (op : BitVec 8) (o : OpSel) : Raw :=
  (({ Raw.base .w96 op o.g with d := o.d, c := o.c.setWidth 7, fn := intFn o.b.sel 0 false o.ty }).setA o.a).setRB o.b

def OpV1.raw (op : BitVec 8) (o : OpV1) : Raw :=
  ({ Raw.base .w64 op o.g with d := o.d, fn := intFn 0 0 o.sat o.ty }).setA o.a

def OpIset.raw (op : BitVec 8) (o : OpIset) : Raw :=
  (({ Raw.base o.len op o.g with d := o.d.setWidth 7, fn := intFn o.b.sel o.cond.code false o.ty }).setA o.a).setB o.b

def OpS2.raw (op : BitVec 8) (o : OpS2) : Raw :=
  ({ Raw.base o.len op o.g with d := o.d.setWidth 7, a := o.a.setWidth 7, fn := intFn o.b.sel 0 o.sat o.ty }).setSB o.b

def OpSset.raw (op : BitVec 8) (o : OpSset) : Raw :=
  ({ Raw.base o.len op o.g with d := o.d.setWidth 7, a := o.a.setWidth 7, fn := intFn o.b.sel o.cond.code false o.ty }).setSB o.b

def OpSli.raw (op : BitVec 8) (o : OpSli) : Raw :=
  let r := { Raw.base o.len op o.g with d := o.d.setWidth 7, fn := intFn 0 0 false o.ty }
  match o.len with
  | .w64 => r
  | .w96 => { r with x16 := o.imm.setWidth 16 }
  | .w128 => { r with imm32 := o.imm.extractLsb' 0 32, x32 := o.imm.extractLsb' 32 32 }

def OpSmov.raw (op : BitVec 8) (o : OpSmov) : Raw :=
  { Raw.base .w64 op o.g with d := o.d.setWidth 7, a := o.a.setWidth 7, fn := intFn 0 0 false o.ty }

def OpSlea.raw (op : BitVec 8) (o : OpSlea) : Raw :=
  { Raw.base .w96 op o.g with d := o.d.setWidth 7, a := o.a.setWidth 7, b := o.b.setWidth 7, c := o.c.setWidth 7, fn := intFn 0 o.scale false o.ty }

def OpF2.raw (op : BitVec 8) (o : OpF2) : Raw :=
  (({ Raw.base o.len op o.g with d := o.d, fn := fltFn o.b.sel 0 o.fmt o.rm }).setA o.a).setB o.b

def OpFmm.raw (op : BitVec 8) (o : OpFmm) : Raw :=
  (({ Raw.base o.len op o.g with d := o.d, fn := fltFn o.b.sel (if o.num then 1 else 0) o.fmt .rne }).setA o.a).setB o.b

def OpFset.raw (op : BitVec 8) (o : OpFset) : Raw :=
  (({ Raw.base o.len op o.g with d := o.d.setWidth 7, fn := fltFn o.b.sel o.cond.code o.fmt .rne }).setA o.a).setB o.b

def OpF3.raw (op : BitVec 8) (o : OpF3) : Raw :=
  ((({ Raw.base .w96 op o.g with d := o.d, fn := fltFn o.b.sel 0 o.fmt o.rm }).setA o.a).setRB o.b).setC o.c

def OpPk2.raw (op : BitVec 8) (o : OpPk2) : Raw :=
  (({ Raw.base o.len op o.g with d := o.d, fn := fltFn o.b.sel o.route.code o.fmt o.rm }).setA o.a).setB o.b

def OpPk3.raw (op : BitVec 8) (o : OpPk3) : Raw :=
  ((({ Raw.base .w96 op o.g with d := o.d, fn := fltFn o.b.sel o.route.code o.fmt o.rm }).setA o.a).setRB o.b).setC o.c

def OpFclass.raw (op : BitVec 8) (o : OpFclass) : Raw :=
  ({ Raw.base .w64 op o.g with d := o.d, fn := fltFn 0 0 o.fmt .rne }).setA o.a

def OpFrnd.raw (op : BitVec 8) (o : OpFrnd) : Raw :=
  ({ Raw.base .w64 op o.g with d := o.d, fn := fltFn 0 (if o.exact then 1 else 0) o.fmt o.rm }).setA o.a

def OpF1.raw (op : BitVec 8) (o : OpF1) : Raw :=
  ({ Raw.base .w64 op o.g with d := o.d, fn := fltFn 0 0 o.fmt o.rm }).setA o.a

def OpFcvt.raw (op : BitVec 8) (o : OpFcvt) : Raw :=
  ({ Raw.base .w64 op o.g with d := o.d, fn := fltFn 0 o.src.code o.fmt o.rm }).setA o.a

def OpFint.raw (op : BitVec 8) (o : OpFint) : Raw :=
  ({ Raw.base .w64 op o.g with d := o.d, fn := fltFn 0 (o.ty.code.setWidth 3) o.fmt o.rm }).setA o.a

def OpMov.raw (op : BitVec 8) (o : OpMov) : Raw :=
  ({ Raw.base .w64 op o.g with d := o.d, fn := laneFn 0 false 0 o.ty.code }).setA o.a

def OpMovi.raw (op : BitVec 8) (o : OpMovi) : Raw :=
  ({ Raw.base o.len op o.g with d := o.d, fn := laneFn 0 false 0 o.ty.code }).setImm o.imm

def OpPerm.raw (op : BitVec 8) (o : OpPerm) : Raw :=
  (({ Raw.base .w64 op o.g with d := o.d, fn := laneFn o.b.sel false 0 o.ty.code }).setA o.a).setRB o.b

def OpBallot.raw (op : BitVec 8) (o : OpBallot) : Raw :=
  { Raw.base .w64 op o.g with d := o.d.setWidth 7, a := o.a.setWidth 7 }

def OpVote.raw (op : BitVec 8) (o : OpVote) : Raw :=
  { Raw.base .w64 op o.g with d := o.d.setWidth 7, a := o.a.setWidth 7, fn := laneFn 0 false o.kind.code 0 }

def OpRdlane.raw (op : BitVec 8) (o : OpRdlane) : Raw :=
  (({ Raw.base o.len op o.g with d := o.d.setWidth 7, fn := laneFn o.n.sel false 0 o.ty.code }).setA o.a).setB o.n

def OpWrlane.raw (op : BitVec 8) (o : OpWrlane) : Raw :=
  ({ Raw.base o.len op o.g with d := o.d, a := o.a.setWidth 7, fn := laneFn o.n.sel false 0 o.ty.code }).setB o.n

def OpBsel.raw (op : BitVec 8) (o : OpBsel) : Raw :=
  ((({ Raw.base .w96 op o.g with d := o.d, fn := laneFn o.b.sel false 0 0 }).setA o.a).setRB o.b).setC o.c

def OpScan.raw (op : BitVec 8) (o : OpScan) : Raw :=
  ({ Raw.base .w64 op o.g with d := o.d, fn := laneFn 0 o.excl o.op.code o.ty.code }).setA o.a

def OpP2.raw (op : BitVec 8) (o : OpP2) : Raw :=
  { Raw.base .w64 op o.g with d := o.d.setWidth 7, a := o.a.setWidth 7, b := o.b.setWidth 7, fn := (0 : BitVec 8) ++ BitVec.ofBool o.invB ++ BitVec.ofBool o.invA }

def OpP1.raw (op : BitVec 8) (o : OpP1) : Raw :=
  { Raw.base .w64 op o.g with d := o.d.setWidth 7, a := o.a.setWidth 7 }

def OpMem.raw (op : BitVec 8) (o : OpMem) : Raw :=
  ({ Raw.base o.len op o.g with d := o.d, a := o.base.code, imm32 := o.disp, fn := memFn o.off.sel (o.off == AOff.absent) o.ord o.ty.code }).setOff o.off

def OpMemS.raw (op : BitVec 8) (o : OpMemS) : Raw :=
  ({ Raw.base o.len op o.g with d := o.d, a := o.base.setWidth 7, imm32 := o.disp, fn := memFn o.off.sel (o.off == AOff.absent) o.ord o.ty.code }).setOff o.off

def OpMemU.raw (op : BitVec 8) (o : OpMemU) : Raw :=
  ({ Raw.base o.len op o.g with d := o.d.setWidth 7, a := o.base.setWidth 7, imm32 := o.disp, fn := memFn o.off.sel (o.off == AOff.absent) o.ord o.ty.code }).setOff o.off

def OpPref.raw (op : BitVec 8) (o : OpPref) : Raw :=
  ({ Raw.base o.len op o.g with a := o.base.code, imm32 := o.disp, fn := memFn o.off.sel (o.off == AOff.absent) none (if o.l2only then 1 else 0) }).setOff o.off

/-- X32 of the cas form (R132). -/
def casX32 (cmp : BitVec 7) (c : VSrc) : BitVec 32 := (0 : BitVec 9) ++ c.pat.code ++ c.r ++ cmp

def OpAtom.raw (op : BitVec 8) (o : OpAtom) : Raw :=
  let fn := atomFn o.off.sel o.ord o.wide o.op
  if o.op = .cas then
    ({ Raw.base .w128 op o.g with d := o.d, a := o.base.code, fn := fn, x32 := casX32 o.cmp o.c }).setRB o.off
  else
    (({ Raw.base .w96 op o.g with d := o.d, a := o.base.code, fn := fn }).setRB o.off).setC o.c

def OpRed.raw (op : BitVec 8) (o : OpRed) : Raw :=
  (({ Raw.base .w96 op o.g with a := o.base.code, fn := atomFn o.off.sel o.ord o.wide o.op }).setRB o.off).setC o.c

def OpAtoms.raw (op : BitVec 8) (o : OpAtoms) : Raw :=
  let fn := atomFn o.off.sel o.ord o.wide o.op
  if o.op = .cas then
    ({ Raw.base .w128 op o.g with d := o.d, a := o.base.setWidth 7, fn := fn, x32 := casX32 o.cmp o.c }).setRB o.off
  else
    (({ Raw.base .w96 op o.g with d := o.d, a := o.base.setWidth 7, fn := fn }).setRB o.off).setC o.c

def OpBinit.raw (op : BitVec 8) (o : OpBinit) : Raw :=
  match o.src with
  | .regs b c => { Raw.base .w96 op o.g with a := o.a.setWidth 7, b := b.setWidth 7, c := c.setWidth 7 }
  | .imm n m => { Raw.base .w128 op o.g with a := o.a.setWidth 7, imm32 := m, x32 := n.setWidth 32 }

def OpExpect.raw (op : BitVec 8) (o : OpExpect) : Raw :=
  ({ Raw.base o.len op o.g with a := o.a.setWidth 7, fn := o.b.sel ++ (0 : BitVec 8) }).setB o.b

def OpWait.raw (op : BitVec 8) (o : OpWait) : Raw :=
  ({ Raw.base o.len op o.g with d := o.d.setWidth 7, a := o.a.setWidth 7, fn := o.b.sel ++ (0 : BitVec 8) }).setB o.b

/-- X32 of the engine words (R150). -/
def OpEng.x32 (o : OpEng) : BitVec 32 :=
  (0 : BitVec 5) ++ o.qsrc ++ o.qb ++ o.dcap ++ o.scap ++ (0 : BitVec 4) ++ o.mc ++ BitVec.ofBool o.bv ++ (0 : BitVec 1) ++ o.hnd

def OpEng.raw (op : BitVec 8) (o : OpEng) : Raw :=
  { Raw.base .w128 op o.g with
    d := o.d.setWidth 7, a := o.a.setWidth 7, b := o.b, imm32 := o.imm, x32 := o.x32,
    fn := (0 : BitVec 2) ++ BitVec.ofBool o.gate ++ o.var ++ o.dsp.code ++ o.ssp.code }

def OpRpush.raw (op : BitVec 8) (o : OpRpush) : Raw :=
  { Raw.base .w96 op o.g with
    d := o.d.setWidth 7, a := o.a.setWidth 7, b := o.b.setWidth 7, c := o.c.setWidth 7,
    x16 := (0 : BitVec 7) ++ o.scap ++ o.ssp.code ++ o.rot ++ BitVec.ofBool o.twod }

def MSrc.bit : MSrc → BitVec 1
  | .regs _ => 0
  | .desc _ => 1

def MSrc.reg : MSrc → BitVec 7
  | .regs r => r
  | .desc s => s.setWidth 7

def OpMma.raw (op : BitVec 8) (o : OpMma) : Raw :=
  { Raw.base o.len op o.g with
    a := o.a.reg, b := o.b.reg, c := o.ea, x16 := o.kappa ++ o.eb,
    fn := (0 : BitVec 4) ++ o.b.bit ++ o.a.bit ++ o.fmt.code }

def OpMepi.raw (op : BitVec 8) (o : OpMepi) : Raw :=
  { Raw.base .w128 op o.g with
    a := o.a.setWidth 7, b := o.b.setWidth 7, imm32 := o.lo, x32 := o.hi,
    fn := (0 : BitVec 5) ++ o.kind.code ++ o.out.code }

def OpMsts.raw (op : BitVec 8) (o : OpMsts) : Raw :=
  { Raw.base .w96 op o.g with
    a := o.a.setWidth 7, b := o.b.setWidth 7, c := o.c.setWidth 7,
    x16 := (0 : BitVec 2) ++ BitVec.ofBool o.trans ++ o.n ++ o.row0,
    fn := (0 : BitVec 5) ++ o.rm.code ++ mstsCode o.fmt }

def OpBequeath.raw (op : BitVec 8) (o : OpBequeath) : Raw :=
  ({ Raw.base .w96 op o.g with
    a := o.a, c := o.c.setWidth 7, x16 := (0 : BitVec 4) ++ o.tag.code ++ o.mask,
    fn := o.id.sel ++ (0 : BitVec 8) }).setId o.id

def OpClaim.raw (op : BitVec 8) (o : OpClaim) : Raw :=
  ({ Raw.base .w96 op o.g with
    d := o.d, a := o.a.setWidth 7, c := o.c.setWidth 7,
    x16 := (0 : BitVec 4) ++ o.tag.code ++ (0 : BitVec 4) ++ o.n,
    fn := o.id.sel ++ (0 : BitVec 8) }).setId o.id

def OpEstate.raw (op : BitVec 8) (drop : Bool) (o : OpEstate) : Raw :=
  ({ Raw.base .w64 op o.g with
    d := o.d, a := o.a.setWidth 7, fn := o.id.sel ++ (0 : BitVec 7) ++ BitVec.ofBool drop }).setId o.id

def OpSrd.raw (op : BitVec 8) (o : OpSrd) : Raw :=
  let w : BitVec 4 := if o.wide then 7 else 6
  let r := match o.d with
    | .vec d => { Raw.base .w64 op o.g with d := d, a := o.idx, fn := o.elem.sel ++ (0 : BitVec 3) ++ (0 : BitVec 1) ++ w }
    | .scalar d => { Raw.base .w64 op o.g with d := d.setWidth 7, a := o.idx, fn := o.elem.sel ++ (0 : BitVec 3) ++ (1 : BitVec 1) ++ w }
  r.setOff o.elem

def OpSwr.raw (op : BitVec 8) (o : OpSwr) : Raw :=
  { Raw.base .w64 op o.g with d := 15, a := o.a.setWidth 7, fn := if o.wide then 7 else 6 }

def OpGrow.raw (op : BitVec 8) (o : OpGrow) : Raw :=
  ({ Raw.base o.len op o.g with d := o.d.setWidth 7, fn := o.b.sel ++ (0 : BitVec 8) }).setB o.b

def OpShrink.raw (op : BitVec 8) (o : OpShrink) : Raw :=
  ({ Raw.base o.len op o.g with fn := o.b.sel ++ (0 : BitVec 8) }).setB o.b

/-- The fields of an instruction's word, by the opcode map (R26); none for an event. -/
def Instr.raw : Instr → Option Raw
  | .nop o => some (.base o.len 0x00 o.g)
  | .bra o => some ((Raw.base o.len 0x01 o.g).setImm o.off)
  | .brx o => some { Raw.base .w64 0x02 o.g with a := o.tgt.code, fn := o.tgt.fn }
  | .call o => some { Raw.base .w128 0x03 o.g with imm32 := o.off, x32 := o.frame.setWidth 32 }
  | .callx o => some { Raw.base .w96 0x04 o.g with a := o.tgt.code, fn := o.tgt.fn, x16 := o.frame.setWidth 16 }
  | .ret o => some (o.raw 0x05)
  | .fork o => some { Raw.base .w128 0x06 o.g with d := o.d.setWidth 7, a := o.mask.setWidth 7, imm32 := o.off }
  | .endF o => some (o.raw 0x07)
  | .yield o => some (o.raw 0x08)
  | .region o => some (o.raw 0x09)
  | .trap o => some { Raw.base .w96 0x0A o.g with x16 := o.code }
  | .brk o => some { Raw.base .w96 0x0B o.g with x16 := o.code }
  | .add o => some (o.raw 0x10)
  | .sub o => some (o.raw 0x11)
  | .addc o => some (o.raw 0x12)
  | .subb o => some (o.raw 0x13)
  | .mul o => some (o.raw 0x14)
  | .mulh o => some (o.raw 0x15)
  | .mad o => some (o.raw 0x16)
  | .madw o => some (o.raw 0x17)
  | .div o => some (o.raw 0x18)
  | .rem o => some (o.raw 0x19)
  | .abs o => some (o.raw 0x1A)
  | .neg o => some (o.raw 0x1B)
  | .min o => some (o.raw 0x1C)
  | .max o => some (o.raw 0x1D)
  | .and o => some (o.raw 0x1E)
  | .or o => some (o.raw 0x1F)
  | .xor o => some (o.raw 0x20)
  | .andn o => some (o.raw 0x21)
  | .shl o => some (o.raw 0x22)
  | .shr o => some (o.raw 0x23)
  | .sar o => some (o.raw 0x24)
  | .rot o => some (o.raw 0x25)
  | .clz o => some (o.raw 0x26)
  | .popc o => some (o.raw 0x27)
  | .brev o => some (o.raw 0x28)
  | .bfe o => some (o.raw 0x29)
  | .bfi o => some (o.raw 0x2A)
  | .lea o => some (o.raw 0x2B)
  | .sel o => some (o.raw 0x2C)
  | .iset o => some (o.raw 0x2D)
  | .sadd o => some (o.raw 0x30)
  | .ssub o => some (o.raw 0x31)
  | .smul o => some (o.raw 0x32)
  | .sand o => some (o.raw 0x33)
  | .sor o => some (o.raw 0x34)
  | .sxor o => some (o.raw 0x35)
  | .sshl o => some (o.raw 0x36)
  | .sshr o => some (o.raw 0x37)
  | .ssar o => some (o.raw 0x38)
  | .smin o => some (o.raw 0x39)
  | .smax o => some (o.raw 0x3A)
  | .sset o => some (o.raw 0x3B)
  | .sli o => some (o.raw 0x3C)
  | .smov o => some (o.raw 0x3D)
  | .sbfe o => some (o.raw 0x3E)
  | .slea o => some (o.raw 0x3F)
  | .fadd o => some (o.raw 0x40)
  | .fsub o => some (o.raw 0x41)
  | .fmul o => some (o.raw 0x42)
  | .fma o => some (o.raw 0x43)
  | .fmin o => some (o.raw 0x44)
  | .fmax o => some (o.raw 0x45)
  | .fset o => some (o.raw 0x46)
  | .fclass o => some (o.raw 0x47)
  | .frnd o => some (o.raw 0x48)
  | .fscale o => some (o.raw 0x49)
  | .frcp o => some (o.raw 0x4A)
  | .fsqrt o => some (o.raw 0x4B)
  | .frsq o => some (o.raw 0x4C)
  | .fexp2 o => some (o.raw 0x4D)
  | .flog2 o => some (o.raw 0x4E)
  | .fsinpi o => some (o.raw 0x4F)
  | .fcospi o => some (o.raw 0x50)
  | .fcvt o => some (o.raw 0x51)
  | .ftoi o => some (o.raw 0x52)
  | .itof o => some (o.raw 0x53)
  | .pkadd o => some (o.raw 0x54)
  | .pkmul o => some (o.raw 0x55)
  | .pkfma o => some (o.raw 0x56)
  | .fdot2 o => some (o.raw 0x57)
  | .fdot4 o => some (o.raw 0x58)
  | .mov o => some (o.raw 0x60)
  | .movi o => some (o.raw 0x61)
  | .perm o => some (o.raw 0x62)
  | .ballot o => some (o.raw 0x63)
  | .vote o => some (o.raw 0x64)
  | .rdlane o => some (o.raw 0x65)
  | .wrlane o => some (o.raw 0x66)
  | .bsel o => some (o.raw 0x67)
  | .scan o => some (o.raw 0x68)
  | .reduce o => some (o.raw 0x69)
  | .pand o => some (o.raw 0x6A)
  | .por o => some (o.raw 0x6B)
  | .pxor o => some (o.raw 0x6C)
  | .pnot o => some (o.raw 0x6D)
  | .pmov o => some (o.raw 0x6E)
  | .ld o => some (o.raw 0x70)
  | .st o => some (o.raw 0x71)
  | .lds o => some (o.raw 0x72)
  | .sts o => some (o.raw 0x73)
  | .ldu o => some (o.raw 0x74)
  | .stu o => some (o.raw 0x75)
  | .pref o => some (o.raw 0x76)
  | .atom o => some (o.raw 0x80)
  | .red o => some (o.raw 0x81)
  | .atoms o => some (o.raw 0x82)
  | .fence o => some { Raw.base .w64 0x83 o.g with fn := (0 : BitVec 5) ++ o.scope.code ++ o.kind.code }
  | .binit o => some (o.raw 0x90)
  | .arrive o => some { Raw.base .w64 0x91 o.g with a := o.a.setWidth 7 }
  | .expect o => some (o.raw 0x92)
  | .wait o => some (o.raw 0x93)
  | .btest o => some (o.raw 0x94)
  | .bphase o => some { Raw.base .w64 0x95 o.g with d := o.d.setWidth 7, a := o.a.setWidth 7 }
  | .cpy o => some (o.raw 0xA0)
  | .cpy2d o => some (o.raw 0xA1)
  | .gather o => some (o.raw 0xA2)
  | .scatter o => some (o.raw 0xA3)
  | .qcpy o => some (o.raw 0xA4)
  | .coll o => some (o.raw 0xA5)
  | .rpush o => some (o.raw 0xA6)
  | .rfree o => some { Raw.base .w64 0xA7 o.g with a := o.a.setWidth 7, b := o.b.setWidth 7 }
  | .mmodeOn o => some { Raw.base .w64 0xB0 o.g with fn := 1 }
  | .mmodeOff o => some (o.raw 0xB0)
  | .mzero o => some (o.raw 0xB1)
  | .mma o => some (o.raw 0xB2)
  | .mepi o => some (o.raw 0xB3)
  | .msts o => some (o.raw 0xB4)
  | .bequeath o => some (o.raw 0xC0)
  | .claim o => some (o.raw 0xC1)
  | .estate o => some (o.raw 0xC2 false)
  | .estateDrop o => some (o.raw 0xC2 true)
  | .migrate o => some { Raw.base .w64 0xC3 o.g with d := o.d.setWidth 7, a := o.a.code }
  | .launch o => some { Raw.base .w64 0xC4 o.g with d := o.d.setWidth 7, a := o.a.setWidth 7 }
  | .remit o => some { Raw.base .w64 0xC5 o.g with d := o.d.setWidth 7, a := o.a.setWidth 7, b := o.b.setWidth 7 }
  | .srd o => some (o.raw 0xD0)
  | .swr o => some (o.raw 0xD1)
  | .grow o => some (o.raw 0xD2)
  | .shrink o => some (o.raw 0xD3)
  | .growServe .. | .growDeadlockBreak .. | .missRetry .. | .loadDataReturn .. | .accept .. | .reveal ..
  | .send .. | .perform .. | .inval .. | .fill .. | .read .. | .atomic .. | .event .. | .engineRead ..
  | .engineLanding .. | .ringFreeWaitMet .. | .collStart .. | .mmaLanding .. | .gridOpLanding ..
  | .claimDelivery .. | .migrateGrant .. | .migrationLanding .. | .xlateRetryResend .. | .launchPacket ..
  | .waitPacket .. | .waitPacketReturn .. | .arrivePacket .. | .binitPacket .. | .seqopen .. | .seqclose ..
  | .seqcloseDrained .. | .seqcloseEnginesDone .. | .seqcloseInvalDone .. | .sweep .. | .queueMap ..
  | .dependenceRelease .. | .leaseSetup .. | .groupPlacement .. | .timedStart .. | .priorityDiscard ..
  | .discardRestart .. | .launchEnd .. | .nodeBatchTimer .. | .networkLaunchRequest .. | .launchTableWrite ..
  | .nodeTableWrite .. | .capabilityMint .. | .worldCreate .. | .worldDestroy .. | .powerCapWrite ..
  | .partitionRegisterWrite .. | .configRegisterWrite .. | .watchRangeWrite .. | .rampInterval ..
  | .droopStretch .. | .persistentDroopStep .. | .droopRestore .. | .thermalLimitStep .. | .thermalRestore ..
  | .emberCheck .. | .hostThaw .. | .hostEndLaunch .. | .bandwidthRefill .. | .quantumExpiry ..
  | .contextRestore .. | .invalidation .. | .invalidationComplete .. | .pageMove .. | .peerDownNotice ..
  | .flitResend .. | .linkRetrain .. | .retrainComplete .. | .eccCorrected .. | .eccUncorrectable ..
  | .patrolScrub .. | .roundBoundary .. | .rick .. | .sendLogFull .. | .warmReset .. | .rejoin ..
  | .lemmelContinue .. | .lemmelStep .. | .lemmelEndLaunch .. | .lemmelArmDiscard .. | .lemmelArmReset ..
  | .powerOn .. | .firmwareLoad .. | .getVersion .. | .getCapabilities .. | .negotiateAlgorithms .. | .getDigests ..
  | .getCertificate .. | .challenge .. | .getMeasurements .. | .keyExchange .. | .finish .. | .endSession ..
  | .counterSnapshot .. | .energyApportion .. | .ageUpdate .. | .illegalWordFetch .. | .queueUnmap ..
  | .mappingRequest .. | .expanderStopsAnswering .. | .linkKeyReplace .. => none

/-- The bytes of a word, lowest address first (R11). -/
def wordBytes (n : Nat) (w : BitVec 128) : List Byte :=
  (List.range n).map (fun k => w.extractLsb' (8 * k) 8)

/-- The word an instruction is encoded as, of its length in bits; none for an event. -/
def encode (i : Instr) : Option (Len × BitVec 128) := i.raw.map (fun r => (r.len, r.word))

/-- The bytes an instruction is stored as (R11); empty for an event. -/
def encodeBytes (i : Instr) : List Byte :=
  match i.raw with
  | some r => wordBytes r.len.bytes r.word
  | none => []

/-! ## Decoding -/

/-- FN bits [lo + n - 1 : lo] as a number. -/
def Raw.fnBits (r : Raw) (lo n : Nat) : Nat := (r.fn.extractLsb' lo n).toNat

def Raw.vsA (r : Raw) : VSrc := ⟨r.a, .ofCode r.la⟩
def Raw.vsC (r : Raw) : VSrc := ⟨r.c, .ofCode r.lc⟩
def Raw.dS (r : Raw) : BitVec 6 := r.d.setWidth 6
def Raw.aS (r : Raw) : BitVec 6 := r.a.setWidth 6
def Raw.bS (r : Raw) : BitVec 6 := r.b.setWidth 6
def Raw.cS (r : Raw) : BitVec 6 := r.c.setWidth 6
def Raw.dP (r : Raw) : BitVec 4 := r.d.setWidth 4
def Raw.aP (r : Raw) : BitVec 4 := r.a.setWidth 4
def Raw.bP (r : Raw) : BitVec 4 := r.b.setWidth 4
def Raw.cP (r : Raw) : BitVec 4 := r.c.setWidth 4

/-- X16 or IMM32 as 32 bits, by the length. -/
def Raw.imm (r : Raw) : BitVec 32 :=
  match r.len with
  | .w64 => 0
  | .w96 => r.x16.setWidth 32
  | .w128 => r.imm32

/-- R20: B is below 64 with LB zero, as a scalar B must be. -/
def Raw.bIsScalar (r : Raw) : Bool := r.b.toNat < 64 && r.lb == 0

/-- The B source of R20; none where R20 makes the word ILLEGAL. -/
def Raw.bsrc (r : Raw) : Option BSrc :=
  match r.fnBits 8 2 with
  | 0 => some (.vec ⟨r.b, .ofCode r.lb⟩)
  | 1 => if r.len != .w64 && r.b == 0 && r.lb == 0 then some (.imm r.imm) else none
  | 2 => if r.bIsScalar then some (.scalar r.bS) else none
  | _ => none

/-- The B source of an entry without an immediate. -/
def Raw.rsrc (r : Raw) : Option RSrc :=
  match r.fnBits 8 2 with
  | 0 => some (.vec ⟨r.b, .ofCode r.lb⟩)
  | 2 => if r.bIsScalar then some (.scalar r.bS) else none
  | _ => none

/-- The B source of a scalar instruction (R81). -/
def Raw.ssrc (r : Raw) : Option SSrc :=
  match r.fnBits 8 2 with
  | 0 => some (.reg r.bS)
  | 1 => if r.len != .w64 && r.b == 0 && r.lb == 0 then some (.imm r.imm) else none
  | _ => none

/-- The offset register of the access word (R124). -/
def Raw.aoff (r : Raw) : Option AOff :=
  if r.fn.getLsbD 7 then
    if r.b == 0 && r.lb == 0 && r.fnBits 8 2 == 0 then some .absent else none
  else match r.fnBits 8 2 with
    | 0 => some (.vec ⟨r.b, .ofCode r.lb⟩)
    | 2 => if r.bIsScalar then some (.scalar r.bS) else none
    | _ => none

/-- The identity operand (R174). -/
def Raw.idsrc (r : Raw) : Option IdSrc :=
  match r.fnBits 8 2 with
  | 0 => some (.vec ⟨r.b, .ofCode r.lb⟩)
  | 2 => if r.bIsScalar then some (.scalar r.bS) else none
  | _ => none

def Raw.ity (r : Raw) : Option IntTy := IntTy.ofCode (r.fnBits 0 4)
def Raw.sat (r : Raw) : Bool := r.fn.getLsbD 4
def Raw.fmt (r : Raw) : Option FFmt := FFmt.ofCode (r.fnBits 2 3)
def Raw.rm (r : Raw) : Rm := Rm.ofCode (r.fnBits 0 2)
def Raw.sub (r : Raw) : Nat := r.fnBits 5 3

def Raw.bare (r : Raw) : OpBare := ⟨r.g⟩
def Raw.target (r : Raw) : Target := if r.fn.getLsbD 0 then .scalar r.aS else .vec r.a

def Raw.v2 (r : Raw) : Option OpV2 := do
  return { g := r.g, len := r.len, ty := ← r.ity, sat := r.sat, d := r.d, a := r.vsA, b := ← r.bsrc }
def Raw.carry (r : Raw) : Option OpCarry := do
  return { g := r.g, ty := ← r.ity, d := r.d, a := r.vsA, b := ← r.rsrc, cin := r.cP, cout := r.x16.setWidth 4 }
def Raw.v3 (r : Raw) : Option OpV3 := do
  return { g := r.g, ty := ← r.ity, sat := r.sat, d := r.d, a := r.vsA, b := ← r.rsrc, c := r.vsC }
def Raw.leaOp (r : Raw) : Option OpLea := do
  return { g := r.g, ty := ← r.ity, scale := r.fn.extractLsb' 5 3, d := r.d, a := r.vsA, b := ← r.rsrc, c := r.vsC }
def Raw.selOp (r : Raw) : Option OpSel := do
  return { g := r.g, ty := ← r.ity, d := r.d, a := r.vsA, b := ← r.rsrc, c := r.cP }
def Raw.v1 (r : Raw) : Option OpV1 := do
  return { g := r.g, ty := ← r.ity, sat := r.sat, d := r.d, a := r.vsA }
def Raw.isetOp (r : Raw) : Option OpIset := do
  return { g := r.g, len := r.len, ty := ← r.ity, cond := ← Cond.ofCode r.sub, d := r.dP, a := r.vsA, b := ← r.bsrc }
def Raw.s2 (r : Raw) : Option OpS2 := do
  return { g := r.g, len := r.len, ty := ← r.ity, sat := r.sat, d := r.dS, a := r.aS, b := ← r.ssrc }
def Raw.ssetOp (r : Raw) : Option OpSset := do
  return { g := r.g, len := r.len, ty := ← r.ity, cond := ← Cond.ofCode r.sub, d := r.dP, a := r.aS, b := ← r.ssrc }
def Raw.sliOp (r : Raw) : Option OpSli := do
  return { g := r.g, len := r.len, ty := ← r.ity, d := r.dS,
           imm := if r.len = .w96 then r.x16.setWidth 64 else r.x32 ++ r.imm32 }
def Raw.smovOp (r : Raw) : Option OpSmov := do
  return { g := r.g, ty := ← r.ity, d := r.dS, a := r.aS }
def Raw.sleaOp (r : Raw) : Option OpSlea := do
  return { g := r.g, ty := ← r.ity, scale := r.fn.extractLsb' 5 3, d := r.dS, a := r.aS, b := r.bS, c := r.cS }
def Raw.f2 (r : Raw) : Option OpF2 := do
  return { g := r.g, len := r.len, fmt := ← r.fmt, rm := r.rm, d := r.d, a := r.vsA, b := ← r.bsrc }
def Raw.fmm (r : Raw) : Option OpFmm := do
  return { g := r.g, len := r.len, fmt := ← r.fmt, num := r.fn.getLsbD 5, d := r.d, a := r.vsA, b := ← r.bsrc }
def Raw.fsetOp (r : Raw) : Option OpFset := do
  return { g := r.g, len := r.len, fmt := ← r.fmt, cond := .ofCode r.sub, d := r.dP, a := r.vsA, b := ← r.bsrc }
def Raw.f3 (r : Raw) : Option OpF3 := do
  return { g := r.g, fmt := ← r.fmt, rm := r.rm, d := r.d, a := r.vsA, b := ← r.rsrc, c := r.vsC }
def Raw.pk2 (r : Raw) : Option OpPk2 := do
  return { g := r.g, len := r.len, fmt := ← r.fmt, rm := r.rm, route := ← Route.ofCode r.sub, d := r.d, a := r.vsA, b := ← r.bsrc }
def Raw.pk3 (r : Raw) : Option OpPk3 := do
  return { g := r.g, fmt := ← r.fmt, rm := r.rm, route := ← Route.ofCode r.sub, d := r.d, a := r.vsA, b := ← r.rsrc, c := r.vsC }
def Raw.fclassOp (r : Raw) : Option OpFclass := do
  return { g := r.g, fmt := ← r.fmt, d := r.d, a := r.vsA }
def Raw.frndOp (r : Raw) : Option OpFrnd := do
  return { g := r.g, fmt := ← r.fmt, rm := r.rm, exact := r.fn.getLsbD 5, d := r.d, a := r.vsA }
def Raw.f1 (r : Raw) : Option OpF1 := do
  return { g := r.g, fmt := ← r.fmt, rm := r.rm, d := r.d, a := r.vsA }
def Raw.fcvtOp (r : Raw) : Option OpFcvt := do
  return { g := r.g, fmt := ← r.fmt, src := ← FFmt.ofCode r.sub, rm := r.rm, d := r.d, a := r.vsA }
def Raw.fintOp (r : Raw) : Option OpFint := do
  return { g := r.g, fmt := ← r.fmt, ty := ← IntTy.ofCode r.sub, rm := r.rm, d := r.d, a := r.vsA }
def Raw.movOp (r : Raw) : Option OpMov := do
  return { g := r.g, ty := ← r.ity, d := r.d, a := r.vsA }
def Raw.moviOp (r : Raw) : Option OpMovi := do
  return { g := r.g, len := r.len, ty := ← LaneTy.ofCode (r.fnBits 0 4), d := r.d, imm := r.imm }
def Raw.permOp (r : Raw) : Option OpPerm := do
  return { g := r.g, ty := ← r.ity, d := r.d, a := r.vsA, b := ← r.rsrc }
def Raw.voteOp (r : Raw) : Option OpVote := do
  return { g := r.g, kind := ← VoteKind.ofCode (r.fnBits 4 3), d := r.dP, a := r.aP }
def Raw.rdlaneOp (r : Raw) : Option OpRdlane := do
  return { g := r.g, len := r.len, ty := ← r.ity, d := r.dS, a := r.vsA, n := ← r.bsrc }
def Raw.wrlaneOp (r : Raw) : Option OpWrlane := do
  return { g := r.g, len := r.len, ty := ← r.ity, d := r.d, a := r.aS, n := ← r.bsrc }
def Raw.bselOp (r : Raw) : Option OpBsel := do
  return { g := r.g, d := r.d, a := r.vsA, b := ← r.rsrc, c := r.vsC }
def Raw.scanOp (r : Raw) : Option OpScan := do
  return { g := r.g, op := ← CombOp.ofCode (r.fnBits 4 3), ty := ← LaneTy.ofCode (r.fnBits 0 4), excl := r.fn.getLsbD 7, d := r.d, a := r.vsA }
def Raw.p2 (r : Raw) : OpP2 :=
  { g := r.g, invA := r.fn.getLsbD 0, invB := r.fn.getLsbD 1, d := r.dP, a := r.aP, b := r.bP }
def Raw.p1 (r : Raw) : OpP1 := { g := r.g, d := r.dP, a := r.aP }
def Raw.mem (r : Raw) : Option OpMem := do
  return { g := r.g, len := r.len, ty := ← MemTy.ofCode (r.fnBits 0 4), ord := ← ordOf (r.fnBits 4 3), base := .ofCode r.a, off := ← r.aoff, disp := r.imm32, d := r.d }
def Raw.memS (r : Raw) : Option OpMemS := do
  return { g := r.g, len := r.len, ty := ← MemTy.ofCode (r.fnBits 0 4), ord := ← ordOf (r.fnBits 4 3), base := r.aS, off := ← r.aoff, disp := r.imm32, d := r.d }
def Raw.memU (r : Raw) : Option OpMemU := do
  return { g := r.g, len := r.len, ty := ← MemTy.ofCode (r.fnBits 0 4), ord := ← ordOf (r.fnBits 4 3), base := r.aS, off := ← r.aoff, disp := r.imm32, d := r.dS }
def Raw.prefOp (r : Raw) : Option OpPref := do
  return { g := r.g, len := r.len, l2only := r.fn.getLsbD 0, base := .ofCode r.a, off := ← r.aoff, disp := r.imm32 }

/-- R132: cas is the 128-bit form and every other operation the 96-bit one. -/
def Raw.atomForm (r : Raw) (op : AtomOp) : Option (VSrc × BitVec 7) :=
  if op = .cas then
    if r.len = .w128 then some (⟨r.x32.extractLsb' 7 7, .ofCode (r.x32.extractLsb' 14 9)⟩, r.x32.extractLsb' 0 7) else none
  else if r.len = .w96 then some (r.vsC, 0) else none

def Raw.atomOp (r : Raw) : Option OpAtom := do
  let op ← AtomOp.ofCode (r.fnBits 0 4)
  let f ← r.atomForm op
  return { g := r.g, op := op, wide := r.fn.getLsbD 4, ord := ← ordOf (r.fnBits 5 3), base := .ofCode r.a, off := ← r.rsrc, d := r.d, c := f.1, cmp := f.2 }
def Raw.redOp (r : Raw) : Option OpRed := do
  return { g := r.g, op := ← AtomOp.ofCode (r.fnBits 0 4), wide := r.fn.getLsbD 4, ord := ← ordOf (r.fnBits 5 3), base := .ofCode r.a, off := ← r.rsrc, c := r.vsC }
def Raw.atomsOp (r : Raw) : Option OpAtoms := do
  let op ← AtomOp.ofCode (r.fnBits 0 4)
  let f ← r.atomForm op
  return { g := r.g, op := op, wide := r.fn.getLsbD 4, ord := ← ordOf (r.fnBits 5 3), base := r.aS, off := ← r.rsrc, d := r.d, c := f.1, cmp := f.2 }
def Raw.fenceOp (r : Raw) : Option OpFence := do
  return { g := r.g, kind := ← FenceKind.ofCode (r.fnBits 0 2), scope := ← Scope.ofCode (r.fnBits 2 3) }
def Raw.binitOp (r : Raw) : OpBinit :=
  { g := r.g, a := r.aS, src := if r.len = .w96 then .regs r.bS r.cS else .imm (r.x32.setWidth 16) r.imm32 }
def Raw.expectOp (r : Raw) : Option OpExpect := do
  return { g := r.g, len := r.len, a := r.aS, b := ← r.bsrc }
def Raw.waitOp (r : Raw) : Option OpWait := do
  return { g := r.g, len := r.len, d := r.dP, a := r.aS, b := ← r.bsrc }
def Raw.eng (r : Raw) : Option OpEng := do
  return { g := r.g, ssp := ← Space.ofCode (r.fnBits 0 2), dsp := ← Space.ofCode (r.fnBits 2 2),
           var := r.fn.extractLsb' 4 3, gate := r.fn.getLsbD 7, d := r.dS, a := r.aS, b := r.b, imm := r.imm32,
           hnd := r.x32.extractLsb' 0 6, bv := r.x32.getLsbD 7, mc := r.x32.extractLsb' 8 4,
           scap := r.x32.extractLsb' 16 3, dcap := r.x32.extractLsb' 19 3, qb := r.x32.extractLsb' 22 3,
           qsrc := r.x32.extractLsb' 25 2 }

/-- RPUSH (R162). An undefined SSP is an X16 field value, refused at step 9: it gives the global space, whose code differs. -/
def Raw.rpushOp (r : Raw) : OpRpush :=
  { g := r.g, d := r.dS, a := r.aS, b := r.bS, c := r.cS, twod := r.x16.getLsbD 0, rot := r.x16.extractLsb' 1 3,
    ssp := (Space.ofCode (r.x16.extractLsb' 4 2).toNat).getD .global, scap := r.x16.extractLsb' 6 3 }
def Raw.mmaOp (r : Raw) : Option OpMma := do
  return { g := r.g, len := r.len, fmt := ← MFmt.ofCode (r.fnBits 0 4),
           a := if r.fn.getLsbD 4 then .desc r.aS else .regs r.a,
           b := if r.fn.getLsbD 5 then .desc r.bS else .regs r.b,
           ea := r.c, eb := r.x16.extractLsb' 0 7, kappa := r.x16.extractLsb' 7 9 }
def Raw.mepiOp (r : Raw) : Option OpMepi := do
  return { g := r.g, out := ← EpiOut.ofCode (r.fnBits 0 3), kind := ← EpiKind.ofCode (r.fnBits 3 2), a := r.aS, b := r.bS, lo := r.imm32, hi := r.x32 }
def Raw.mstsOp (r : Raw) : Option OpMsts := do
  return { g := r.g, fmt := ← mstsOf (r.fnBits 0 3), rm := Rm.ofCode (r.fnBits 3 2), a := r.aS, b := r.bS, c := r.cS,
           row0 := r.x16.extractLsb' 0 6, n := r.x16.extractLsb' 6 7, trans := r.x16.getLsbD 13 }

/-- BEQUEATH and CLAIM: a TAG of 13 or more is a field value, refused at step 9: it gives .b32, whose code differs. -/
def Raw.tag (r : Raw) : MemTy := (MemTy.ofCode (r.x16.extractLsb' 8 4).toNat).getD (.int .b32)
def Raw.bequeathOp (r : Raw) : Option OpBequeath := do
  return { g := r.g, a := r.a, id := ← r.idsrc, c := r.cP, mask := r.x16.extractLsb' 0 8, tag := r.tag }
def Raw.claimOp (r : Raw) : Option OpClaim := do
  return { g := r.g, d := r.d, a := r.aS, id := ← r.idsrc, c := r.cP, n := r.x16.extractLsb' 0 4, tag := r.tag }
def Raw.estateOp (r : Raw) : Option OpEstate := do
  return { g := r.g, d := r.d, a := r.aS, id := ← r.idsrc }

/-- The width field of SRD and SWR (R184). -/
def Raw.wideRd (r : Raw) : Option Bool :=
  match r.fnBits 0 4 with
  | 6 => some false
  | 7 => some true
  | _ => none
def Raw.srdElem (r : Raw) : Option AOff :=
  if r.a = 25 then
    match r.fnBits 8 2 with
    | 0 => some (.vec ⟨r.b, .ofCode r.lb⟩)
    | 2 => if r.bIsScalar then some (.scalar r.bS) else none
    | _ => none
  else some .absent
def Raw.srdOp (r : Raw) : Option OpSrd := do
  return { g := r.g, wide := ← r.wideRd, d := if r.fn.getLsbD 4 then .scalar r.dS else .vec r.d, idx := r.a, elem := ← r.srdElem }
def Raw.swrOp (r : Raw) : Option OpSwr := do
  return { g := r.g, wide := ← r.wideRd, a := r.aS }
def Raw.growOp (r : Raw) : Option OpGrow := do
  return { g := r.g, len := r.len, d := r.dP, b := ← r.bsrc }
def Raw.shrinkOp (r : Raw) : Option OpShrink := do
  return { g := r.g, len := r.len, b := ← r.bsrc }

/-- The opcode map (R26): how an assigned opcode's fields are read. An unassigned opcode has no row. The inner
value is none where FN holds a value the entry does not define (step 8). -/
def opRow (op : Nat) (r : Raw) : Option (Option Instr) :=
  match op with
  | 0x00 => some (some (.nop ⟨r.g, r.len⟩))
  | 0x01 => some (some (.bra ⟨r.g, r.len, r.imm⟩))
  | 0x02 => some (some (.brx ⟨r.g, r.target⟩))
  | 0x03 => some (some (.call ⟨r.g, r.imm32, r.x32.setWidth 7⟩))
  | 0x04 => some (some (.callx ⟨r.g, r.target, r.x16.setWidth 7⟩))
  | 0x05 => some (some (.ret r.bare))
  | 0x06 => some (some (.fork ⟨r.g, r.dP, r.aS, r.imm32⟩))
  | 0x07 => some (some (.endF r.bare))
  | 0x08 => some (some (.yield r.bare))
  | 0x09 => some (some (.region r.bare))
  | 0x0A => some (some (.trap ⟨r.g, r.x16⟩))
  | 0x0B => some (some (.brk ⟨r.g, r.x16⟩))
  | 0x10 => some (r.v2.map .add)
  | 0x11 => some (r.v2.map .sub)
  | 0x12 => some (r.carry.map .addc)
  | 0x13 => some (r.carry.map .subb)
  | 0x14 => some (r.v2.map .mul)
  | 0x15 => some (r.v2.map .mulh)
  | 0x16 => some (r.v3.map .mad)
  | 0x17 => some (r.v3.map .madw)
  | 0x18 => some (r.v2.map .div)
  | 0x19 => some (r.v2.map .rem)
  | 0x1A => some (r.v1.map .abs)
  | 0x1B => some (r.v1.map .neg)
  | 0x1C => some (r.v2.map .min)
  | 0x1D => some (r.v2.map .max)
  | 0x1E => some (r.v2.map .and)
  | 0x1F => some (r.v2.map .or)
  | 0x20 => some (r.v2.map .xor)
  | 0x21 => some (r.v2.map .andn)
  | 0x22 => some (r.v2.map .shl)
  | 0x23 => some (r.v2.map .shr)
  | 0x24 => some (r.v2.map .sar)
  | 0x25 => some (r.v2.map .rot)
  | 0x26 => some (r.v1.map .clz)
  | 0x27 => some (r.v1.map .popc)
  | 0x28 => some (r.v1.map .brev)
  | 0x29 => some (r.v2.map .bfe)
  | 0x2A => some (r.v3.map .bfi)
  | 0x2B => some (r.leaOp.map .lea)
  | 0x2C => some (r.selOp.map .sel)
  | 0x2D => some (r.isetOp.map .iset)
  | 0x30 => some (r.s2.map .sadd)
  | 0x31 => some (r.s2.map .ssub)
  | 0x32 => some (r.s2.map .smul)
  | 0x33 => some (r.s2.map .sand)
  | 0x34 => some (r.s2.map .sor)
  | 0x35 => some (r.s2.map .sxor)
  | 0x36 => some (r.s2.map .sshl)
  | 0x37 => some (r.s2.map .sshr)
  | 0x38 => some (r.s2.map .ssar)
  | 0x39 => some (r.s2.map .smin)
  | 0x3A => some (r.s2.map .smax)
  | 0x3B => some (r.ssetOp.map .sset)
  | 0x3C => some (r.sliOp.map .sli)
  | 0x3D => some (r.smovOp.map .smov)
  | 0x3E => some (r.s2.map .sbfe)
  | 0x3F => some (r.sleaOp.map .slea)
  | 0x40 => some (r.f2.map .fadd)
  | 0x41 => some (r.f2.map .fsub)
  | 0x42 => some (r.f2.map .fmul)
  | 0x43 => some (r.f3.map .fma)
  | 0x44 => some (r.fmm.map .fmin)
  | 0x45 => some (r.fmm.map .fmax)
  | 0x46 => some (r.fsetOp.map .fset)
  | 0x47 => some (r.fclassOp.map .fclass)
  | 0x48 => some (r.frndOp.map .frnd)
  | 0x49 => some (r.f2.map .fscale)
  | 0x4A => some (r.f1.map .frcp)
  | 0x4B => some (r.f1.map .fsqrt)
  | 0x4C => some (r.f1.map .frsq)
  | 0x4D => some (r.f1.map .fexp2)
  | 0x4E => some (r.f1.map .flog2)
  | 0x4F => some (r.f1.map .fsinpi)
  | 0x50 => some (r.f1.map .fcospi)
  | 0x51 => some (r.fcvtOp.map .fcvt)
  | 0x52 => some (r.fintOp.map .ftoi)
  | 0x53 => some (r.fintOp.map .itof)
  | 0x54 => some (r.pk2.map .pkadd)
  | 0x55 => some (r.pk2.map .pkmul)
  | 0x56 => some (r.pk3.map .pkfma)
  | 0x57 => some (r.f3.map .fdot2)
  | 0x58 => some (r.f3.map .fdot4)
  | 0x60 => some (r.movOp.map .mov)
  | 0x61 => some (r.moviOp.map .movi)
  | 0x62 => some (r.permOp.map .perm)
  | 0x63 => some (some (.ballot ⟨r.g, r.dS, r.aP⟩))
  | 0x64 => some (r.voteOp.map .vote)
  | 0x65 => some (r.rdlaneOp.map .rdlane)
  | 0x66 => some (r.wrlaneOp.map .wrlane)
  | 0x67 => some (r.bselOp.map .bsel)
  | 0x68 => some (r.scanOp.map .scan)
  | 0x69 => some (r.scanOp.map .reduce)
  | 0x6A => some (some (.pand r.p2))
  | 0x6B => some (some (.por r.p2))
  | 0x6C => some (some (.pxor r.p2))
  | 0x6D => some (some (.pnot r.p1))
  | 0x6E => some (some (.pmov r.p1))
  | 0x70 => some (r.mem.map .ld)
  | 0x71 => some (r.mem.map .st)
  | 0x72 => some (r.memS.map .lds)
  | 0x73 => some (r.memS.map .sts)
  | 0x74 => some (r.memU.map .ldu)
  | 0x75 => some (r.memU.map .stu)
  | 0x76 => some (r.prefOp.map .pref)
  | 0x80 => some (r.atomOp.map .atom)
  | 0x81 => some (r.redOp.map .red)
  | 0x82 => some (r.atomsOp.map .atoms)
  | 0x83 => some (r.fenceOp.map .fence)
  | 0x90 => some (some (.binit r.binitOp))
  | 0x91 => some (some (.arrive ⟨r.g, r.aS⟩))
  | 0x92 => some (r.expectOp.map .expect)
  | 0x93 => some (r.waitOp.map .wait)
  | 0x94 => some (r.waitOp.map .btest)
  | 0x95 => some (some (.bphase ⟨r.g, r.dS, r.aS⟩))
  | 0xA0 => some (r.eng.map .cpy)
  | 0xA1 => some (r.eng.map .cpy2d)
  | 0xA2 => some (r.eng.map .gather)
  | 0xA3 => some (r.eng.map .scatter)
  | 0xA4 => some (r.eng.map .qcpy)
  | 0xA5 => some (r.eng.map .coll)
  | 0xA6 => some (some (.rpush r.rpushOp))
  | 0xA7 => some (some (.rfree ⟨r.g, r.aS, r.bS⟩))
  | 0xB0 => some (some (if r.fn.getLsbD 0 then .mmodeOn r.bare else .mmodeOff r.bare))
  | 0xB1 => some (some (.mzero r.bare))
  | 0xB2 => some (r.mmaOp.map .mma)
  | 0xB3 => some (r.mepiOp.map .mepi)
  | 0xB4 => some (r.mstsOp.map .msts)
  | 0xC0 => some (r.bequeathOp.map .bequeath)
  | 0xC1 => some (r.claimOp.map .claim)
  | 0xC2 => some (if r.fn.getLsbD 0 then r.estateOp.map .estateDrop else r.estateOp.map .estate)
  | 0xC3 => some (some (.migrate ⟨r.g, r.dP, .ofCode r.a⟩))
  | 0xC4 => some (some (.launch ⟨r.g, r.dP, r.aS⟩))
  | 0xC5 => some (some (.remit ⟨r.g, r.dP, r.aS, r.bS⟩))
  | 0xD0 => some (r.srdOp.map .srd)
  | 0xD1 => some (r.swrOp.map .swr)
  | 0xD2 => some (r.growOp.map .grow)
  | 0xD3 => some (r.shrinkOp.map .shrink)
  | _ => none

/-- Lengths by opcode (R30). -/
def lenListed (op : Nat) (len : Len) : Bool :=
  match len with
  | .w64 =>
    op == 0x00 || op == 0x02 || op == 0x05 || (0x07 ≤ op && op ≤ 0x09) || (0x10 ≤ op && op ≤ 0x11)
      || (0x14 ≤ op && op ≤ 0x15) || (0x18 ≤ op && op ≤ 0x29) || op == 0x2D || (0x30 ≤ op && op ≤ 0x3B)
      || (0x3D ≤ op && op ≤ 0x3E) || (0x40 ≤ op && op ≤ 0x42) || (0x44 ≤ op && op ≤ 0x55) || op == 0x60
      || (0x62 ≤ op && op ≤ 0x66) || (0x68 ≤ op && op ≤ 0x6E) || (0x70 ≤ op && op ≤ 0x76) || op == 0x83
      || (0x91 ≤ op && op ≤ 0x95) || op == 0xA7 || (0xB0 ≤ op && op ≤ 0xB2) || (0xC2 ≤ op && op ≤ 0xC5)
      || (0xD0 ≤ op && op ≤ 0xD3)
  | .w96 =>
    (0x00 ≤ op && op ≤ 0x01) || op == 0x04 || (0x0A ≤ op && op ≤ 0x0B) || (0x10 ≤ op && op ≤ 0x19)
      || (0x1C ≤ op && op ≤ 0x25) || (0x29 ≤ op && op ≤ 0x2D) || (0x30 ≤ op && op ≤ 0x3C)
      || (0x3E ≤ op && op ≤ 0x46) || op == 0x49 || (0x54 ≤ op && op ≤ 0x58) || op == 0x61
      || (0x65 ≤ op && op ≤ 0x67) || (0x80 ≤ op && op ≤ 0x82) || op == 0x90 || (0x92 ≤ op && op ≤ 0x94)
      || op == 0xA6 || op == 0xB2 || op == 0xB4 || (0xC0 ≤ op && op ≤ 0xC1) || (0xD2 ≤ op && op ≤ 0xD3)
  | .w128 =>
    op == 0x01 || op == 0x03 || op == 0x06 || (0x10 ≤ op && op ≤ 0x11) || (0x14 ≤ op && op ≤ 0x15)
      || (0x18 ≤ op && op ≤ 0x19) || (0x1C ≤ op && op ≤ 0x25) || op == 0x29 || op == 0x2D
      || (0x30 ≤ op && op ≤ 0x3C) || op == 0x3E || (0x40 ≤ op && op ≤ 0x42) || (0x44 ≤ op && op ≤ 0x46)
      || op == 0x49 || (0x54 ≤ op && op ≤ 0x55) || op == 0x61 || (0x70 ≤ op && op ≤ 0x76) || op == 0x80
      || op == 0x82 || op == 0x90 || op == 0x92 || (0xA0 ≤ op && op ≤ 0xA5) || op == 0xB3

/-- Why bytes are no instruction: the failing step of R31, or too few bytes to read the word. -/
inductive DecodeError where
  | lenZero | unassigned | guard | length | function | field | short
deriving DecidableEq, Repr

/-- The step number a fault record carries (R31, R240). -/
def DecodeError.step : DecodeError → Nat
  | .lenZero => 3
  | .unassigned => 5
  | .guard => 6
  | .length => 7
  | .function => 8
  | .field => 9
  | .short => 20

/-- The checks of R31 steps 5 to 9. A field that the entry does not use, or a reserved bit, differs from the
encoding of the instruction read, where that field is zero. -/
def decodeRaw (r : Raw) : Except DecodeError Instr :=
  match opRow r.op.toNat r with
  | none => .error .unassigned
  | some read =>
    if !r.g.ok then .error .guard
    else if !lenListed r.op.toNat r.len then .error .length
    else match read with
      | none => .error .function
      | some i =>
        match i.raw with
        | none => .error .function
        | some e =>
          if e.fn != r.fn || !i.fnOk then .error .function
          else if e != r || !i.fieldsOk then .error .field
          else .ok i

/-- Bytes as one little-endian number (R11). -/
def bytesNat : List Byte → Nat
  | [] => 0
  | b :: bs => b.toNat + 256 * bytesNat bs

/-- Reads one instruction from the head of a byte string, and gives the rest. -/
def decode (bs : List Byte) : Except DecodeError (Instr × List Byte) :=
  match bs with
  | [] => .error .short
  | b :: _ =>
    match Len.ofCode (b.setWidth 2) with
    | none => .error .lenZero
    | some len =>
      if bs.length < len.bytes then .error .short
      else
        match decodeRaw (Raw.ofWord len (BitVec.ofNat 128 (bytesNat (bs.take len.bytes)))) with
        | .error e => .error e
        | .ok i => .ok (i, bs.drop len.bytes)

/-- The instruction the decoder reads from a word numbered as the opcode table numbers it; the bits above nbits are zero. -/
def decodeTableWord (nbits w : Nat) : Option Instr :=
  match decode (wordBytes 16 (BitVec.ofNat 128 (w % 2 ^ nbits))) with
  | .ok (i, _) => some i
  | .error _ => none

end Sys2Proof
end

