-- ==== Sys2Proof/Machine/Sparse.lean ====
section
/-! DEFINITION. Machine/Sparse.lean: sparse maps in one canonical form (keys strictly rising, no entry equal to the default), and lists of records found by a key. Memory and register files are such maps. -/

namespace Sys2Proof.Machine

/-- A sparse map: what is not listed holds the default. -/
abbrev Sparse (α : Type) := List (Nat × α)

/-- The value at a key. -/
def mapGet {α : Type} (d : α) : Sparse α → Nat → α
  | [], _ => d
  | (i, v) :: m, k => if k = i then v else mapGet d m k

/-- Drops a key. -/
def mapDel {α : Type} (m : Sparse α) (k : Nat) : Sparse α := m.filter (fun e => e.1 != k)

/-- Puts an entry before the first one with a greater key. -/
def mapIns {α : Type} : Sparse α → Nat → α → Sparse α
  | [], k, v => [(k, v)]
  | (i, w) :: m, k, v => if k < i then (k, v) :: (i, w) :: m else (i, w) :: mapIns m k v

/-- Lists a key with a value. -/
def mapPut {α : Type} (m : Sparse α) (k : Nat) (v : α) : Sparse α := mapIns (mapDel m k) k v

/-- Writes a key: writing the default removes the entry, so that equal maps are equal lists. -/
def mapSet {α : Type} [DecidableEq α] (d : α) (m : Sparse α) (k : Nat) (v : α) : Sparse α :=
  if v = d then mapDel m k else mapPut m k v

/-- Writes a run of consecutive keys. -/
def mapSetRun {α : Type} [DecidableEq α] (d : α) (m : Sparse α) (k : Nat) : List α → Sparse α
  | [] => m
  | v :: vs => mapSetRun d (mapSet d m k v) (k + 1) vs

/-- Reads n consecutive keys. -/
def mapRun {α : Type} (d : α) (m : Sparse α) (k n : Nat) : List α := (List.range n).map (fun i => mapGet d m (k + i))

/-- Whether every key of a map lies above k. -/
def mapAbove {α : Type} (k : Nat) : Sparse α → Bool
  | [] => true
  | (i, _) :: _ => k < i

/-- The canonical form. -/
def mapWf {α : Type} [DecidableEq α] (d : α) : Sparse α → Bool
  | [] => true
  | (i, v) :: m => v != d && mapAbove i m && mapWf d m

/-- Reads a little-endian number of n bytes. -/
def leNat : List Byte → Nat
  | [] => 0
  | b :: bs => b.toNat + 256 * leNat bs

/-- The n low bytes of a number, lowest first. -/
def leBytes (n x : Nat) : List Byte := (List.range n).map (fun k => BitVec.ofNat 8 (x / 2 ^ (8 * k)))

/-- Sets an element of a list of numbers kept without repeats. -/
def addNew {α : Type} [DecidableEq α] (xs : List α) (x : α) : List α := if xs.contains x then xs else xs ++ [x]

/-- The union of two lists kept without repeats. -/
def unionNew {α : Type} [DecidableEq α] (xs ys : List α) : List α := ys.foldl addNew xs

end Sys2Proof.Machine
end

