-- ==== Sys2Proof/Machine/State.lean ====
section
/-! DEFINITION. Machine/State.lean: the whole state of the package, as plain data, and the state after reset. Each structure names the rules that give it. -/

namespace Sys2Proof.Machine

/-! ## Fibres and waves (R14, R189 to R204) -/

/-- Where a wave sits: slots 0 to 7, 8 the landing slot (R192, R193). -/
structure Loc where
  die     : Nat
  core    : Nat
  quarter : Nat
  slot    : Nat
deriving DecidableEq, Repr

/-- The slices of a vector register, lane 0 first (R2). -/
abbrev Row := List W32

/-- A row of zeros: what a register without an entry holds (R189, R198). -/
def zeroRow : Row := List.replicate 64 0

/-- One fibre (R189). -/
structure Fibre where
  lane    : Nat
  pc      : W64
  preds   : BitVec 16
  winbase : Nat
  stack   : List Nat
  claim   : W32
  region  : W64
  age     : Nat
deriving DecidableEq, Repr

/-- A fibre's part of the region checkpoint (R231). -/
structure CpFibre where
  lane    : Nat
  preds   : BitVec 16
  winbase : Nat
  stack   : List Nat
deriving DecidableEq, Repr

/-- The region checkpoint (R231). Entries numbered below upto were issued before the region began; presented counts the
presentations of each PC until then (R243). -/
structure Checkpoint where
  sregs   : Sparse W64
  fibres  : List CpFibre
  winsize : Nat
  matrix  : Bool
  fflags  : W64
  upto    : Nat
  presented : Sparse Nat
deriving DecidableEq, Repr

/-- A spilled register's record (R200, R201): its payload before padding. -/
structure SpillRec where
  log     : Nat
  etag    : BitVec 4
  fmt     : Nat
  payload : List Byte
deriving DecidableEq, Repr

/-- A pending-write mark of the scoreboard (R58, R59), with the issue-list entry that will clear it.
Mark .grid is the mark on v64 to v127 of a window base. -/
inductive MarkOn where
  | vec (log : Nat)
  | scalar (s : Nat)
  | pred (p : Nat)
  | claim
  | grid (base : Nat)
deriving DecidableEq, Repr

structure Mark where
  on    : MarkOn
  entry : Nat
deriving DecidableEq, Repr

/-- One byte of global memory as its translation gives it: physical address, key slot, home die, the package that holds
it where that is another (R276, R278, R285), and bits 63:16 of its virtual address. -/
structure ByteAt where
  pa    : Nat
  kslot : Nat
  home  : Nat
  peer  : Option Nat
  vpage : Nat
deriving DecidableEq, Repr

/-- What becomes of a lane's access. -/
inductive AccState where
  | unsent      -- it found no miss-status entry yet (R62)
  | waiting     -- not yet read, accepted or performed
  | returned    -- its data is here and not yet written
  | done        -- done by R127, R130 or R133
  | retry       -- cancelled with XLATE_RETRY or REMOTE_HELD (R238)
  | watched     -- stopped by a watch range (R239)
deriving DecidableEq, Repr

/-- One lane's access of an entry (R125 to R133): nbytes bytes from ea, at the places of its translation, or in the
group's scratchpad from offset ea. On a typed page a floating load reads the element or block that holds ea; scale is
the exponent byte and efmt the page format then. data, cmp: what a store or an atomic brings; got: what has been read. -/
structure Acc where
  lane    : Nat
  ea      : W64
  nbytes  : Nat
  scratch : Bool
  at_     : List ByteAt
  scale   : Option ByteAt
  efmt    : Nat
  data    : Nat
  cmp     : Nat
  got     : List Byte
  st      : AccState
deriving DecidableEq, Repr

/-- A lane's answer to a CLAIM (R177, R178); bad: the registers of it, by place, whose words an error has poisoned (R322). -/
structure ClaimAns where
  lane : Nat
  st   : BitVec 5
  bcnt : Nat
  src  : Nat
  regs : List (W32 × BitVec 4)
  bad  : List Nat
deriving DecidableEq, Repr

/-- What an entry of the issue list is to the ordering machine (R219, R222). -/
inductive EKind where
  | load | store | atomic | event | claim
deriving DecidableEq, Repr

/-- Which object a handle names: core objects by group and scratchpad offset, the others by scope, home and index. -/
inductive ObjRef where
  | core (launch group : Nat) (off : Nat)
  | net (scope : Scope) (home index : Nat)
deriving DecidableEq, Repr

/-- An operation of a wave from issue until each of its steps is taken (R219). A release that has met its condition
carries what its wave had observed. -/
structure Entry where
  id       : Nat
  pc       : W64
  base     : Nat
  set_     : W64
  active   : W64
  instr    : Instr
  kind     : EKind
  acquire  : Bool
  release  : Option Scope
  carried  : Option (List Nat)
  accs     : List Acc
  answers  : List ClaimAns
  obj      : Option ObjRef
deriving DecidableEq, Repr

/-- Why an issuing set is not ready (R55, R62, R135, R146, R180, R186). -/
inductive StallKind where
  | quiet       -- a precise fault waits for the wave's earlier accesses (R238)
  | drain
  | finish
  | grid
  | land
  | settle (sc : Scope)
  | wait (o : ObjRef) (token e : Nat) (blocked : Bool)
  | grow (n order : Nat)
  | migrate (die slice order : Nat)
  | retry (entry count order : Nat)
  | posted (entry : Nat)
  | own (o : ObjRef)
  | engine (ready : Bool) -- engine places were not there, or have come free since (R153)
  | armed (from_ count : Nat) -- lemmel's armed discard holds the lanes from this one up; so many active ones went before (R243)
deriving DecidableEq, Repr

/-- A stalled issuing set, with its instruction and the registers as they were at its issue: sources are read there
(R58). It waits for entries numbered below upto alone: those of later issues come after it. -/
structure Stall where
  kind  : StallKind
  pc    : W64
  base  : Nat
  lanes : W64
  instr : Instr
  upto  : Nat
  sregs : Sparse W64
  vregs : Sparse Row
deriving DecidableEq, Repr

/-- A pending imprecise fault (R238). issue numbers its cause: an entry of the issue list or a grid operation even, an
engine request odd. -/
structure PendFault where
  fault  : FaultName
  issue  : Nat
  pc     : W64
  active : W64
  lane   : Nat
  addr   : W64
deriving DecidableEq, Repr

/-- A parked wave (R241): the fault, the set that stands, and how many bytes a step or a TRAP's continuation skips. -/
structure Park where
  fault : FaultName
  pc    : W64
  base  : Nat
  lanes : W64
  skip  : Nat
  after : Bool
  imprecise : Bool
deriving DecidableEq, Repr

/-- A resident wave (R14, R189). presented counts the issues that have presented each PC (R243); dead lists the registers
that the run let go of while a write of them was on its way, by entry (R198); since is when it became resident (R187). -/
structure Wave where
  uid        : Nat
  launch     : Nat
  group      : Nat
  index      : Nat
  loc        : Loc
  fibres     : List Fibre
  sregs      : Sparse W64
  vregs      : Sparse Row
  etags      : Sparse (BitVec 4)
  winsize    : Nat
  runBase    : Nat
  low        : List SpillRec
  high       : List SpillRec
  matrix     : Bool
  fflags     : W64
  checkpoint : Checkpoint
  streak     : Nat
  lastPair   : Option (W64 × Nat)
  waited     : Nat
  yielded    : Bool
  marks      : List Mark
  entries    : List Entry
  nextEntry  : Nat
  dead       : List (Nat × Nat)
  presented  : Sparse Nat
  since      : Nat
  stalls     : List Stall
  pend       : List PendFault
  lost       : List (FaultName × Nat)
  parked     : Option Park
  vpoison    : List (Nat × Nat)
  spoison    : List Nat
  ppoison    : List Nat
  observed   : List Nat
  returned   : List Nat
  floors     : Sparse Nat
  started    : Bool
  transit    : Option Loc
deriving DecidableEq, Repr

/-! ## Groups, scratchpads, quarters (R191, R205 to R208, R54, R60) -/

/-- A resident group. Its scratchpad's unlisted bytes are zero (R207). -/
structure Group where
  launch  : Nat
  index   : Nat
  die     : Nat
  core    : Nat
  waves   : Nat
  scratch : Sparse Byte
  spoison : Sparse Bool
  carried : Sparse (List Nat)
  past    : Sparse (List (List Nat))
  wids    : Sparse Nat
  quadset : Option Nat
  order   : Nat
  stopping : Bool
deriving DecidableEq, Repr

/-- A grid operation (R59, R168): its staged operands, with the offsets of racing scratchpad bytes; the rows that were
poisoned and the first poisoned offset. -/
structure GridOp where
  wave   : Nat
  entry  : Nat
  pc     : W64
  active : W64
  instr  : Instr
  base   : Nat
  rowsA  : List (List Nat)
  rowsB  : List (List Nat)
  expA   : List Nat
  expB   : List Nat
  offsA  : List Nat
  offsB  : List Nat
  poisoned : List Bool × List Bool
  paddr  : Nat
  params : List Nat
deriving DecidableEq, Repr

structure Quarter where
  matrix   : Bool
  lastSlot : Nat
  grid     : List GridOp
deriving DecidableEq, Repr

/-! ## Memory (R275 to R282, R322) -/

/-- A cached translation (R276, R279): at_ names the core, die or hub agent that caches it. -/
structure TlbEntry where
  space : Nat
  vpage : Nat
  big   : Bool
  leaf  : W128
  at_   : Nat
deriving DecidableEq, Repr

/-- Physical memory, its keys, marks and translation tables. Every map is canonical. absent lists mapped pages that are
not resident (R280), dead the leaves of a peer that went down (R285), seals the leaves as they were before they were
sealed (R301), expDown the CXL ports that do not answer (R284); sram marks the 4-byte words that an error in a home's L2 has poisoned
(R322). -/
structure MemSys where
  bytes     : Sparse Byte
  owner     : Sparse Nat
  poison    : Sparse Bool
  sram      : Sparse Bool
  tags      : Sparse Bool
  writer    : Sparse Nat
  tables    : Sparse W128
  roots     : Sparse Nat
  nextTable : Nat
  tlb       : List TlbEntry
  absent    : List MapReq
  dead      : List MapReq
  seals     : List MapReq
  frames    : Sparse Nat
  expDown   : List Nat
deriving DecidableEq, Repr

/-! ## The ordering machine (R219) -/

/-- Where an access comes from, for the fault log (R325, R326): it is known when its wave is no more. -/
structure Source where
  launch : Nat
  group  : Nat
  wave   : Nat
  loc    : Loc
deriving DecidableEq, Repr

/-- An accepted store not yet performed at home (R219), in the overlay of its core. whole: the places of its lane's bytes in
this package, of which cells are all or one (R126, R324). -/
structure OvEntry where
  id       : Nat
  wave     : Nat
  launch   : Nat
  entry    : Nat
  lane     : Nat
  die      : Nat
  core     : Nat
  pc       : W64
  active   : W64
  va       : W64
  cells    : List (ByteAt × Byte)
  whole    : List Nat
  revealed : List Nat
  sent     : Bool
  source   : Source
deriving DecidableEq, Repr

/-- A copied byte: its value, the write that made it, the key under which it was written, whether it is poisoned. -/
structure CopyByte where
  val    : Byte
  writer : Nat
  owner  : Nat
  poison : Bool
deriving DecidableEq, Repr

/-- A copy of a physical line of 128 bytes, taken when so many writes had been performed (R224). -/
structure Copy where
  place : CopyAt
  line  : Nat
  taken : Nat
  data  : List CopyByte
deriving DecidableEq, Repr

/-- A barrier event on its way (R142, R211, R226). -/
inductive BarOp where
  | binit (arrivals bytes : Nat)
  | arrive (carried : List Nat)
  | expect (n : Nat)
  | landing (n : Nat) (writes : List Nat)
deriving DecidableEq, Repr

/-- Who posts a barrier event and learns that it has been counted: a wave's entry, or a landed piece of an engine request (R226). -/
inductive Poster where
  | wave (uid entry : Nat)
  | piece (req piece : Nat)
deriving DecidableEq, Repr

/-- A message of a channel (R219); an invalidation names the launch whose write sends it. -/
inductive Msg where
  | store (id : Nat)
  | inval (line : Nat) (by_ : Option Nat)
  | event (o : ObjRef) (op : BarOp) (by_ : Option Poster)
  | wave (uid : Nat)
  | landing (req piece : Nat)
deriving DecidableEq, Repr

/-- A channel's messages in order, with the sequence number of the next (R219, R286). -/
structure Channel where
  src  : Nat
  dst  : Nat
  org  : Nat
  msgs : List Msg
  seq  : Nat
deriving DecidableEq, Repr

/-- A write's record: its bytes, when it was performed at home (stamps rise; 0 is not yet), and the set that a
release carries (R220, R223). -/
structure WriteRec where
  id      : Nat
  cells   : List Nat
  stamp   : Nat
  carried : Option (List Nat)
deriving DecidableEq, Repr

structure OrdSys where
  overlay : List OvEntry
  copies  : List Copy
  chans   : List Channel
  writes  : List WriteRec
  nextId  : Nat
  nextStamp : Nat
deriving DecidableEq, Repr

/-! ## Barrier objects (R140, R141) -/

/-- The fields of a barrier object (R140). -/
structure BarObj where
  expA  : Nat
  penA  : Nat
  expB  : Nat
  penB  : Int
  phase : Nat
  ovf   : Bool
  lovf  : Bool
deriving DecidableEq, Repr

/-- A network object given to a launch, or held by a queue (R211, R246). -/
structure NetObj where
  scope   : Scope
  home    : Nat
  index   : Nat
  owner   : Nat
  byQueue : Bool
  obj     : BarObj
  carried : List Nat
  past    : List (List Nat)
  poison  : Bool
deriving DecidableEq, Repr

/-! ## Engines (R149 to R163, R212) -/

/-- A byte that an engine reads or writes, translated when it does so (R151, R282): of a space, of a scratchpad, or the
exponent byte of the b-bit block at an address. -/
inductive ELoc where
  | glob (space va : Nat)
  | scr (launch group off : Nat)
  | expo (space va b : Nat)
deriving DecidableEq, Repr

/-- How a destination byte is made (R154, R156 to R160). An element is named by its first byte. -/
inductive ByteSrc where
  | copy (l : ELoc)
  | mant (b : Nat) (src : FFmt) (elems : List ELoc) (byte : Nat)
  | expo (b : Nat) (src : FFmt) (elems : List ELoc)
  | coll (op : Nat) (words : List ELoc) (byte : Nat)
deriving DecidableEq, Repr

/-- A landing piece (R212): its destination bytes and their sources; how many bytes it counts; what has been read, with
poison marks and tags; the places and the channel that it was sent on, to another die; the write that it made; posted: its event is on
its way. -/
structure Piece where
  id    : Nat
  dst   : List ELoc
  src   : List ByteSrc
  count : Nat
  data  : Option (List (Byte × Bool × Bool))
  sent  : Option (List (Option ByteAt) × ChanRef)
  wid   : Option Nat
  posted : Bool
  obj   : ObjRef
deriving DecidableEq, Repr

/-- An accepted engine request (R153); refused: one of its pieces has been refused by its home, and that is logged (R326). It reads after the entries of its wave numbered below before; cores lists the
engines that it takes a place in; ring is the free object and token it waits past; seqs are the sequences of the
capabilities that it uses; ops and member are those of a collective (R160). -/
structure EngReq where
  id      : Nat
  wave    : Nat
  launch  : Nat
  group   : Nat
  die     : Nat
  core    : Nat
  cores   : List Nat
  pc      : W64
  active  : W64
  carry   : Bool
  pieces  : List Piece
  started : Bool
  begun   : Bool
  before  : Nat
  ring    : Option (ObjRef × Nat)
  seqs    : List Nat
  member  : Option (Nat × Nat × Nat)
  ops     : List Nat
  obj     : ObjRef
  scope   : Scope
  order   : Nat
  source  : Source
  refused : Bool
deriving DecidableEq, Repr

/-! ## Estates (R263 to R271) -/

/-- R264. A Recorded estate names its wave; one in transit the wave and the entry that its slices go to. -/
inductive EState where
  | recorded (wave : Nat)
  | kept
  | sealed
  | transit (wave entry : Nat)
  | evicted
deriving DecidableEq, Repr

/-- An estate (R263, R266), its logical registers and the physical registers that its directory entry names; poison: those of its
registers, by place in the list, that an error has poisoned (R322, R323). -/
structure Estate where
  world   : Nat
  seq     : Nat
  cls     : Nat
  ident   : Nat
  launch  : Nat
  die     : Nat
  core    : Nat
  quarter : Nat
  slot    : Nat
  lane    : Nat
  holding : Nat
  tags    : List (BitVec 4)
  logs    : List Nat
  pregs   : List Nat
  regs    : List W32
  st      : EState
  order   : Nat
  poison  : List Nat
deriving DecidableEq, Repr

/-- An evicted holding in its estate area (R268): the LANES bits and the space it takes. -/
structure Holding where
  id    : Nat
  world : Nat
  seq   : Nat
  lanes : List Nat
  base  : Nat
  size  : Nat
deriving DecidableEq, Repr

/-! ## Launches (R244 to R262) -/

/-- The launch block (R244), read once. tagged: the granules of its capabilities were tagged then (R299). -/
structure Block where
  entry    : W64
  gx       : Nat
  gy       : Nat
  gz       : Nat
  fibres   : Nat
  window   : Nat
  l1min    : Nat
  scratch  : Nat
  coop     : Bool
  roam     : Bool
  repair   : Bool
  matrix   : Bool
  quadset  : Bool
  early    : Bool
  faultEnd : Bool
  prio     : Nat
  seq      : Nat
  bsbase   : W64
  bssize   : Nat
  bclass   : Nat
  cclass   : Nat
  idbase   : Nat
  idstride : Nat
  depobj   : W64
  deptok   : Nat
  triggers : Nat
  doneobj  : W64
  notice   : W64
  start    : Nat
  ratioreq : BitVec 32
  ranges   : List W64
  node     : W64
  caps     : List W128
  tagged   : Bool
  args     : List W64
deriving DecidableEq, Repr

/-- A granted set of ratios (R260, R185). -/
structure Grant where
  mat : Nat
  vec : Nat
  net : Nat
  mem : Nat
  gen : Nat
deriving DecidableEq, Repr

/-- Where a launch stands between acceptance and its end. -/
inductive LaunchState where
  | setup       -- its lease is not yet set up (R280)
  | held        -- held on DEPOBJ (R250)
  | waiting     -- its next group waits for placement (R255)
  | ending      -- its waves have ended and its engine requests have not all completed (R191)
  | ended
deriving DecidableEq, Repr

structure Launch where
  uid      : Nat
  num      : Nat
  queue    : Nat
  world    : Nat
  comp     : Nat
  part     : Nat
  block    : Block
  st       : LaunchState
  leased   : Bool
  released : Bool
  measure  : BitVec 512
  grant    : Option Grant
  granted  : Nat
  next     : Nat
  dealt    : Nat
  live     : Nat
  placed   : Bool
  paid     : Nat
  inherit_ : List Nat
  stopped  : Bool
  endFault : Nat × Nat × W64 × Nat × Nat
  order    : Nat
  born     : Nat
  seen     : List Nat
  node     : Option Nat
  prefill  : List Byte
  frames   : List Nat
  left     : List Nat
  notices  : Nat
deriving DecidableEq, Repr

/-- A packet of a host queue (R248). -/
inductive Packet where
  | launch (va : W64) (comp : Nat)
  | wait (handle : W64) (token : Nat)
  | arrive (handle : W64)
  | binit (handle : W64) (arrivals bytes : Nat)
  | seqopen (comp seq : Nat) (eabase : W64) (easize : Nat)
  | seqclose (comp seq : Nat)
  | sweep (seq cls : Nat)
  | other (code : Nat)
deriving DecidableEq, Repr

/-- An entry of a device-side queue (R249, R253): a block already read. -/
structure DevEntry where
  block  : Block
  comp   : Nat
  wellFormed : Bool
  inherit_ : List Nat
deriving DecidableEq, Repr

/-- A mapped host queue (R248, R350): waiting is a thread blocked in WAIT, closing the sequence that its SEQCLOSE closes,
seen the writes that its thread has observed. -/
structure Queue where
  id      : Nat
  world   : Nat
  part    : Nat
  packets : List Packet
  device  : List DevEntry
  halted  : Bool
  waiting : Bool
  closing : Option Nat
  seen    : List Nat
  nextNum : Nat
deriving DecidableEq, Repr

/-- A node's gathered records, and the batches taken whose launches have no resident group yet (R252). -/
structure Node where
  id       : Nat
  template : Block
  comp     : Nat
  z        : Nat
  g        : Nat
  t        : Nat
  capacity : Nat
  records  : List (List Byte)
  first    : Nat
  waiting  : List (Nat × List (List Byte))
  queue    : Nat
  seen     : List Nat
deriving DecidableEq, Repr

/-- A discarded group (R233): its waves, the entries recorded for estates, the quad objects that move with it. -/
structure SavedGroup where
  id      : Nat
  group   : Group
  waves   : List Wave
  estates : List Estate
  objs    : List NetObj
  pos     : Nat
deriving DecidableEq, Repr

/-! ## Worlds, sequences, keys (R287 to R299) -/

structure Comp where
  role    : Nat
  maxOpen : Nat
  space   : Nat
deriving DecidableEq, Repr

structure Gate where
  from_     : Nat
  to_       : Nat
  dir       : Nat
  limit     : Nat
  remaining : Nat
  shape     : W128
  recv      : BitVec 512
deriving DecidableEq, Repr

/-- A tenant world (R294 to R296, R254, R304, R314 to R319). emarks: its counters at each die's last millisecond, stayed the
dies where it has been resident since; ctxKey: the generation of its context key; destroying: its destruction waits for its
sequences to close. -/
structure World where
  id       : Nat
  prot     : Bool
  comps    : List Comp
  gates    : List Gate
  counters : List Nat
  manifest : BitVec 512
  log      : List (BitVec 512)
  logd     : BitVec 512
  entries  : Nat
  logTick  : Nat
  snapNo   : Nat
  table    : Sparse (List Byte)
  nodes    : List Node
  used     : List Nat
  emarks   : Sparse (List Nat)
  stayed   : List Nat
  ctxKey   : Nat
  snapTick : Nat
  destroying : Bool
deriving DecidableEq, Repr

/-- R290. -/
inductive SeqState where
  | open_ | draining | retiring | invalidating | closed
deriving DecidableEq, Repr

structure Seq where
  world  : Nat
  num    : Nat
  comp   : Nat
  st     : SeqState
  slot   : Nat
  eabase : W64
  easize : Nat
  closer : Option Nat
  inval  : Option Nat
deriving DecidableEq, Repr

/-- An invalidation in progress (R282): stores and landings that its range had translated are still to be performed. -/
structure Inval where
  id     : Nat
  space  : Nat
  va     : W64
  bytes  : Nat
  stores : List Nat
  pieces : List (Nat × Nat)
deriving DecidableEq, Repr

/-! ## Partitions (R216, R239, R258, R259, R281, R302 to R306, R331) -/

structure Bucket where
  fabric : Nat
  link   : Nat
  mem    : Nat
deriving DecidableEq, Repr

/-- A partition. world: of the slice in progress, as its entry gave it when the slice began; used: the quarters woken and idled in
the current interval, woken: those woken ahead for the placement that the ramp delays (R258); paused: for how long the ember
watch has paused since the last activity, occupied: since when a wave has been resident with nothing that pauses it (R217);
gated: it is power-gated (R314, log entry 98); armedAt: the ember register was last written (R217); droopAt, thermAt: the last steps down, droopBack, thermBack the last restores (R259). -/
structure Part where
  id       : Nat
  quantum  : Sparse W64
  slice    : Option Nat
  world    : Option Nat
  share    : Sparse W64
  buckets  : List (Nat × Bucket)
  ramp     : W64
  used     : Nat
  woken    : Nat
  ember    : W64
  activity : Nat
  paused   : Nat
  occupied : Option Nat
  frozen   : Bool
  stalled  : List Nat
  prefetch : W64
  rick     : W64
  watch    : List (W64 × W64)
  droop    : Nat
  thermal  : Nat
  droopAt  : Nat
  thermAt  : Nat
  gated    : Bool
  armedAt  : Nat
  droopBack : Nat
  thermBack : Nat
  rampAt   : Nat
  refillAt : Nat
  sliceAt  : Nat
deriving DecidableEq, Repr

/-! ## Service state (R310 to R335) -/

/-- A fault record (R240). -/
structure FaultRec where
  tick    : Nat
  loc     : Loc
  wave    : Nat
  group   : Nat
  launch  : Nat
  addr    : W64
  active  : W64
  syncpc  : W64
  pc      : W64
  cause   : Nat
  step    : Nat
  lane    : Nat
  cls     : Nat
  code    : Nat
deriving DecidableEq, Repr

/-- One blocked wave of a STALL record (R217). -/
structure StallEntry where
  pc     : W64
  handle : W64
  token  : Nat
  phase  : Nat
  penA   : Nat
deriving DecidableEq, Repr

/-- What the device sends to command-processor threads and hosts (R217, R238, R247, R248, R270, R289, R291). -/
inductive Record where
  | fault (queue : Nat) (r : FaultRec)
  | stall (queue : Nat) (r : FaultRec) (t last : Nat) (waves : List StallEntry)
  | refusal (queue num code : Nat)
  | endRec (queue num : Nat) (code step : Nat) (addr : W64) (cls die : Nat)
  | seqOpened (queue seq slot : Nat)
  | seqRefused (queue seq : Nat)
  | seqClosed (queue seq released : Nat)
  | sweep (queue seq cls released : Nat)
  | phaseAhead (queue : Nat)
  | halted (queue code : Nat)
  | netRefused (world index source : Nat)
  | nodeRefused (world node code : Nat)
  | written (reg : Nat) (accepted : Bool)
deriving DecidableEq, Repr

/-- A fault-log entry (R325); seq is the sequence number that R335 names, for which the entry's bytes have no field (log entry 108), place the
word of an ECC error: an SRAM word has no physical address for ADDR. -/
structure FaultLog where
  tick   : Nat
  addr   : Nat
  pc     : W64
  launch : Nat
  group  : Nat
  wave   : Nat
  src    : Loc
  world  : Nat
  comp   : Nat
  die    : Nat
  count  : Nat
  kind   : Nat
  seq    : Nat
  place  : Option EccAt
deriving DecidableEq, Repr

/-- A die link or a hub link (R286, R327, R328). -/
structure Link where
  retraining : Bool
  failures   : Nat
  down       : Bool
  key        : Nat
  counter    : Nat
  resends    : Nat
deriving DecidableEq, Repr

/-- The algorithms of R312. -/
inductive SpdmAlg where
  | ed25519 | sha512 | x25519 | aes256gcm
deriving DecidableEq, Repr

/-- The kind of a measurement block (R313). -/
inductive MeasKind where
  | digest      -- a DMTF measurement of SHA-512 type
  | raw         -- a raw bit stream
deriving DecidableEq, Repr

/-- An SPDM response or an attestation output (R312, R313, R318). What hub 1 can do: certificates, challenges,
measurements, key exchange, and sessions that are encrypted and authenticated. -/
inductive Spdm where
  | version (v : Nat)
  | capabilities (cert chal meas keyEx crypt mac : Bool)
  | algorithms (sign hash dhe aead : SpdmAlg)
  | digests (slots : List (Nat × BitVec 512))
  | certificate (chain : List Byte)
  | challenge (chain : BitVec 512) (nonce : BitVec 256) (signature : BitVec 512)
  | measurement (index : Nat) (block : Option (MeasKind × List Byte)) (signature : BitVec 512)
  | session (share : BitVec 256) (signature : BitVec 512)
  | finished
  | ended
  | invalid
  | unexpected
  | snapshot (bytes : List Byte)
deriving DecidableEq, Repr

/-- Per die (R259, R321, R330 to R335). lastRick and rickNo: the tick and the step of the latest rick. -/
structure Die where
  harvest  : BitVec 36
  eolDays  : Nat
  age      : Nat
  power    : Nat
  droopCnt : W64
  recent   : List Nat
  held     : Bool
  round    : Nat
  lastRick : Nat
  rickNo   : Nat
  rickSlot : Nat
  rickDue  : Bool
  ageTick  : Nat
  energyAt : Nat
deriving DecidableEq, Repr

/-- A die's state as a rick holds it, under the context key of the world that runs on the die (R332). -/
structure DieSnap where
  tick    : Nat
  key     : Nat
  waves   : List Wave
  groups  : List Group
  quarters : Sparse Quarter
  reqs    : List EngReq
  objs    : List NetObj
  estates : List Estate
  seqs    : List (Nat × Nat)
deriving DecidableEq, Repr

/-- An undo record (R332): a line's bytes before a write, with the tags of its granules, and what they are with the writes of repairable
launches since. -/
structure Undo where
  line : Nat
  old  : List CopyByte
  tags : List Bool
  redo : List CopyByte
  retags : List Bool
deriving DecidableEq, Repr

/-- What a message log lists (R333): a channel's message, or one whose effect is made as it is sent. -/
inductive Logged where
  | sent (m : Msg)
  | loadReply (r : AccRef) (bytes : List Byte)
  | atomic (r : AccRef)
  | atomicReply (r : AccRef) (old : List Byte)
  | engineRead (req piece : Nat)
deriving DecidableEq, Repr

/-- A logged message (R333), with the source die's round in which it was sent. -/
structure LogMsg where
  src    : Nat
  dst    : Nat
  seq    : Nat
  msg    : Logged
  digest : BitVec 64
  round  : Nat
deriving DecidableEq, Repr

/-- An input that a round boundary admits (R330): a channel's message, data of memory that a wave of the die asked for, an access of
another die's wave to a home on this die, an engine's piece that lands here with bytes of memory, and an engine's read of a home here. -/
inductive Input where
  | msg (m : Msg)
  | data (r : AccRef)
  | access (r : AccRef)
  | landing (req piece : Nat)
  | engineRead (req piece : Nat)
deriving DecidableEq, Repr

/-- An entry of an admission record (R330): a round, the values of %tick and %ratio that were read in it, with their indices, and
the inputs that were admitted at the boundary that ended it, in order, each with its source die. -/
structure Admission where
  round   : Nat
  inputs  : List (Nat × Input)
  reads   : List (Nat × Nat)
deriving DecidableEq, Repr

/-- The repair state of a die: two rick slots, the undo log, the admission record, the issues of its quarters in this round, the
dies whose sends to it are stalled; %tick and the grants as they were admitted at the last round boundary, and what this
round has read of them; edge: the number of the step after the last
boundary; replay: what a warm reset has still to replay of the admission record, restored: the state that its rick gave it back; sends:
what the die has sent since its rick, which a replay sends again (R334). -/
structure Repair where
  die      : Nat
  slots    : List (Option DieSnap)
  undo     : List Undo
  admitted : List Admission
  issues   : Sparse Nat
  stalled  : List Nat
  tick     : Nat
  grants   : List (Nat × Grant)
  reads    : List (Nat × Nat)
  edge     : Nat
  replay   : List Admission
  restored : Option DieSnap
  sends    : List LogMsg
deriving DecidableEq, Repr

/-- A discard or a reset that lemmel has armed (R243, R340); hit is the set that it has struck, past: that set has gone past. -/
structure ArmedDiscard where
  launch : Nat
  group  : Nat
  wave   : Nat
  pc     : W64
  pass   : Nat
  split  : Nat
  hit    : Option (Nat × W64)
  past   : Bool
deriving DecidableEq, Repr

/-- seen counts the arrivals of the group's wave 0 on any die; landed: the armed one came to the die (R340). -/
structure ArmedReset where
  die    : Nat
  count  : Nat
  group  : Nat
  seen   : Nat
  landed : Bool
  due    : Bool
deriving DecidableEq, Repr

/-- A world's saved context in a partition (R304), under the generation of the world's context key. rows: the registers of
each wave, packed with their format tags (R200). -/
structure SavedContext where
  part    : Nat
  world   : Nat
  key     : Nat
  rows    : List (Nat × List SpillRec)
  waves   : List Wave
  groups  : List Group
  quarters : Sparse Quarter
  reqs    : List EngReq
  objs    : List NetObj
  estates : List Estate
deriving DecidableEq, Repr

/-- Package-wide registers (R2, R3, R302, R310 to R313, R320, R325). flash: the images of the six boot stages; farsol: the
sixteen Farsol ports (R286). -/
structure Pkg where
  tick      : Nat
  pkg       : Nat
  pod       : BitVec 32
  split     : Nat
  capw      : Nat
  mrs       : List (BitVec 512)
  bootStage : Nat
  bootFail  : Option Nat
  session   : Nat
  responses : List Spdm
  flash     : List Image
  dies      : List Die
  links     : List Link
  farsol    : List Link
  logs      : List FaultLog
  peersDown : List Nat
  scrubbed  : Sparse Nat
  lemmel    : List Nat
deriving DecidableEq, Repr

/-! ## The machine -/

/-- The issue that a word instruction performs (R56). -/
structure Issue where
  wave : Nat
  pc   : W64
  base : Nat
  set_ : W64
  len  : Nat
deriving DecidableEq, Repr

/-- Who asks for an event: the path of an SPDM request and the certificate slot that it names (R312), and the world whose function reads
a snapshot, none for the physical function (R318; log entry 99). -/
structure Asked where
  via   : SpdmVia
  slot  : Nat
  world : Option Nat
deriving DecidableEq, Repr

/-- What happens next (log entry 1): an event, an issue of a quarter, or a packet that a host puts into a queue, as its
operands or as its bytes; firmware gates the power of an idle partition, or restores it (log entry 98). -/
inductive Cue where
  | happen (e : Instr)
  | issue (q : QRef)
  | packet (queue : Nat) (p : Packet)
  | bytes (queue : Nat) (bs : List Byte)
  | gate (part : Nat) (on : Bool)
  | ask (who : Asked) (e : Instr)
deriving DecidableEq, Repr

/-- The model's own fields: what happens next, the quarter that issues by default, the issue in progress, counters, and who asks for
the event that this step is. -/
structure Own where
  agenda : List Cue
  focus  : QRef
  cur    : Option Issue
  /-- The instruction fetch of the step: its world, its die, the place of its first byte (R316). -/
  fetched : Option (Nat × Nat × ByteAt)
  stepNo : Nat
  free   : Nat
  uid    : Nat
  asked  : Asked
deriving DecidableEq, Repr

structure State where
  own      : Own
  mem      : MemSys
  ord      : OrdSys
  waves    : List Wave
  groups   : List Group
  quarters : Sparse Quarter
  objs     : List NetObj
  reqs     : List EngReq
  colls    : Sparse Nat
  estates  : List Estate
  holdings : List Holding
  launches : List Launch
  queues   : List Queue
  saved    : List SavedGroup
  armedD   : List ArmedDiscard
  armedR   : List ArmedReset
  worlds   : List World
  seqs     : List Seq
  slots    : Sparse Nat
  invals   : List Inval
  parts    : List Part
  contexts : List SavedContext
  pkg      : Pkg
  repair   : List Repair
  msglog   : List LogMsg
  records  : List Record
deriving DecidableEq, Repr

/-! ## How a step can stop -/

/-- A fault of the model's machine. The device's own faults are next states (R238), so the step raises none of these
on an instruction the spec describes. -/
inductive Fault where
  /-- Raised by a fetch, READ, ATOMIC, PERFORM, ENGINE_READ or ENGINE_LANDING at a physical address outside the
  windows of R278. Safe: the spec gives such an address no memory. -/
  | noMemory
deriving DecidableEq, Repr

/-- Why an instruction or an event is given no effect here. -/
inductive Refusal where
  /-- No meaning yet. Raised by an arm of exec alone. Safe. -/
  | notModelled (mnemonic : String)
  /-- A word instruction performed where no issue is in progress. Safe: no such step exists. -/
  | noIssue
  /-- An event whose condition does not hold in this state (log entry 10). Safe: the device takes no such step. -/
  | notEnabled (event : String)
  /-- A word instruction on the agenda as an event. Safe: words are performed by issue. -/
  | notAnEvent
deriving DecidableEq, Repr

abbrev Out := Host.Outcome State Fault Refusal

/-! ## Reset -/

/-- Quarters that hold no entry: vector wiring, slot 0 next, an empty grid (R60, R54; log entry 4). -/
def quarterReset : Quarter := ⟨false, 7, []⟩

/-- R216, R258, R281, R331: the registers of a partition at reset. -/
def partReset (id : Nat) : Part where
  id := id
  quantum := []
  slice := none
  world := none
  share := []
  buckets := []
  ramp := BitVec.ofNat 64 (2 ^ 31 + 64)
  used := 0
  woken := 0
  ember := BitVec.ofNat 64 (2 ^ 31 + 1000)
  activity := 0
  paused := 0
  occupied := none
  frozen := false
  stalled := []
  prefetch := BitVec.ofNat 64 (2 ^ 31 + 8 * 2 ^ 16 + 4)
  rick := BitVec.ofNat 64 (2 ^ 31 + 10000)
  watch := List.replicate 8 (0, 0)
  droop := 0
  thermal := 0
  droopAt := 0
  thermAt := 0
  gated := false
  armedAt := 0
  droopBack := 0
  thermBack := 0
  rampAt := 0
  refillAt := 0
  sliceAt := 0

/-- R321 and log entry 4. -/
def dieReset : Die where
  harvest := BitVec.allOnes 36
  eolDays := 0xFFFF
  age := 0
  power := 0
  droopCnt := 0
  recent := []
  held := false
  round := 0
  lastRick := 0
  rickNo := 0
  rickSlot := 0
  rickDue := false
  ageTick := 0
  energyAt := 0

/-- Links are held down until stage 5 of boot (R310). -/
def linkReset : Link := ⟨true, 0, false, 0, 0, 0⟩

/-- R310, R311, R320: the package before measured boot. -/
def pkgReset : Pkg where
  tick := 0
  pkg := 0
  pod := 0
  split := 0
  capw := 3200
  mrs := List.replicate 8 0
  bootStage := 0
  bootFail := none
  session := 0
  responses := []
  flash := []
  dies := List.replicate 8 dieReset
  links := List.replicate 14 linkReset
  farsol := List.replicate 16 linkReset
  logs := []
  peersDown := []
  scrubbed := []
  lemmel := []

def memReset : MemSys where
  bytes := []
  owner := []
  poison := []
  sram := []
  tags := []
  writer := []
  tables := []
  roots := []
  nextTable := 2 ^ 36
  tlb := []
  absent := []
  dead := []
  seals := []
  frames := []
  expDown := []

def ordReset : OrdSys := ⟨[], [], [], [], 1, 1⟩

/-- The host asks through the physical function, for certificate slot 0. -/
def askedReset : Asked := ⟨.doe, 0, none⟩

def ownReset : Own := ⟨[], ⟨0, 0, 0⟩, none, none, 0, 0, 1, askedReset⟩

/-- The machine right after power is applied, before measured boot (R310). -/
def State.reset : State where
  own := ownReset
  mem := memReset
  ord := ordReset
  waves := []
  groups := []
  quarters := []
  objs := []
  reqs := []
  colls := []
  estates := []
  holdings := []
  launches := []
  queues := []
  saved := []
  armedD := []
  armedR := []
  worlds := []
  seqs := []
  slots := []
  invals := []
  parts := [partReset 0]
  contexts := []
  pkg := pkgReset
  repair := []
  msglog := []
  records := []

end Sys2Proof.Machine
end

