-- ==== Sys2Proof/Machine/Find.lean ====
section
/-! DEFINITION. Machine/Find.lean: finding and replacing the records of the state by their keys, the routes between dies (R328), the counters of a world (R316) and the bandwidth buckets (R306). -/

namespace Sys2Proof.Machine

/-- Replaces the elements that satisfy p. -/
def updBy {α : Type} (p : α → Bool) (f : α → α) (xs : List α) : List α := xs.map (fun x => if p x then f x else x)

/-! ## Waves and groups -/

def State.wave? (s : State) (uid : Nat) : Option Wave := s.waves.find? (fun w => w.uid == uid)
def State.setWave (s : State) (w : Wave) : State := { s with waves := updBy (fun v => v.uid == w.uid) (fun _ => w) s.waves }
def State.onWave (s : State) (uid : Nat) (f : Wave → Wave) : State := { s with waves := updBy (fun v => v.uid == uid) f s.waves }
def State.dropWave (s : State) (uid : Nat) : State := { s with waves := s.waves.filter (fun v => v.uid != uid) }

def State.group? (s : State) (launch index : Nat) : Option Group :=
  s.groups.find? (fun g => g.launch == launch && g.index == index)
def State.onGroup (s : State) (launch index : Nat) (f : Group → Group) : State :=
  { s with groups := updBy (fun g => g.launch == launch && g.index == index) f s.groups }

/-- A wave where it stands: resident, discarded, or in its world's saved context. -/
def State.waveAnywhere? (s : State) (uid : Nat) : Option Wave :=
  (s.waves ++ s.saved.flatMap (fun g => g.waves) ++ s.contexts.flatMap (fun c => c.waves)).find? (fun w => w.uid == uid)

def Wave.source (w : Wave) : Source := ⟨w.launch, w.group, w.index, w.loc⟩

/-- Waves that become eligible again: rule 4 of R54 counts anew. -/
def State.rewait (s : State) (p : Wave → Bool) : State := { s with waves := updBy p (fun w => { w with waited := 0 }) s.waves }

def Wave.qref (w : Wave) : QRef := ⟨w.loc.die, w.loc.core, w.loc.quarter⟩

/-! ## Launches, queues, worlds, sequences, partitions, dies -/

def State.launch? (s : State) (uid : Nat) : Option Launch := s.launches.find? (fun l => l.uid == uid)
def State.onLaunch (s : State) (uid : Nat) (f : Launch → Launch) : State :=
  { s with launches := updBy (fun l => l.uid == uid) f s.launches }

/-- Whether a launch is repairable. -/
def State.repairs (s : State) (launch : Nat) : Bool :=
  match s.launch? launch with
  | none => false
  | some l => l.block.repair

def State.queue? (s : State) (id : Nat) : Option Queue := s.queues.find? (fun q => q.id == id)
def State.onQueue (s : State) (id : Nat) (f : Queue → Queue) : State :=
  { s with queues := updBy (fun q => q.id == id) f s.queues }

def State.world? (s : State) (id : Nat) : Option World := s.worlds.find? (fun w => w.id == id)
def State.onWorld (s : State) (id : Nat) (f : World → World) : State :=
  { s with worlds := updBy (fun w => w.id == id) f s.worlds }

def State.seq? (s : State) (world num : Nat) : Option Seq := s.seqs.find? (fun q => q.world == world && q.num == num)
def State.onSeq (s : State) (world num : Nat) (f : Seq → Seq) : State :=
  { s with seqs := updBy (fun q => q.world == world && q.num == num) f s.seqs }

def State.part? (s : State) (id : Nat) : Option Part := s.parts.find? (fun p => p.id == id)
def State.onPart (s : State) (id : Nat) (f : Part → Part) : State :=
  { s with parts := updBy (fun p => p.id == id) f s.parts }

/-- R302: dies per partition, and the partition of a die, numbered by its lowest die. -/
def State.partDies (s : State) : Nat := 8 / 2 ^ s.pkg.split
def State.partOf (s : State) (die : Nat) : Nat := die / s.partDies * s.partDies

def State.die (s : State) (d : Nat) : Die := s.pkg.dies.getD d dieReset
def State.onDie (s : State) (d : Nat) (f : Die → Die) : State :=
  { s with pkg := { s.pkg with dies := s.pkg.dies.modify d f } }

def State.quarter (s : State) (die core q : Nat) : Quarter := mapGet quarterReset s.quarters ((die * 36 + core) * 4 + q)
def State.onQuarter (s : State) (die core q : Nat) (f : Quarter → Quarter) : State :=
  { s with quarters := mapSet quarterReset s.quarters ((die * 36 + core) * 4 + q) (f (s.quarter die core q)) }

def State.onReq (s : State) (id : Nat) (f : EngReq → EngReq) : State := { s with reqs := updBy (fun r => r.id == id) f s.reqs }
def State.req? (s : State) (id : Nat) : Option EngReq := s.reqs.find? (fun r => r.id == id)

def State.onRepair (s : State) (d : Nat) (f : Repair → Repair) : State :=
  { s with repair := updBy (fun r => r.die == d) f s.repair }
def State.repair? (s : State) (d : Nat) : Option Repair := s.repair.find? (fun r => r.die == d)

/-- The sender's log to a die is full, and the die has yet to take a rick (R333). -/
def State.sendsStalled (s : State) (src dst : Nat) : Bool :=
  match s.repair? dst with
  | none => false
  | some r => r.stalled.contains src

/-- The space of a world's compartment (R274). -/
def State.space (s : State) (world comp : Nat) : Nat :=
  match s.world? world with
  | none => 0
  | some w => match w.comps[comp]? with
    | none => 0
    | some c => c.space

/-- A fresh number of the model's own. -/
def State.fresh (s : State) : Nat × State := (s.own.uid, { s with own := { s.own with uid := s.own.uid + 1 } })

/-- The next number for a free value. -/
def State.freeNo (s : State) : Nat × State := (s.own.free, { s with own := { s.own with free := s.own.free + 1 } })

/-! ## Routes (R328)

Links 0 to 5: row r between columns c and c + 1, at 3r + c. Links 6 to 9: column c between the rows. Links 10 and 11:
hub 0 to dies 0 and 4. Links 12 and 13: hub 1 to dies 3 and 7. -/

def State.linkUp (s : State) (i : Nat) : Bool :=
  match s.pkg.links[i]? with
  | none => false
  | some l => !l.retraining && !l.down

/-- The boundaries along a row between two columns. -/
def rowLinks (r c d : Nat) : List Nat := (List.range (max c d - min c d)).map (fun k => 3 * r + min c d + k)

/-- The routes of a pair of compute dies, best first. -/
def routesOf (a b : Nat) : List (List Nat) :=
  let ra := a / 4
  let ca := a % 4
  let rb := b / 4
  let cb := b % 4
  if ra = rb then
    [rowLinks ra ca cb, [6 + ca] ++ rowLinks (1 - ra) ca cb ++ [6 + cb]]
  else
    let turn := if ca = cb then
        let n := if ca = 3 then 2 else ca + 1
        [rowLinks ra ca n ++ [6 + n] ++ rowLinks rb n ca]
      else []
    [rowLinks ra ca cb ++ [6 + cb], [6 + ca] ++ rowLinks rb ca cb] ++ turn

/-- The rank of the route that traffic takes between two compute dies, from 0; none where no route exists. -/
def State.routeRank (s : State) (a b : Nat) : Option Nat :=
  if a = b then some 0 else (routesOf a b).findIdx? (fun r => r.all s.linkUp)

/-- The hub's linked dies, each with its link, the one in the die's row first. -/
def hubLinks (hub d : Nat) : List (Nat × Nat) :=
  let two := if hub = 8 then [(10, 0), (11, 4)] else [(12, 3), (13, 7)]
  if d / 4 = 0 then two else two.reverse

/-- Whether traffic passes between two of the dies 0 to 7 and the hubs 8 and 9. -/
def State.reachable (s : State) (a b : Nat) : Bool :=
  if a < 8 && b < 8 then (s.routeRank a b).isSome
  else if 8 ≤ a && 8 ≤ b then true
  else
    let hub := max a b
    let d := min a b
    match hubLinks hub d with
    | [(l1, d1), (l2, d2)] =>
      (s.linkUp l1 && (rowLinks (d / 4) (d1 % 4) (d % 4)).all s.linkUp) || (s.linkUp l2 && (s.routeRank d2 d).isSome)
    | _ => false

/-- The links of the route that traffic takes between two of the dies and the hubs, the hub's link first (R328). -/
def State.pathLinks (s : State) (a b : Nat) : List Nat :=
  let between := fun a b => (routesOf a b).getD ((s.routeRank a b).getD 0) []
  if a = b || (8 ≤ a && 8 ≤ b) then []
  else if a < 8 && b < 8 then between a b
  else
    let d := min a b
    match hubLinks (max a b) d with
    | [(l1, d1), (l2, d2)] =>
      if s.linkUp l1 && (rowLinks (d / 4) (d1 % 4) (d % 4)).all s.linkUp then l1 :: rowLinks (d / 4) (d1 % 4) (d % 4)
      else l2 :: (if d2 = d then [] else between d2 d)
    | _ => []

/-- The traffic of a pair takes another route than the first (R328); that of a hub, from its other linked die by one. -/
def State.detour (s : State) (a b : Nat) : Bool :=
  if a < 8 && b < 8 then s.routeRank a b != some 0
  else if 8 ≤ a && 8 ≤ b then false
  else
    let d := min a b
    match hubLinks (max a b) d with
    | [(l1, d1), (_, d2)] => !(s.linkUp l1 && (rowLinks (d / 4) (d1 % 4) (d % 4)).all s.linkUp) && s.routeRank d2 d != some 0
    | _ => false

/-- What some bytes take of the die links' bandwidth: half of it is left to a pair whose traffic takes another route (R328). -/
def State.linkBytes (s : State) (a b n : Nat) : Nat := if s.detour a b then 2 * n else n

/-- How many die boundaries traffic crosses (R328): links 0 to 9 of its route. -/
def State.hops (s : State) (a b : Nat) : Nat := ((s.pathLinks a b).filter (fun l => l < 10)).length

/-- A sealed flit takes the next value of its link's counter; before the counter repeats, the link has a new key (R286). -/
def Link.flit (l : Link) : Link :=
  if l.counter + 1 < 2 ^ 96 then { l with counter := l.counter + 1 } else { l with counter := 0, key := l.key + 1 }

def State.onLinks (s : State) (is : List Nat) (f : Link → Link) : State :=
  { s with pkg := { s.pkg with links := is.foldl (fun ls i => ls.modify i f) s.pkg.links } }

/-- A flit crosses each link of its route. -/
def State.cross (s : State) (a b : Nat) : State := s.onLinks (s.pathLinks a b) Link.flit

/-- A flit has been acknowledged on its route: resends are counted of the next (R327). -/
def State.acked (s : State) (a b : Nat) : State := s.onLinks (s.pathLinks a b) (fun l => { l with resends := 0 })

/-- A flit crosses the Farsol port of a peer (log entry 90). -/
def State.crossPeer (s : State) (peer : Nat) : State :=
  { s with pkg := { s.pkg with farsol := s.pkg.farsol.modify (peer % 16) Link.flit } }

/-! ## Counters (R316) -/

def satAdd (x n : Nat) : Nat := min (x + n) (2 ^ 64 - 1)

def State.count (s : State) (world n amount : Nat) : State :=
  if amount = 0 then s else s.onWorld world (fun w => { w with counters := w.counters.modify n (satAdd · amount) })

/-- Counter n of a launch's world. -/
def State.countL (s : State) (launch n amount : Nat) : State :=
  match s.launch? launch with
  | none => s
  | some l => s.count l.world n amount

/-! ## Activity (R215) -/

def State.firing (s : State) (part : Nat) : State := s.onPart part (fun p => { p with activity := s.pkg.tick, paused := 0 })

/-! ## Bandwidth (R305, R306) -/

inductive Resource where
  | fabric | link | mem
deriving DecidableEq, Repr

def shareOf (x : W64) : Resource → Nat
  | .fabric => (x.extractLsb' 40 20).toNat
  | .link => (x.extractLsb' 20 20).toNat
  | .mem => (x.extractLsb' 0 20).toNat

def Bucket.get (b : Bucket) : Resource → Nat
  | .fabric => b.fabric
  | .link => b.link
  | .mem => b.mem

def Bucket.put (b : Bucket) (r : Resource) (n : Nat) : Bucket :=
  match r with
  | .fabric => { b with fabric := n }
  | .link => { b with link := n }
  | .mem => { b with mem := n }

def Part.bucket (p : Part) (world : Nat) : Bucket :=
  match p.buckets.find? (fun b => b.1 == world) with
  | none => ⟨0, 0, 0⟩
  | some b => b.2

/-- No world of the partition has a share of a resource: it is not divided, and no request waits (log entry 23). -/
def Part.unshared (p : Part) (r : Resource) : Bool := p.share.all (fun e => shareOf e.2 r == 0)

/-- A bucket's cap: twice the share. A world of share 0 keeps what redistribution gives it (log entry 23). -/
def capOf (share : Nat) : Nat := if share = 0 then 2 ^ 21 else 2 * share

/-- Whether a request of so many bytes passes, and the bucket after it. -/
def Part.passes (p : Part) (world : Nat) (r : Resource) (bytes : Nat) : Option Bucket :=
  let g := (bytes + 63) / 64
  let cap := capOf (shareOf (mapGet 0 p.share world) r)
  let b := p.bucket world
  if p.unshared r then some b
  else if g ≤ b.get r then some (b.put r (b.get r - g))
  else if cap < g && b.get r == cap then some (b.put r 0)
  else none

def putBucket (world : Nat) (b : Bucket) : List (Nat × Bucket) → List (Nat × Bucket)
  | [] => [(world, b)]
  | (w, c) :: bs => if w = world then (world, b) :: bs else (w, c) :: putBucket world b bs

/-- Takes the grains of a request, where they are there. -/
def State.spend (s : State) (part world : Nat) (r : Resource) (bytes : Nat) : Option State :=
  match s.part? part with
  | none => some s
  | some p => match p.passes world r bytes with
    | none => none
    | some b => some (s.onPart part (fun p => { p with buckets := putBucket world b p.buckets }))

/-- The resources of a request from a die to another, or to a peer: memory, the die link where one is crossed, Farsol. -/
def State.spendMem (s : State) (die world home : Nat) (peer : Bool) (bytes : Nat) : Option State :=
  if peer then s.spend (s.partOf die) world .fabric bytes
  else match s.spend (s.partOf die) world .mem bytes with
    | none => none
    | some s => if die = home then some s else s.spend (s.partOf die) world .link (s.linkBytes die home bytes)

end Sys2Proof.Machine
end

