-- ==== Sys2Proof/Machine/Slices.lean ====
section
/-! DEFINITION. Machine/Slices.lean: the quantum table and the slices of worlds in a partition (R303, R350), the dies in deterministic issue (R330), and what holds a partition or a die back. -/

namespace Sys2Proof.Machine

/-! ## The quantum table (R303) -/

def qEn (x : W64) : Bool := x.getLsbD 31
def qWorld (x : W64) : Nat := (x.extractLsb' 16 6).toNat
def qMicros (x : W64) : Nat := max 100 (x.extractLsb' 0 16).toNat

def Part.entry (p : Part) (i : Nat) : W64 := mapGet 0 p.quantum i

/-- The world of the slice in progress: a rewritten entry takes effect at its next slice. -/
def Part.sliceWorld (p : Part) : Option Nat := p.world

/-- Some entry of the partition's table is in use for a world (R350). -/
def Part.enabled (p : Part) (world : Nat) : Bool :=
  (List.range 64).any (fun i => qEn (p.entry i) && qWorld (p.entry i) == world)

/-- A launch of the queues of a world in a partition. -/
def State.bound (s : State) (part world launch : Nat) : Bool :=
  match s.launch? launch with
  | none => false
  | some l => l.part == part && l.world == world

/-- A launch that waits for its next group's place. -/
def Launch.wantsPlace (l : Launch) : Bool :=
  l.st == .waiting && l.leased && l.released && !l.stopped && l.next < l.block.gx * l.block.gy * l.block.gz

/-- A world has work in a partition: a resident launch, a queue with a packet waiting, or a launch ready to become resident
(log entry 91). -/
def State.hasWork (s : State) (part world : Nat) : Bool :=
  s.groups.any (fun g => s.bound part world g.launch) || s.reqs.any (fun r => s.bound part world r.launch)
    || s.saved.any (fun g => s.bound part world g.group.launch)
    || s.contexts.any (fun c => c.part == part && c.world == world && !(c.groups.isEmpty && c.reqs.isEmpty))
    || s.queues.any (fun q => q.part == part && q.world == world && !(q.packets.isEmpty && q.device.isEmpty))
    || s.launches.any (fun l => l.part == part && l.world == world && l.wantsPlace)

/-- The entry that the partition steps to: the first enabled one with work after the current one, wrapping. -/
def State.nextSlice (s : State) (p : Part) : Option Nat :=
  let start := match p.slice with
    | none => 0
    | some i => i + 1
  ((List.range 64).map (fun k => (start + k) % 64)).find? (fun i => qEn (p.entry i) && s.hasWork p.id (qWorld (p.entry i)))

/-- The slice in progress is over. -/
def State.sliceOver (s : State) (p : Part) : Bool :=
  match p.slice with
  | none => true
  | some i => p.world.isNone || p.sliceAt + 1000 * qMicros (p.entry i) ≤ s.pkg.tick

/-- The partition is about to switch worlds: nothing of the outgoing one starts (R304 step 1). -/
def State.switching (s : State) (p : Part) : Bool :=
  p.world.isSome && s.sliceOver p && (s.nextSlice p).map (fun i => qWorld (p.entry i)) != p.sliceWorld

/-- The context of the world in its slice is still to be restored. -/
def State.restoring (s : State) (p : Part) : Bool := s.contexts.any (fun c => c.part == p.id && p.sliceWorld == some c.world)

/-- A world runs in a partition: it has the slice, and its saved context is back. -/
def State.runs (s : State) (part world : Nat) : Bool :=
  match s.part? part with
  | none => false
  | some p => p.sliceWorld == some world && !s.switching p && !p.frozen && !s.restoring p

/-- The ember watch pauses while the partition runs no world, during a full save or restore, and during a die warm reset
(R215). -/
def State.watchPaused (s : State) (p : Part) : Bool :=
  p.sliceWorld.isNone || s.switching p || s.restoring p
    || (List.range s.partDies).any (fun k => (s.die (p.id + k)).held)

/-! ## Deterministic issue (R330) -/

/-- A wave of a repairable launch is resident on the die. -/
def State.deterministic (s : State) (die : Nat) : Bool :=
  s.waves.any (fun w => w.loc.die == die && w.transit.isNone && (match s.launch? w.launch with
    | none => false
    | some l => l.block.repair))

/-- A warm reset of the die is ordered; one that an arrival armed falls at the next round boundary, or now where the die runs none (R334, R340). -/
def State.resetDue (s : State) (die : Nat) : Bool := s.armedR.any (fun a => a.die == die && (a.due || (a.landed && !s.deterministic die)))

/-- An input of a deterministic die waits for the round boundary. -/
def State.admits (s : State) (die : Nat) : Bool := !(s.die die).held && !s.deterministic die

end Sys2Proof.Machine
end

