-- ==== Sys2Proof/Machine/Memory.lean ====
section
/-! DEFINITION. Machine/Memory.lean: capabilities and leaves, the walk and the TLBs (R274 to R279), the lease (R280), physical memory with keys, tags and poison (R278, R293, R299, R324), copies, overlays and channels (R219 to R221). -/

namespace Sys2Proof.Machine

/-! ## Capabilities (R298) -/

def capBase (c : W128) : Nat := (c.extractLsb' 0 48).toNat
def capLen (c : W128) : Nat := (c.extractLsb' 48 42).toNat
def capR (c : W128) : Bool := c.getLsbD 90
def capW (c : W128) : Bool := c.getLsbD 91
def capX (c : W128) : Bool := c.getLsbD 92
def capComp (c : W128) : Nat := (c.extractLsb' 93 3).toNat
def capSeq (c : W128) : Nat := (c.extractLsb' 96 32).toNat

/-- Whether a byte lies in a capability's range. -/
def capHas (c : W128) (va : Nat) : Bool := capLen c != 0 && capBase c ≤ va && va < capBase c + capLen c

inductive Perm where
  | read | write | exec
deriving DecidableEq, Repr

def capGives (c : W128) : Perm → Bool
  | .read => capR c
  | .write => capW c
  | .exec => capX c

/-! ## Leaves (R276, R277) -/

structure Leaf where
  v      : Bool
  r      : Bool
  w      : Bool
  x      : Bool
  sealed : Bool
  held   : Bool
  layout : Bool
  home   : Nat
  efmt   : Nat
  tier   : Nat
  kslot  : Nat
  frame  : Nat
  sframe : Nat
  peer   : Nat
  rsv    : Bool
deriving DecidableEq, Repr

def leafOf (e : W128) : Leaf where
  v := e.getLsbD 0
  r := e.getLsbD 1
  w := e.getLsbD 2
  x := e.getLsbD 3
  sealed := e.getLsbD 4
  home := (e.extractLsb' 5 3).toNat
  efmt := (e.extractLsb' 9 4).toNat
  layout := e.getLsbD 13
  tier := (e.extractLsb' 14 2).toNat
  kslot := (e.extractLsb' 16 9).toNat
  held := e.getLsbD 25
  frame := (e.extractLsb' 32 32).toNat * 2 ^ 16
  sframe := (e.extractLsb' 64 36).toNat * 2 ^ 12
  peer := (e.extractLsb' 100 10).toNat
  rsv := e.extractLsb' 26 6 != 0 || e.extractLsb' 110 18 != 0

/-- The width of a block format's mantissas, by EFMT (R277). -/
def blockBits (efmt : Nat) : Option Nat := if 6 ≤ efmt && efmt ≤ 12 then some (efmt - 4) else none

def pageBytes (big : Bool) : Nat := if big then 2 ^ 21 else 2 ^ 16

/-- R277. -/
def Leaf.malformed (l : Leaf) (big : Bool) : Bool :=
  l.rsv || 13 ≤ l.efmt || l.tier == 3
    || ((blockBits l.efmt).isNone && (l.layout || l.sframe != 0))
    || (match blockBits l.efmt with
        | none => false
        | some b => l.sframe % (if b < 4 then pageBytes big / 8 else pageBytes big / 16) != 0)
    || (l.tier == 0 && l.home != l.frame / 2 ^ 37)
    || (l.tier == 2 && l.home != 0)
    || (l.sealed && l.w)
    || (big && l.frame % 2 ^ 21 != 0)

/-- On its home die a byte's line lies in one of 32 slices, and its stack alternates (R278). -/
def homeSlice (pa : Nat) : Nat := (pa / 2 ^ 7 % 32) ^^^ (pa / 2 ^ 12 % 32)
def homeStack (pa : Nat) : Nat := pa / 2 ^ 8 % 2

/-- The memory windows of R278. -/
def inWindow (pa : Nat) : Bool := (pa < 2 ^ 40 && pa % 2 ^ 37 < 96 * 2 ^ 30) || (2 ^ 46 ≤ pa && pa < 2 ^ 46 + 2 ^ 43)

/-- A place of this package at which there is no memory. -/
def ByteAt.hole (b : ByteAt) : Bool := b.peer.isNone && !inWindow b.pa

/-- An access to such a place stops the machine. -/
def guardHole (bs : List ByteAt) (o : Out) : Out := if bs.any ByteAt.hole then .fault .noMemory else o

/-- What translating an address finds (R275, R283). -/
inductive Xlate where
  | absent
  | held
  | page (l : Leaf) (big : Bool) (e : W128)
deriving DecidableEq, Repr

/-- A leaf entry as the walker takes it. -/
def xlateOf (e : W128) (big : Bool) : Xlate :=
  let l := leafOf e
  if l.v then (if l.malformed big then .absent else .page l big e)
  else if l.held then .held else .absent

/-- The next table of a non-leaf entry (R275). -/
def nextTable (e : W128) : Option Nat :=
  if e.getLsbD 0 && !e.getLsbD 8 then some (e.extractLsb' 9 55).toNat else none

/-- The walk of R275: four levels. -/
def State.walk (s : State) (space va : Nat) : Xlate :=
  if 2 ^ 48 ≤ va then .absent
  else
    let root := mapGet 0 s.mem.roots space
    if root = 0 then .absent
    else
      let at_ := fun t i => mapGet (0 : W128) s.mem.tables (t + 16 * i)
      match nextTable (at_ root (va / 2 ^ 40)) with
      | none => .absent
      | some t1 => match nextTable (at_ (t1 * 512) (va / 2 ^ 32 % 256)) with
        | none => .absent
        | some t2 =>
          let e2 := at_ (t2 * 512) (va / 2 ^ 21 % 2048)
          match nextTable e2 with
          | none => if e2.getLsbD 8 then xlateOf e2 true else .absent
          | some t3 =>
            let e3 := at_ (t3 * 512) (va / 2 ^ 16 % 32)
            if e3.getLsbD 8 then xlateOf e3 false else .absent

/-! ### TLBs (R279): dies 0 to 7, the hubs' agents at 8, 9 and 10, cores from 16 on, command threads from 2^16 on -/

def coreAgent (die core : Nat) : Nat := 16 + die * 36 + core
def Wave.agent (w : Wave) : Nat := coreAgent w.loc.die w.loc.core

/-- The network interface (R253), and the command-processor thread of a queue, each a hub agent of its own (R279). -/
def netAgent : Nat := 10
def threadAgent (queue : Nat) : Nat := 2 ^ 16 + queue

/-- The levels that an agent's translation goes through. -/
def tlbLevels (a : Nat) : List Nat := if 16 ≤ a && a < 2 ^ 16 then [a, (a - 16) / 36] else [a]
def tlbSize (a : Nat) : Nat := if a < 8 then 8192 else if 16 ≤ a && a < 2 ^ 16 then 384 else 64

def TlbEntry.hits (t : TlbEntry) (a space va : Nat) : Bool :=
  t.at_ == a && t.space == space && t.vpage == va / pageBytes t.big

def State.tlbFor (s : State) (agent space va : Nat) : Option TlbEntry :=
  (tlbLevels agent).findSome? (fun a => s.mem.tlb.find? (fun t => t.hits a space va))

/-- A leaf of a peer that went down: its page stands in its leases and reaches no package (R285). -/
def State.deadPage (s : State) (space va : Nat) : Option MapReq :=
  s.mem.dead.find? (fun m => m.space == space && m.va.toNat / pageBytes m.big == va / pageBytes m.big)

/-- Packages from 1,024 up stand for the dropped translations of a peer. -/
def State.peerDown (s : State) (p : Nat) : Bool := 1024 ≤ p || s.pkg.peersDown.contains p

/-- Translation by an agent: its TLBs first, then the walk (R279). -/
def State.xlate (s : State) (agent space va : Nat) : Xlate :=
  if 2 ^ 48 ≤ va then .absent
  else match s.tlbFor agent space va with
    | some t => .page (leafOf t.leaf) t.big t.leaf
    | none => match s.walk space va, s.deadPage space va with
      | .absent, some m => .page { leafOf m.leaf with peer := 1024 + (leafOf m.leaf).peer } m.big m.leaf
      | x, _ => x

/-- Puts an entry into its TLB; the oldest of a full one goes. -/
def tlbPut (t : TlbEntry) (ts : List TlbEntry) : List TlbEntry :=
  if ts.contains t then ts
  else
    let full := tlbSize t.at_ ≤ (ts.filter (fun x => x.at_ == t.at_)).length
    (if full then ts.eraseP (fun x => x.at_ == t.at_) else ts) ++ [t]

/-- The leaf that an agent's translation uses, with its size. -/
def State.leafFor (s : State) (agent space va : Nat) : Option (W128 × Bool) :=
  match s.tlbFor agent space va with
  | some t => some (t.leaf, t.big)
  | none => match s.walk space va with
    | .page _ big e => some (e, big)
    | _ => none

/-- Caches a translation at each level that it went through. -/
def State.cacheXlate (s : State) (agent space va : Nat) : State :=
  { s with mem := { s.mem with tlb := match s.leafFor agent space va with
    | none => s.mem.tlb
    | some l => (tlbLevels agent).foldl (fun ts a => tlbPut ⟨space, va / pageBytes l.2, l.2, l.1, a⟩ ts) s.mem.tlb } }

/-- The place of a byte of a page. -/
def Leaf.byteAt (l : Leaf) (big : Bool) (va : Nat) : ByteAt :=
  ⟨l.frame + va % pageBytes big, l.kslot, l.home, if l.tier == 2 then some l.peer else none, va / 2 ^ 16⟩

/-- A byte's virtual address. -/
def ByteAt.va (b : ByteAt) : Nat := b.vpage * 2 ^ 16 + b.pa % 2 ^ 16

/-! ## The lease (R280, R202, R268) -/

def Block.groups (b : Block) : Nat := b.gx * b.gy * b.gz
def Block.waves (b : Block) : Nat := (b.fibres + 63) / 64

/-- Whether a byte lies in the launch's backing-store area or its sequence's estate area. -/
def State.closed (s : State) (l : Launch) (va : Nat) : Bool :=
  let b := l.block
  let bs := b.bsbase.toNat ≤ va && va < b.bsbase.toNat + b.groups * b.waves * b.bssize
  let ea := match s.seq? l.world b.seq with
    | none => false
    | some q => q.eabase.toNat ≤ va && va < q.eabase.toNat + q.easize
  bs || ea

/-- R307, R308: the ranges of the launch's own compartment, but for those that have left the lease. -/
def Launch.leases (l : Launch) (va : Nat) (p : Perm) : Bool :=
  l.block.caps.zipIdx.any (fun c => capHas c.1 va && capGives c.1 p && capComp c.1 == l.comp && !l.left.contains c.2)

/-- Why an access is not sent. -/
inductive Deny where
  | lease | format | retry
deriving DecidableEq, Repr

/-- One byte of a data access: the lease, the page, the seal (R31 step 16). -/
def State.leaseByte (s : State) (l : Launch) (agent : Nat) (p : Perm) (va : Nat) : Except Deny (ByteAt × Leaf × Bool) :=
  if 2 ^ 48 ≤ va || !l.leases va p || s.closed l va then .error .lease
  else match s.xlate agent (s.space l.world l.comp) va with
    | .absent => .error .lease
    | .held => .error .retry
    | .page f big _ => if p == .write && f.sealed then .error .lease else .ok (f.byteAt big va, f, big)

/-- The bytes of an access in ascending order; the first that fails is named by its address. -/
def State.leaseBytes (s : State) (l : Launch) (agent : Nat) (p : Perm) :
    List Nat → Except (Deny × Nat) (List (ByteAt × Leaf × Bool))
  | [] => .ok []
  | va :: vas => match s.leaseByte l agent p va with
    | .error d => .error (d, va)
    | .ok b => match s.leaseBytes l agent p vas with
      | .error e => .error e
      | .ok bs => .ok (b :: bs)

/-- The n addresses from va upward, modulo 2^64. -/
def span (va n : Nat) : List Nat := (List.range n).map (fun i => (va + i) % 2 ^ 64)

/-! ## Keys and bytes (R287, R293) -/

/-- The generation of the key in a slot: 0 where the slot is empty, 1 for the firmware key. -/
def State.keyGen (s : State) (slot : Nat) : Nat := if slot = 0 then 1 else mapGet 0 s.slots slot

/-- A byte read under a key (log entries 5 and 6). -/
def decrypt (gen pa owner : Nat) (v : Byte) : Byte := if owner = 0 || owner = gen then v else Config.freeByte pa gen

def State.homeByte (s : State) (b : ByteAt) : Byte :=
  decrypt (s.keyGen b.kslot) b.pa (mapGet 0 s.mem.owner b.pa) (mapGet 0 s.mem.bytes b.pa)

/-- The ECC word of a byte: 32 bytes of HBM, 64 of the second tier (R322). -/
def eccKey (pa : Nat) : Nat := if pa < 2 ^ 46 then pa / 32 else 2 ^ 43 + pa / 64
def eccSpan (pa : Nat) : List Nat :=
  if pa < 2 ^ 46 then (List.range 32).map (fun i => pa / 32 * 32 + i) else (List.range 64).map (fun i => pa / 64 * 64 + i)

/-- Lines of an expander that stopped answering are poison (R284); a 4-byte word of a home's L2 has a mark of its own (R322). -/
def MemSys.poisoned (m : MemSys) (pa : Nat) : Bool :=
  mapGet false m.poison (eccKey pa) || mapGet false m.sram (pa / 4) || (2 ^ 46 ≤ pa && m.expDown.contains (pa / 2 ^ 40 % 8))

/-- A byte written at home: its value, key and writer; its granule's tag is cleared (R299). -/
def MemSys.put (m : MemSys) (gen wid pa : Nat) (v : Byte) : MemSys :=
  { m with
    bytes := mapSet 0 m.bytes pa v
    owner := mapSet 0 m.owner pa gen
    writer := mapSet 0 m.writer pa wid
    tags := mapSet false m.tags (pa / 16) false }

/-- The SRAM word of a byte. -/
def wordSpan (pa : Nat) : List Nat := (List.range 4).map (fun i => pa / 4 * 4 + i)

/-- Poisoned words that a write covers only in part (R324). -/
def MemSys.halfPoisoned (m : MemSys) (pas : List Nat) : Bool :=
  pas.any (fun pa =>
    ((mapGet false m.poison (eccKey pa) || (2 ^ 46 ≤ pa && m.expDown.contains (pa / 2 ^ 40 % 8))) && !((eccSpan pa).all (fun i => pas.contains i)))
      || (mapGet false m.sram (pa / 4) && !((wordSpan pa).all (fun i => pas.contains i))))

def MemSys.heal (m : MemSys) (pas : List Nat) : MemSys :=
  { m with
    poison := pas.foldl (fun p pa => if (eccSpan pa).all (fun i => pas.contains i) then mapSet false p (eccKey pa) false else p) m.poison
    sram := pas.foldl (fun p pa => if (wordSpan pa).all (fun i => pas.contains i) then mapSet false p (pa / 4) false else p) m.sram }

/-! ## Channels (R219, R333) -/

def Channel.isFrom (c : Channel) (r : ChanRef) : Bool := c.src == r.src && c.dst == r.dst && c.org == r.org

def pushMsg (r : ChanRef) (m : Msg) : List Channel → List Channel
  | [] => [⟨r.src, r.dst, r.org, [m], 1⟩]
  | c :: cs => if c.isFrom r then { c with msgs := c.msgs ++ [m], seq := c.seq + 1 } :: cs else c :: pushMsg r m cs

/-- The channel of a wave on a core to a die: events inside a die keep the order of their core. -/
def chanOf (src core dst : Nat) : ChanRef := if src = dst then ⟨src, dst, core⟩ else ⟨src, dst, 0⟩

def State.chanSeq (s : State) (r : ChanRef) : Nat :=
  match s.ord.chans.find? (fun c => c.isFrom r) with
  | none => 0
  | some c => c.seq

/-- The launch on whose behalf a message travels. -/
def State.msgLaunch (s : State) (m : Msg) : Option Nat :=
  match m with
  | .store id => (s.ord.overlay.find? (fun e => e.id == id)).map (·.launch)
  | .inval _ b => b
  | .event _ _ (some (.wave u _)) | .wave u => (s.waveAnywhere? u).map (·.launch)
  | .event _ _ (some (.piece r _)) | .landing r _ => (s.req? r).map (·.launch)
  | .event _ _ none => none

/-- A message of a channel between dies is a flit sent, and then received, on behalf of a launch: activity of its partition (R215). -/
def State.flit (s : State) (r : ChanRef) (m : Msg) : State :=
  if r.src = r.dst then s
  else match (s.msgLaunch m).bind s.launch? with
    | none => s
    | some l => s.firing l.part

/-! ### Message logs (R333) -/

def scopeNo : Scope → Nat
  | .core => 1
  | .quad => 2
  | .die => 3
  | .pkg => 4
  | .pod => 5

def ObjRef.words : ObjRef → List Nat
  | .core l g off => [0, l, g, off]
  | .net sc h i => [scopeNo sc, h, i]

def BarOp.words : BarOp → List Nat
  | .binit a b => [0, a, b]
  | .arrive _ => [1]
  | .expect n => [2, n]
  | .landing n _ => [3, n]

/-- What a migration carries of a wave (R180, R339). -/
def Wave.words (w : Wave) : List Nat :=
  [w.launch, w.group, w.index, w.winsize, w.runBase, w.fflags.toNat]
    ++ w.fibres.flatMap (fun f => [f.lane, f.pc.toNat, f.preds.toNat, f.winbase, f.claim.toNat] ++ f.stack)
    ++ w.sregs.flatMap (fun r => [r.1, r.2.toNat]) ++ w.vregs.flatMap (fun r => r.1 :: r.2.map BitVec.toNat)
    ++ w.etags.flatMap (fun t => [t.1, t.2.toNat])

def State.accWords (s : State) (r : AccRef) : List Nat :=
  match (s.waveAnywhere? r.wave).bind (fun w => w.entries.find? (fun e => e.id == r.entry)) with
  | none => []
  | some e => (e.accs.filter (fun a => a.lane == r.lane)).flatMap (fun a => a.data :: a.cmp :: a.at_.map (·.pa))

/-- What a message says. -/
def State.msgWords (s : State) (m : Logged) : List Nat :=
  match m with
  | .sent (.store id) => 0 :: (s.ord.overlay.filter (fun e => e.id == id)).flatMap (fun e => e.cells.flatMap (fun c => [c.1.pa, c.1.kslot, c.2.toNat]))
  | .sent (.inval line _) => [1, line]
  | .sent (.event o op _) => 2 :: o.words ++ op.words
  | .sent (.wave u) => 3 :: (s.waves.filter (fun w => w.uid == u)).flatMap Wave.words
  | .sent (.landing r p) => 4 :: (s.reqs.filter (fun q => q.id == r)).flatMap (fun q => (q.pieces.filter (fun x => x.id == p)).flatMap (fun x =>
      (x.data.getD []).map (fun b => b.1.toNat) ++ ((x.sent.map (·.1)).getD []).flatMap (fun b => b.toList.map (·.pa))))
  | .loadReply r bs => 5 :: s.accWords r ++ bs.map BitVec.toNat
  | .atomic r => 6 :: s.accWords r
  | .atomicReply r old => 7 :: s.accWords r ++ old.map BitVec.toNat
  | .engineRead r p => [8, r, p]

/-- The first 8 bytes of SHA-512 over a message. -/
def State.digestOf (s : State) (m : Logged) : BitVec 64 := (Config.sha512 (Config.wire (s.msgWords m))).setWidth 64

/-- Between dies, a message of a repairable launch is logged under its sequence number, with its digest (R333). -/
def State.logMsg (s : State) (r : ChanRef) (seq : Nat) (m : Logged) (rep : Bool) : State :=
  if rep && r.src != r.dst && r.src < 8 && r.dst < 8 then
    let x : LogMsg := ⟨r.src, r.dst, seq, m, s.digestOf m, (s.die r.src).round⟩
    State.onRepair { s with msglog := s.msglog ++ [x] } r.src (fun q => { q with sends := q.sends ++ [x] })
  else s

/-- Puts a message on a channel. -/
def State.post (s : State) (r : ChanRef) (m : Msg) (rep : Bool) : State :=
  let seq := s.chanSeq r
  ((({ s with ord := { s.ord with chans := pushMsg r m s.ord.chans } } : State).flit r m).cross r.src r.dst).logMsg r seq (.sent m) rep

def nextSeq (r : ChanRef) : List Channel → List Channel
  | [] => [⟨r.src, r.dst, r.org, [], 1⟩]
  | c :: cs => if c.isFrom r then { c with seq := c.seq + 1 } :: cs else c :: nextSeq r cs

/-- A message of a repairable launch to another die whose effect is made at once: it has a sequence number, and is logged. -/
def State.sendNow (s : State) (src dst : Nat) (m : Logged) (rep : Bool) : State :=
  let r : ChanRef := ⟨src, dst, 0⟩
  if !rep || src = dst then s
  else State.logMsg { s with ord := { s.ord with chans := nextSeq r s.ord.chans } } r (s.chanSeq r) m rep

def State.headMsg? (s : State) (r : ChanRef) : Option Msg :=
  match s.ord.chans.find? (fun c => c.isFrom r) with
  | none => none
  | some c => c.msgs.head?

/-- The message at the head of a channel is received. -/
def State.popMsg (s : State) (r : ChanRef) : State :=
  let t : State := { s with ord := { s.ord with
    chans := updBy (fun c => c.isFrom r) (fun c => { c with msgs := c.msgs.tail }) s.ord.chans } }
  match s.headMsg? r with
  | none => t
  | some m => (t.flit r m).acked r.src r.dst

/-! ## Writes and their order (R220) -/

def State.writeRec? (s : State) (id : Nat) : Option WriteRec := s.ord.writes.find? (fun r => r.id == id)

def State.stampOf (s : State) (id : Nat) : Nat :=
  match s.writeRec? id with
  | none => 0
  | some r => r.stamp

/-- A new write of some bytes. -/
def State.newWrite (s : State) (cells : List Nat) (carried : Option (List Nat)) : Nat × State :=
  (s.ord.nextId, { s with ord := { s.ord with
    nextId := s.ord.nextId + 1
    writes := s.ord.writes ++ [⟨s.ord.nextId, cells, 0, carried⟩] } })

/-! ## Copies (R210, R219, R221) -/

def copyDie : CopyAt → Nat
  | .l1 d _ _ _ => d
  | .l2 d => d

def lineOf (pa : Nat) : Nat := pa / 128

/-- Lines named once each. -/
def linesOf (bs : List ByteAt) : List (Nat × Nat) := unionNew [] (bs.map (fun b => (b.home, lineOf b.pa)))

def State.dropCopies (s : State) (p : Copy → Bool) : State :=
  { s with ord := { s.ord with copies := s.ord.copies.filter (fun c => !p c) } }

def State.heldBy (s : State) (die line : Nat) : Bool := s.ord.copies.any (fun c => copyDie c.place == die && c.line == line)

/-! ### The blocks of a core that serve as L1 (R205, R206, R210) -/

/-- A group's allocation in KiB (R205). -/
def Block.alloc (b : Block) : Nat := (b.scratch + 1023) / 1024

/-- A of R206: what the groups resident on a core take, in KiB. -/
def State.allocated (s : State) (die core : Nat) : Nat :=
  ((s.groups.filter (fun g => g.die == die && g.core == core)).map (fun g => match s.launch? g.launch with
    | none => 0
    | some l => l.block.alloc)).sum

/-- l: of 12 blocks of 64 KiB, those that the scratchpads leave. -/
def State.l1Blocks (s : State) (die core : Nat) : Nat := 12 - (s.allocated die core + 63) / 64

/-- Where a copy competes for room: a set of a core's L1, or a slice of a die's L2 (R2, R210). -/
def Copy.way (c : Copy) : Nat × Nat × Nat :=
  match c.place with
  | .l1 d k _ _ => (0, d * 36 + k, c.line % 512)
  | .l2 d => (1, d, homeSlice (c.line * 128))

/-- The lines that a way holds: l in a set of an L1, 2 MiB in a slice of an L2. -/
def State.ways (s : State) (k : CopyAt) : Nat :=
  match k with
  | .l1 d c _ _ => s.l1Blocks d c
  | .l2 _ => 16384

/-- Copies that no longer find room are dropped, the oldest first. -/
def State.trimCopies (s : State) : List Copy → List Copy
  | [] => []
  | c :: cs => if s.ways c.place ≤ (cs.filter (fun x => x.way == c.way)).length then s.trimCopies cs else c :: s.trimCopies cs

/-- The set of groups on a core has changed: blocks that become scratchpad drop their lines. -/
def State.resizeL1 (s : State) : State := { s with ord := { s.ord with copies := s.trimCopies s.ord.copies } }

/-! ## Repairable pages (R332) -/

def State.repairable (s : State) (pa : Nat) : Bool :=
  s.launches.any (fun l => l.block.repair && l.st != .ended && l.frames.contains (pa / 2 ^ 16))

/-- The other dies that hold a line: a write at its home sends each an invalidation. -/
def State.holders (s : State) (hl : Nat × Nat) : List Nat := (List.range 8).filter (fun d => d != hl.1 && s.heldBy d hl.2)

/-- Drops the home die's copies of a line and sends invalidations to every other die that holds one, for a launch. -/
def State.killLine (s : State) (by_ : Option Nat) (hl : Nat × Nat) : State :=
  (s.holders hl).foldl (fun t d => t.post ⟨hl.1, d, 0⟩ (.inval hl.2 by_) (s.repairable (hl.2 * 128)))
    (s.dropCopies (fun c => copyDie c.place == hl.1 && c.line == hl.2))

/-- A write waits for room in its home's log for the invalidations that it sends on behalf of a repairable launch (R333). -/
def State.invalsStalled (s : State) (bs : List ByteAt) : Bool :=
  (linesOf bs).any (fun hl => s.repairable (hl.2 * 128) && (s.holders hl).any (s.sendsStalled hl.1))

def State.lineNow (s : State) (line : Nat) : List CopyByte :=
  (List.range 128).map (fun i =>
    let pa := line * 128 + i
    ⟨mapGet 0 s.mem.bytes pa, mapGet 0 s.mem.writer pa, mapGet 0 s.mem.owner pa, s.mem.poisoned pa⟩)

/-- The tags of a line's granules (R299). -/
def State.lineTags (s : State) (line : Nat) : List Bool := (List.range 8).map (fun i => mapGet false s.mem.tags (line * 8 + i))

/-- An undo record for a line of a repairable page, before it is written. -/
def State.undoNote (s : State) (hl : Nat × Nat) : State :=
  match s.repair? hl.1 with
  | none => s
  | some r =>
    if (r.slots.any Option.isSome) && s.repairable (hl.2 * 128)
    then s.onRepair hl.1 (fun r => { r with
      undo := r.undo ++ [⟨hl.2, s.lineNow hl.2, s.lineTags hl.2, s.lineNow hl.2, s.lineTags hl.2⟩] })
    else s

/-! ## Performing a write at home (R221 PERFORM, R316 counters 5 and 6) -/

/-- The counter of a frame: 5 for TIER 0, 6 for TIER 1 (R278). -/
def tierCounter (pa : Nat) : Nat := if pa < 2 ^ 46 then 5 else 6

/-- A write of a repairable launch is performed again by a replay: the undo records of its line keep it (R334). -/
def State.redoNote (s : State) (wid : Nat) (c : ByteAt × Byte) : State :=
  let note := fun u : Undo => { u with
    redo := u.redo.set (c.1.pa % 128) ⟨c.2, wid, s.keyGen c.1.kslot, false⟩
    retags := u.retags.set (c.1.pa / 16 % 8) false }
  s.onRepair c.1.home (fun r => { r with undo := updBy (fun u => u.line == lineOf c.1.pa) note r.undo })

/-- Bytes take effect at their home as write wid, on behalf of a launch. -/
def State.performBytes (s : State) (cells : List (ByteAt × Byte)) (wid : Nat) (by_ : Option Nat) : State :=
  let lines := linesOf (cells.map (·.1))
  let s := lines.foldl State.undoNote s
  let s := if by_.any s.repairs then cells.foldl (fun s c => s.redoNote wid c) s else s
  let pas := cells.map (fun c => c.1.pa)
  let m := cells.foldl (fun m c => m.put (s.keyGen c.1.kslot) wid c.1.pa c.2) s.mem
  let s := { s with mem := m.heal pas, ord := { s.ord with
    nextStamp := s.ord.nextStamp + 1
    writes := updBy (fun r => r.id == wid) (fun r => { r with stamp := s.ord.nextStamp }) s.ord.writes } }
  lines.foldl (fun s hl => s.killLine by_ hl) s

/-! ## Reading (R221 READ) -/

/-- The newest overlay entry for a byte on a core that is revealed to a wave. -/
def State.overlayByte (s : State) (die core wave pa : Nat) : Option (Byte × Nat) :=
  s.ord.overlay.foldl (fun acc e =>
    if e.die == die && e.core == core && e.revealed.contains wave then
      match e.cells.find? (fun c => c.1.pa == pa && c.1.peer.isNone) with
      | some c => some (c.2, e.id)
      | none => acc
    else acc) none

/-- The space that a wave translates under (R274). -/
def State.waveSpace (s : State) (w : Wave) : Nat :=
  match s.launch? w.launch with
  | none => 0
  | some l => s.space l.world l.comp

/-- Whether a copy's place answers a wave's lookup of a byte (R210). -/
def copyServes (k : CopyAt) (w : Wave) (space vpage : Nat) : Bool :=
  match k with
  | .l1 d c sp vp => d == w.loc.die && c == w.loc.core && sp == space && vp == vpage
  | .l2 d => d == w.loc.die

/-- The write that a wave's floor at a byte names is not yet performed, and lies in another core's overlay (R220). -/
def State.floorAway (s : State) (w : Wave) (b : ByteAt) : Bool :=
  s.ord.overlay.any (fun e => e.id == mapGet 0 w.floors b.pa && !(e.die == w.loc.die && e.core == w.loc.core))

/-- A copy that serves a byte of an access: it is no older than the wave's floor at any byte of the access that it would
serve, so that one access never takes a line's bytes from two states (R126, R220, R221). -/
def State.copyFor (s : State) (w : Wave) (bs : List ByteAt) (b : ByteAt) : Option Copy :=
  s.ord.copies.find? (fun c => c.line == lineOf b.pa && copyServes c.place w (s.waveSpace w) b.vpage
    && bs.all (fun x => lineOf x.pa != c.line || (s.overlayByte w.loc.die w.loc.core w.uid x.pa).isSome
        || s.stampOf (mapGet 0 w.floors x.pa) ≤ c.taken))

/-- What a read of a byte returns: its value, the write that made it, whether the home was asked, a poison mark. -/
structure ByteRead where
  val    : Byte
  writer : Nat
  home   : Bool
  poison : Bool
deriving DecidableEq, Repr

/-- A wave's read of a byte, one of bs that it takes at once (R221 READ): the overlay, a copy, the home. -/
def State.readByte (s : State) (w : Wave) (bs : List ByteAt) (b : ByteAt) : ByteRead :=
  let home : ByteRead := ⟨s.homeByte b, mapGet 0 s.mem.writer b.pa, true, s.mem.poisoned b.pa⟩
  if b.peer.isSome then home
  else match s.overlayByte w.loc.die w.loc.core w.uid b.pa with
    | some r => ⟨r.1, r.2, false, false⟩
    | none => match s.copyFor w bs b with
      | none => home
      | some c => match c.data[b.pa % 128]? with
        | none => home
        | some x => ⟨decrypt (s.keyGen b.kslot) b.pa x.owner x.val, x.writer, false, x.poison⟩

/-! ## Settling (R224) -/

def scopeDies (die : Nat) : Scope → List Nat
  | .core | .quad | .die => [die]
  | .pkg | .pod => List.range 8

/-- The waves resident on a core. -/
def State.onCore (s : State) (die core : Nat) : List Nat :=
  (s.waves.filter (fun w => w.loc.die == die && w.loc.core == core && w.transit.isNone)).map (·.uid)

/-- Whether write id is settled at a scope for a wave on a core. -/
def State.settled (s : State) (die core : Nat) (sc : Scope) (id : Nat) : Bool :=
  match s.ord.overlay.find? (fun e => e.id == id) with
  | some e => sc == .core && e.die == die && e.core == core && (s.onCore die core).all (fun u => e.revealed.contains u)
  | none =>
    match s.writeRec? id with
    | none => true
    | some r => r.cells.all (fun pa => s.ord.copies.all (fun c =>
        !(c.line == lineOf pa && (scopeDies die sc).contains (copyDie c.place)) || s.stampOf id ≤ c.taken))

def State.settledAll (s : State) (die core : Nat) (sc : Scope) (ids : List Nat) : Bool :=
  ids.all (s.settled die core sc)

/-! ## Storing by the device itself -/

/-- The die of an agent; the number of its hub. -/
def agentDie (a : Nat) : Nat := if 2 ^ 16 ≤ a then 8 else if 16 ≤ a then (a - 16) / 36 else if 8 ≤ a then 8 + a % 2 else a

/-- Bytes move for a world between a die and their homes: counters 5 to 8 (R316), and flits of its partition on die links,
Farsol and CXL ports (R215). -/
def State.countBytes (s : State) (world die : Nat) (bs : List ByteAt) : State :=
  let here := bs.filter (fun b => b.peer.isNone)
  let n := fun p : ByteAt → Bool => (here.filter p).length
  let s := if bs.any (fun b => b.peer.isSome || b.home != die || tierCounter b.pa == 6) then s.firing (s.partOf die) else s
  let s := (unionNew [] (here.map (fun b => b.home))).foldl (fun s h => s.cross die h) s
  let s := (unionNew [] (bs.filterMap (fun b => b.peer))).foldl State.crossPeer s
  (((s.count world 5 (n (fun b => tierCounter b.pa == 5))).count world 6 (n (fun b => tierCounter b.pa == 6))).count world 7
    (here.map (fun b => s.hops die b.home)).sum).count world 8 (bs.length - here.length)

/-- The key slot of a sequence. -/
def State.seqSlot (s : State) (world seq : Nat) : Option Nat := (s.seq? world seq).map (fun q => q.slot)

/-- What the device's own transfers take of a world's bucket (R306): they take their grains where those are there, and do not wait for
them (log entry 23). -/
def State.ownSpend (s : State) (die world : Nat) (bs : List ByteAt) : State :=
  match bs with
  | [] => s
  | b :: _ => (s.spendMem die world b.home b.peer.isSome bs.length).getD s

/-- Bytes that microcode or the spill engine writes for a world at virtual addresses of a space, through valid leaves
alone, under a key slot where it names one (R202, R268). -/
def State.deviceWrite (s : State) (world agent space va : Nat) (key : Option Nat) (bytes : List Byte) (by_ : Option Nat) : State :=
  let cells := (bytes.zipIdx).filterMap (fun bi =>
    match s.xlate agent space (va + bi.2) with
    | .page l big _ => let b := l.byteAt big (va + bi.2); some ({ b with kslot := key.getD b.kslot }, bi.1)
    | _ => none)
  let w := (s.ownSpend (agentDie agent) world (cells.map (·.1))).newWrite (cells.map (fun c => c.1.pa)) none
  (w.2.performBytes (cells.filter (fun c => c.1.peer.isNone)) w.1 by_).countBytes world (agentDie agent) (cells.map (·.1))

/-- A byte that the device reads for itself: what its home holds, or the peer that has it (log entry 20). -/
def State.ownByte (s : State) (b : ByteAt) : Byte :=
  match b.peer with
  | none => s.homeByte b
  | some _ => Config.peerFetch s.own.stepNo b.pa

/-- Bytes that the device reads at virtual addresses of a space. -/
def State.deviceRead (s : State) (agent space va n : Nat) : List (Option (ByteAt × Byte)) :=
  (span va n).map (fun a => match s.xlate agent space a with
    | .page l big _ => let b := l.byteAt big a; if b.peer.any s.peerDown then none else some (b, s.ownByte b)
    | _ => none)

/-- What such a read moves, for a world (R306, R316). -/
def State.deviceReadPaid (s : State) (world agent space va n : Nat) : State :=
  let bs := (s.deviceRead agent space va n).filterMap (fun r => r.map (·.1))
  (s.ownSpend (agentDie agent) world bs).countBytes world (agentDie agent) bs

end Sys2Proof.Machine
end

