-- ==== Sys2Proof/Machine/Regs.lean ====
section
/-! DEFINITION. Machine/Regs.lean: the registers, predicates and fibres of a wave (R14, R21, R189), and the register run with its records (R197 to R201). -/

namespace Sys2Proof.Machine

/-! ## Vector registers, by logical number (R197) -/

def Wave.row (w : Wave) (log : Nat) : Row := mapGet zeroRow w.vregs log

/-- A lane slice. -/
def Wave.slice (w : Wave) (log lane : Nat) : W32 := (w.row log).getD lane 0

/-- The value a lane holds in a register, or in a pair with the upper half above (R21). -/
def Wave.vget (w : Wave) (log : Nat) (wide : Bool) (lane : Nat) : W64 :=
  if wide then w.slice (log + 1) lane ++ w.slice log lane else (w.slice log lane).setWidth 64

/-- Writes the slices of some lanes: the others stay (R14). A written slice loses its poison mark. -/
def Wave.setSlices (w : Wave) (log : Nat) (lanes : List Nat) (f : Nat → W32) : Wave :=
  let old := w.row log
  { w with
    vregs := mapSet zeroRow w.vregs log ((List.range 64).map (fun l => if lanes.contains l then f l else old.getD l 0))
    vpoison := w.vpoison.filter (fun p => !(p.1 == log && lanes.contains p.2)) }

/-- Writes a register or a pair in some lanes. -/
def Wave.vset (w : Wave) (log : Nat) (wide : Bool) (lanes : List Nat) (f : Nat → W64) : Wave :=
  let w := w.setSlices log lanes (fun l => (f l).setWidth 32)
  if wide then w.setSlices (log + 1) lanes (fun l => (f l).extractLsb' 32 32) else w

/-! ## Scalar registers -/

def Wave.sget (w : Wave) (s : Nat) : W64 := mapGet 0 w.sregs s

def Wave.sset (w : Wave) (s : Nat) (v : W64) : Wave :=
  { w with sregs := mapSet 0 w.sregs s v, spoison := w.spoison.filter (· != s) }

/-! ## Fibres and predicates -/

def Wave.fibre? (w : Wave) (lane : Nat) : Option Fibre := w.fibres.find? (fun f => f.lane == lane)

/-- p15 reads as true (R14, R21). -/
def Fibre.pred (f : Fibre) (p : Nat) : Bool := p == 15 || f.preds.getLsbD p

def Wave.pget (w : Wave) (p lane : Nat) : Bool :=
  match w.fibre? lane with
  | none => p == 15
  | some f => f.pred p

def Fibre.setPred (f : Fibre) (p : Nat) (v : Bool) : Fibre :=
  let bit : BitVec 16 := BitVec.ofNat 16 (2 ^ p)
  { f with preds := if v then f.preds ||| bit else f.preds &&& ~~~bit }

def Wave.onLanes (w : Wave) (lanes : List Nat) (f : Fibre → Fibre) : Wave :=
  { w with fibres := updBy (fun x => lanes.contains x.lane) f w.fibres }

/-- Writes a predicate in some lanes; p15 discards (R21). -/
def Wave.pset (w : Wave) (p : Nat) (lanes : List Nat) (v : Nat → Bool) : Wave :=
  if p = 15 then w else w.onLanes lanes (fun f => f.setPred p (v f.lane))

/-- The lanes of a mask, ascending, and the mask of some lanes. -/
def maskLanes (m : W64) : List Nat := (List.range 64).filter (fun l => m.getLsbD l)
def laneMask (ls : List Nat) : W64 := ls.foldl (fun m l => m ||| BitVec.ofNat 64 (2 ^ l)) 0

/-! ## Packing (R200) -/

def rowBytes (n : Nat) (r : Row) : List Byte := r.flatMap (fun x => leBytes n x.toNat)

def isNarrow (n : Nat) (x : W32) : Bool := (x.setWidth n).signExtend 32 == x

/-- The format tag and the payload of a register. -/
def packRow (r : Row) : Nat × List Byte :=
  let b := r.getD 0 0
  let d := r.getD 1 0 - b
  if r.all (· == b) then (1, leBytes 4 b.toNat)
  else if r.zipIdx.all (fun xi => xi.1 == b + BitVec.ofNat 32 xi.2 * d) then (2, leBytes 4 b.toNat ++ leBytes 4 d.toNat)
  else if r.all (isNarrow 8) then (3, rowBytes 1 r)
  else if r.all (isNarrow 16) then (4, rowBytes 2 r)
  else (0, rowBytes 4 r)

/-- Restores a register from its payload. -/
def unpackRow (fmt : Nat) (p : List Byte) : Row :=
  let w := fun k n => BitVec.ofNat 32 (leNat ((p.drop k).take n))
  match fmt with
  | 1 => List.replicate 64 (w 0 4)
  | 2 => (List.range 64).map (fun i => w 0 4 + BitVec.ofNat 32 i * w 4 4)
  | 3 => (List.range 64).map (fun i => ((w i 1).setWidth 8).signExtend 32)
  | 4 => (List.range 64).map (fun i => ((w (2 * i) 2).setWidth 16).signExtend 32)
  | _ => (List.range 64).map (fun i => w (4 * i) 4)

/-- A record's bytes: the header of R201 and the padded payload. -/
def SpillRec.bytes (r : SpillRec) : List Byte :=
  let n := r.payload.length
  leBytes 8 (n * 2 ^ 32 + r.log * 2 ^ 8 + r.etag.toNat * 2 ^ 4 + r.fmt) ++ r.payload
    ++ List.replicate ((8 - n % 8) % 8) 0

/-! ## The slide (R198) -/

/-- The element tag of a logical register: .b32 at birth (R203). -/
def Wave.etag (w : Wave) (log : Nat) : BitVec 4 := mapGet 6 w.etags log

/-- Whether some fibre may still name a logical register: now, after returns, or where a discard rewinds it to its region's
beginning (R231, R236). -/
def Wave.nameable (w : Wave) (log : Nat) : Bool :=
  w.fibres.any (fun f => f.winbase - f.stack.sum ≤ log && log < f.winbase + w.winsize)
    || w.checkpoint.fibres.any (fun f => f.winbase - f.stack.sum ≤ log && log < f.winbase + w.checkpoint.winsize)

def insertRec (r : SpillRec) : List SpillRec → List SpillRec
  | [] => [r]
  | x :: xs => if r.log < x.log then r :: x :: xs else x :: insertRec r xs

/-- Some registers cease to exist: their poison marks and element tags go, and writes of them on their way find them dead. gone lists those
among which marked ones are sought. -/
def Wave.forget (w : Wave) (gone : Nat → Bool) : Wave :=
  let names := fun m : MarkOn => match m with
    | .vec g => if gone g then [g] else []
    | .grid b => (List.range 64).filterMap (fun i => if gone (b + 64 + i) then some (b + 64 + i) else none)
    | .scalar _ | .pred _ | .claim => []
  { w with
    vpoison := w.vpoison.filter (fun p => !gone p.1)
    etags := w.etags.filter (fun e => !gone e.1)
    dead := w.dead ++ w.marks.flatMap (fun m => (names m.on).map (fun g => (m.entry, g)))
    marks := w.marks.filter (fun m => match m.on with
      | .vec g => !gone g
      | _ => true) }

/-- Moves the run to a base: spills what leaves it and is still needed, reloads what enters it. keep lists the logical
registers that living fibres have bequeathed (R349). -/
def Wave.slide (w : Wave) (base : Nat) (keep : List Nat) : Wave :=
  if w.runBase = base then w
  else
    let inNew := fun log => base ≤ log && log < base + w.winsize
    let inOld := fun log => w.runBase ≤ log && log < w.runBase + w.winsize
    let needed := fun log => w.nameable log || keep.contains log
    let leaving := (List.range w.winsize).filterMap (fun i =>
      let log := w.runBase + i
      if !inNew log && needed log then
        let p := packRow (w.row log)
        some (SpillRec.mk log (w.etag log) p.1 p.2)
      else none)
    let recs := (w.low ++ w.high).filter (fun r => needed r.log)
    let entering := recs.filter (fun r => inNew r.log)
    let out := leaving.foldl (fun rs r => insertRec r rs) (recs.filter (fun r => !inNew r.log))
    let kept := w.vregs.filter (fun e => inNew e.1)
    let v := w.forget (fun g => !((inOld g && (inNew g || needed g)) || recs.any (fun r => r.log == g)))
    { v with
      runBase := base
      low := out.filter (fun r => r.log < base)
      high := out.filter (fun r => base ≤ r.log)
      vregs := entering.foldl (fun m r => mapSet zeroRow m r.log (unpackRow r.fmt r.payload)) kept }

/-- The value of a logical register of a lane, in the run or in its record. -/
def Wave.valueAt (w : Wave) (log lane : Nat) : W32 :=
  if w.runBase ≤ log && log < w.runBase + w.winsize then w.slice log lane
  else match (w.low ++ w.high).find? (fun r => r.log == log) with
    | none => 0
    | some r => (unpackRow r.fmt r.payload).getD lane 0

/-! ## Writes that land after their issue (R58, R198) -/

/-- A record with the slices of some lanes written. -/
def SpillRec.written (r : SpillRec) (lanes : List Nat) (f : Nat → W32) : SpillRec :=
  let old := unpackRow r.fmt r.payload
  let p := packRow ((List.range 64).map (fun l => if lanes.contains l then f l else old.getD l 0))
  { r with fmt := p.1, payload := p.2 }

/-- A write of entry id finds its register in the run or in its record; one that the run has let go of is lost. -/
def Wave.landSlices (w : Wave) (id log : Nat) (lanes : List Nat) (f : Nat → W32) : Wave :=
  if w.dead.contains (id, log) then w
  else if w.runBase ≤ log && log < w.runBase + w.winsize then w.setSlices log lanes f
  else
    let put := updBy (fun r : SpillRec => r.log == log) (fun r => r.written lanes f)
    { w with
      low := put w.low
      high := put w.high
      vpoison := w.vpoison.filter (fun p => !(p.1 == log && lanes.contains p.2)) }

/-- A register's element tag, in the run or in its record (R203). -/
def Wave.tagged (w : Wave) (log : Nat) (t : BitVec 4) : Wave :=
  let put := updBy (fun r : SpillRec => r.log == log) (fun r => { r with etag := t })
  { w with etags := mapSet 6 w.etags log t, low := put w.low, high := put w.high }

/-- The same for a register or a pair. -/
def Wave.landVset (w : Wave) (id log : Nat) (wide : Bool) (lanes : List Nat) (f : Nat → W64) : Wave :=
  let w := w.landSlices id log lanes (fun l => (f l).setWidth 32)
  if wide then w.landSlices id (log + 1) lanes (fun l => (f l).extractLsb' 32 32) else w

/-- An entry that is over. -/
def Wave.closed (w : Wave) (id : Nat) : Wave :=
  { w with marks := w.marks.filter (fun m => m.entry != id), dead := w.dead.filter (fun d => d.1 != id) }

/-- The bytes of the two stacks in the wave's area: the low one from its start, the high one down from its end (R201). -/
def stackBytes (low high : List SpillRec) (size : Nat) : List (Nat × List Byte) :=
  let up := low.foldl (fun (a : Nat × List (Nat × List Byte)) r => (a.1 + r.bytes.length, a.2 ++ [(a.1, r.bytes)])) (0, [])
  let dn := high.foldl (fun (a : Nat × List (Nat × List Byte)) r =>
    (a.1 - r.bytes.length, a.2 ++ [(a.1 - r.bytes.length, r.bytes)])) (size, [])
  up.2 ++ dn.2

end Sys2Proof.Machine
end

