-- ==== Sys2Proof/Machine/Operands.lean ====
section
/-! DEFINITION. Machine/Operands.lean: reading every operand form (R20 to R25, R66, R90, R99, R125), and what each instruction reads and writes, for the window check, the poison check and the scoreboard (R31 steps 11 and 21, R58). -/

namespace Sys2Proof.Machine

/-! ## Lane patterns (R23) -/

/-- The lane that lane i reads through a pattern; none reads zero. -/
def patLane (p : LanePat) (i : Nat) : Option Nat :=
  match p with
  | .ident => some i
  | .rot n => some ((i + n.toNat) % 64)
  | .bc n => some n.toNat
  | .xor n => some (i ^^^ n.toNat)
  | .mir k => some (i / 2 ^ k.toNat * 2 ^ k.toNat + revBits k.toNat (i % 2 ^ k.toNat))
  | .shd n => if i + n.toNat ≤ 63 then some (i + n.toNat) else none
  | .shu n => if n.toNat ≤ i then some (i - n.toNat) else none

/-- LaneRead(v, l, pattern): the current contents of the slice it reads (R25). -/
def laneRead (w : Wave) (base : Nat) (v : VSrc) (wide : Bool) (lane : Nat) : W64 :=
  match patLane v.pat lane with
  | none => 0
  | some l => w.vget (base + v.r.toNat) wide l

/-! ## Sources -/

/-- The B source of an integer operation of a type: registers, or an immediate by R22. -/
def bInt (w : Wave) (base : Nat) (len : Len) (t : IntTy) (b : BSrc) (lane : Nat) : W64 :=
  match b with
  | .vec v => laneRead w base v t.wide lane
  | .scalar s => w.sget s.toNat
  | .imm x => intImm len t x

/-- A B source of 32 bits whatever the type (R66): counts, controls, tokens. -/
def b32 (w : Wave) (base : Nat) (len : Len) (b : BSrc) (lane : Nat) : Nat :=
  match b with
  | .vec v => low32 (laneRead w base v false lane)
  | .scalar s => low32 (w.sget s.toNat)
  | .imm x => low32 (immB32 len x)

def rSrc (w : Wave) (base : Nat) (wide : Bool) (b : RSrc) (lane : Nat) : W64 :=
  match b with
  | .vec v => laneRead w base v wide lane
  | .scalar s => w.sget s.toNat

def sInt (w : Wave) (len : Len) (t : IntTy) (b : SSrc) : W64 :=
  match b with
  | .reg s => w.sget s.toNat
  | .imm x => intImm len t x

def s32 (w : Wave) (len : Len) (b : SSrc) : Nat :=
  match b with
  | .reg s => low32 (w.sget s.toNat)
  | .imm x => low32 (immB32 len x)

/-- The low bits of a format's operand (R87). -/
def fBits (f : FFmt) (x : W64) : Nat := x.toNat % 2 ^ f.width

/-- A floating immediate (R22): X16 of .f32 gives bits 31:16. -/
def fImm (len : Len) (f : FFmt) (x : BitVec 32) : Nat :=
  match len, f with
  | .w96, .f32 => x.toNat % 2 ^ 16 * 2 ^ 16
  | _, _ => x.toNat % 2 ^ f.width

def bFlt (w : Wave) (base : Nat) (len : Len) (f : FFmt) (b : BSrc) (lane : Nat) : Nat :=
  match b with
  | .vec v => fBits f (laneRead w base v false lane)
  | .scalar s => fBits f (w.sget s.toNat)
  | .imm x => fImm len f x

/-- FSCALE's count (R90). -/
def bScale (w : Wave) (base : Nat) (len : Len) (b : BSrc) (lane : Nat) : Int :=
  match b with
  | .vec v => ((laneRead w base v false lane).setWidth 32).toInt
  | .scalar s => ((w.sget s.toNat).setWidth 32).toInt
  | .imm x => match len with
    | .w96 => (x.setWidth 16).toInt
    | .w64 | .w128 => x.toInt

/-- The pair of elements of a packed form's B (R99): from X16 one value for both. -/
def bPair (w : Wave) (base : Nat) (len : Len) (b : BSrc) (lane : Nat) : Nat :=
  match b with
  | .vec v => low32 (laneRead w base v false lane)
  | .scalar s => low32 (w.sget s.toNat)
  | .imm x => match len with
    | .w96 => x.toNat % 2 ^ 16 * (2 ^ 16 + 1)
    | .w64 | .w128 => x.toNat

/-- An identity operand: 48 bits (R174). -/
def idOf (w : Wave) (base : Nat) (i : IdSrc) (lane : Nat) : Nat :=
  match i with
  | .vec v => (laneRead w base v true lane).toNat % 2 ^ 48
  | .scalar s => (w.sget s.toNat).toNat % 2 ^ 48

/-! ## Addresses (R125) -/

def aBase (w : Wave) (base : Nat) (a : ABase) (lane : Nat) : W64 :=
  match a with
  | .scalar s => w.sget s.toNat
  | .pair k => w.vget (base + 2 * k.toNat) true lane

def aOff (w : Wave) (base : Nat) (o : AOff) (lane : Nat) : W64 :=
  match o with
  | .absent => 0
  | .vec v => laneRead w base v false lane
  | .scalar s => (w.sget s.toNat) &&& 0xFFFFFFFF

/-- An offset register that is always there (R132). -/
def rOff (w : Wave) (base : Nat) (o : RSrc) (lane : Nat) : W64 := (rSrc w base false o lane) &&& 0xFFFFFFFF

def dispOf (len : Len) (d : BitVec 32) : W64 :=
  match len with
  | .w128 => d.signExtend 64
  | .w64 | .w96 => 0

/-- A global effective address, modulo 2^64. -/
def eaGlobal (w : Wave) (base : Nat) (len : Len) (a : ABase) (o : AOff) (d : BitVec 32) (lane : Nat) : W64 :=
  aBase w base a lane + aOff w base o lane + dispOf len d

/-- A scratchpad offset, modulo 2^32. -/
def eaScratch (w : Wave) (base : Nat) (len : Len) (a : BitVec 6) (o : AOff) (d : BitVec 32) (lane : Nat) : W64 :=
  (w.sget a.toNat + aOff w base o lane + dispOf len d) &&& 0xFFFFFFFF

/-! ## What an instruction reads and writes -/

/-- Which slices of a register an issue reads. -/
inductive Reach where
  | pat (p : LanePat)
  | stacked
  | oneB (p : LanePat) (n : BSrc)
  | perm (p : LanePat) (b : RSrc)
  | every
deriving DecidableEq, Repr

/-- Window-relative vector registers read (vr), written (vw) and only named (vn); scalar registers and predicates read
and written; whether the grid must be empty, whether %fflags is read or written whole, whether %claim is written. -/
structure Uses where
  vr     : List (Nat × Reach) := []
  vw     : List Nat := []
  vn     : List Nat := []
  sr     : List Nat := []
  sw     : List Nat := []
  pr     : List Nat := []
  pw     : List Nat := []
  grid   : Bool := false
  claim  : Bool := false
deriving DecidableEq, Repr

def Uses.and (a b : Uses) : Uses where
  vr := a.vr ++ b.vr
  vw := a.vw ++ b.vw
  vn := a.vn ++ b.vn
  sr := a.sr ++ b.sr
  sw := a.sw ++ b.sw
  pr := a.pr ++ b.pr
  pw := a.pw ++ b.pw
  grid := a.grid || b.grid
  claim := a.claim || b.claim

/-- A vector register that is named lies at or beyond the window size given (R21). -/
def Uses.past (u : Uses) (win : Nat) : Bool :=
  u.vr.any (fun r => win ≤ r.1) || u.vw.any (fun r => win ≤ r) || u.vn.any (fun r => win ≤ r)

/-- A register, or a pair. -/
def regsOf (wide : Bool) (r : BitVec 7) : List Nat := if wide then [r.toNat, r.toNat + 1] else [r.toNat]

def uV (wide : Bool) (v : VSrc) : Uses := { vr := (regsOf wide v.r).map (fun r => (r, .pat v.pat)) }
def uVd (wide : Bool) (r : BitVec 7) : Uses := { vw := regsOf wide r }
def uVs (wide : Bool) (r : BitVec 7) : Uses := { vr := (regsOf wide r).map (fun r => (r, .pat .ident)) }
def uS (s : BitVec 6) : Uses := { sr := [s.toNat] }
def uSd (s : BitVec 6) : Uses := { sw := [s.toNat] }
def uP (p : BitVec 4) : Uses := { pr := [p.toNat] }
def uPd (p : BitVec 4) : Uses := { pw := [p.toNat] }

def uB (wide : Bool) (b : BSrc) : Uses :=
  match b with
  | .vec v => uV wide v
  | .scalar s => uS s
  | .imm _ => {}

def uR (wide : Bool) (b : RSrc) : Uses :=
  match b with
  | .vec v => uV wide v
  | .scalar s => uS s

def uSS (b : SSrc) : Uses :=
  match b with
  | .reg s => uS s
  | .imm _ => {}

def uId (i : IdSrc) : Uses :=
  match i with
  | .vec v => uV true v
  | .scalar s => uS s

def uA (a : ABase) : Uses :=
  match a with
  | .scalar s => uS s
  | .pair k => { vr := [(2 * k.toNat, .pat .ident), (2 * k.toNat + 1, .pat .ident)] }

def uO (o : AOff) : Uses :=
  match o with
  | .absent => {}
  | .vec v => uV false v
  | .scalar s => uS s

def uT (t : Target) : Uses :=
  match t with
  | .vec r => uVs true r
  | .scalar s => uS s

/-- Vector integer forms: the width of D, of A and of B. -/
def uV2 (d a b : Bool) (o : OpV2) : Uses := (uVd d o.d).and ((uV a o.a).and (uB b o.b))
def uV3 (d a b c : Bool) (o : OpV3) : Uses := (uVd d o.d).and ((uV a o.a).and ((uR b o.b).and (uV c o.c)))
def uS2 (o : OpS2) : Uses := (uSd o.d).and ((uS o.a).and (uSS o.b))
def uF1 (d a : Bool) (rd : BitVec 7) (ra : VSrc) : Uses := (uVd d rd).and (uV a ra)
def uF2 (d : BitVec 7) (a : VSrc) (b : BSrc) : Uses := (uVd false d).and ((uV false a).and (uB false b))
def uF3 (d : BitVec 7) (a : VSrc) (b : RSrc) (c : VSrc) : Uses :=
  (uVd false d).and ((uV false a).and ((uR false b).and (uV false c)))

/-- The B field of an engine word: a vector register, or a scalar one. -/
def uEngB (o : OpEng) : Uses := if o.bv then uVs false o.b else { sr := [o.b.toNat] }
def uEng (o : OpEng) : Uses := (uS o.d).and ((uS o.a).and (uS o.hnd))

/-- The registers of an MMA operand and its exponent register (R166). -/
def uM (f : MFmt) (x : MSrc) (e : Nat) : Uses :=
  match x with
  | .desc s => { sr := [s.toNat, s.toNat + 1] }
  | .regs r =>
    let slice := (List.range f.slice).map (fun i => (r.toNat + i, Reach.every))
    match f.block with
    | none => { vr := slice }
    | some _ => { vr := slice ++ [(e, Reach.every)] }

/-- The exponent register of a register operand: the default of the 64-bit form, or the field of the 96-bit one. -/
def mmaExp (len : Len) (f : MFmt) (x : MSrc) (field : BitVec 7) : Nat :=
  match len, x with
  | .w96, _ => field.toNat
  | _, .regs r => r.toNat + f.slice
  | _, .desc _ => 0

def usesOf (i : Instr) : Uses :=
  match i with
  | .nop _ | .bra _ | .endF _ | .yield _ | .region _ | .trap _ | .brk _ => {}
  | .ret _ => { vr := [(0, .stacked)] }
  | .brx o => uT o.tgt
  | .call _ => {}
  | .callx o => uT o.tgt
  | .fork o => { sr := [o.mask.toNat], pw := [o.d.toNat] }
  | .add o | .sub o | .mul o | .mulh o | .div o | .rem o | .min o | .max o | .and o | .or o | .xor o | .andn o =>
    uV2 o.ty.wide o.ty.wide o.ty.wide o
  | .shl o | .shr o | .sar o | .rot o | .bfe o => uV2 o.ty.wide o.ty.wide false o
  | .addc o | .subb o => (uVd o.ty.wide o.d).and ((uV o.ty.wide o.a).and ((uR o.ty.wide o.b).and
      ((uP o.cin).and (uPd o.cout))))
  | .mad o => uV3 o.ty.wide o.ty.wide o.ty.wide o.ty.wide o
  | .madw o => uV3 true false false true o
  | .bfi o => uV3 o.ty.wide o.ty.wide o.ty.wide false o
  | .abs o | .neg o | .brev o => uF1 o.ty.wide o.ty.wide o.d o.a
  | .clz o | .popc o => uF1 false o.ty.wide o.d o.a
  | .lea o => (uVd o.ty.wide o.d).and ((uV o.ty.wide o.a).and ((uR false o.b).and (uV o.ty.wide o.c)))
  | .sel o => (uVd o.ty.wide o.d).and ((uV o.ty.wide o.a).and ((uR o.ty.wide o.b).and (uP o.c)))
  | .iset o => (uPd o.d).and ((uV o.ty.wide o.a).and (uB o.ty.wide o.b))
  | .sadd o | .ssub o | .smul o | .sand o | .sor o | .sxor o | .sshl o | .sshr o | .ssar o | .smin o | .smax o
  | .sbfe o => uS2 o
  | .sset o => (uPd o.d).and ((uS o.a).and (uSS o.b))
  | .sli o => uSd o.d
  | .smov o => (uSd o.d).and (uS o.a)
  | .slea o => (uSd o.d).and ((uS o.a).and ((uS o.b).and (uS o.c)))
  | .fadd o | .fsub o | .fmul o | .fscale o => uF2 o.d o.a o.b
  | .fma o | .fdot2 o | .fdot4 o => uF3 o.d o.a o.b o.c
  | .fmin o | .fmax o => uF2 o.d o.a o.b
  | .fset o => (uPd o.d).and ((uV false o.a).and (uB false o.b))
  | .fclass o => uF1 false false o.d o.a
  | .frnd o => uF1 false false o.d o.a
  | .frcp o | .fsqrt o | .frsq o | .fexp2 o | .flog2 o | .fsinpi o | .fcospi o => uF1 false false o.d o.a
  | .fcvt o => uF1 false false o.d o.a
  | .ftoi o => uF1 o.ty.wide false o.d o.a
  | .itof o => uF1 false o.ty.wide o.d o.a
  | .pkadd o | .pkmul o => uF2 o.d o.a o.b
  | .pkfma o => uF3 o.d o.a o.b o.c
  | .mov o => uF1 o.ty.wide o.ty.wide o.d o.a
  | .movi o => uVd o.ty.wide o.d
  | .perm o => (uVd o.ty.wide o.d).and ((uR false o.b).and
      { vr := (regsOf o.ty.wide o.a.r).map (fun r => (r, .perm o.a.pat o.b)) })
  | .ballot o => (uSd o.d).and (uP o.a)
  | .vote o => (uPd o.d).and (uP o.a)
  | .rdlane o => (uSd o.d).and ((uB false o.n).and
      { vr := (regsOf o.ty.wide o.a.r).map (fun r => (r, .oneB o.a.pat o.n)) })
  | .wrlane o => (uVd o.ty.wide o.d).and ((uS o.a).and (uB false o.n))
  | .bsel o => (uVd false o.d).and ((uV false o.a).and ((uR false o.b).and (uV false o.c)))
  | .scan o | .reduce o => uF1 o.ty.wide o.ty.wide o.d o.a
  | .pand o | .por o | .pxor o => (uPd o.d).and ((uP o.a).and (uP o.b))
  | .pnot o | .pmov o => (uPd o.d).and (uP o.a)
  | .ld o => (uVd o.ty.wide o.d).and ((uA o.base).and (uO o.off))
  | .st o => (uVs o.ty.wide o.d).and ((uA o.base).and (uO o.off))
  | .lds o => (uVd o.ty.wide o.d).and ((uS o.base).and (uO o.off))
  | .sts o => (uVs o.ty.wide o.d).and ((uS o.base).and (uO o.off))
  | .ldu o => (uSd o.d).and ((uS o.base).and (uO o.off))
  | .stu o => (uS o.d).and ((uS o.base).and (uO o.off))
  | .pref o => (uA o.base).and (uO o.off)
  | .atom o => (uVd o.wide o.d).and ((uA o.base).and ((uR false o.off).and ((uV o.wide o.c).and
      (if o.op = .cas then uVs o.wide o.cmp else {}))))
  | .red o => (uA o.base).and ((uR false o.off).and (uV o.wide o.c))
  | .atoms o => (uVd o.wide o.d).and ((uS o.base).and ((uR false o.off).and ((uV o.wide o.c).and
      (if o.op = .cas then uVs o.wide o.cmp else {}))))
  | .fence _ => {}
  | .binit o => (uS o.a).and (match o.src with
    | .regs b c => (uS b).and (uS c)
    | .imm _ _ => {})
  | .arrive o => uS o.a
  | .expect o => (uS o.a).and (uB false o.b)
  | .wait o | .btest o => (uPd o.d).and ((uS o.a).and (uB false o.b))
  | .bphase o => (uSd o.d).and (uS o.a)
  | .cpy o => (uEng o).and (if o.gate then uEngB o else {})
  | .cpy2d o | .gather o | .scatter o | .coll o => (uEng o).and (uEngB o)
  | .qcpy o => (uEng o).and ((uEngB o).and (if o.var.getLsbD 0 then { sr := [o.d.toNat + 1] } else {}))
  | .rpush o => (uS o.d).and ((uS o.a).and ((uS o.b).and (if o.twod then uS o.c else {})))
  | .rfree o => (uS o.a).and (uS o.b)
  | .mmodeOn _ => {}
  | .mmodeOff _ => { grid := true }
  | .mzero _ => { grid := true }
  | .mma o => (uM o.fmt o.a (mmaExp o.len o.fmt o.a o.ea)).and (uM o.fmt o.b (mmaExp o.len o.fmt o.b o.eb))
  | .mepi o => { sr := [o.a.toNat, o.b.toNat], grid := true }
  | .msts o => { sr := [o.a.toNat, o.b.toNat, o.c.toNat], grid := true }
  | .bequeath o => (uId o.id).and ((uPd o.c).and
      { vn := ((List.range 8).filter (fun k => o.mask.getLsbD k)).map (fun k => o.a.toNat + k) })
  | .claim o => (uId o.id).and ((uPd o.c).and ((uS o.a).and
      { vw := (List.range o.n.toNat).map (fun k => o.d.toNat + k), claim := true }))
  | .estate o | .estateDrop o => (uVd false o.d).and ((uS o.a).and (uId o.id))
  | .migrate o => (uPd o.d).and (uA o.a)
  | .launch o => (uPd o.d).and (uS o.a)
  | .remit o => (uPd o.d).and ((uS o.a).and (uS o.b))
  | .srd o => (match o.d with
      | .vec r => uVd o.wide r
      | .scalar s => uSd s).and ((uO o.elem).and { grid := o.idx.toNat == 15 })
  | .swr o => (uS o.a).and { grid := true }
  | .grow o => (uPd o.d).and (uB false o.b)
  | .shrink o => uB false o.b
  | .growServe .. | .growDeadlockBreak .. | .missRetry .. | .loadDataReturn .. | .accept .. | .reveal ..
  | .send .. | .perform .. | .inval .. | .fill .. | .read .. | .atomic .. | .event .. | .engineRead ..
  | .engineLanding .. | .ringFreeWaitMet .. | .collStart .. | .mmaLanding .. | .gridOpLanding ..
  | .claimDelivery .. | .migrateGrant .. | .migrationLanding .. | .xlateRetryResend .. | .launchPacket ..
  | .waitPacket .. | .waitPacketReturn .. | .arrivePacket .. | .binitPacket .. | .seqopen .. | .seqclose ..
  | .seqcloseDrained .. | .seqcloseEnginesDone .. | .seqcloseInvalDone .. | .sweep .. | .queueMap ..
  | .dependenceRelease .. | .leaseSetup .. | .groupPlacement .. | .timedStart .. | .priorityDiscard ..
  | .discardRestart .. | .launchEnd .. | .nodeBatchTimer .. | .networkLaunchRequest .. | .launchTableWrite ..
  | .nodeTableWrite .. | .capabilityMint .. | .worldCreate .. | .worldDestroy .. | .powerCapWrite ..
  | .partitionRegisterWrite .. | .configRegisterWrite .. | .watchRangeWrite .. | .rampInterval ..
  | .droopStretch .. | .persistentDroopStep .. | .droopRestore .. | .thermalLimitStep .. | .thermalRestore ..
  | .emberCheck .. | .hostThaw .. | .hostEndLaunch .. | .bandwidthRefill .. | .quantumExpiry ..
  | .contextRestore .. | .invalidation .. | .invalidationComplete .. | .pageMove .. | .peerDownNotice ..
  | .flitResend .. | .linkRetrain .. | .retrainComplete .. | .eccCorrected .. | .eccUncorrectable ..
  | .patrolScrub .. | .roundBoundary .. | .rick .. | .sendLogFull .. | .warmReset .. | .rejoin ..
  | .lemmelContinue .. | .lemmelStep .. | .lemmelEndLaunch .. | .lemmelArmDiscard .. | .lemmelArmReset ..
  | .powerOn .. | .firmwareLoad .. | .getVersion .. | .getCapabilities .. | .negotiateAlgorithms .. | .getDigests ..
  | .getCertificate .. | .challenge .. | .getMeasurements .. | .keyExchange .. | .finish .. | .endSession ..
  | .counterSnapshot .. | .energyApportion .. | .ageUpdate .. | .illegalWordFetch .. | .queueUnmap ..
  | .mappingRequest .. | .expanderStopsAnswering .. | .linkKeyReplace .. => {}

end Sys2Proof.Machine
end

