-- ==== Sys2Proof/Machine/Flags.lean ====
section
/-! DEFINITION. Machine/Flags.lean: the accrued flags %fflags (R40, R41). -/

namespace Sys2Proof.Machine

/-- The flags of every active lane or element, ORed together. -/
def orFlags (fs : List FFlags) : FFlags := fs.foldl (fun a b => a ||| b) 0

/-- An instruction ORs its flags into %fflags. -/
def Wave.orFlags (w : Wave) (f : FFlags) : Wave := { w with fflags := w.fflags ||| f.setWidth 64 }

/-- SWR writes the five flags and ignores the reserved bits. -/
def Wave.setFlags (w : Wave) (x : W64) : Wave := { w with fflags := x &&& 31 }

/-- R231: the flags of a grid operation that lands enter the checkpoint too where it was issued before the region began. -/
def Wave.landFlags (w : Wave) (entry : Nat) (f : FFlags) : Wave :=
  let v := w.orFlags f
  if entry < w.checkpoint.upto then { v with checkpoint := { w.checkpoint with fflags := w.checkpoint.fflags ||| f.setWidth 64 } } else v

end Sys2Proof.Machine
end

