-- ==== Sys2Proof/Machine/Ops.lean ====
section
/-! DEFINITION. Machine/Ops.lean: taking an exception (R238 to R241) and returning from one, ending a region (R230, R231), and the one path that performs an instruction word: the checks of R31 steps 10 to 21, the effect, and retiring. -/

namespace Sys2Proof.Machine

/-! ## Fault records (R240) -/

def faultCode : FaultName → Nat
  | .illegal => 1
  | .align => 2
  | .windowBound => 3
  | .windowStore => 4
  | .nonuniform => 5
  | .mode => 6
  | .format => 7
  | .lease => 8
  | .cap => 9
  | .gate => 10
  | .keyRetired => 11
  | .phaseAhead => 12
  | .trap => 13
  | .brk => 14
  | .poison => 16
  | .remoteRefused => 17
  | .remoteUnreachable => 18
  | .barrierOverflow => 19
  | .watch => 26
  | .stall => 32
  | .replayDiverged => 33

/-- The 64 bytes of a record. -/
def FaultRec.pack (r : FaultRec) : BitVec 512 :=
  BitVec.ofNat 64 r.tick ++ (0 : BitVec 40) ++ BitVec.ofNat 4 r.loc.slot ++ (0 : BitVec 4) ++ BitVec.ofNat 6 r.loc.core
    ++ BitVec.ofNat 2 r.loc.quarter ++ BitVec.ofNat 4 r.loc.die ++ BitVec.ofNat 4 r.wave ++ BitVec.ofNat 32 r.group
    ++ BitVec.ofNat 32 r.launch ++ r.addr ++ r.active ++ r.syncpc ++ r.pc ++ (0 : BitVec 32) ++ BitVec.ofNat 8 r.cause
    ++ BitVec.ofNat 8 r.step ++ BitVec.ofNat 6 r.lane ++ BitVec.ofNat 2 r.cls ++ BitVec.ofNat 8 r.code

/-- What raises a record: the wave, the place, the class. -/
def State.faultRec (s : State) (w : Wave) (f : FaultName) (cls step lane : Nat) (pc syncpc active addr : W64)
    (cause : Nat) : FaultRec where
  tick := s.pkg.tick
  loc := w.loc
  wave := w.index
  group := w.group
  launch := match s.launch? w.launch with
    | none => 0
    | some l => l.num
  addr := addr
  active := active
  syncpc := syncpc
  pc := pc
  cause := cause
  step := step
  lane := lane
  cls := cls
  code := faultCode f

/-- A record goes to the queue's command-processor thread, and counter 13 counts it (R238, R316). -/
def State.deliver (s : State) (launch : Nat) (r : FaultRec) : State :=
  match s.launch? launch with
  | none => s
  | some l => State.count { s with records := s.records ++ [.fault l.queue r] } l.world 13 1

/-- R241 End: issue stops in every wave of the launch, and its end record will name the fault. -/
def State.endLaunch (s : State) (launch : Nat) (code step : Nat) (addr : W64) (cls die : Nat) : State :=
  s.onLaunch launch (fun l => if l.stopped then l else { l with stopped := true, endFault := (code, step, addr, cls, die) })

/-- Whether lemmel is attached to a launch's queue, and the launch's fault action (R241). -/
def State.attached (s : State) (launch : Nat) : Bool :=
  match s.launch? launch with
  | none => false
  | some l => s.pkg.lemmel.contains l.queue

def State.endsOnFault (s : State) (launch : Nat) : Bool :=
  match s.launch? launch with
  | none => false
  | some l => l.block.faultEnd

/-- TAKING AN EXCEPTION, after its records: the wave parks where it stands, or its launch ends (R241). BRK always parks
while lemmel is attached. -/
def State.takeFault (s : State) (w : Wave) (p : Park) (r : FaultRec) : State :=
  if s.endsOnFault w.launch && !(p.fault == .brk && s.attached w.launch) && p.fault != .watch then
    s.endLaunch w.launch r.code r.step r.addr r.cls 8
  else s.onWave w.uid (fun w => { w with parked := some p })

/-! ## An issue -/

/-- An issue as it begins: the wave with its run at the issue's base, the issuing set and the active lanes (R14, R56). -/
structure Ctx where
  w    : Wave
  pc   : W64
  base : Nat
  set_ : List Nat
  act  : List Nat
  len  : Nat
  instr : Instr
deriving DecidableEq, Repr

def Ctx.low (c : Ctx) : Nat := c.act.headD (c.set_.headD 0)

/-- A check of R31 that fails. -/
structure Chk where
  fault : FaultName
  step  : Nat
  lane  : Nat
  addr  : W64 := 0
  cause : Nat := 0
deriving DecidableEq, Repr

/-- Whether a stall is that of the issuing set. -/
def Ctx.owns (c : Ctx) (x : Stall) : Bool := x.pc == c.pc && x.base == c.base && x.lanes == laneMask c.set_

/-- A set that waits for its grid operations, or to raise its fault, has not issued yet (R41, R59, R238); every other
stalled set has, and is presented again. -/
def StallKind.issued (k : StallKind) : Bool :=
  match k with
  | .quiet | .land | .finish => false
  | _ => true

/-- The stalls of an instruction that has passed its checks for good: presented again, it is not checked again. -/
def StallKind.passed (k : StallKind) : Bool :=
  match k with
  | .wait _ _ _ _ | .grow _ _ | .migrate _ _ _ | .posted _ | .retry _ _ _ | .armed _ _ => true
  | _ => false

def Stall.issued (x : Stall) : Bool := x.kind.issued && x.instr.raw.isSome

/-- What an issue reads its sources from: a stalled set reads them as they were at its issue. -/
def Wave.sources (w : Wave) (x : Option Stall) : Wave :=
  match x with
  | none => w
  | some x => if x.issued then { w with sregs := x.sregs, vregs := x.vregs } else w

/-- The stall of an issuing set, where it has one. -/
def Ctx.stall? (c : Ctx) : Option StallKind :=
  match c.w.stalls.find? c.owns with
  | none => none
  | some x => some x.kind

/-- The entries that the issue comes after are numbered below this. -/
def Ctx.upto (c : Ctx) : Nat :=
  match c.w.stalls.find? c.owns with
  | none => c.w.nextEntry
  | some x => if x.issued || x.kind == .quiet then x.upto else c.w.nextEntry

/-- The set stands at an instruction that has passed its checks. -/
def Ctx.again (c : Ctx) : Bool :=
  match c.stall? with
  | none => false
  | some k => k.passed

/-- Puts a stall into its set's place among a wave's stalls, which stand in the order of their issue. -/
def Ctx.restall (c : Ctx) (y : Stall) (xs : List Stall) : List Stall :=
  if xs.any c.owns then updBy c.owns (fun _ => y) xs else xs ++ [y]

/-- The issuing set stands and waits. -/
def State.stall (s : State) (c : Ctx) (k : StallKind) : State :=
  s.onWave c.w.uid (fun w => { w with
    stalls := c.restall ⟨k, c.pc, c.base, laneMask c.set_, c.instr, c.upto, c.w.sregs, c.w.vregs⟩ w.stalls })

/-- An access of the wave numbered below upto is not complete. -/
def Wave.unfinished (w : Wave) (upto : Nat) : Bool :=
  w.entries.any (fun e => e.id < upto && e.kind != .claim && e.kind != .event)

/-- A set that has waited to raise its fault waits no more. -/
def Wave.unquiet (w : Wave) (c : Ctx) : Wave := { w with stalls := w.stalls.filter (fun x => !(c.owns x && x.kind == .quiet)) }

/-- A precise fault: the issuing set stands at the instruction, and the wave's earlier accesses are complete: until they
are, the set waits (R238). -/
def State.precise (s : State) (c : Ctx) (k : Chk) : State :=
  if c.w.unfinished c.upto then s.stall c .quiet
  else
  let s := s.onWave c.w.uid (fun w => w.unquiet c)
  let r := s.faultRec c.w k.fault 0 k.step k.lane c.pc c.pc (laneMask c.act) k.addr k.cause
  let after := k.fault == .trap || k.fault == .brk
  (s.deliver c.w.launch r).takeFault c.w
    { fault := k.fault, pc := c.pc, base := c.base, lanes := laneMask c.set_, skip := c.len, after := after, imprecise := false } r

/-- The wave's pending imprecise faults, all at one synchronisation point, one record each; the last counts those that
were not recorded (R238). -/
def State.imprecise (s : State) (c : Ctx) : State :=
  let n := c.w.pend.length
  let recs := c.w.pend.zipIdx.map (fun p =>
    s.faultRec c.w p.1.fault 1 0 p.1.lane p.1.pc c.pc p.1.active p.1.addr (if p.2 + 1 = n then min c.w.lost.length 255 else 0))
  match recs, c.w.pend with
  | r :: _, p :: _ =>
    let s := recs.foldl (fun s r => s.deliver c.w.launch r) s
    (s.onWave c.w.uid (fun w => { w with pend := [], lost := [] })).takeFault c.w
      { fault := p.fault, pc := c.pc, base := c.base, lanes := laneMask c.set_, skip := c.len, after := false, imprecise := true } r
  | _, _ => s

/-- The failures of one cause. -/
def PendFault.same (p q : PendFault) : Bool := p.fault == q.fault && p.issue == q.issue

/-- An imprecise fault is noted: at most 16 are held, and further ones are counted (R238). A cause that fails in several
lanes is one fault, at the lowest of them (R240). -/
def Wave.pendFault (w : Wave) (p : PendFault) : Wave :=
  if w.pend.any p.same then
    { w with pend := updBy (fun q => p.same q && p.lane < q.lane) (fun q => { q with lane := p.lane, addr := p.addr }) w.pend }
  else if w.pend.length < 16 then { w with pend := w.pend ++ [p] }
  else { w with lost := addNew w.lost (p.fault, p.issue) }

/-- RETURNING FROM AN EXCEPTION (R121, R241): the wave is continued. After TRAP and BRK it stands at the next
instruction; otherwise the instruction is issued again. -/
def Wave.skipSet (w : Wave) (p : Park) : Wave :=
  w.onLanes (maskLanes p.lanes) (fun f => if f.pc == p.pc && f.winbase == p.base then { f with pc := f.pc + BitVec.ofNat 64 p.skip } else f)

/-- An instruction that is issued again after a park has been presented already (R243): a set that stands stalled at it is
not counted again, and another is not. -/
def Wave.resume (w : Wave) (p : Park) : Wave :=
  if p.after then { (w.skipSet p) with parked := none }
  else
    let stands := w.stalls.any (fun x => x.pc == p.pc && x.base == p.base && x.lanes == p.lanes)
    let n := mapGet 0 w.presented p.pc.toNat
    { w with parked := none, waited := 0, presented := mapSet 0 w.presented p.pc.toNat (if stands then n else n - 1) }

/-! ## Regions (R230, R231) -/

def Wave.snapshot (w : Wave) : Checkpoint where
  sregs := w.sregs
  fibres := w.fibres.map (fun f => ⟨f.lane, f.preds, f.winbase, f.stack⟩)
  winsize := w.winsize
  matrix := w.matrix
  fflags := w.fflags
  upto := w.nextEntry
  presented := w.presented

/-- Every fibre begins a new region at its own PC. -/
def Wave.endRegion (w : Wave) : Wave :=
  let w : Wave := { w with fibres := w.fibres.map (fun f : Fibre => { f with region := f.pc }) }
  { w with checkpoint := w.snapshot }

/-- The instructions that end their region (R230). -/
def endsRegion (i : Instr) : Bool :=
  match i with
  | .fork _ | .endF _ | .region _ | .atom _ | .red _ | .atoms _ | .binit _ | .expect _ | .arrive _ | .wait _
  | .cpy _ | .cpy2d _ | .gather _ | .scatter _ | .qcpy _ | .coll _ | .rpush _ | .rfree _ | .mmodeOn _ | .mmodeOff _
  | .mma _ | .bequeath _ | .claim _ | .estateDrop _ | .migrate _ | .launch _ | .remit _ | .grow _ | .shrink _ => true
  | _ => false

/-- Clocks for which an instruction that computes in the vector lanes holds them (R61, R63); 0 for the others. -/
def laneClocks (i : Instr) : Nat :=
  match i with
  | .add _ | .sub _ | .addc _ | .subb _ | .madw _ | .abs _ | .neg _ | .min _ | .max _ | .and _ | .or _ | .xor _
  | .andn _ | .shl _ | .shr _ | .sar _ | .rot _ | .clz _ | .popc _ | .brev _ | .bfe _ | .bfi _ | .lea _ | .sel _
  | .iset _ | .fadd _ | .fsub _ | .fmul _ | .fma _ | .fmin _ | .fmax _ | .fset _ | .fclass _ | .frnd _ | .fscale _
  | .fcvt _ | .ftoi _ | .itof _ | .pkadd _ | .pkmul _ | .pkfma _ | .fdot2 _ | .fdot4 _ | .mov _ | .movi _ | .perm _
  | .ballot _ | .vote _ | .rdlane _ | .wrlane _ | .bsel _ => 1
  | .mul o | .mulh o => if o.ty.wide then 2 else 1
  | .mad o => if o.ty.wide then 2 else 1
  | .div o | .rem o => if o.ty.wide then 16 else 8
  | .frcp _ | .fsqrt _ | .frsq _ | .fexp2 _ | .flog2 _ | .fsinpi _ | .fcospi _ => 4
  | .scan _ | .reduce _ => 2
  | _ => 0

/-! ## The run (R198, R202) -/

/-- The logical registers that living fibres of a wave have bequeathed (R349). -/
def State.bequeathed (s : State) (uid : Nat) : List Nat :=
  s.estates.flatMap (fun e => match e.st with
    | .recorded w => if w = uid then e.logs else []
    | _ => [])

/-- Where a wave's backing-store area begins (R202). -/
def Launch.area (l : Launch) (w : Wave) : Nat := l.block.bsbase.toNat + (w.group * l.block.waves + w.index) * l.block.bssize

/-- A wave's records are written to its area where they have changed. -/
def State.syncStacks (s : State) (w w' : Wave) : State :=
  if w'.low == w.low && w'.high == w.high then s
  else match s.launch? w.launch with
    | none => s
    | some l =>
      let there := stackBytes w.low w.high l.block.bssize
      ((stackBytes w'.low w'.high l.block.bssize).filter (fun r => !there.contains r)).foldl
        (fun s r => s.deviceWrite l.world w.agent (s.space l.world l.comp) (l.area w + r.1) (s.seqSlot l.world l.block.seq) r.2
          (some l.uid)) s

/-- The records that a slide takes back into the run are read from the area (R198, R316). -/
def State.reload (s : State) (w w' : Wave) : State :=
  match s.launch? w.launch with
  | none => s
  | some l =>
    let back := ((w.low ++ w.high).zip (stackBytes w.low w.high l.block.bssize)).filter (fun r =>
      w'.runBase ≤ r.1.log && r.1.log < w'.runBase + w'.winsize && !(w'.low ++ w'.high).contains r.1)
    back.foldl (fun s r => s.deviceReadPaid l.world w.agent (s.space l.world l.comp) (l.area w + r.2.1) r.2.2.length) s

/-- Slides a wave's run. -/
def State.slideTo (s : State) (w : Wave) (base : Nat) : State × Wave :=
  let w' := w.slide base (s.bequeathed w.uid)
  (((s.setWave w').reload w w').syncStacks w w', w')

/-- A change of a wave that may write its records. -/
def State.onLanding (s : State) (uid : Nat) (f : Wave → Wave) : State :=
  match s.wave? uid with
  | none => s
  | some w => (s.setWave (f w)).syncStacks w (f w)

/-! ## Steps 10, 11 and 21 of R31 -/

/-- Step 10: the modes in which an instruction is refused (R116, R165, R180, R186). -/
def modeBad (i : Instr) (matrix roam : Bool) : Bool :=
  match i with
  | .mzero _ | .mma _ | .mepi _ | .msts _ => !matrix
  | .call _ | .callx _ | .ret _ | .shrink _ => matrix
  | .migrate _ => matrix || !roam
  | _ => false

def State.roaming (s : State) (launch : Nat) : Bool :=
  match s.launch? launch with
  | none => false
  | some l => l.block.roam

/-- Step 11: every named vector register lies inside the window; MMODE.on needs 128 registers. -/
def windowBad (i : Instr) (w : Wave) : Bool :=
  (usesOf i).past w.winsize
    || (match i with
        | .mmodeOn _ => w.winsize != 128
        | _ => false)

/-- The lanes whose slices a lane reads of a register. -/
def reachLanes (c : Ctx) (r : Reach) (lane : Nat) : List Nat :=
  match r with
  | .pat p => (patLane p lane).toList
  | .stacked => match c.w.fibre? lane with
    | none => []
    | some f => if f.stack.isEmpty then [] else [lane]
  | .oneB p n => (patLane p (b32 c.w c.base .w96 n lane % 64)).toList
  | .perm p b => (patLane p ((rSrc c.w c.base false b lane).toNat % 64)).toList
  | .every => List.range 64

/-- Whether a lane's reads meet a poison mark. -/
def lanePoisoned (u : Uses) (c : Ctx) (lane : Nat) : Bool :=
  u.vr.any (fun r => (reachLanes c r.2 lane).any (fun l => c.w.vpoison.contains (c.base + r.1, l)))
    || (u.pr.any (· != 15) && c.w.ppoison.contains lane) || u.sr.any (fun r => c.w.spoison.contains r)

/-- The accumulator slices that a grid operation reads: row r of the accumulators is v(64 + r), a slice for each column
(R168 to R170). -/
def readsAcc (i : Instr) (w : Wave) (r lane : Nat) : Bool :=
  match i with
  | .mma _ | .mepi _ => true
  | .msts o => o.row0.toNat ≤ r && r < o.row0.toNat + o.n.toNat && (w.sget o.c.toNat).getLsbD lane
  | _ => false

/-- Step 21: registers that the issue reads, and the predicate words of a guarded issue (R32, R33). -/
def poisonLane (i : Instr) (c : Ctx) : Option Nat :=
  if c.w.vpoison.isEmpty && c.w.spoison.isEmpty && c.w.ppoison.isEmpty then none
  else
    let guarded := match i.guard? with
      | none => false
      | some g => g.p != 15
    let bad := fun l => (guarded && c.w.ppoison.contains l) || (c.act.contains l && lanePoisoned (usesOf i) c l)
    match c.set_.find? bad with
    | some l => some l
    | none =>
      if !c.act.isEmpty && c.w.vpoison.any (fun p =>
          c.base + 64 ≤ p.1 && p.1 < c.base + 128 && readsAcc i c.w (p.1 - (c.base + 64)) p.2)
      then some c.low else none

def firstCheck (i : Instr) (c : Ctx) (roam : Bool) : Option Chk :=
  if modeBad i c.w.matrix roam then some { fault := .mode, step := 10, lane := c.low }
  else if windowBad i c.w then some { fault := .windowBound, step := 11, lane := c.low }
  else match poisonLane i c with
    | some l => some { fault := .poison, step := 21, lane := l }
    | none => none

/-! ## Performing a word -/

/-- Whether a fibre's guard holds (R14). -/
def guardHolds (g : Option Guard) (f : Fibre) : Bool :=
  match g with
  | none => true
  | some g => f.pred g.p.toNat != g.neg

/-- The first lane that a set held by an armed discard has yet to perform, and how many active ones it has performed. -/
def heldFrom (x : Option Stall) : Nat × Nat :=
  match x with
  | none => (0, 0)
  | some x => match x.kind with
    | .armed m n => (m, n)
    | _ => (0, 0)

def Ctx.heldFrom (c : Ctx) : Nat × Nat := Machine.heldFrom (c.w.stalls.find? c.owns)

/-- Opens the issue in progress: the run slides to its base, and the active lanes are found. -/
def State.begin (s : State) (i : Instr) : Option (Ctx × State) :=
  match s.own.cur with
  | none => none
  | some q => match s.wave? q.wave with
    | none => none
    | some w =>
      let r := s.slideTo w q.base
      let set_ := maskLanes q.set_
      let act := set_.filter (fun l => match w.fibre? l with
        | none => false
        | some f => guardHolds i.guard? f)
      let c : Ctx := { w := r.2, pc := q.pc, base := q.base, set_ := set_, act := act, len := q.len, instr := i }
      let x := r.2.stalls.find? c.owns
      some ({ c with w := r.2.sources x, act := c.act.filter (fun l => (heldFrom x).1 ≤ l) }, r.1)

/-- The issuing set's PCs pass the instruction. -/
def Ctx.passed (c : Ctx) (w : Wave) : Wave :=
  { w.onLanes c.set_ (fun f => { f with pc := f.pc + BitVec.ofNat 64 c.len }) with
    stalls := w.stalls.filter (fun x => !c.owns x) }

def State.advance (s : State) (c : Ctx) : State := s.onWave c.w.uid c.passed

/-- Retiring: the region ends where the instruction ends it, the lanes are charged, the partition has been active. -/
def State.retire (s : State) (i : Instr) (c : Ctx) : State :=
  let s := if endsRegion i then s.onWave c.w.uid Wave.endRegion else s
  let n := laneClocks i
  let s := s.countL c.w.launch 0 (c.act.length * (if c.w.matrix && n != 0 then max 4 n else n))
  s.firing (s.partOf c.w.loc.die)

/-! ### lemmel's armed discard (R243) -/

/-- The lane from which an armed discard holds the lanes of this set. -/
def State.splitAt (s : State) (w : Wave) (pc : W64) (base : Nat) (lanes : W64) : Option Nat :=
  (s.armedD.find? (fun a => a.launch == w.launch && a.group == w.group && a.wave == w.index && a.pc == pc
    && a.hit == some (base, lanes) && !a.past)).map (·.split)

def Ctx.split (c : Ctx) (s : State) : Option Nat := s.splitAt c.w c.pc c.base (laneMask c.set_)

/-- The accesses, whose lanes are held as rejected under R62. -/
def isAccess (i : Instr) : Bool :=
  match i with
  | .ld _ | .lds _ | .ldu _ | .st _ | .sts _ | .stu _ | .atom _ | .red _ | .atoms _ => true
  | _ => false

/-- The other instructions of which some lanes may be performed and others held. -/
def splits (i : Instr) : Bool :=
  match i with
  | .remit _ | .pand _ | .por _ | .pxor _ | .pnot _ | .pmov _ | .bra _ | .brx _ | .call _ | .callx _ | .ret _ | .endF _
  | .bequeath _ | .claim _ | .estate _ | .estateDrop _ | .srd _ | .btest _ => true
  | _ => laneClocks i != 0

/-- No active lane of the issue lies below the split. -/
def State.barred (s : State) (i : Instr) (c : Ctx) : Bool :=
  match c.split s with
  | none => false
  | some m => c.act.isEmpty || (!isAccess i && m ≤ c.low)

/-- Some lanes lie below the split and others do not. -/
def State.partly (s : State) (i : Instr) (c : Ctx) : Option Nat :=
  match c.split s with
  | none => none
  | some m => if splits i && c.act.any (fun l => m ≤ l) then some m else none

/-- The same issue with the lanes below a split alone. -/
def Ctx.below (c : Ctx) (m : Nat) : Ctx := { c with act := c.act.filter (· < m) }

/-- The lanes of the issuing set that stand at the instruction. -/
def Ctx.remain (c : Ctx) (s : State) : Ctx :=
  { c with set_ := c.set_.filter (fun l => match (s.wave? c.w.uid).bind (fun w => w.fibre? l) with
    | none => false
    | some f => f.pc == c.pc && f.winbase == c.base) }

/-- The active lanes below a split are performed; the others stand, and are held (R243). -/
def State.performBelow (s : State) (c : Ctx) (m : Nat) (eff : Ctx → State → State) : State :=
  let t := eff (c.below m) s
  t.stall (c.remain t) (.armed m (c.below m).act.length)

/-- The one path of every instruction word. chk: steps 12 to 19. hold: a state that waits in place of the effect. eff:
the effect, on the state in which the issuing set has passed the instruction. -/
def runWord (i : Instr) (chk : Ctx → State → Option Chk) (hold : Ctx → State → Option State)
    (eff : Ctx → State → State) (s : State) : Out :=
  match s.begin i with
  | none => .refused .noIssue
  | some (c, s) =>
    match (if c.again then none else firstCheck i c (s.roaming c.w.launch)) with
    | some k => .next (s.precise c k)
    | none =>
      if c.act.isEmpty then .next (if s.barred i c then s.stall c (.armed 0 0) else (s.advance c).retire i c)
      else match (if c.again then none else chk c s) with
        | some k => .next (s.precise c k)
        | none => match (if s.barred i c then some (s.stall c (.armed 0 0)) else if c.heldFrom.1 != 0 then none else hold c s) with
          | some t => .next t
          | none => match s.partly i c with
            | some m => .next (s.performBelow c m eff)
            | none => .next ((eff c (s.advance c)).retire i c)

def noChk (_ : Ctx) (_ : State) : Option Chk := none
def noHold (_ : Ctx) (_ : State) : Option State := none

/-- An instruction whose effect is on the wave alone. -/
def runWave (i : Instr) (chk : Ctx → Option Chk) (eff : Ctx → Wave → Wave) (s : State) : Out :=
  runWord i (fun c _ => chk c) noHold (fun c s => s.onWave c.w.uid (eff c)) s

/-- An instruction of the wave that no check of steps 12 to 19 can stop. -/
def runPlain (i : Instr) (eff : Ctx → Wave → Wave) (s : State) : Out := runWave i (fun _ => none) eff s

/-! ## Shapes of effect -/

/-- Writes a vector result in every active lane. -/
def Ctx.putV (c : Ctx) (d : BitVec 7) (wide : Bool) (f : Nat → W64) (w : Wave) : Wave :=
  w.vset (c.base + d.toNat) wide c.act f

/-- Writes a predicate in every active lane. -/
def Ctx.putP (c : Ctx) (d : BitVec 4) (f : Nat → Bool) (w : Wave) : Wave := w.pset d.toNat c.act f

/-- Writes a floating result in every active lane, and ORs the flags. -/
def Ctx.putF (c : Ctx) (d : BitVec 7) (f : Nat → FRes) (w : Wave) : Wave :=
  (c.putV d false (fun l => BitVec.ofNat 64 (f l).1) w).orFlags (orFlags (c.act.map (fun l => (f l).2)))

/-- Whether a value is the same in every active lane. -/
def Ctx.uniform (c : Ctx) (f : Nat → Nat) : Bool := c.act.all (fun l => f l == f c.low)

/-- Step 12 of R31. Which lane a NONUNIFORM record names for RDLANE and WRLANE (R106) the manual does not say. DESIGN CHOICE (log 111):
the lowest active lane that differs from the lowest active one. -/
def Ctx.nonuniform (c : Ctx) (f : Nat → Nat) : Option Chk :=
  match c.act.find? (fun l => f l != f c.low) with
  | none => none
  | some l => some { fault := .nonuniform, step := 12, lane := l }

end Sys2Proof.Machine
end

