-- ==== Sys2Proof/Machine/Links.lean ====
section
/-! DEFINITION. Machine/Links.lean: the fault log (R325, R326, R324), and failures that reach a wave later. -/

namespace Sys2Proof.Machine

/-! ## The fault log (R325) -/

def logBlank (tick die kind addr : Nat) : FaultLog where
  tick := tick
  addr := addr
  pc := 0
  launch := 0
  group := 0
  wave := 0
  src := ⟨0, 0, 0, 0⟩
  world := 0
  comp := 0
  die := die
  count := 1
  kind := kind
  seq := 0
  place := none

/-- 4,096 entries for each die and hub: the oldest goes. -/
def State.addLog (s : State) (e : FaultLog) : State :=
  let full := 4096 ≤ (s.pkg.logs.filter (fun x => x.die == e.die)).length
  let keep := if full then s.pkg.logs.eraseP (fun x => x.die == e.die) else s.pkg.logs
  { s with pkg := { s.pkg with logs := keep ++ [e] } }

/-- Corrected errors of one kind at one address within a second are merged. -/
def State.addCorrected (s : State) (e : FaultLog) : State :=
  let same := fun x : FaultLog => x.die == e.die && x.kind == e.kind && x.addr == e.addr && x.place == e.place && e.tick ≤ x.tick + 10 ^ 9
  if s.pkg.logs.any same then
    { s with pkg := { s.pkg with
      logs := updBy same (fun x => { x with count := min (x.count + 1) 65535, tick := e.tick }) s.pkg.logs } }
  else s.addLog e

/-- An entry of kind 5 or 6 names the source wave and its PC (R326), where it is no more as well. -/
def State.logSource (s : State) (die kind addr : Nat) (src : Source) (pc : W64) : State :=
  let l := s.launch? src.launch
  s.addLog { logBlank s.pkg.tick die kind addr with
    pc := pc
    launch := (l.map (·.num)).getD 0
    group := src.group
    wave := src.wave
    src := src.loc
    world := (l.map (·.world)).getD 0
    comp := (l.map (·.comp)).getD 0 }

/-- A failure that reaches a wave imprecisely (R326, R238). The wave may stand meanwhile in a discarded group (R242) or in
its world's saved context (R304). -/
def State.pendOnce (s : State) (uid : Nat) (p : PendFault) : State :=
  let f := updBy (fun w : Wave => w.uid == uid) (fun w => w.pendFault p)
  { s with
    waves := f s.waves
    saved := s.saved.map (fun g => { g with waves := f g.waves })
    contexts := s.contexts.map (fun c => { c with waves := f c.waves }) }

/-- A place that a die cannot reach: no route serves its home (R328), or its package is down (R285). -/
def State.cut (s : State) (die : Nat) (b : ByteAt) : Bool :=
  match b.peer with
  | none => !s.reachable die b.home
  | some p => s.peerDown p

/-- R326: whether a write that arrives from another die is made under its frame's key slot. The table lists the 64 KiB frames of pages; other bytes pass (log entry 126). -/
def State.frameOwned (s : State) (b : ByteAt) : Bool := mapGet b.kslot s.mem.frames (b.pa / 2 ^ 16) == b.kslot

end Sys2Proof.Machine
end

