-- ==== Sys2Proof/Machine/Block.lean ====
section
/-! DEFINITION. Machine/Block.lean: block formats: decoding an element (R44, R45) and quantising a block (R48). -/

namespace Sys2Proof.Machine

/-- The b-bit two's-complement mantissa of element k of a block's bytes read as one little-endian number. -/
def mantOf (b : Nat) (bits k : Nat) : Int :=
  let m := bits / 2 ^ (b * k) % 2 ^ b
  if 2 ^ (b - 1) ≤ m then Int.ofNat m - Int.ofNat (2 ^ b) else Int.ofNat m

/-- The exact .f32 value of an element (R44). -/
def blockElem (b e : Nat) (m : Int) : Nat :=
  if e = 255 then FFmt.cnan .f32
  else if m = 0 then 0
  else (fRound .f32 .rne (m < 0) m.natAbs (Int.ofNat e - 127 - (Int.ofNat b - 1)) false).1

/-- RoundInt(x × 2^k), nearest-even, of a finite value. -/
def roundInt (x : Fx) (k : Int) : Option Int :=
  match x with
  | .fin neg m e =>
    let q := (roundShift .rne neg m (e + k) false).1
    some (if neg then -(Int.ofNat q) else Int.ofNat q)
  | _ => none

def fitsBits (b : Nat) (v : Option Int) : Bool :=
  match v with
  | none => false
  | some v => -(2 ^ (b - 1) : Int) ≤ v && v ≤ 2 ^ (b - 1) - 1

/-- The first exponent of 0 to 253 at which every element fits, searching n of them from e. -/
def firstFit (b : Nat) (xs : List Fx) : Nat → Nat → Nat
  | 0, _ => 254
  | n + 1, e =>
    if xs.all (fun x => fitsBits b (roundInt x (Int.ofNat b - 1 + 127 - Int.ofNat e))) then e else firstFit b xs n (e + 1)

/-- The clamped mantissa of an element at an exponent: infinities clamp to the extremes. -/
def clampMant (b e : Nat) (x : Fx) : Int :=
  let lo : Int := -(2 ^ (b - 1) : Int)
  let hi : Int := 2 ^ (b - 1) - 1
  match roundInt x (Int.ofNat b - 1 + 127 - Int.ofNat e) with
  | some v => if v < lo then lo else if hi < v then hi else v
  | none => match x with
    | .inf neg => if neg then lo else hi
    | _ => 0

/-- R48: the exponent and the mantissas of 32 elements. -/
def quantise (b : Nat) (src : FFmt) (xs : List Nat) : Nat × List Int :=
  let fs := xs.map (fDecode src)
  if fs.any Fx.isNan then (255, List.replicate 32 0)
  else
    let e := firstFit b fs 254 0
    (e, fs.map (clampMant b e))

/-- The bytes of a block's mantissas: element k at bits k·b (R45). -/
def mantBytes (b : Nat) (ms : List Int) : List (BitVec 8) :=
  let bits := ms.zipIdx.foldl (fun acc mk => acc + (mk.1 % (2 ^ b : Int)).toNat * 2 ^ (b * mk.2)) 0
  (List.range (4 * b)).map (fun i => BitVec.ofNat 8 (bits / 2 ^ (8 * i)))

end Sys2Proof.Machine
end

