-- ==== Sys2Proof/Machine/Life.lean ====
section
/-! DEFINITION. Machine/Life.lean: draining (R118, R135), what synchronisation points wait for, the end of fibres, waves and groups (R118, R191), and the estates that fibres leave (R264, R349). -/

namespace Sys2Proof.Machine

/-! ## Draining -/

def Acc.stepped (a : Acc) : Bool := a.st == .returned || a.st == .done

/-- Grid operations of the wave that have not landed. -/
def State.gridOf (s : State) (w : Wave) : List GridOp :=
  (s.quarter w.loc.die w.loc.core w.loc.quarter).grid.filter (fun g => g.wave == w.uid)

/-- MEPI and MSTS store to scratchpad, in program order with the wave's other accesses to it (R170). -/
def storesGrid (i : Instr) : Bool :=
  match i with
  | .mepi _ | .msts _ => true
  | _ => false

/-- Every operation of the wave numbered below upto has been performed at its home, has been delivered or has failed
(R135, R222). -/
def State.drained (s : State) (w : Wave) (upto : Nat) : Bool :=
  w.entries.all (fun e => upto ≤ e.id) && s.ord.overlay.all (fun e => e.wave != w.uid || upto ≤ e.entry)
    && (s.gridOf w).all (fun g => !storesGrid g.instr || upto ≤ g.entry)

/-- The stalled sets of the wave that issued before this one. -/
def Ctx.earlier (c : Ctx) : List Stall := c.w.stalls.takeWhile (fun x => !c.owns x)

/-- A stalled instruction that has yet to take a step that later ones wait for. A WAIT takes its step when it returns (R136,
log entry 88). -/
def Stall.orders (x : Stall) : Bool :=
  x.issued && (match x.kind with
    | .drain | .settle _ | .grid | .own _ | .posted _ | .engine _ | .wait _ _ _ _ | .migrate _ _ _ => true
    | _ => false)

/-- A stalled instruction for which every later operation of its wave waits: FENCE, and the acquires WAIT, BTEST and MIGRATE
(R222). -/
def Stall.acquires (x : Stall) : Bool :=
  x.issued && (match x.instr with
    | .fence _ | .wait _ | .btest _ | .migrate _ => true
    | _ => false)

/-- An acquire of the wave before some entry has yet to take its step: a load, an atomic, a CLAIM's delivery, or one among the
stalls before (R222). -/
def Wave.acquires (w : Wave) (upto : Nat) (before : List Stall) : Bool :=
  w.entries.any (fun e => e.id < upto && (e.kind == .claim || (e.acquire && !e.accs.all Acc.stepped)))
    || before.any Stall.acquires

def Ctx.acquiring (c : Ctx) : Bool := c.w.acquires c.upto c.earlier

/-- R168: an MMA of the wave that may still read scratchpad operands. -/
def State.gridReads (s : State) (w : Wave) : Bool :=
  (s.gridOf w).any (fun g => !(g.offsA.isEmpty && g.offsB.isEmpty))

/-- A synchronisation point: waits while busy, then raises the wave's pending imprecise faults (R5, R135, R238). -/
def holdSync (k : StallKind) (busy : Ctx → State → Bool) (c : Ctx) (s : State) : Option State :=
  if busy c s then some (s.stall c k)
  else if c.w.pend.isEmpty then none
  else some (s.imprecise c)

def fenceBusy (c : Ctx) (s : State) : Bool := !s.drained c.w c.upto || c.earlier.any Stall.orders

/-- R118: END waits for every earlier instruction of the wave, those of its other sets that stand and have issued among them. -/
def endBusy (c : Ctx) (s : State) : Bool :=
  !s.drained c.w c.w.nextEntry || !c.w.entries.isEmpty || !(s.gridOf c.w).isEmpty || c.earlier.any Stall.issued

/-! ## Estates at END (R349) -/

/-- The recorded estates of ended lanes become Kept, with the values that their registers hold now. -/
def State.keepEstates (s : State) (w : Wave) (lanes : List Nat) : State :=
  { s with estates := s.estates.map (fun e => match e.st with
    | .recorded u =>
      if u == w.uid && lanes.contains e.lane
      then { e with
        st := .kept
        regs := e.logs.map (fun g => w.valueAt g e.lane)
        slot := w.loc.slot
        poison := (e.logs.zipIdx.filter (fun g => w.vpoison.contains (g.1, e.lane))).map (·.2) }
      else e
    | _ => e) }

/-! ## Ends (R191, R258) -/

def rampStep (x : W64) : Nat := max 1 (x.extractLsb' 0 11).toNat

/-- R258: the intervals that have passed pay for what was beyond the budget of the one before. -/
def Part.renewed (p : Part) (now : Nat) : Part :=
  { p with used := p.used - rampStep p.ramp * (now - p.rampAt), rampAt := max p.rampAt now }

def State.renewRamp (s : State) (part : Nat) : State := s.onPart part (fun p => p.renewed (s.pkg.tick / 1000))

/-- Wakes and idles of quarters are charged to the interval in progress; idled quarters stay clocked until the budget allows. -/
def State.chargeRamp (s : State) (part n : Nat) : State :=
  s.onPart part (fun p => { p.renewed (s.pkg.tick / 1000) with used := (p.renewed (s.pkg.tick / 1000)).used + n })

/-- A quarter that loses its last wave is idled. -/
def State.noteIdle (s : State) (l : Loc) : State :=
  let here := fun p : Loc => p.die == l.die && p.core == l.core && p.quarter == l.quarter
  if s.waves.any (fun w => w.transit.isNone && here w.loc) then s
  else s.chargeRamp (s.partOf l.die) 1

/-- A request that may still read, land in or count in a group's scratchpad. -/
def EngReq.names (r : EngReq) (launch group : Nat) : Bool :=
  r.launch == launch && (r.group == group || r.member.isSome || r.pieces.any (fun p =>
    (match p.obj with
      | .core l g _ => l == launch && g == group
      | .net _ _ _ => false)
    || p.dst.any (fun d => match d with
      | .scr l g _ => l == launch && g == group
      | .glob _ _ | .expo _ _ _ => false)))

/-- The groups of a launch whose last wave has ended and whose scratchpad no request names any more: their share of the SRAM returns.
DEDUCED (log 121): an accepted request completes (R153, R191), so a scratchpad that it names stands until then. -/
def State.reap (s : State) (launch : Nat) : State :=
  { s with groups := s.groups.filter (fun g => !(g.launch == launch && g.waves == 0 && !s.reqs.any (fun r => r.names launch g.index))) }

/-- A wave ends: its slot and registers return; with its last wave the group ends, and its scratchpad with it. -/
def State.endWave (s : State) (w : Wave) : State :=
  let s := ((s.dropWave w.uid).noteIdle w.loc).onLaunch w.launch (fun l => { l with seen := unionNew l.seen w.observed })
  let s := s.onGroup w.launch w.group (fun g => { g with waves := g.waves - 1 })
  match s.group? w.launch w.group with
  | none => s
  | some g =>
    if g.waves = 0 then (s.onLaunch w.launch (fun l => { l with live := l.live - 1 })).reap w.launch else s

/-- The fibres of some lanes end (R118 steps 3 and 4). -/
def State.endFibres (s : State) (uid : Nat) (lanes : List Nat) : State :=
  match s.wave? uid with
  | none => s
  | some w =>
    let s := s.keepEstates w lanes
    let w := { w with
      fibres := w.fibres.filter (fun f => !lanes.contains f.lane)
      ppoison := w.ppoison.filter (fun l => !lanes.contains l) }
    let s := s.setWave w
    if w.fibres.isEmpty then s.endWave w else s

end Sys2Proof.Machine
end

