-- ==== Sys2Proof/Machine/Access.lean ====
section
/-! DEFINITION. Machine/Access.lean: forming and checking the accesses of loads, stores and atomics at issue (R124 to R133, R31 steps 16 and 17), the miss-status entries (R62), and the entries of the issue list (R219). -/

namespace Sys2Proof.Machine

/-! ## Page formats (R128, R130, R133) -/

/-- The floating format of an EFMT code (R277). -/
def fmtOfEfmt : Nat → Option FFmt
  | 1 => some .f32
  | 2 => some .f16
  | 3 => some .bf16
  | 4 => some .e4m3
  | 5 => some .e5m2
  | _ => none

/-- Whether a page of format g admits a load of TYPE f. -/
def loadAdmits (g f : FFmt) : Bool := g == f || f == .f32 || (g.width == 8 && f.width == 16)

/-- Whether a page admits a store of a TYPE. -/
def storeAdmits (efmt : Nat) (ty : MemTy) : Bool :=
  if efmt = 0 then true
  else match fmtOfEfmt efmt with
    | none => false
    | some g => match ty with
      | .flt f => f == g
      | .int t => t.width == g.width

/-- Whether a page admits an atomic. -/
def atomAdmits (efmt : Nat) (op : AtomOp) (wide : Bool) : Bool :=
  efmt == 0 || (efmt == 1 && !wide && (op == .fadd || op == .exch || op == .cas))

/-! ## One lane's access -/

/-- An access before it is sent. -/
def blankAcc (lane : Nat) (ea : W64) (n : Nat) : Acc where
  lane := lane
  ea := ea
  nbytes := n
  scratch := false
  at_ := []
  scale := none
  efmt := 0
  data := 0
  cmp := 0
  got := []
  st := .waiting

abbrev Plan := Except (Deny × Nat) Acc

/-- A global access of given bytes, each with a permission; allowed is asked of every page it touches. -/
def State.planBytes (s : State) (l : Launch) (agent : Nat) (p : Perm) (a : Acc) (va n : Nat) (allowed : Nat → Bool) : Plan :=
  match s.leaseBytes l agent p (span va n) with
  | .error (.retry, _) => .ok { a with st := .retry }
  | .error e => .error e
  | .ok bs => if bs.all (fun b => allowed b.2.1.efmt) then .ok { a with at_ := bs.map (·.1) } else .error (.format, a.ea.toNat)

/-- The page that an address lies in, where there is one. -/
def State.pageOf (s : State) (l : Launch) (agent va : Nat) : Option (Leaf × Bool) :=
  match s.xlate agent (s.space l.world l.comp) va with
  | .page f big _ => some (f, big)
  | _ => none

/-- What a floating load of a typed page reads: the element or the block that holds ea, with a block's exponent byte (R128). -/
structure TypedRead where
  va     : Nat
  bytes  : Nat
  scale  : Option ByteAt
  admits : Bool
deriving DecidableEq, Repr

/-- Tail bytes lie in no block (R45): such a load reads the byte at ea, and its format is wrong. -/
def typedRead (pg : Leaf) (big : Bool) (f : FFmt) (ea : Nat) : TypedRead :=
  match blockBits pg.efmt, fmtOfEfmt pg.efmt with
  | some b, _ =>
    let off := ea % pageBytes big
    let k := off / (4 * b)
    if pageBytes big / (4 * b) ≤ k then ⟨ea, 1, none, false⟩
    else ⟨ea - off + 4 * b * k, 4 * b,
      some ⟨pg.sframe + k, pg.kslot, pg.home, if pg.tier == 2 then some pg.peer else none, 2 ^ 48⟩, f == .f32⟩
  | none, some g => ⟨ea / (g.width / 8) * (g.width / 8), g.width / 8, none, loadAdmits g f⟩
  | none, none => ⟨ea, 1, none, false⟩

/-- A load's access (R128): raw bytes, the element, or the block that holds ea. Its bytes are checked against the lease before its
format is (R31). -/
def State.planLoad (s : State) (l : Launch) (agent : Nat) (ty : MemTy) (lane : Nat) (ea : W64) : Plan :=
  let a := blankAcc lane ea (ty.width / 8)
  let bytes := fun va n => s.planBytes l agent .read a va n (fun _ => true)
  match ty, s.pageOf l agent ea.toNat with
  | .flt f, some (pg, big) =>
    if pg.efmt = 0 then bytes ea.toNat (ty.width / 8)
    else
      let r := typedRead pg big f ea.toNat
      match bytes r.va r.bytes with
      | .error e => .error e
      | .ok a => if r.admits then .ok { a with scale := r.scale, efmt := pg.efmt } else .error (.format, ea.toNat)
  | _, _ => bytes ea.toNat (ty.width / 8)

def State.planStore (s : State) (l : Launch) (agent : Nat) (ty : MemTy) (lane : Nat) (ea : W64) (data : Nat) : Plan :=
  let a := { blankAcc lane ea (ty.width / 8) with data := data }
  s.planBytes l agent .write a ea.toNat (ty.width / 8) (fun e => storeAdmits e ty)

/-- A scratchpad access lies wholly below the declared size (R126). -/
def planScratch (size : Nat) (lane : Nat) (ea : W64) (n data cmp : Nat) : Plan :=
  if size < ea.toNat + n then .error (.lease, max ea.toNat size)
  else .ok { blankAcc lane ea n with scratch := true, data := data, cmp := cmp }

/-- Bytes of one aligned location of an atomic (R133). -/
def atomBytes (wide : Bool) : Nat := if wide then 8 else 4

def State.planAtom (s : State) (l : Launch) (agent : Nat) (op : AtomOp) (wide : Bool) (lane : Nat) (ea : W64)
    (data cmp : Nat) : Plan :=
  let n := atomBytes wide
  let ea := BitVec.ofNat 64 (ea.toNat / n * n)
  let a := { blankAcc lane ea n with data := data, cmp := cmp }
  match s.leaseBytes l agent .read (span ea.toNat n) with
  | .error (.retry, _) => .ok { a with st := .retry }
  | .error e => .error e
  | .ok _ => s.planBytes l agent .write a ea.toNat n (fun e => atomAdmits e op wide)

/-! ## The checks of an issue -/

def planDenied (d : Deny) (p : Nat × Plan) : Option (Nat × Nat) :=
  match p.2 with
  | .error (e, va) => if e = d then some (p.1, va) else none
  | .ok _ => none

/-- Steps 16 and 17 over every lane: the lowest failing one. -/
def planChk (ps : List (Nat × Plan)) : Option Chk :=
  match ps.findSome? (planDenied .lease) with
  | some p => some { fault := .lease, step := 16, lane := p.1, addr := BitVec.ofNat 64 p.2 }
  | none => match ps.findSome? (planDenied .format) with
    | some p => some { fault := .format, step := 17, lane := p.1, addr := BitVec.ofNat 64 p.2 }
    | none => none

def planAccs (ps : List (Nat × Plan)) : List Acc := ps.filterMap (fun p => p.2.toOption)

/-! ## Miss-status entries (R62, log entry 12) -/

def Acc.outstanding (a : Acc) : Bool := !a.scratch && a.st == .waiting

/-- Entries of a core in use. -/
def State.missUsed (s : State) (die core : Nat) : Nat :=
  (s.waves.filter (fun w => w.loc.die == die && w.loc.core == core)).foldl
    (fun n w => n + (w.entries.foldl (fun m e => m + (e.accs.filter Acc.outstanding).length) 0)) 0

/-- The earliest first rejection among the core's instructions rejected 8 times (the head of the priority queue). -/
def State.missHead (s : State) (die core : Nat) : Option Nat :=
  let ns := (s.waves.filter (fun w => w.loc.die == die && w.loc.core == core)).flatMap (fun w =>
    w.stalls.filterMap (fun x => match x.kind with
      | .retry _ n order => if 8 ≤ n then some order else none
      | _ => none))
  match ns with
  | [] => none
  | x :: xs => some (xs.foldl min x)

/-- Lanes that the instruction at the head of the priority queue has yet to send. -/
def State.headNeeds (s : State) (die core head : Nat) : Nat :=
  ((s.waves.filter (fun w => w.loc.die == die && w.loc.core == core)).flatMap (fun w => w.stalls.map (fun x => match x.kind with
    | .retry id _ order => if order = head then ((w.entries.filter (fun e => e.id == id)).map (fun e =>
        (e.accs.filter (fun a => a.st == .unsent)).length)).sum else 0
    | _ => 0))).sum

/-- Entries that an instruction may take: what the head of the priority queue leaves. -/
def State.missFree (s : State) (die core : Nat) (order : Option Nat) : Nat :=
  let free := 256 - s.missUsed die core
  match s.missHead die core with
  | none => free
  | some h => if order = some h then free else free - s.headNeeds die core h

/-- The first n global accesses, of the lowest lanes, find entries; the others are unsent (log entry 12). -/
def takeFree (n : Nat) : List Acc → List Acc
  | [] => []
  | a :: as =>
    if a.st = .waiting && !a.scratch then
      match n with
      | 0 => { a with st := .unsent } :: takeFree 0 as
      | k + 1 => a :: takeFree k as
    else a :: takeFree n as

/-! ## The issue list -/

/-- What an issue puts on its wave's list. -/
structure NewEntry where
  instr   : Instr
  kind    : EKind
  acquire : Bool := false
  release : Option Scope := none
  accs    : List Acc
  marks   : List MarkOn := []
deriving DecidableEq, Repr

def Ctx.entry (c : Ctx) (id : Nat) (e : NewEntry) : Entry where
  id := id
  pc := c.pc
  base := c.base
  set_ := laneMask c.set_
  active := laneMask c.act
  instr := e.instr
  kind := e.kind
  acquire := e.acquire
  release := e.release
  carried := none
  accs := e.accs
  answers := []
  obj := none

/-- Appends an entry, with its scoreboard marks (R58). -/
def Wave.addEntry (w : Wave) (c : Ctx) (e : NewEntry) : Wave :=
  { w with
    entries := w.entries ++ [c.entry w.nextEntry e]
    marks := w.marks ++ e.marks.map (fun m => ⟨m, w.nextEntry⟩)
    nextEntry := w.nextEntry + 1 }

/-- The bit of WCTL that watches an instruction's accesses (R239). -/
def watchBit (i : Instr) : Option Nat :=
  match i with
  | .ld _ | .ldu _ => some 1
  | .st _ | .stu _ => some 2
  | .atom _ | .red _ => some 3
  | _ => none

/-- The virtual addresses of an access: of the element or the block on a typed page (R128). -/
def Acc.addresses (a : Acc) : List Nat := if a.at_.isEmpty then span a.ea.toNat a.nbytes else a.at_.map ByteAt.va

/-- The first byte of an access that an armed range of its space covers. -/
def State.watchHit (s : State) (i : Instr) (l : Launch) (a : Acc) : Option W64 :=
  match watchBit i, s.part? l.part with
  | some b, some p =>
    a.addresses.findSome? (fun va =>
      if p.watch.any (fun r => r.2.getLsbD 0 && r.2.getLsbD b
          && (r.2.extractLsb' 16 16).toNat == s.space l.world l.comp
          && r.1.toNat ≤ va && va < r.1.toNat + (r.2.extractLsb' 32 32).toNat)
      then some (BitVec.ofNat 64 va) else none)
  | _, _ => none

/-- Lanes that touch a watched range stop before they are performed (R239). -/
def State.markWatch (s : State) (i : Instr) (c : Ctx) (accs : List Acc) : List Acc :=
  match s.launch? c.w.launch with
  | none => accs
  | some l => accs.map (fun a => if a.scratch then a else match s.watchHit i l a with
    | none => a
    | some _ => { a with st := .watched })

/-- Atomics hold their issuing set until their last lane is done, and retire then (R136, R230). -/
def retiresLate (i : Instr) : Bool :=
  match i with
  | .atom _ | .red _ | .atoms _ => true
  | _ => false

/-- WATCH: a record, and the wave parks; on continue its watched lanes are sent (R238). -/
def State.watchFault (s : State) (i : Instr) (c : Ctx) (accs : List Acc) : State :=
  match accs.find? (fun a => a.st == .watched), s.launch? c.w.launch with
  | some a, some l =>
    let r := s.faultRec c.w .watch 2 0 a.lane c.pc c.pc (laneMask c.act) ((s.watchHit i l a).getD 0) 0
    let held := accs.any (fun a => a.st == .unsent) || retiresLate i
    (s.deliver c.w.launch r).takeFault c.w
      { fault := .watch, pc := c.pc, base := c.base, lanes := laneMask c.set_, skip := if held then c.len else 0, after := !held
        imprecise := false } r
  | _, _ => s

/-- The lanes from a split upward are held as rejected (R243). -/
def holdLanes (split : Option Nat) (accs : List Acc) : List Acc :=
  match split with
  | none => accs
  | some m => accs.map (fun a => if m ≤ a.lane && a.st == .waiting then { a with st := .unsent } else a)

/-- Caches the translations that an issue has used. -/
def State.cacheAccs (s : State) (c : Ctx) (accs : List Acc) : State :=
  match s.launch? c.w.launch with
  | none => s
  | some l => accs.foldl (fun s a => if a.scratch then s
      else s.cacheXlate c.w.agent (s.space l.world l.comp) a.ea.toNat) s

/-- The entry of an issue with its lanes: they are sent, or wait to be presented again, and a watched range stops some. -/
def State.sendEntry (s : State) (c : Ctx) (e : NewEntry) : State :=
  ((s.onWave c.w.uid (fun w => w.addEntry c e)).cacheAccs c e.accs).watchFault e.instr c e.accs

/-- The set of an atomic stands until the entry is over. -/
def holdPosted (c : Ctx) (s : State) : Option State :=
  match c.stall? with
  | some (.posted id) => if c.w.entries.any (fun e => e.id == id) then some (s.stall c (.posted id)) else none
  | _ => none

/-- An instruction whose lanes need more entries than are free is accepted in part, and waits to be presented again:
its first rejection. An atomic waits for its lanes in any case. -/
def holdMiss (mk : Ctx → State → NewEntry) (c : Ctx) (s : State) : Option State :=
  let e := mk c s
  let accs := takeFree (s.missFree c.w.loc.die c.w.loc.core none) (holdLanes (c.split s) e.accs)
  if accs.any (fun a => a.st == .unsent) then
    let r := s.fresh
    some ((r.2.stall c (.retry c.w.nextEntry 1 r.1)).sendEntry c { e with accs := accs })
  else if retiresLate e.instr then some ((s.stall c (.posted c.w.nextEntry)).sendEntry c e)
  else none

/-- A memory instruction, from the plan of its lanes. -/
def runAccess (i : Instr) (pre : Ctx → State → Option Chk) (wait : Ctx → State → Option State)
    (plan : Ctx → State → List (Nat × Plan)) (mk : Ctx → List Acc → NewEntry) (s : State) : Out :=
  let entry := fun c s => mk c (s.markWatch i c (planAccs (plan c s)))
  runWord i
    (fun c s => match pre c s with
      | some k => some k
      | none => planChk (plan c s))
    (fun c s => if c.again then holdPosted c s else match wait c s with
      | some t => some t
      | none => holdMiss entry c s)
    (fun c s => if c.again then s else s.sendEntry c (entry c s)) s

/-- The launch and the scratchpad of an issue's group. -/
def State.scratchSize (s : State) (w : Wave) : Nat :=
  match s.launch? w.launch with
  | none => 0
  | some l => l.block.scratch

def noneLaunchPlan (lane : Nat) (ea : W64) : Nat × Plan := (lane, .error (.lease, ea.toNat))

/-- Plans a global access in some lanes. -/
def planLanes (s : State) (w : Wave) (lanes : List Nat) (ea : Nat → W64) (f : Launch → Nat → W64 → Plan) :
    List (Nat × Plan) :=
  match s.launch? w.launch with
  | none => lanes.map (fun l => noneLaunchPlan l (ea l))
  | some la => lanes.map (fun l => (l, f la l (ea l)))

end Sys2Proof.Machine
end

