-- ==== Sys2Proof/Machine/LoadStore.lean ====
section
/-! DEFINITION. Machine/LoadStore.lean: issuing LD, ST, LDS, STS, LDU, STU, PREF, ATOM, RED, ATOMS and FENCE (R124 to R135). Their lanes take effect by the steps of Machine/Order.lean. -/

namespace Sys2Proof.Machine

/-- The scoreboard marks of a vector destination. -/
def markV (c : Ctx) (wide : Bool) (d : BitVec 7) : List MarkOn := (regsOf wide d).map (fun r => .vec (c.base + r))

/-- The low bits of a store's data. -/
def dataBits (ty : MemTy) (x : W64) : Nat := x.toNat % 2 ^ ty.width

def waitGrid (c : Ctx) (s : State) : Option State := if s.gridReads c.w then some (s.stall c .grid) else none

/-- LD (R127). -/
def execLd (o : OpMem) (s : State) : Out :=
  runAccess (.ld o) noChk noHold
    (fun c s => planLanes s c.w c.act (eaGlobal c.w c.base o.len o.base o.off o.disp)
      (fun l => s.planLoad l c.w.agent o.ty))
    (fun c accs => { instr := .ld o, kind := .load, acquire := o.ord.isSome, accs := accs, marks := markV c o.ty.wide o.d }) s

/-- ST (R130). -/
def execSt (o : OpMem) (s : State) : Out :=
  runAccess (.st o) noChk noHold
    (fun c s => planLanes s c.w c.act (eaGlobal c.w c.base o.len o.base o.off o.disp)
      (fun l lane ea => s.planStore l c.w.agent o.ty lane ea
        (dataBits o.ty (c.w.vget (c.base + o.d.toNat) o.ty.wide lane))))
    (fun _ accs => { instr := .st o, kind := .store, release := o.ord, accs := accs }) s

/-- LDS: the bytes, no decoding (R127). -/
def execLds (o : OpMemS) (s : State) : Out :=
  runAccess (.lds o) noChk noHold
    (fun c s => c.act.map (fun l => (l, planScratch (s.scratchSize c.w) l
      (eaScratch c.w c.base o.len o.base o.off o.disp l) (o.ty.width / 8) 0 0)))
    (fun c accs => { instr := .lds o, kind := .load, acquire := o.ord.isSome, accs := accs, marks := markV c o.ty.wide o.d }) s

/-- STS (R130, R168). -/
def execSts (o : OpMemS) (s : State) : Out :=
  runAccess (.sts o) noChk waitGrid
    (fun c s => c.act.map (fun l => (l, planScratch (s.scratchSize c.w) l
      (eaScratch c.w c.base o.len o.base o.off o.disp l) (o.ty.width / 8)
      (dataBits o.ty (c.w.vget (c.base + o.d.toNat) o.ty.wide l)) 0)))
    (fun _ accs => { instr := .sts o, kind := .store, release := o.ord, accs := accs }) s

/-- R124: a vector offset of LDU and STU is uniform. -/
def uniformOff (o : OpMemU) (c : Ctx) : Option Chk :=
  match o.off with
  | .vec v => c.nonuniform (fun l => (laneRead c.w c.base v false l).toNat)
  | .scalar _ | .absent => none

/-- LDU: one access for the issue, from the lowest active lane (R125, R127). -/
def execLdu (o : OpMemU) (s : State) : Out :=
  runAccess (.ldu o) (fun c _ => uniformOff o c) noHold
    (fun c s => planLanes s c.w [c.low] (eaGlobal c.w c.base o.len (.scalar o.base) o.off o.disp)
      (fun l => s.planLoad l c.w.agent o.ty))
    (fun _ accs => { instr := .ldu o, kind := .load, acquire := o.ord.isSome, accs := accs, marks := [.scalar o.d.toNat] }) s

/-- STU (R130). -/
def execStu (o : OpMemU) (s : State) : Out :=
  runAccess (.stu o) (fun c _ => uniformOff o c) noHold
    (fun c s => planLanes s c.w [c.low] (eaGlobal c.w c.base o.len (.scalar o.base) o.off o.disp)
      (fun l lane ea => s.planStore l c.w.agent o.ty lane ea (dataBits o.ty (c.w.sget o.d.toNat))))
    (fun _ accs => { instr := .stu o, kind := .store, release := o.ord, accs := accs }) s

/-- PREF has no effect on any register, flag or memory content; the device may drop it (R131). -/
def execPref (o : OpPref) (s : State) : Out := runPlain (.pref o) (fun _ w => w) s

/-! ## Atomics (R132, R133) -/

def atomMask (wide : Bool) (x : W64) : Nat := x.toNat % 2 ^ (8 * atomBytes wide)

/-- ATOM: exch and cas included; the comparand is read with the identity pattern. -/
def execAtom (o : OpAtom) (s : State) : Out :=
  runAccess (.atom o) noChk noHold
    (fun c s => planLanes s c.w c.act (fun l => aBase c.w c.base o.base l + rOff c.w c.base o.off l)
      (fun la lane ea => s.planAtom la c.w.agent o.op o.wide lane ea
        (atomMask o.wide (laneRead c.w c.base o.c o.wide lane))
        (atomMask o.wide (c.w.vget (c.base + o.cmp.toNat) o.wide lane))))
    (fun c accs => { instr := .atom o, kind := .atomic, acquire := o.ord.isSome, release := o.ord, accs := accs,
                     marks := markV c o.wide o.d }) s

/-- RED: no value returned. -/
def execRed (o : OpRed) (s : State) : Out :=
  runAccess (.red o) noChk noHold
    (fun c s => planLanes s c.w c.act (fun l => aBase c.w c.base o.base l + rOff c.w c.base o.off l)
      (fun la lane ea => s.planAtom la c.w.agent o.op o.wide lane ea
        (atomMask o.wide (laneRead c.w c.base o.c o.wide lane)) 0))
    (fun _ accs => { instr := .red o, kind := .atomic, acquire := o.ord.isSome, release := o.ord, accs := accs }) s

/-- An aligned-down scratchpad location. -/
def alignDown (n : Nat) (x : W64) : W64 := BitVec.ofNat 64 (x.toNat / n * n)

/-- ATOMS: on scratchpad (R132, R168). -/
def execAtoms (o : OpAtoms) (s : State) : Out :=
  runAccess (.atoms o) noChk waitGrid
    (fun c s => c.act.map (fun l => (l, planScratch (s.scratchSize c.w) l
      (alignDown (atomBytes o.wide) ((c.w.sget o.base.toNat + rOff c.w c.base o.off l) &&& 0xFFFFFFFF)) (atomBytes o.wide)
      (atomMask o.wide (laneRead c.w c.base o.c o.wide l))
      (atomMask o.wide (c.w.vget (c.base + o.cmp.toNat) o.wide l)))))
    (fun c accs => { instr := .atoms o, kind := .atomic, acquire := o.ord.isSome, release := o.ord, accs := accs,
                     marks := markV c o.wide o.d }) s

/-! ## FENCE (R135, R223, R224) -/

/-- Acquiring: the carried sets of the releases that the wave's loads have returned. -/
def State.acquireSeen (s : State) (w : Wave) : Wave :=
  { w with observed := (w.returned.filterMap (fun id => match s.writeRec? id with
      | none => none
      | some r => r.carried)).foldl unionNew w.observed }

/-- A release waits until what the wave has observed is settled at its scope (R224). -/
def holdSettle (sc : Scope) (c : Ctx) (s : State) : Option State :=
  if s.settledAll c.w.loc.die c.w.loc.core sc c.w.observed then none else some (s.stall c (.settle sc))

/-- One wait after another. -/
def holdBoth (a b : Ctx → State → Option State) (c : Ctx) (s : State) : Option State :=
  match a c s with
  | some t => some t
  | none => b c s

/-- FENCE drains, raises pending imprecise faults, and settles what its kind names at its scope; .acqrel settles what it releases
before it acquires (DESIGN CHOICE, log entry 103). -/
def execFence (o : OpFence) (s : State) : Out :=
  runWord (.fence o) noChk
    (holdBoth (holdSync .drain fenceBusy) (if o.kind = .acq then noHold else holdSettle o.scope))
    (fun c s => if o.kind = .rel then s else s.onWave c.w.uid s.acquireSeen) s

end Sys2Proof.Machine
end

