-- ==== Sys2Proof/Machine/Barrier.lean ====
section
/-! DEFINITION. Machine/Barrier.lean: handles (R138, R139), barrier objects and their events (R140 to R142, R211, R226), and BINIT, ARRIVE, EXPECT, WAIT, BTEST and BPHASE (R143 to R147). -/

namespace Sys2Proof.Machine

/-! ## Handles (R138) -/

structure Handle where
  scope : Scope
  pkg   : Nat
  die   : Nat
  index : Nat
deriving DecidableEq, Repr

def scopeOf : Nat → Option Scope
  | 1 => some .core
  | 2 => some .quad
  | 3 => some .die
  | 4 => some .pkg
  | 5 => some .pod
  | _ => none

/-- The objects of a scope; core objects are bounded by the scratchpad. -/
def scopeSize : Scope → Nat
  | .core => 2 ^ 24
  | .quad => 64
  | .die => 256
  | .pkg => 1024
  | .pod => 256

/-- A handle whose fields obey R138. -/
def handleOf (x : W64) : Option Handle :=
  let pkg := (x.extractLsb' 54 10).toNat
  let die := (x.extractLsb' 51 3).toNat
  let idx := (x.extractLsb' 8 24).toNat
  match scopeOf (x.extractLsb' 0 3).toNat with
  | none => none
  | some sc =>
    if x.extractLsb' 32 19 != 0 || x.extractLsb' 3 5 != 0 || (pkg != 0 && sc != .pod) || (die != 0 && sc != .die)
      || scopeSize sc ≤ idx then none
    else some ⟨sc, pkg, die, idx⟩

/-- R256, R321: the physical core of a logical one, and how many are present. -/
def State.present (s : State) (die : Nat) : List Nat := (List.range 36).filter (fun c => (s.die die).harvest.getLsbD c)
def State.physCore (s : State) (die core : Nat) : Nat := (s.present die).getD core 255
def State.quadOf (s : State) (die core : Nat) : Nat := s.physCore die core / 4

/-- The object that a handle names, for a wave (R211). -/
def State.objOf (s : State) (w : Wave) (h : Handle) : ObjRef :=
  match h.scope with
  | .core => .core w.launch w.group (h.index * 16)
  | .quad => .net .quad (w.loc.die * 9 + s.quadOf w.loc.die w.loc.core) h.index
  | .die => .net .die h.die h.index
  | .pkg => .net .pkg (h.index % 8) h.index
  | .pod => .net .pod h.pkg h.index

/-- The die, or hub 1, whose network holds an object. -/
def objDie : ObjRef → Nat
  | .core _ _ _ => 0
  | .net .quad home _ => home / 9
  | .net .die home _ => home
  | .net .pkg home _ => home
  | .net _ _ _ => 9

def NetObj.isAt (n : NetObj) (sc : Scope) (home index : Nat) : Bool := n.scope == sc && n.home == home && n.index == index

def State.netObj? (s : State) (sc : Scope) (home index : Nat) : Option NetObj := s.objs.find? (fun n => n.isAt sc home index)

/-- Whether a launch has been given an object, or holds it through its queue (R245, R246). -/
def State.given (s : State) (launch : Nat) (sc : Scope) (home index : Nat) : Bool :=
  match s.netObj? sc home index, s.launch? launch with
  | some n, some l => if n.byQueue then n.owner == l.queue else n.owner == launch
  | _, _ => false

/-- R139: what a handle must satisfy for a wave. -/
def State.handle? (s : State) (w : Wave) (x : W64) : Option (Handle × ObjRef) :=
  match handleOf x, s.launch? w.launch with
  | some h, some l =>
    let o := s.objOf w h
    let ok := match h.scope with
      | .core => !l.block.roam && h.index * 16 + 16 ≤ l.block.scratch
      | .quad => !l.block.roam && l.block.quadset && (match o with
        | .net sc home i => s.given w.launch sc home i
        | .core _ _ _ => false)
      | .die | .pkg | .pod => match o with
        | .net sc home i => s.given w.launch sc home i
        | .core _ _ _ => false
    if ok then some (h, o) else none
  | _, _ => none

/-! ## Objects (R140) -/

def barBlank : BarObj := ⟨0, 0, 0, 0, 0, false, false⟩

/-- The 16 bytes of a core object, reserved bits ignored. -/
def barOfBytes (n : Nat) : BarObj where
  expA := n / 2 ^ 80 % 2 ^ 16
  penA := n / 2 ^ 64 % 2 ^ 16
  expB := n / 2 ^ 32 % 2 ^ 32
  penB := (BitVec.ofNat 32 n).toInt
  phase := n / 2 ^ 96 % 2 ^ 4
  ovf := n.testBit 102
  lovf := n.testBit 103

def barBytes (o : BarObj) : List Byte :=
  leBytes 16 ((BitVec.ofInt 32 o.penB).toNat + o.expB * 2 ^ 32 + o.penA * 2 ^ 64 + o.expA * 2 ^ 80 + o.phase * 2 ^ 96
    + (if o.ovf then 2 ^ 102 else 0) + (if o.lovf then 2 ^ 103 else 0))

def State.obj? (s : State) (o : ObjRef) : Option BarObj :=
  match o with
  | .core l g off => match s.group? l g with
    | none => none
    | some gr => some (barOfBytes (leNat (mapRun 0 gr.scratch off 16)))
  | .net sc h i => match s.netObj? sc h i with
    | none => none
    | some n => some n.obj

def State.putObj (s : State) (o : ObjRef) (b : BarObj) : State :=
  match o with
  | .core l g off => s.onGroup l g (fun gr => { gr with scratch := mapSetRun 0 gr.scratch off (barBytes b) })
  | .net sc h i => { s with objs := updBy (fun n => n.isAt sc h i) (fun n => { n with obj := b }) s.objs }

def State.objPoisoned (s : State) (o : ObjRef) : Bool :=
  match o with
  | .core l g off => match s.group? l g with
    | none => false
    | some gr => (List.range 4).any (fun k => mapGet false gr.spoison (off / 4 + k))
  | .net sc h i => match s.netObj? sc h i with
    | none => false
    | some n => n.poison

/-! ## Events (R142) -/

/-- The completion test. -/
def barTest (o : BarObj) : BarObj × Bool :=
  if o.penA = 0 && o.penB ≤ 0 then
    ({ o with
      lovf := o.ovf || o.penB < 0
      ovf := false
      phase := (o.phase + 1) % 16
      penA := o.expA
      penB := o.expB }, true)
  else (o, false)

/-- One event, and whether a phase completes. -/
def barEvent (o : BarObj) (op : BarOp) : BarObj × Bool :=
  match op with
  | .binit a b => ({ expA := a, penA := a, expB := b, penB := b, phase := 0, ovf := false, lovf := false }, false)
  | .arrive _ => barTest (if o.penA = 0 then { o with ovf := true } else { o with penA := o.penA - 1 })
  | .landing n _ => barTest { o with penB := (BitVec.ofInt 32 (o.penB - n)).toInt }
  | .expect n =>
    let e := o.penB + n
    barTest (if (2 ^ 31 - 1 : Int) < e then { o with penB := 2 ^ 31 - 1, ovf := true } else { o with penB := e })

/-- What an event adds to the carried set (R226). -/
def BarOp.carries : BarOp → List Nat
  | .arrive c => c
  | .landing _ ws => ws
  | .binit _ _ | .expect _ => []

/-- The carried set grows; at a completion it belongs to the completed phase. -/
def State.carry (s : State) (o : ObjRef) (ids : List Nat) (done : Bool) : State :=
  match o with
  | .core l g off => s.onGroup l g (fun gr =>
      let c := unionNew (mapGet [] gr.carried off) ids
      if done then { gr with carried := mapSet [] gr.carried off [], past := mapSet [] gr.past off (c :: mapGet [] gr.past off) }
      else { gr with carried := mapSet [] gr.carried off c })
  | .net sc h i => { s with objs := updBy (fun n => n.isAt sc h i) (fun n =>
      let c := unionNew n.carried ids
      if done then { n with carried := [], past := c :: n.past } else { n with carried := c }) s.objs }

/-- The carried sets of the last e completed phases. -/
def State.pastOf (s : State) (o : ObjRef) (e : Nat) : List Nat :=
  let all := match o with
    | .core l g off => match s.group? l g with
      | none => []
      | some gr => mapGet [] gr.past off
    | .net sc h i => match s.netObj? sc h i with
      | none => []
      | some n => n.past
  (all.take e).foldl unionNew []

/-- A completion is counted by every wave blocked on the object, or draining before it blocks (R146); after a BINIT a blocked
wave's token is read against phase 0 (R143). -/
def wakeStall (o : ObjRef) (op : BarOp) (done : Bool) (x : Stall) : Stall :=
  match x.kind with
  | .wait p t e blocked =>
    if p = o then
      let fresh := match op with
        | .binit _ _ => blocked
        | _ => false
      { x with kind := .wait p t (if fresh then (16 - t) % 16 else if done then e + 1 else e) (blocked && !done) }
    else x
  | _ => x

/-- The launch for whose waves an object is held, and its partition. -/
def State.objPart (s : State) (o : ObjRef) : Option Nat :=
  let ofLaunch := fun l => (s.launch? l).map (fun l => l.part)
  match o with
  | .core l _ _ => ofLaunch l
  | .net sc h i => match s.netObj? sc h i with
    | none => none
    | some n => if n.byQueue then (s.queue? n.owner).map (fun q => q.part) else ofLaunch n.owner

def State.objLaunch (s : State) (o : ObjRef) : Option Nat :=
  match o with
  | .core l _ _ => some l
  | .net sc h i => match s.netObj? sc h i with
    | none => none
    | some n => if n.byQueue then none else some n.owner

/-- The launches that a poisoned object ends (R323): its own. DEDUCED (log 120): of an object that a queue holds, the queue's launches,
to all of which it is given (R246). -/
def State.objUsers (s : State) (o : ObjRef) : List Nat :=
  match o with
  | .core l _ _ => [l]
  | .net sc h i => match s.netObj? sc h i with
    | none => []
    | some n =>
      if n.byQueue then (s.launches.filter (fun l => l.queue == n.owner && l.st != .ended)).map (fun l => l.uid) else [n.owner]

/-- R323: the launches of a poisoned object end with CODE 16 and the handle in ADDR. -/
def State.endUsers (s : State) (o : ObjRef) (handle : W64) : State :=
  (s.objUsers o).foldl (fun s l => s.endLaunch l 16 0 handle 0 8) s

/-- An event takes effect at its object. A poisoned object ends its launches (R323); a firing is activity (R215). A completion is counted
by a blocked WAIT in a saved context too (R146). -/
def State.applyEvent (s : State) (o : ObjRef) (op : BarOp) (handle : W64) : State :=
  if s.objPoisoned o then s.endUsers o handle
  else match s.obj? o with
    | none => s
    | some b =>
      let r := barEvent b op
      let s := (s.putObj o r.1).carry o op.carries r.2
      let s := match s.objPart o with
        | none => s
        | some p => s.firing p
      let wake := fun w : Wave => { w with stalls := w.stalls.map (wakeStall o op r.2) }
      { s with
        waves := s.waves.map wake
        contexts := s.contexts.map (fun c => { c with waves := c.waves.map wake }) }

/-- R250: an ARRIVE that a wave of a launch makes on the launch's completion object pays one of its arrivals. -/
def State.noteTrigger (s : State) (launch : Nat) (o : ObjRef) : State :=
  s.onLaunch launch (fun l => match handleOf l.block.doneobj with
    | none => l
    | some h => if o = .net .pkg (h.index % 8) h.index && h.scope = .pkg then { l with paid := l.paid + 1 } else l)

/-- A wave's event goes to its object: to a core object at once, to another on the channel to the object's die. DEDUCED (log 122): one to a
die that no route serves is lost, and the wave receives REMOTE_UNREACHABLE (R328, R5). -/
def State.sendEvent (s : State) (c : Ctx) (i : Instr) (o : ObjRef) (op : BarOp) (handle : W64) : State :=
  match o with
  | .core _ _ _ => s.applyEvent o op handle
  | .net _ _ _ =>
    if !s.reachable c.w.loc.die (objDie o) then
      (s.onWave c.w.uid (fun w => { w with nextEntry := w.nextEntry + 1 })).pendOnce c.w.uid
        ⟨.remoteUnreachable, 2 * c.w.nextEntry, c.pc, laneMask c.act, c.low, handle⟩
    else
    let rep := match s.launch? c.w.launch with
      | none => false
      | some l => l.block.repair
    let s := s.onWave c.w.uid (fun w =>
      { w.addEntry c { instr := i, kind := .event, accs := [] } with
        entries := w.entries ++ [{ c.entry w.nextEntry { instr := i, kind := .event, accs := [] } with obj := some o }] })
    s.post (chanOf c.w.loc.die c.w.loc.core (objDie o)) (.event o op (some (.wave c.w.uid c.w.nextEntry))) rep

/-! ## Checks of the barrier instructions -/

/-- The wave's own earlier accesses have yet to reach some of these scratchpad bytes (R126, log entry 80). -/
def Wave.pendingAt (w : Wave) (off n : Nat) : Bool :=
  w.entries.any (fun e => e.accs.any (fun a =>
    a.scratch && !a.stepped && a.ea.toNat < off + n && off < a.ea.toNat + a.nbytes))

/-- The bytes of a core object. -/
def Wave.objPending (w : Wave) (r : ObjRef) : Bool :=
  match r with
  | .core _ _ off => w.pendingAt off 16
  | .net _ _ _ => false

/-- Events of the wave on an object that have not reached it, or its own stores to the object's bytes (log entries 14
and 80). -/
def Wave.owes (w : Wave) (r : ObjRef) : Bool := w.entries.any (fun e => e.obj == some r) || w.objPending r

/-- The log of the wave's die to the object's is full (R333). -/
def State.eventStalled (s : State) (w : Wave) (r : ObjRef) : Bool :=
  match r with
  | .core _ _ _ => false
  | .net _ _ _ => s.sendsStalled w.loc.die (objDie r)

/-- An event waits for the wave's earlier acquires (R222), and for room in the log of its die; one on a core object waits for the wave's own earlier accesses to
its bytes. -/
def holdBytes (a : BitVec 6) (c : Ctx) (s : State) : Option State :=
  match s.handle? c.w (c.w.sget a.toNat) with
  | none => none
  | some ho => if c.acquiring || c.w.objPending ho.2 || s.eventStalled c.w ho.2 then some (s.stall c (.own ho.2)) else none

/-- Step 13 (R139): the handle in ADDR. -/
def handleChk (a : BitVec 6) (c : Ctx) (s : State) : Option Chk :=
  match s.handle? c.w (c.w.sget a.toNat) with
  | some _ => none
  | none => some { fault := .cap, step := 13, lane := c.low, addr := c.w.sget a.toNat }

def uniformB (b : BSrc) (len : Len) (c : Ctx) : Option Chk :=
  match b with
  | .vec _ => c.nonuniform (fun l => b32 c.w c.base len b l)
  | .scalar _ | .imm _ => none

def chkBoth (a b : Option Chk) : Option Chk :=
  match a with
  | some k => some k
  | none => b

/-- The effect on the object that a handle names. -/
def withObj (a : BitVec 6) (f : Handle → ObjRef → State → State) (c : Ctx) (s : State) : State :=
  match s.handle? c.w (c.w.sget a.toNat) with
  | none => s
  | some ho => f ho.1 ho.2 s

/-! ## BINIT and EXPECT (R143, R145) -/

def binitOp (o : OpBinit) (w : Wave) : BarOp :=
  match o.src with
  | .regs b c => .binit (min (w.sget b.toNat).toNat 65535) (min (w.sget c.toNat).toNat (2 ^ 31 - 1))
  | .imm a n => .binit a.toNat n.toNat

def execBinit (o : OpBinit) (s : State) : Out :=
  runWord (.binit o) (handleChk o.a) (holdBytes o.a)
    (fun c => withObj o.a (fun _ r s => s.sendEvent c (.binit o) r (binitOp o c.w) (c.w.sget o.a.toNat)) c) s

def execExpect (o : OpExpect) (s : State) : Out :=
  runWord (.expect o) (fun c s => chkBoth (uniformB o.b o.len c) (handleChk o.a c s)) (holdBytes o.a)
    (fun c => withObj o.a (fun _ r s =>
      s.sendEvent c (.expect o) r (.expect (b32 c.w c.base o.len o.b c.low)) (c.w.sget o.a.toNat)) c) s

/-! ## ARRIVE (R144) -/

/-- ARRIVE and RFREE: wait as FENCE does, raise pending faults, settle at the object's scope, post one event, and retire
when the object has counted it. -/
def holdArrive (i : Instr) (sc : Scope) (r : ObjRef) (handle : W64) (c : Ctx) (s : State) : Option State :=
  match c.stall? with
  | some (.posted e) => if c.w.entries.any (fun x => x.id == e) then some (s.stall c (.posted e)) else none
  | _ =>
    match holdBoth (holdSync .drain fenceBusy) (holdBoth waitGrid (holdSettle sc)) c s with
    | some t => some t
    | none => match r with
      | .core _ _ _ => none
      | .net _ _ _ => if s.eventStalled c.w r then some (s.stall c (.own r)) else some ((s.sendEvent c i r (.arrive c.w.observed) handle).stall c (.posted c.w.nextEntry))

/-- At retiring, a core object counts the event; another has counted it. -/
def effArrive (r : ObjRef) (handle : W64) (c : Ctx) (s : State) : State :=
  match r with
  | .core _ _ _ => s.applyEvent r (.arrive c.w.observed) handle
  | .net _ _ _ => s

def execArrive (o : OpArrive) (s : State) : Out :=
  runWord (.arrive o) (handleChk o.a)
    (fun c s => match s.handle? c.w (c.w.sget o.a.toNat) with
      | none => none
      | some ho => holdArrive (.arrive o) ho.1.scope ho.2 (c.w.sget o.a.toNat) c s)
    (fun c => withObj o.a (fun _ r s => effArrive r (c.w.sget o.a.toNat) c s) c) s

/-! ## WAIT (R146) -/

/-- The token and the distance of an object past it. -/
def tokenOf (o : OpWait) (c : Ctx) : Nat := b32 c.w c.base o.len o.b c.low % 16

def State.distance (s : State) (r : ObjRef) (t : Nat) : Nat :=
  match s.obj? r with
  | none => 0
  | some b => (b.phase + 16 - t) % 16

/-- Step 18: PHASE_AHEAD at issue only, and from an object that holds no poison (R323). -/
def aheadChk (o : OpWait) (c : Ctx) (s : State) : Option Chk :=
  match s.handle? c.w (c.w.sget o.a.toNat) with
  | none => none
  | some ho => match c.stall? with
    | some (.wait _ _ _ _) => none
    | _ =>
      if !c.w.owes ho.2 && !s.objPoisoned ho.2 && 9 ≤ s.distance ho.2 (tokenOf o c)
      then some { fault := .phaseAhead, step := 18, lane := c.low, addr := c.w.sget o.a.toNat } else none

/-- e of R146: the distance at issue, or what the stalled WAIT has counted. -/
def State.waitE (s : State) (o : OpWait) (c : Ctx) (r : ObjRef) : Nat :=
  match c.stall? with
  | some (.wait _ _ e _) => e
  | _ => s.distance r (tokenOf o c)

/-- The WAIT is blocked on its object. -/
def Ctx.blocked (c : Ctx) : Bool :=
  match c.stall? with
  | some (.wait _ _ _ b) => b
  | _ => false

def holdWait (o : OpWait) (c : Ctx) (s : State) : Option State :=
  match s.handle? c.w (c.w.sget o.a.toNat) with
  | none => none
  | some ho =>
    let keep := StallKind.wait ho.2 (tokenOf o c) (s.waitE o c ho.2)
    if s.objPoisoned ho.2 then some (s.endUsers ho.2 (c.w.sget o.a.toNat))
    else if c.w.owes ho.2 && !c.again then some (s.stall c (.own ho.2))
    else if fenceBusy c s then some (s.stall c (keep false))
    else if !c.w.pend.isEmpty then some ((s.stall c (keep false)).imprecise c)
    else if c.blocked || s.waitE o c ho.2 = 0 then some (s.stall c (keep true))
    else none

/-- What a return acquires: the carried sets of the phases completed since the token (R223). -/
def State.acquireObj (s : State) (uid : Nat) (r : ObjRef) (e : Nat) : State :=
  s.onWave uid (fun w => { w with observed := unionNew w.observed (s.pastOf r e) })

/-- BARRIER_OVERFLOW: the WAIT has taken its effect and the wave stands after it (R146, R214). -/
def State.overflowed (s : State) (c : Ctx) (handle : W64) : State :=
  let r := s.faultRec c.w .barrierOverflow 1 0 c.low c.pc c.pc (laneMask c.act) handle 0
  (s.deliver c.w.launch r).takeFault c.w
    { fault := .barrierOverflow, pc := c.pc, base := c.base, lanes := laneMask c.set_, skip := 0, after := true, imprecise := true } r

def effWait (o : OpWait) (c : Ctx) (_ : Handle) (r : ObjRef) (s : State) : State :=
  let e := s.waitE o c r
  let s := (s.onWave c.w.uid (c.putP o.d (fun _ => 2 ≤ e))).acquireObj c.w.uid r e
  match s.obj? r with
  | none => s
  | some b => if e = 1 && b.lovf then s.overflowed c (c.w.sget o.a.toNat) else s

def execWait (o : OpWait) (s : State) : Out :=
  runWord (.wait o)
    (fun c s => chkBoth (uniformB o.b o.len c) (chkBoth (handleChk o.a c s) (aheadChk o c s)))
    (holdWait o) (fun c => withObj o.a (effWait o c) c) s

/-! ## BTEST and BPHASE (R147) -/

/-- A poisoned object ends its launches (R323); else the read waits for what the wave itself owes the object. -/
def holdOwn (a : BitVec 6) (c : Ctx) (s : State) : Option State :=
  match s.handle? c.w (c.w.sget a.toNat) with
  | none => none
  | some ho => if s.objPoisoned ho.2 then some (s.endUsers ho.2 (c.w.sget a.toNat)) else if c.acquiring || c.w.owes ho.2 then some (s.stall c (.own ho.2)) else none

def effBtest (o : OpWait) (c : Ctx) (_ : Handle) (r : ObjRef) (s : State) : State :=
  let d := s.distance r (tokenOf o c)
  let yes := 1 ≤ d && d ≤ 8
  let s := s.onWave c.w.uid (c.putP o.d (fun _ => yes))
  if yes then s.acquireObj c.w.uid r d else s

def execBtest (o : OpWait) (s : State) : Out :=
  runWord (.btest o) (fun c s => chkBoth (uniformB o.b o.len c) (handleChk o.a c s)) (holdOwn o.a)
    (fun c => withObj o.a (effBtest o c) c) s

/-- The snapshot that BPHASE writes. -/
def barSnapshot (b : BarObj) : W64 :=
  BitVec.ofNat 64 (b.phase + (if b.lovf then 2 ^ 4 else 0) + (if b.ovf then 2 ^ 5 else 0) + b.penA * 2 ^ 16
    + (BitVec.ofInt 32 b.penB).toNat * 2 ^ 32)

def execBphase (o : OpBphase) (s : State) : Out :=
  runWord (.bphase o) (handleChk o.a) (holdOwn o.a)
    (fun c => withObj o.a (fun _ r s => match s.obj? r with
      | none => s
      | some b => s.onWave c.w.uid (fun w => w.sset o.d.toNat (barSnapshot b))) c) s

end Sys2Proof.Machine
end

