-- ==== Sys2Proof/Machine/Order.lean ====
section
/-! DEFINITION. Machine/Order.lean: the steps of the ordering machine (R221, R222) and what goes with them: MISS_RETRY, LOAD_DATA_RETURN, ACCEPT, REVEAL, SEND, PERFORM, INVAL, FILL, READ, ATOMIC, EVENT and XLATE_RETRY_RESEND. Each has a condition and an effect. -/

namespace Sys2Proof.Machine

/-- An event takes its effect where its condition holds; otherwise the device takes no such step (log entry 10). -/
def runEvent (name : String) (ok : Bool) (t : State) : Out := if ok then .next t else .refused (.notEnabled name)

/-! ## Accesses of the issue lists -/

def State.acc? (s : State) (r : AccRef) : Option (Wave × Entry × Acc) :=
  match s.wave? r.wave with
  | none => none
  | some w => match w.entries.find? (fun e => e.id == r.entry) with
    | none => none
    | some e => match e.accs.find? (fun a => a.lane == r.lane) with
      | none => none
      | some a => some (w, e, a)

def Wave.onEntry (w : Wave) (id : Nat) (f : Entry → Entry) : Wave :=
  { w with entries := updBy (fun e => e.id == id) f w.entries }

def Entry.onAcc (e : Entry) (lane : Nat) (f : Acc → Acc) : Entry :=
  { e with accs := updBy (fun a => a.lane == lane) f e.accs }

def State.onAcc (s : State) (r : AccRef) (f : Acc → Acc) : State :=
  s.onWave r.wave (fun w => w.onEntry r.entry (fun e => e.onAcc r.lane f))

/-- The operation has taken its step: an event has reached its object, a CLAIM has been answered when it leaves the list. -/
def Entry.stepped (e : Entry) : Bool := e.kind != .event && e.kind != .claim && e.accs.all Acc.stepped

/-- An entry whose lanes are all done leaves the list with its marks (R58). -/
def Wave.closeEntry (w : Wave) (id : Nat) : Wave :=
  match w.entries.find? (fun e => e.id == id) with
  | none => w
  | some e =>
    if e.accs.all (fun a => a.st == .done) && e.answers.isEmpty then
      { w.closed id with entries := w.entries.filter (fun x => x.id != id) }
    else w

/-! ## R222 -/

/-- Whether two accesses touch a common byte (R126). -/
def Acc.meets (a b : Acc) : Bool :=
  a.scratch == b.scratch
    && ((a.ea.toNat < b.ea.toNat + b.nbytes && b.ea.toNat < a.ea.toNat + a.nbytes)
        || a.at_.any (fun x => b.at_.any (fun y => x.pa == y.pa && x.peer == y.peer)))

/-- The entries before one in program order. -/
def Wave.before (w : Wave) (id : Nat) : List Entry := w.entries.takeWhile (fun e => e.id != id)

/-- A FENCE or another acquire that issued before an entry stands: every later operation waits for it (R222, R135). -/
def Wave.fenced (w : Wave) (id : Nat) : Bool := w.stalls.any (fun x => x.acquires && x.upto ≤ id)

/-- An instruction that issued before an entry stands and has yet to take its step: a release waits for it (R222). -/
def Wave.behind (w : Wave) (id : Nat) : Bool := w.stalls.any (fun x => x.orders && x.upto ≤ id)

/-- Whether an access may take its step: its die is not held (R334), acquires and fences before it have, a release has met its condition, and no earlier access
to a common byte is left. -/
def State.mayStep (s : State) (w : Wave) (e : Entry) (a : Acc) : Bool :=
  (w.before e.id).all (fun f =>
      (!f.acquire || f.stepped || f.kind == .event) && (f.kind != .claim) && f.accs.all (fun x => x.stepped || !x.meets a))
    && !w.fenced e.id && !(s.die w.loc.die).held
    && (match e.release with
        | none => true
        | some sc => e.carried.isSome
          || ((w.before e.id).all Entry.stepped && !w.behind e.id && s.settledAll w.loc.die w.loc.core sc w.observed))
    && e.accs.all (fun x => a.lane ≤ x.lane || x.stepped || !x.meets a)
    && ((!a.scratch && e.release.isNone) || (s.gridOf w).all (fun g => e.id ≤ g.entry || !storesGrid g.instr))

/-- A release carries what its wave has observed when it first takes a step (R224). -/
def Entry.carry (e : Entry) (w : Wave) : Entry :=
  match e.release, e.carried with
  | some _, none => { e with carried := some w.observed }
  | _, _ => e

/-- A wave observes a write that it has read, and inherits from a release where the read acquires (R223). -/
def State.observe (s : State) (w : Wave) (acquire : Bool) (id : Nat) : Wave :=
  if id = 0 then w
  else
    let w := { w with observed := addNew w.observed id, returned := addNew w.returned id }
    match acquire, s.writeRec? id with
    | true, some r => { w with observed := unionNew w.observed (r.carried.getD []) }
    | _, _ => w

/-- A wave's own write. -/
def Wave.wrote (w : Wave) (pas : List Nat) (id : Nat) : Wave :=
  { w with observed := addNew w.observed id, floors := pas.foldl (fun m pa => mapSet 0 m pa id) w.floors }

/-! ## Faults at data -/

def instrLen (i : Instr) : Nat :=
  match i.raw with
  | none => 0
  | some r => r.len.bytes

def Entry.ctx (e : Entry) (w : Wave) : Ctx where
  w := w
  pc := e.pc
  base := e.base
  set_ := maskLanes e.set_
  act := maskLanes e.active
  len := instrLen e.instr
  instr := e.instr

/-- A set that has issued an access stands at it again where it has not gone on: continued, it goes on from there; stepped,
it passes the access in any case. A set of which a miss holds lanes back stands there as it is. -/
def Entry.stand (e : Entry) (w : Wave) (fault : FaultName) : Wave × Park :=
  let len := instrLen e.instr
  let held := w.stalls.any (fun x => match x.kind with
    | .retry id _ _ | .posted id => id == e.id
    | _ => false)
  if held then (w, { fault := fault, pc := e.pc, base := e.base, lanes := e.set_, skip := len, after := false, imprecise := false })
  else
    let ls := (maskLanes e.set_).filter (fun l => match w.fibre? l with
      | none => false
      | some f => f.pc == e.pc + BitVec.ofNat 64 len && f.winbase == e.base)
    (w.onLanes ls (fun f => { f with pc := e.pc }),
      { fault := fault, pc := e.pc, base := e.base, lanes := laneMask ls, skip := len, after := true, imprecise := false })

/-- Lanes not done stop, and wait for lemmel; what an atomic has applied stays. -/
def Entry.stopped (e : Entry) : Entry :=
  { e with accs := e.accs.map (fun a => if a.st == .done || a.st == .unsent || (e.kind == .atomic && a.st == .returned) then a else { a with st := .watched, got := [] }) }

def pendOf (f : FaultName) (e : Entry) (a : Acc) (addr : W64) : PendFault := ⟨f, 2 * e.id, e.pc, e.active, a.lane, addr⟩

def State.launchWorld (s : State) (launch : Nat) : Nat :=
  match s.launch? launch with
  | none => 0
  | some l => l.world

/-- The group of a wave is being discarded (R233 step 1). -/
def State.stopping (s : State) (w : Wave) : Bool :=
  match s.group? w.launch w.group with
  | none => false
  | some g => g.stopping

/-! ## READ (R221, R127 to R129) -/

/-- Whether an access lies within one naturally aligned unit, or is an element or a block (R126): a load takes a whole block, with
its exponent, in one step (DESIGN CHOICE, log entry 109). -/
def Acc.whole (a : Acc) : Bool := a.efmt != 0 || a.ea.toNat % a.nbytes == 0

/-- The bytes that a READ takes next. -/
def Acc.nextBytes (a : Acc) : List ByteAt :=
  let all := a.at_ ++ a.scale.toList
  if a.whole then all else (all.drop a.got.length).take 1

/-- The bytes of a READ that the home is asked for. -/
def State.homeBytes (s : State) (w : Wave) (bs : List ByteAt) : List ByteAt := bs.filter (fun b => (s.readByte w bs b).home)

def atomOf (i : Instr) : AtomOp × Bool × Bool :=
  match i with
  | .atom o => (o.op, o.wide, true)
  | .atoms o => (o.op, o.wide, true)
  | .red o => (o.op, o.wide, false)
  | _ => (.add, false, false)

/-- The virtual address of a byte of an access; for an exponent byte, which has none, that of the access (log entry 87). -/
def Acc.addrOf (a : Acc) (b : ByteAt) : W64 := if b.vpage = 2 ^ 48 then a.ea else BitVec.ofNat 64 b.va

/-- The first poisoned address that a load or a value-returning atomic meets: in the scratchpad, in a copy, or at a home
that answers. -/
def State.poisonOf (s : State) (w : Wave) (e : Entry) (a : Acc) : Option W64 :=
  let atom := e.kind == .atomic
  if a.st != .waiting || (atom && !(atomOf e.instr).2.2) then none
  else if a.scratch then
    match s.group? w.launch w.group with
    | none => none
    | some g => ((span a.ea.toNat a.nbytes).find? (fun o => mapGet false g.spoison (o / 4))).map (BitVec.ofNat 64)
  else
    let bs := (a.at_ ++ a.scale.toList).drop a.got.length
    let asked := fun b : ByteAt => atom || (s.readByte w bs b).home
    if bs.any (fun b => asked b && (b.peer.isSome || s.cut w.loc.die b || (s.die b.home).held
        || (atom && b.home != w.loc.die && !s.frameOwned b))) then none
    else (bs.find? (fun b => if asked b then s.mem.poisoned b.pa else (s.readByte w bs b).poison)).map a.addrOf

/-- The lowest lane of an access that meets poison, with its address (R33). -/
def State.poisonLane (s : State) (w : Wave) (e : Entry) : Option (Nat × W64) :=
  e.accs.findSome? (fun a => (s.poisonOf w e a).map (fun v => (a.lane, v)))

def State.launchStopped (s : State) (launch : Nat) : Bool :=
  match s.launch? launch with
  | none => true
  | some l => l.stopped

/-- A fault at data is raised when the wave's earlier accesses are complete and it does not stand parked; in a launch
that has stopped there is none (R238), and a discard that came first wins (R242). -/
def State.mayPoison (s : State) (w : Wave) (e : Entry) : Bool :=
  s.launchStopped w.launch || (w.parked.isNone && !s.stopping w && (w.before e.id).all (fun f => f.kind == .event || f.kind == .claim))

/-- POISON at a load or a value-returning atomic, at step 22: no lane of a load is written, the lanes that an atomic has
applied stay, and the lanes not done wait for lemmel (R33, R129, R241, log entry 11). -/
def State.poisonData (s : State) (w : Wave) (e : Entry) : State :=
  let p := (s.poisonLane w e).getD (0, 0)
  let t := s.onWave w.uid (fun w => w.onEntry e.id Entry.stopped)
  if s.launchStopped w.launch then t
  else
    let r := s.faultRec w .poison 0 22 p.1 e.pc e.pc e.active p.2 0
    let k := e.stand w .poison
    ((t.onWave w.uid (fun w => (e.stand w .poison).1)).deliver w.launch r).takeFault w k.2 r

def Acc.took (a : Acc) (bytes : List Byte) : Acc :=
  let got := a.got ++ bytes
  let all := if a.scratch then a.nbytes else a.at_.length + a.scale.toList.length
  { a with got := got, st := if all ≤ got.length then .returned else .waiting }

/-- A lane whose peer or home cannot be reached receives zero, and the fault waits for a synchronisation point (R129). -/
def State.unreachable (s : State) (r : AccRef) (e : Entry) (a : Acc) : State :=
  (s.onAcc r (fun a => { a with got := List.replicate (a.at_.length + a.scale.toList.length) 0, st := .returned })).pendOnce
    r.wave (pendOf .remoteUnreachable e a a.ea)

def State.readScratch (s : State) (r : AccRef) (w : Wave) (e : Entry) (a : Acc) : State :=
  match s.group? w.launch w.group with
  | none => s
  | some g =>
    let offs := if a.whole then span a.ea.toNat a.nbytes else [a.ea.toNat + a.got.length]
    let s := s.onAcc r (fun a => a.took (offs.map (fun o => mapGet 0 g.scratch o)))
    s.onWave w.uid (fun w => (offs.map (fun o => mapGet 0 g.wids o)).foldl (fun w id => s.observe w e.acquire id) w)

/-- The homes of some bytes, other than a die. -/
def farHomes (die : Nat) (bs : List ByteAt) : List Nat :=
  unionNew [] ((bs.filter (fun b => b.peer.isNone && b.home != die)).map (·.home))

/-- Loads' responses from other dies are messages of their logs (R333). -/
def State.replied (s : State) (r : AccRef) (w : Wave) (asked : List ByteAt) : State :=
  (farHomes w.loc.die asked).foldl (fun s h =>
    s.sendNow h w.loc.die (.loadReply r ((asked.filter (fun b => b.home == h)).map s.homeByte)) (s.repairs w.launch)) s

/-- The whole lines of some bytes: reads of a home move lines (R316). -/
def lineBytes (bs : List ByteAt) : List ByteAt :=
  (linesOf bs).flatMap (fun hl => match bs.find? (fun b => b.home == hl.1 && lineOf b.pa == hl.2) with
    | none => []
    | some b => List.replicate 128 b)

/-- A message to or from the home of some bytes waits for room in a log (R333). -/
def State.logsFull (s : State) (die : Nat) (bs : List ByteAt) : Bool :=
  (farHomes die bs).any (fun h => s.sendsStalled h die || s.sendsStalled die h)

/-- A READ of global memory: an overlay, a copy, or a home. A byte whose home cannot be asked fails the lane (R129), one
whose home is being repaired is read later (R238). A peer's refusal reaches the wave imprecisely (R285). -/
def State.readGlobal (s : State) (r : AccRef) (w : Wave) (e : Entry) (a : Acc) : State :=
  let bs := a.nextBytes
  let asked := s.homeBytes w bs
  let wd := s.launchWorld w.launch
  let pays := fun s : State => match asked with
    | [] => s
    | b :: _ =>
      ((s.spendMem w.loc.die wd b.home b.peer.isSome (lineBytes asked).length).getD s).countBytes wd w.loc.die
        (if b.peer.isSome then asked else lineBytes asked)
  if asked.any (s.cut w.loc.die) then s.unreachable r e a
  else if asked.any (fun b => b.peer.isNone && (s.die b.home).held) then s.onAcc r (fun a => { a with st := .retry, got := [] })
  else if asked.any (fun b => b.peer.isSome) then
    let n := (pays s).freeNo
    let t := n.2.onAcc r (fun a => a.took (bs.zipIdx.map (fun b => Config.peerByte (n.1 + b.2))))
    if Config.peerRefuses n.1 then t.pendOnce w.uid (pendOf .remoteRefused e a a.ea) else t
  else
    let vals := bs.map (fun b => (b.pa, s.readByte w bs b))
    let s' := ((pays s).replied r w asked).onAcc r (fun a => a.took (vals.map (fun v => v.2.val)))
    s'.onWave w.uid (fun w => vals.foldl (fun w v =>
      { s.observe w e.acquire v.2.writer with floors := mapSet 0 w.floors v.1 v.2.writer }) w)

/-- Whether the bandwidth bucket lets a read of the home pass (R306). -/
def State.readPasses (s : State) (w : Wave) (a : Acc) : Bool :=
  match s.homeBytes w a.nextBytes with
  | [] => true
  | b :: bs => (s.spendMem w.loc.die (s.launchWorld w.launch) b.home b.peer.isSome (lineBytes (b :: bs)).length).isSome

/-- A wave does not read behind its floor: a store that it has read or written, and that is not yet performed, is not to be
found on this core (R220). -/
def State.floorWaits (s : State) (w : Wave) (a : Acc) : Bool :=
  !a.scratch && a.nextBytes.any (fun b => b.peer.isNone && s.floorAway w b)

def State.canRead (s : State) (r : AccRef) : Bool :=
  match s.acc? r with
  | none => false
  | some (w, e, a) => e.kind == .load && a.st == .waiting && s.mayStep w e a
    && (a.scratch || (s.readPasses w a && !s.logsFull w.loc.die (s.homeBytes w a.nextBytes)))
    && !s.floorWaits w a && ((s.poisonOf w e a).isNone || s.mayPoison w e)

def State.doRead (s : State) (r : AccRef) : State :=
  match s.acc? r with
  | none => s
  | some (w, e, a) =>
    if (s.poisonOf w e a).isSome then s.poisonData w e
    else if a.scratch then s.readScratch r w e a
    else s.readGlobal r w e a

/-- The places of an access. -/
def State.accPlaces (s : State) (r : AccRef) : List ByteAt :=
  match s.acc? r with
  | none => []
  | some (_, _, a) => a.at_ ++ a.scale.toList

/-- The homes on other dies that an access asks admit it now: on a deterministic die it is an input of a round boundary (R330). -/
def State.asksNow (s : State) (r : AccRef) : Bool :=
  match s.acc? r with
  | none => false
  | some (w, e, a) =>
    (farHomes w.loc.die (if a.scratch then [] else if e.kind == .atomic then a.at_ else s.homeBytes w a.nextBytes)).all s.admits

def execRead (r : AccRef) (s : State) : Out :=
  guardHole (s.accPlaces r) (runEvent "READ" (s.canRead r && s.asksNow r) (s.doRead r))

/-! ## LOAD_DATA_RETURN (R127, R128) -/

/-- The value that a load delivers from the bytes it read; LDU extends by TYPE, .i32 by the sign and .b32 by zeros (R127, R21; DEDUCED,
log entry 104). -/
def loadValue (ty : MemTy) (a : Acc) : W64 :=
  match ty with
  | .int t => intExtend t (leNat a.got)
  | .flt f => match blockBits a.efmt with
    | some b =>
      let bytes := a.got.take (4 * b)
      BitVec.ofNat 64 (blockElem b (leNat (a.got.drop (4 * b))) (mantOf b (leNat bytes) (a.lane % 32)))
    | none => match fmtOfEfmt a.efmt with
      | none => BitVec.ofNat 64 (leNat a.got)
      | some g => if g = f then BitVec.ofNat 64 (leNat a.got) else BitVec.ofNat 64 (fConvert f g .rne (leNat a.got)).1

/-- The scalar register that an access of entry id writes; one issued before the region began writes its checkpoint too. -/
def Wave.landScalar (w : Wave) (id d : Nat) (v : W64) : Wave :=
  let w := w.sset d v
  if id < w.checkpoint.upto then { w with checkpoint := { w.checkpoint with sregs := mapSet 0 w.checkpoint.sregs d v } } else w

/-- Writes a lane's data to its destination. -/
def Wave.deliver (w : Wave) (e : Entry) (a : Acc) : Wave :=
  let vec := fun (d : BitVec 7) wide v => w.landVset e.id (e.base + d.toNat) wide [a.lane] (fun _ => v)
  match e.instr with
  | .ld o => vec o.d o.ty.wide (loadValue o.ty a)
  | .lds o => vec o.d o.ty.wide (loadValue o.ty a)
  | .ldu o => w.landScalar e.id o.d.toNat (loadValue o.ty a)
  | .atom o => vec o.d o.wide (BitVec.ofNat 64 (leNat a.got))
  | .atoms o => vec o.d o.wide (BitVec.ofNat 64 (leNat a.got))
  | _ => w

/-- No lane of a load writes its destination while another has yet to read (R129). An atomic's answer comes so where it waits for a
round boundary (R330). -/
def State.canReturn (s : State) (r : AccRef) : Bool :=
  match s.acc? r with
  | none => false
  | some (w, e, a) => a.st == .returned && !(s.die w.loc.die).held
    && (e.kind == .atomic || (e.kind == .load && e.accs.all (fun x => x.st != .waiting && x.st != .unsent)))

def Wave.doneAcc (w : Wave) (r : AccRef) (a : Acc) : Wave :=
  ((w.onEntry r.entry (fun e => e.onAcc a.lane (fun a => { a with st := .done }))).closeEntry r.entry)

def State.doReturn (s : State) (r : AccRef) : State :=
  match s.acc? r with
  | none => s
  | some (_, e, a) => s.onLanding r.wave (fun w => (w.deliver e a).doneAcc r a)

/-- On a deterministic die the data of global memory is admitted at a round boundary (R330). -/
def State.returnsNow (s : State) (r : AccRef) : Bool :=
  match s.acc? r with
  | none => false
  | some (w, _, a) => a.scratch || s.admits w.loc.die

def execLoadDataReturn (r : AccRef) (s : State) : Out :=
  runEvent "LOAD_DATA_RETURN" (s.canReturn r && s.returnsNow r) (s.doReturn r)

/-! ## ACCEPT (R130, R221) -/

/-- The stores of an accepted lane: one for an aligned access, one for each byte of another (R126). -/
def Acc.pieces (a : Acc) : List (List (ByteAt × Byte)) :=
  let cells := a.at_.zip (leBytes a.nbytes a.data)
  if a.whole then [cells] else cells.map (fun c => [c])

def localPas (cells : List (ByteAt × Byte)) : List Nat :=
  cells.filterMap (fun c => if c.1.peer.isNone then some c.1.pa else none)

def State.acceptGlobal (s : State) (r : AccRef) (w : Wave) (e : Entry) (a : Acc) : State :=
  let whole := localPas (a.at_.zip (leBytes a.nbytes a.data))
  a.pieces.foldl (fun s cells =>
    let pas := localPas cells
    let n := s.newWrite pas e.carried
    let ov : OvEntry := {
      id := n.1, wave := w.uid, launch := w.launch, entry := e.id, lane := a.lane, die := w.loc.die, core := w.loc.core
      pc := e.pc, active := e.active, va := a.ea, cells := cells, whole := whole, revealed := [w.uid], sent := false
      source := w.source }
    let s := { n.2 with ord := { n.2.ord with overlay := n.2.ord.overlay ++ [ov] } }
    s.onWave r.wave (fun w => w.wrote pas n.1)) s

/-- The scratchpad bytes that a store lane takes at its next step, with their offsets: all, or one of an unaligned access
(R126). got counts those before. -/
def Acc.nextStores (a : Acc) : List (Nat × Byte) :=
  let all := (span a.ea.toNat a.nbytes).zip (leBytes a.nbytes a.data)
  if a.whole then all else (all.drop a.got.length).take 1

/-- A scratchpad lane that covers only part of a poisoned word is not performed (R324). -/
def partPoisoned (g : Group) (offs : List Nat) : Bool :=
  offs.any (fun o => mapGet false g.spoison (o / 4) && !((List.range 4).all (fun k => offs.contains (o / 4 * 4 + k))))

/-- A scratchpad lane: its bytes at once where it is aligned, one by one where it is not. -/
def State.acceptScratch (s : State) (r : AccRef) (w : Wave) (e : Entry) (a : Acc) : State :=
  let over_ := fun s : State => s.onWave r.wave (fun w => w.doneAcc r a)
  match s.group? w.launch w.group with
  | none => over_ s
  | some g =>
    if partPoisoned g (span a.ea.toNat a.nbytes)
    then over_ ((s.logSource w.loc.die 5 0 w.source e.pc).pendOnce w.uid (pendOf .poison e a a.ea))
    else
      let cells := a.nextStores
      let n := s.newWrite [] e.carried
      let s := n.2.onGroup w.launch w.group (fun g => { g with
        scratch := cells.foldl (fun m c => mapSet 0 m c.1 c.2) g.scratch
        wids := cells.foldl (fun m c => mapSet 0 m c.1 n.1) g.wids
        spoison := cells.foldl (fun m c => mapSet false m (c.1 / 4) false) g.spoison })
      let s := s.onWave r.wave (fun w => w.wrote [] n.1)
      if a.nbytes ≤ a.got.length + cells.length then over_ s
      else s.onAcc r (fun a => { a with got := a.got ++ cells.map (·.2) })

def State.canAccept (s : State) (r : AccRef) : Bool :=
  match s.acc? r with
  | none => false
  | some (w, e, a) => e.kind == .store && a.st == .waiting && s.mayStep w e a

def State.doAccept (s : State) (r : AccRef) : State :=
  match s.acc? r with
  | none => s
  | some (w, e, a) =>
    let e := e.carry w
    let s := s.onWave r.wave (fun w => w.onEntry r.entry (fun _ => e))
    if a.scratch then s.acceptScratch r w e a
    else (s.acceptGlobal r w e a).onWave r.wave (fun w => w.doneAcc r a)

def execAccept (r : AccRef) (s : State) : Out := runEvent "ACCEPT" (s.canAccept r) (s.doAccept r)

/-! ## REVEAL, SEND, PERFORM -/

def State.ov? (s : State) (id : Nat) : Option OvEntry := s.ord.overlay.find? (fun e => e.id == id)

def OvEntry.meets (a b : OvEntry) : Bool :=
  a.die == b.die && a.core == b.core && a.cells.any (fun x => b.cells.any (fun y => x.1.pa == y.1.pa && x.1.peer == y.1.peer))

/-- The earlier entries of one overlay for a store's location. -/
def State.earlierOv (s : State) (e : OvEntry) : List OvEntry :=
  (s.ord.overlay.takeWhile (fun x => x.id != e.id)).filter (fun x => x.meets e)

def State.onOv (s : State) (id : Nat) (f : OvEntry → OvEntry) : State :=
  { s with ord := { s.ord with overlay := updBy (fun e => e.id == id) f s.ord.overlay } }

def State.dropOv (s : State) (id : Nat) : State :=
  { s with ord := { s.ord with overlay := s.ord.overlay.filter (fun e => e.id != id) } }

def State.canReveal (s : State) (store wave : Nat) : Bool :=
  match s.ov? store with
  | none => false
  | some e => (s.onCore e.die e.core).contains wave && !e.revealed.contains wave && !(s.die e.die).held
    && (s.earlierOv e).all (fun x => x.revealed.contains wave)

def execReveal (store wave : Nat) (s : State) : Out :=
  runEvent "REVEAL" (s.canReveal store wave) (s.onOv store (fun e => { e with revealed := e.revealed ++ [wave] }))

/-- The home of a store, and the package where that is another. -/
def OvEntry.home (e : OvEntry) : Nat × Option Nat :=
  match e.cells with
  | [] => (e.die, none)
  | c :: _ => (c.1.home, c.1.peer)

def OvEntry.pend (e : OvEntry) (f : FaultName) : PendFault := ⟨f, 2 * e.entry, e.pc, e.active, e.lane, e.va⟩

/-- What a store to another die, or to a peer, takes at its core's port (R306). -/
def State.sendPasses (s : State) (e : OvEntry) : Option State :=
  s.spendMem e.die (s.launchWorld e.launch) e.home.1 e.home.2.isSome e.cells.length

def State.canSend (s : State) (store : Nat) : Bool :=
  match s.ov? store with
  | none => false
  | some e => !e.sent && !(s.die e.die).held && ((e.home).1 != e.die || e.home.2.isSome) && (s.earlierOv e).all (fun x => x.sent)
    && !s.sendsStalled e.die e.home.1 && (s.sendPasses e).isSome

/-- A store that fails on its way leaves the location as it is, and settles (R220, R224; DEDUCED, log entry 106). -/
def State.failStore (s : State) (e : OvEntry) (f : FaultName) : State :=
  let s := (s.dropOv e.id).pendOnce e.wave (e.pend f)
  { s with ord := { s.ord with
    nextStamp := s.ord.nextStamp + 1
    writes := updBy (fun r => r.id == e.id) (fun r => { r with cells := [], stamp := s.ord.nextStamp }) s.ord.writes } }

/-- SEND: onto the channel to the home die. A store to a peer leaves the package, and the peer may refuse it (R285); one that
no route serves fails. -/
def State.doSend (s : State) (store : Nat) : State :=
  match s.ov? store with
  | none => s
  | some e =>
    let paid := (s.sendPasses e).getD s
    match e.home.2 with
    | some p =>
      if s.peerDown p then paid.failStore e .remoteUnreachable
      else
        let n := (paid.countBytes (s.launchWorld e.launch) e.die (e.cells.map (·.1))).freeNo
        if Config.peerRefuses n.1 then n.2.failStore e .remoteRefused else n.2.dropOv store
    | none =>
      if s.reachable e.die e.home.1 then
        (paid.onOv store (fun e => { e with sent := true })).post ⟨e.die, e.home.1, 0⟩ (.store store) (s.repairs e.launch)
      else paid.failStore e .remoteUnreachable

def execSend (store : Nat) (s : State) : Out := runEvent "SEND" (s.canSend store) (s.doSend store)

/-- The store's message heads its channel. -/
def State.atHome (s : State) (e : OvEntry) : Bool :=
  e.sent && s.headMsg? ⟨e.die, e.home.1, 0⟩ == some (.store e.id)

def State.performPasses (s : State) (e : OvEntry) : Option State :=
  s.spend (s.partOf e.die) (s.launchWorld e.launch) .mem e.cells.length

def State.canPerform (s : State) (store : Nat) : Bool :=
  match s.ov? store with
  | none => false
  | some e => e.home.2.isNone && !(s.die e.home.1).held && !s.invalsStalled (e.cells.map (·.1))
    && ((e.home.1 == e.die && (s.earlierOv e).isEmpty && (s.performPasses e).isSome) || s.atHome e)

/-- A write that takes its step without changing the home value (R324, R326). -/
def State.performNone (s : State) (cells : List ByteAt) (wid : Nat) (by_ : Option Nat) : State :=
  let s : State := { s with ord := { s.ord with
    nextStamp := s.ord.nextStamp + 1
    writes := updBy (fun r => r.id == wid) (fun r => { r with stamp := s.ord.nextStamp }) s.ord.writes } }
  (linesOf cells).foldl (fun s hl => s.killLine by_ hl) s

/-- An entry of the fault log that names a wave, unless the same failure of its instruction has made one (R326). -/
def State.logOnce (s : State) (die kind addr uid : Nat) (src : Source) (p : PendFault) : State :=
  match s.waveAnywhere? uid with
  | none => s.logSource die kind addr src p.pc
  | some w => if w.pend.any p.same || w.lost.contains (p.fault, p.issue) then s else s.logSource die kind addr src p.pc

/-- A store takes its step at home (R221); a refused remote store (R326) and a partial write over poison (R324) leave the
location as it is. -/
def State.takeEffect (s : State) (e : OvEntry) : State :=
  let places := e.cells.map (·.1)
  let s := (s.dropOv e.id).countBytes (s.launchWorld e.launch) e.die places
  let pas := e.cells.map (fun c => c.1.pa)
  if e.home.1 != e.die && !(e.cells.all (fun c => s.frameOwned c.1)) then
    ((s.logOnce e.home.1 6 e.va.toNat e.wave e.source (e.pend .remoteRefused)).pendOnce e.wave (e.pend .remoteRefused)).performNone places e.id
      (some e.launch)
  else if s.mem.halfPoisoned e.whole then
    let s := if e.whole.head? = pas.head? then s.logSource e.home.1 5 (pas.headD 0) e.source e.pc else s
    (s.pendOnce e.wave (e.pend .poison)).performNone places e.id (some e.launch)
  else s.performBytes e.cells e.id (some e.launch)

/-- PERFORM: a store from another die heads its channel; one of this die passes its core's port. -/
def State.doPerform (s : State) (store : Nat) : State :=
  match s.ov? store with
  | none => s
  | some e => (if e.home.1 != e.die then s.popMsg ⟨e.die, e.home.1, 0⟩ else (s.performPasses e).getD s).takeEffect e

/-- A store from another die is an input of its home die. -/
def State.performsNow (s : State) (store : Nat) : Bool :=
  match s.ov? store with
  | none => false
  | some e => e.home.1 == e.die || s.admits e.home.1

def State.ovPlaces (s : State) (store : Nat) : List ByteAt :=
  match s.ov? store with
  | none => []
  | some e => e.cells.map (·.1)

def execPerform (store : Nat) (s : State) : Out :=
  guardHole (s.ovPlaces store) (runEvent "PERFORM" (s.canPerform store && s.performsNow store) (s.doPerform store))

/-! ## INVAL and FILL -/

def State.canInval (s : State) (c : ChanRef) : Bool :=
  match s.headMsg? c with
  | some (.inval _ _) => !(s.die c.dst).held
  | _ => false

def State.doInval (s : State) (c : ChanRef) : State :=
  match s.headMsg? c with
  | some (.inval line _) => (s.popMsg c).dropCopies (fun x => copyDie x.place == c.dst && x.line == line)
  | _ => s

def execInval (c : ChanRef) (s : State) : Out := runEvent "INVAL" (s.canInval c && s.admits c.dst) (s.doInval c)

/-- The place of an L1's line: the page of the space that it is tagged with maps it (R210). -/
def State.l1Place (s : State) (line die core space vpage : Nat) : Option ByteAt :=
  let va := vpage * 2 ^ 16 + line * 128 % 2 ^ 16
  match s.xlate (coreAgent die core) space va with
  | .page l big _ => if l.tier != 2 && lineOf (l.byteAt big va).pa == line then some (l.byteAt big va) else none
  | _ => none

/-- The world of a space. -/
def State.spaceWorld (s : State) (space : Nat) : Option Nat :=
  (s.worlds.find? (fun w => w.comps.any (fun c => c.space == space))).map (·.id)

/-- A line of a memory window (R278), and a place that may hold it: an L1 with a way for it, under a page that maps it; an
L2, of a line homed elsewhere. Remote lines are held nowhere (R285). -/
def State.fillable (s : State) (line : Nat) (k : CopyAt) : Bool :=
  let pa := line * 128
  inWindow pa
    && (match k with
        | .l1 d c space vpage => d < 8 && c < 36 && s.ways k != 0 && (s.l1Place line d c space vpage).isSome
        | .l2 d => d < 8 && !(pa < 2 ^ 40 && pa / 2 ^ 37 == d))

/-- A core's fill passes its network port and is counted for the world of the space (R306, R316). An L2's own is charged to no world (log
entry 17); it crosses the die links, as activity of its partition (R215). -/
def State.fillPaid (s : State) (line : Nat) (k : CopyAt) : Option State :=
  match k with
  | .l2 d =>
    let home := line * 128 / 2 ^ 37
    some (if line * 128 < 2 ^ 40 && home != d then (s.firing (s.partOf d)).cross home d else s)
  | .l1 d c space vpage => match s.l1Place line d c space vpage, s.spaceWorld space with
    | some b, some w => (s.spendMem d w b.home false 128).map (fun t => t.countBytes w d (List.replicate 128 b))
    | _, _ => some s

def State.canFill (s : State) (line : Nat) (k : CopyAt) : Bool := s.fillable line k && (s.fillPaid line k).isSome

/-- The copy is of the home value as the writes performed so far have left it. -/
def State.doFill (s : State) (line : Nat) (k : CopyAt) : State :=
  let s := ((s.fillPaid line k).getD s).dropCopies (fun x => x.place == k && x.line == line)
  let s : State := { s with ord := { s.ord with copies := s.ord.copies ++ [⟨k, line, s.ord.nextStamp - 1, s.lineNow line⟩] } }
  s.resizeL1

def execFill (line : Nat) (k : CopyAt) (s : State) : Out := runEvent "FILL" (s.canFill line k) (s.doFill line k)

/-! ## ATOMIC (R133, R134) -/

/-- The value that an atomic writes. -/
def atomNew (op : AtomOp) (wide : Bool) (x c cmp : Nat) : Nat :=
  let s := if wide then IntTy.i64 else IntTy.i32
  let u := if wide then IntTy.b64 else IntTy.b32
  let X := BitVec.ofNat 64 x
  let C := BitVec.ofNat 64 c
  let out := fun v : W64 => v.toNat % 2 ^ (8 * atomBytes wide)
  match op with
  | .add => out (intAdd u false X C)
  | .minS => out (intMinOf s X C)
  | .maxS => out (intMaxOf s X C)
  | .minU => out (intMinOf u X C)
  | .maxU => out (intMaxOf u X C)
  | .and => out (intAnd u X C)
  | .or => out (intOr u X C)
  | .xor => out (intXor u X C)
  | .exch => c
  | .cas => if x = cmp then c else x
  | .fadd => (fAdd .f32 .rne x c).1

/-- No overlay entry for the location remains on any core. -/
def State.noOverlay (s : State) (a : Acc) : Bool :=
  s.ord.overlay.all (fun e => !(e.cells.any (fun c => a.at_.any (fun b => b.pa == c.1.pa && b.peer == c.1.peer))))

def State.atomPasses (s : State) (w : Wave) (a : Acc) : Option State :=
  match a.at_ with
  | [] => some s
  | b :: _ => s.spendMem w.loc.die (s.launchWorld w.launch) b.home b.peer.isSome a.nbytes

/-- Lanes take their steps in any order but that of a common byte (R224); beside a poisoned lane, those before it are
applied and those above it are not (R33). -/
def State.canAtomic (s : State) (r : AccRef) : Bool :=
  match s.acc? r with
  | none => false
  | some (w, e, a) => e.kind == .atomic && a.st == .waiting && s.mayStep w e a
    && (a.scratch || (s.noOverlay a && (s.atomPasses w a).isSome && !s.logsFull w.loc.die (a.at_.take 1) && !s.invalsStalled a.at_))
    && (match s.poisonLane w e with
      | none => true
      | some p => a.lane < p.1
          || (a.lane == p.1 && s.mayPoison w e && e.accs.all (fun x => a.lane ≤ x.lane || x.st == .done)))

/-- The lane is done; ATOM and ATOMS deliver the old value: on a deterministic die, from memory, at the next round boundary (R330). -/
def State.atomDone (s : State) (r : AccRef) (e : Entry) (a : Acc) (old : List Byte) : State :=
  match s.wave? r.wave with
  | none => s
  | some w =>
    if a.scratch || s.admits w.loc.die then s.onLanding r.wave (fun w => (w.deliver e { a with got := old }).doneAcc r a)
    else s.onAcc r (fun a => { a with got := old, st := .returned })

def State.atomScratch (s : State) (r : AccRef) (w : Wave) (e : Entry) (a : Acc) : State :=
  match s.group? w.launch w.group with
  | none => s
  | some g =>
    let offs := span a.ea.toNat a.nbytes
    let old := offs.map (fun o => mapGet 0 g.scratch o)
    let y := atomNew (atomOf e.instr).1 (atomOf e.instr).2.1 (leNat old) a.data a.cmp
    let n := s.newWrite [] e.carried
    let s := n.2.onGroup w.launch w.group (fun g => { g with
      scratch := mapSetRun 0 g.scratch a.ea.toNat (leBytes a.nbytes y)
      wids := offs.foldl (fun m o => mapSet 0 m o n.1) g.wids })
    let s := s.onWave w.uid (fun w =>
      ((offs.map (fun o => mapGet 0 g.wids o)).foldl (fun w id => s.observe w e.acquire id) w).wrote [] n.1)
    s.atomDone r e a old

def State.atomGlobal (s : State) (r : AccRef) (w : Wave) (e : Entry) (a : Acc) : State :=
  match a.at_ with
  | [] => s
  | b :: _ =>
    let pas := a.at_.map (·.pa)
    let wd := s.launchWorld w.launch
    let paid := ((s.atomPasses w a).getD s).countBytes wd w.loc.die a.at_
    let open_ := fun n => (List.range a.nbytes).map (fun i => Config.peerByte (n + i))
    let refused := pendOf .remoteRefused e a a.ea
    if s.cut w.loc.die b then (s.atomDone r e a (List.replicate a.nbytes 0)).pendOnce w.uid (pendOf .remoteUnreachable e a a.ea)
    else if b.peer.isSome then
      let n := paid.freeNo
      let t := n.2.atomDone r e a (open_ n.1)
      if Config.peerRefuses n.1 then t.pendOnce w.uid refused else t
    else if (s.die b.home).held then s.onAcc r (fun a => { a with st := .retry })
    else if b.home != w.loc.die && !s.frameOwned b then
      let n := (paid.logOnce b.home 6 a.ea.toNat w.uid w.source refused).freeNo
      (n.2.atomDone r e a (open_ n.1)).pendOnce w.uid refused
    else if pas.any s.mem.poisoned then (paid.atomDone r e a []).pendOnce w.uid (pendOf .poison e a a.ea)
    else
      let old := a.at_.map s.homeByte
      let y := atomNew (atomOf e.instr).1 (atomOf e.instr).2.1 (leNat old) a.data a.cmp
      let readIds := pas.map (fun pa => mapGet 0 s.mem.writer pa)
      let rep := s.repairs w.launch
      let sent := (paid.sendNow w.loc.die b.home (.atomic r) rep).sendNow b.home w.loc.die (.atomicReply r old) rep
      let n := sent.newWrite pas e.carried
      let s := n.2.performBytes (a.at_.zip (leBytes a.nbytes y)) n.1 (some w.launch)
      let s := s.onWave w.uid (fun w => (readIds.foldl (fun w id => s.observe w e.acquire id) w).wrote pas n.1)
      s.atomDone r e a old

def State.doAtomic (s : State) (r : AccRef) : State :=
  match s.acc? r with
  | none => s
  | some (w, e, a) =>
    let e := e.carry w
    let s := s.onWave r.wave (fun w => w.onEntry r.entry (fun _ => e))
    if (s.poisonOf w e a).isSome then s.poisonData w e
    else if a.scratch then s.atomScratch r w e a else s.atomGlobal r w e a

def execAtomic (r : AccRef) (s : State) : Out := guardHole (s.accPlaces r) (runEvent "ATOMIC" (s.canAtomic r && s.asksNow r) (s.doAtomic r))

/-! ## EVENT (R142) -/

def State.canEvent (s : State) (c : ChanRef) : Bool :=
  match s.headMsg? c with
  | some (.event _ _ _) => !(s.die c.dst).held
  | _ => false

/-- The handle of a network object, for records. -/
def handleBits (o : ObjRef) : W64 :=
  match o with
  | .core _ _ off => BitVec.ofNat 64 (off / 16 * 2 ^ 8 + 1)
  | .net .quad _ i => BitVec.ofNat 64 (i * 2 ^ 8 + 2)
  | .net .die d i => BitVec.ofNat 64 (d * 2 ^ 51 + i * 2 ^ 8 + 3)
  | .net .pkg _ i => BitVec.ofNat 64 (i * 2 ^ 8 + 4)
  | .net _ p i => BitVec.ofNat 64 (p * 2 ^ 54 + i * 2 ^ 8 + 5)

/-- A counted piece leaves; with its last piece the request is complete, and a group that had ended before it goes with the last that
names it. -/
def State.dropPiece (s : State) (req piece : Nat) : State :=
  match s.req? req with
  | none => s
  | some q =>
    let s := s.onReq req (fun r => { r with pieces := r.pieces.filter (fun p => p.id != piece) })
    State.reap { s with reqs := s.reqs.filter (fun r => !(r.id == req && r.pieces.isEmpty)) } q.launch

/-- An event that crosses die boundaries for a world counts its payload there (R316); how many bytes it is the manual does not say
(DESIGN CHOICE, log entry 125). -/
def State.eventMoved (s : State) (c : ChanRef) (m : Msg) : State :=
  match (s.msgLaunch m).bind s.launch? with
  | none => s
  | some l => s.count l.world 7 (s.hops c.src c.dst * Config.eventBytes)

/-- The event takes effect, and who posted it learns that it has been counted. -/
def State.doEvent (s : State) (c : ChanRef) : State :=
  match s.headMsg? c with
  | some (.event o op by_) =>
    let s := if c.src = c.dst then s else s.eventMoved c (.event o op by_)
    let s := (s.popMsg c).applyEvent o op (handleBits o)
    match by_ with
    | none => s
    | some (.piece req piece) => s.dropPiece req piece
    | some (.wave u id) =>
      let s := match op, s.wave? u with
        | .arrive _, some w => s.noteTrigger w.launch o
        | _, _ => s
      s.onWave u (fun w => { w with entries := w.entries.filter (fun e => e.id != id) })
  | _ => s

/-- Events inside a die are its own. -/
def execEvent (c : ChanRef) (s : State) : Out :=
  runEvent "EVENT" (s.canEvent c && (c.src == c.dst || s.admits c.dst)) (s.doEvent c)

/-! ## MISS_RETRY (R62) -/

def Wave.retryAt (w : Wave) (pc : W64) : Option (Stall × Nat × Nat × Nat) :=
  w.stalls.findSome? (fun x => match x.kind with
    | .retry e n order => if x.pc = pc then some (x, e, n, order) else none
    | _ => none)

/-- A set whose engine had no room is presented again by being issued again (R153). -/
def Wave.engineAt (w : Wave) (pc : W64) : Bool := w.stalls.any (fun x => x.kind == .engine false && x.pc == pc)
def Wave.readyEngine (w : Wave) (pc : W64) : Wave :=
  { w with stalls := updBy (fun x => x.kind == .engine false && x.pc == pc) (fun x => { x with kind := .engine true }) w.stalls }

/-- An atomic that has sent a lane and is not wholly done is kept by a discard (R233). -/
def Entry.kept (e : Entry) : Bool := e.kind == .atomic && e.accs.any (fun a => a.st != .unsent)

/-- A set that stands at a kept instruction: an atomic, or a REMIT of which lemmel's arming has let some lanes through. -/
def Wave.keepsStall (w : Wave) (x : Stall) : Bool :=
  match x.kind with
  | .retry id _ _ | .posted id => w.entries.any (fun e => e.id == id && e.kept)
  | .armed m _ => m != 0 && (match x.instr with
    | .remit _ => true
    | _ => false)
  | _ => false

def Wave.keeps (w : Wave) : Bool := w.entries.any Entry.kept || w.stalls.any w.keepsStall

/-- The stalled MIGRATE of a wave: its set, the die it asks and its place in that die's order. -/
def Wave.asking (w : Wave) : Option (Stall × Nat × Nat × Nat) :=
  w.stalls.findSome? (fun x => match x.kind with
    | .migrate d sl n => some (x, d, sl, n)
    | _ => none)

/-- A discard saves the wave as it stands (R233, R237): every issued instruction but the kept one completes. -/
def Wave.asStands (w : Wave) : Bool := w.keeps || w.asking.isSome

/-- Issue has stopped in the wave's launch (R241 End). -/
def State.ended (s : State) (w : Wave) : Bool :=
  match s.launch? w.launch with
  | none => false
  | some l => l.stopped

/-- Some lane of an entry that waits to be sent is not held by an armed discard (R243). -/
def State.mayBeSent (s : State) (w : Wave) (x : Stall) (id : Nat) : Bool :=
  match s.splitAt w x.pc x.base x.lanes with
  | none => true
  | some m => w.entries.any (fun e => e.id == id && e.accs.any (fun a => a.st == .unsent && a.lane < m))

def State.canMissRetry (s : State) (wave : Nat) (pc : W64) : Bool :=
  match s.wave? wave with
  | none => false
  | some w => (w.parked.isNone || s.ended w) && (match w.retryAt pc with
    | none => w.engineAt pc && !s.stopping w
    | some x => s.mayBeSent w x.1 x.2.1 && (!s.stopping w || (w.asStands && !w.keepsStall x.1)))

/-- Sends the first n unsent lanes below a lane. -/
def sendMore (below n : Nat) : List Acc → List Acc
  | [] => []
  | a :: as =>
    if a.st = .unsent && a.lane < below then
      match n with
      | 0 => a :: sendMore below 0 as
      | k + 1 => { a with st := .waiting } :: sendMore below k as
    else a :: sendMore below n as

/-- The instruction is presented again: n counts its rejections. By its 64th retry it is wholly accepted, and retires then,
but for an atomic, which waits for its lanes. -/
def State.doMissRetry (s : State) (wave : Nat) (pc : W64) : State :=
  match s.wave? wave with
  | none => s
  | some w => match w.retryAt pc with
    | none => s.setWave (w.readyEngine pc)
    | some (x, eid, n, order) => match w.entries.find? (fun e => e.id == eid) with
      | none => s
      | some e =>
        let free := if 64 ≤ n then 64 else s.missFree w.loc.die w.loc.core (some order)
        let below := (s.splitAt w x.pc x.base x.lanes).getD 64
        let accs := sendMore below free e.accs
        let w' := w.onEntry eid (fun e => { e with accs := accs })
        let become := fun k => s.setWave { w' with stalls := updBy (fun y => y == x) (fun y => { y with kind := k }) w'.stalls }
        if accs.any (fun a => a.st == .unsent) then become (.retry eid (n + 1) order)
        else if retiresLate e.instr then become (.posted eid)
        else
          let c := e.ctx w'
          (s.setWave (c.passed w')).retire e.instr c

def execMissRetry (wave : Nat) (pc : W64) (s : State) : Out :=
  runEvent "MISS_RETRY" (s.canMissRetry wave pc) (s.doMissRetry wave pc)

/-! ## XLATE_RETRY_RESEND (R238, R282, R283) -/

/-- A lane translated afresh. -/
def State.replan (s : State) (w : Wave) (e : Entry) (a : Acc) : Plan :=
  match s.launch? w.launch with
  | none => .error (.lease, a.ea.toNat)
  | some l => match e.instr with
    | .ld o => s.planLoad l w.agent o.ty a.lane a.ea
    | .ldu o => s.planLoad l w.agent o.ty a.lane a.ea
    | .st o => s.planStore l w.agent o.ty a.lane a.ea a.data
    | .stu o => s.planStore l w.agent o.ty a.lane a.ea a.data
    | .atom o => s.planAtom l w.agent o.op o.wide a.lane a.ea a.data a.cmp
    | .red o => s.planAtom l w.agent o.op o.wide a.lane a.ea a.data a.cmp
    | _ => .error (.lease, a.ea.toNat)

/-- Whether a lane that finds no way may fail: it writes, and its page was sealed after it was accepted (R280). -/
def Entry.sealedOut (e : Entry) (d : Deny) : Bool := e.kind != .load && d == .lease

/-- DESIGN CHOICE (log entry 124): such a lane raises LEASE, which reaches its wave as an imprecise fault does; it writes nothing, and an
old value that it delivers is free. -/
def State.lateLease (s : State) (r : AccRef) (e : Entry) (a : Acc) (va : Nat) : State :=
  let s := s.pendOnce r.wave (pendOf .lease e a (BitVec.ofNat 64 va))
  if e.kind == .atomic then
    let n := s.freeNo
    n.2.atomDone r e a ((List.range a.nbytes).map (fun i => Config.peerByte (n.1 + i)))
  else s.onWave r.wave (fun w => w.doneAcc r a)

def State.canResend (s : State) (r : AccRef) : Bool :=
  match s.acc? r with
  | none => false
  | some (w, e, a) => a.st == .retry && (match s.replan w e a with
    | .error d => e.sealedOut d.1
    | .ok b => b.st == .waiting && b.at_.all (fun x => x.peer.isSome || !(s.die x.home).held))

def State.doResend (s : State) (r : AccRef) : State :=
  match s.acc? r with
  | none => s
  | some (w, e, a) => match s.replan w e a with
    | .error d => if e.sealedOut d.1 then s.lateLease r e a d.2 else s
    | .ok b => s.onAcc r (fun _ => b)

def execXlateRetryResend (r : AccRef) (s : State) : Out :=
  runEvent "XLATE_RETRY_RESEND" (s.canResend r) (s.doResend r)

end Sys2Proof.Machine
end

