-- ==== Sys2Proof/Machine/Engine.lean ====
section
/-! DEFINITION. Machine/Engine.lean: the engine instructions 0xA0 to 0xA7 (R149 to R163): their checks (R152), the pieces of a request (R154 to R160, R212), rings (R161 to R163), and the engines' steps ENGINE_READ, ENGINE_LANDING, RING_FREE_WAIT_MET and COLL_START. -/

namespace Sys2Proof.Machine

/-! ## Sides of a request (R151) -/

/-- Where one side of a request lies: what displacement 0 names. A capability side gives its space, base and bounds. -/
inductive Side where
  | glob (space va : Nat)
  | scr (launch group off : Nat)
  | cap (space base off len : Nat)
deriving DecidableEq, Repr

def Side.at_ (sd : Side) (d : Nat) : ELoc :=
  match sd with
  | .glob sp va => .glob sp ((va + d) % 2 ^ 64)
  | .scr l g off => .scr l g (off + d)
  | .cap sp base off _ => .glob sp (base + off + d)

def ELoc.plus (l : ELoc) (d : Nat) : ELoc :=
  match l with
  | .glob sp va => .glob sp (va + d)
  | .scr l g off => .scr l g (off + d)
  | .expo sp va b => .expo sp (va + 4 * b * d) b

/-- A location's number in its space, for ADDR and for the order of the checks. -/
def ELoc.num : ELoc → Nat
  | .glob _ va => va
  | .scr _ _ off => off
  | .expo _ va _ => va

def Launch.cap (l : Launch) (k : BitVec 3) : W128 := l.block.caps.getD k.toNat 0

/-- The side that a space code, a capability number and a register give. -/
def State.sideOf (s : State) (l : Launch) (w : Wave) (group : Nat) (sp : Space) (k : BitVec 3) (x : W64) : Side :=
  match sp with
  | .global => .glob (s.space l.world l.comp) x.toNat
  | .scratch => .scr w.launch group (x.toNat % 2 ^ 32)
  | .cap => .cap (s.space l.world (capComp (l.cap k))) (capBase (l.cap k)) x.toNat (capLen (l.cap k))

/-! ## Plans -/

/-- A request's sources, its mantissa or plain destination bytes and its exponent bytes (R154). A destination byte without
a source is counted and not written: a higher lane of the SCATTER writes it (R158). -/
structure EPlan where
  srcs : List ELoc
  body : List (ELoc × Option ByteSrc)
  exps : List (ELoc × Option ByteSrc)
deriving DecidableEq, Repr

def EPlan.none : EPlan := ⟨[], [], []⟩
def EPlan.and (p q : EPlan) : EPlan := ⟨unionNew p.srcs q.srcs, p.body ++ q.body, p.exps ++ q.exps⟩

/-- The EFMT of the page of a location, as agent ag translates it: 0 for scratchpad and where no page answers. -/
def State.efmtAt (s : State) (ag : Nat) (l : ELoc) : Nat :=
  match l with
  | .glob sp va => match s.xlate ag sp va with
    | .page f _ _ => f.efmt
    | _ => 0
  | .scr _ _ _ | .expo _ _ _ => 0

/-- The offset of a location in its page, and the page's size. -/
def State.pageOff (s : State) (ag : Nat) (l : ELoc) : Nat × Nat :=
  match l with
  | .glob sp va => match s.xlate ag sp va with
    | .page _ big _ => (va % pageBytes big, pageBytes big)
    | _ => (va % 2 ^ 16, 2 ^ 16)
  | .scr _ _ off => (off, 2 ^ 64)
  | .expo _ va _ => (va, 2 ^ 64)

/-- The exponent byte of the block at a location. -/
def ELoc.expoOf (l : ELoc) (b : Nat) : ELoc :=
  match l with
  | .glob sp va => .expo sp va b
  | .scr l g off => .scr l g off
  | .expo sp va b => .expo sp va b

/-- One row of a tile: n bytes from src displacement a to the locations dst gives, and the exponents of a block-format
source row (R154). rows is the number of rows, r the row, dp the destination pitch. -/
def State.rowPlan (s : State) (ag : Nat) (src : Side) (dst : Nat → ELoc) (out : Side) (a n rows dp r : Nat) : EPlan :=
  let ls := (List.range n).map (fun i => src.at_ (a + i))
  let body := ls.zipIdx.map (fun li => (dst li.2, some (ByteSrc.copy li.1)))
  match blockBits (s.efmtAt ag (src.at_ a)) with
  | none => ⟨ls, body, []⟩
  | some b => ⟨ls, body, (List.range (n / (4 * b))).map (fun c =>
      (out.at_ (rows * dp + c * rows + r), some (ByteSrc.copy ((src.at_ (a + 4 * b * c)).expoOf b))))⟩

/-- CPY (R156). -/
def State.cpyPlan (s : State) (ag : Nat) (src dst : Side) (n : Nat) : EPlan :=
  s.rowPlan ag src dst.at_ dst 0 n 1 n 0

/-- σ of a rotation code, in words (R157). -/
def rotStep (rot : Nat) : Nat := if rot = 0 then 0 else 2 ^ (rot - 1)

/-- CPY2D (R157). A rotated copy whose destination pitch is below 4 bytes would rotate modulo 0: for it the manual gives no address to
check at steps 13 and 16. DESIGN CHOICE (log 113): it is checked at, and goes to, the words as they stand unrotated. -/
def State.cpy2dPlan (s : State) (ag : Nat) (src dst : Side) (n rows sp dp rot : Nat) : EPlan :=
  (List.range rows).foldl (fun p r =>
    let d := fun i =>
      if rot = 0 || dp < 4 then dst.at_ (r * dp + i)
      else dst.at_ (r * dp + 4 * ((i / 4 + r * rotStep rot) % (dp / 4)) + i % 4)
    p.and (s.rowPlan ag src d dst (r * sp) n rows dp r)) .none

/-- GATHER and SCATTER (R158): each lane's source and destination displacement. -/
def lanePlan (src dst : Side) (n : Nat) (lanes : List (Nat × Nat)) : EPlan :=
  let cells := lanes.flatMap (fun sd => (List.range n).map (fun i => (src.at_ (sd.1 + i), dst.at_ (sd.2 + i))))
  let shadowed := fun k d => (cells.drop (k + 1)).any (fun c => c.2 == d)
  ⟨unionNew [] (cells.map (·.1)),
   cells.zipIdx.map (fun ck => (ck.1.2, if shadowed ck.2 ck.1.2 then none else some (ByteSrc.copy ck.1.1))), []⟩

/-- One quantised copy: rows by cols elements, element (r, c) at the location elem gives, blocks along rows (R159). -/
def State.quantPlan (s : State) (ag : Nat) (b : Nat) (f : FFmt) (elem : Nat → Nat → ELoc) (dst : Side) (rows cols dp : Nat) :
    EPlan :=
  let paged := (blockBits (s.efmtAt ag (dst.at_ 0))).isSome
  let one := fun r k =>
    let es := (List.range 32).map (fun i => elem r (32 * k + i))
    let at_ := r * dp + 4 * b * k
    let x := if paged then (dst.at_ at_).expoOf b else dst.at_ (rows * dp + k * rows + r)
    EPlan.mk [] ((List.range (4 * b)).map (fun i => (dst.at_ (at_ + i), some (ByteSrc.mant b f es i))))
      [(x, some (ByteSrc.expo b f es))]
  (List.range rows).foldl (fun p r => (List.range (cols / 32)).foldl (fun p k => p.and (one r k)) p) .none

def qFmt (q : BitVec 2) : FFmt :=
  match q.toNat with
  | 0 => .f32
  | 1 => .bf16
  | _ => .f16

/-- QCPY (R159). dst2 is the second destination of the dual form. -/
def State.qcpyPlan (s : State) (ag : Nat) (o : OpEng) (src dst dst2 : Side) (sp dp : Nat) : EPlan :=
  let b := o.qb.toNat + 2
  let rows := o.imm.toNat / 65536
  let cols := o.imm.toNat % 65536
  if o.qsrc.toNat = 3 then
    let paged := (blockBits (s.efmtAt ag (dst.at_ 0))).isSome
    (List.range rows).foldl (fun p r =>
      (List.range (cols / 32)).foldl (fun p k =>
        let sa := r * sp + 4 * b * k
        let da := r * dp + 4 * b * k
        let ls := (List.range (4 * b)).map (fun i => src.at_ (sa + i))
        let x := if paged then (dst.at_ da).expoOf b else dst.at_ (rows * dp + k * rows + r)
        p.and ⟨ls, ls.zipIdx.map (fun li => (dst.at_ (da + li.2), some (ByteSrc.copy li.1))),
               [(x, some (ByteSrc.copy ((src.at_ sa).expoOf b)))]⟩) p) .none
  else
    let f := qFmt o.qsrc
    let n := f.width / 8
    let elem := fun r c => src.at_ (r * sp + c * n)
    let srcs := (List.range rows).flatMap (fun r => (List.range (cols * n)).map (fun i => src.at_ (r * sp + i)))
    let p := if o.var.toNat = 2 then s.quantPlan ag b f (fun j i => elem i j) dst cols rows dp
      else s.quantPlan ag b f elem dst rows cols dp
    let p := if o.var.toNat = 1 then p.and (s.quantPlan ag b f (fun j i => elem i j) dst2 cols rows (rows * b / 8)) else p
    { p with srcs := srcs }

/-! ## Checks (R152) -/

/-- The lowest of some failing locations: the checks take bytes in ascending address. -/
def lowestFail (bad : ELoc → Bool) (ls : List ELoc) : Option Nat :=
  (ls.filter bad).foldl (fun m l => match m with
    | none => some l.num
    | some n => some (min n l.num)) none

def firstSome (xs : List (Option Nat)) : Option Nat := xs.findSome? id

/-- The failing byte of a plan: sources, then mantissas, then exponents. -/
def EPlan.fail (p : EPlan) (badS badD : ELoc → Bool) : Option Nat :=
  firstSome [lowestFail badS p.srcs, lowestFail badD (p.body.map (·.1)), lowestFail badD (p.exps.map (·.1))]

/-- Step 13 for a side: its capability is tagged where the world is protected (R300), is of the launch's compartment, gives
the permission, and holds every byte. -/
def State.capBad (s : State) (l : Launch) (sp : Space) (k : BitVec 3) (p : Perm) (foreign : Bool) (n : ELoc) : Bool :=
  match sp with
  | .cap =>
    let c := l.cap k
    let untagged := match s.world? l.world with
      | none => false
      | some w => w.prot && !l.block.tagged
    untagged || !(capHas c n.num && capGives c p && (foreign || capComp c == l.comp)) || s.space l.world (capComp c) == 0
  | .global | .scratch => false

/-- Step 14: a capability's sequence is Open or Draining (R292). -/
def State.seqLive (s : State) (world num : Nat) : Bool :=
  match s.seq? world num with
  | none => false
  | some q => q.st == .open_ || q.st == .draining

/-- Step 16 for a byte (R280, R301, R307). A byte that is being moved waits inside the engine (R155). -/
def State.byteBad (s : State) (l : Launch) (ag : Nat) (p : Perm) (foreign : Bool) (n : ELoc) : Bool :=
  match n with
  | .scr _ _ off => l.block.scratch ≤ off
  | .expo _ _ _ => false
  | .glob sp va =>
    if foreign then
      match s.xlate ag sp va with
      | .absent => true
      | .held => false
      | .page f _ _ => if p == .write then f.sealed || !f.w else !f.r
    else match s.leaseByte l ag p va with
      | .error .retry => false
      | .error _ => true
      | .ok _ => false

/-- Step 17 for a copied row of a block-format source: it begins on a block boundary and holds whole blocks. -/
def State.rowBad (s : State) (ag : Nat) (src : Side) (a n : Nat) : Option Nat :=
  let touched := (List.range n).filterMap (fun i => blockBits (s.efmtAt ag (src.at_ (a + i))))
  match touched with
  | [] => none
  | b :: _ =>
    let chunk := fun c =>
      let po := s.pageOff ag (src.at_ (a + 4 * b * c))
      po.1 % (4 * b) != 0 || po.2 < po.1 + 4 * b || blockBits (s.efmtAt ag (src.at_ (a + 4 * b * c))) != some b
    if n % (4 * b) != 0 then some (src.at_ a).num
    else ((List.range (n / (4 * b))).find? chunk).map (fun c => (src.at_ (a + 4 * b * c)).num)

def State.isBlock (s : State) (ag : Nat) (l : ELoc) : Bool := (blockBits (s.efmtAt ag l)).isSome

/-- Page formats and shapes of QCPY (R159). -/
def State.qcpyBad (s : State) (ag : Nat) (o : OpEng) (src dst dst2 : Side) (sp dp : Nat) (p : EPlan) : Option Nat :=
  let b := o.qb.toNat + 2
  let rows := o.imm.toNat / 65536
  let cols := o.imm.toNat % 65536
  let want := if o.qsrc.toNat = 3 then b + 4 else match qFmt o.qsrc with
    | .f32 => 1
    | .f16 => 2
    | _ => 3
  let srcBad := fun l => match l with
    | .scr _ _ _ => o.qsrc.toNat == 3
    | _ => s.efmtAt ag l != want && (o.qsrc.toNat == 3 || s.efmtAt ag l != 0)
  let blockRow : Side → Nat → Nat → Nat → Option Nat := fun sd pitch n r => match sd with
    | .scr _ _ _ => none
    | _ => s.rowBad ag sd (r * pitch) n
  let dstBad := fun l => match l with
    | .scr _ _ _ | .expo _ _ _ => false
    | .glob _ _ => blockBits (s.efmtAt ag l) != some b
  let rowsOf : Side → Nat → Nat → Nat → List (Option Nat) := fun sd pitch rows cols =>
    (List.range rows).map (blockRow sd pitch (cols / 32 * (4 * b)))
  let dsts := if o.var.toNat = 2 then rowsOf dst dp cols rows
    else rowsOf dst dp rows cols ++ (if o.var.toNat = 1 then rowsOf dst2 (rows * b / 8) cols rows else [])
  firstSome ([lowestFail srcBad p.srcs] ++ (if o.qsrc.toNat = 3 then rowsOf src sp rows cols else [])
    ++ [lowestFail dstBad (p.body.map (·.1))] ++ dsts)

/-! ## A request at issue -/

/-- The core's own bit of a multicast mask (R150). -/
def State.ownBit (s : State) (w : Wave) : Nat := 2 ^ (s.physCore w.loc.die w.loc.core % 4)

/-- The groups that a multicast mask names: those of the wave's quad set on the named cores (R150, R156). -/
def State.mcGroups (s : State) (w : Wave) (mc : Nat) : List Nat :=
  match s.group? w.launch w.group with
  | none => []
  | some g => match g.quadset with
    | none => [w.group]
    | some q => ((s.groups.filter (fun h => h.launch == w.launch && h.quadset == some q
        && mc.testBit (s.physCore h.die h.core % 4))).map (·.index))

/-- The destination groups of a request. -/
def State.targets (s : State) (w : Wave) (sp : Space) (mc : Nat) : List Nat :=
  if sp = .scratch && mc != 0 then s.mcGroups w mc else [w.group]

/-- What an engine word asks for at this issue. -/
structure EAsk where
  ssp    : Space
  dsp    : Space
  scap   : BitVec 3
  dcap   : BitVec 3
  mc     : Nat
  gate   : Option Nat
  hnd    : W64
  length : Nat
  carry  : Bool
  srcX   : W64
  dstX   : W64
  plan   : State → Launch → Side → Side → EPlan
  fmt    : State → Launch → Side → Side → EPlan → Option Nat

def State.srcSide (s : State) (l : Launch) (w : Wave) (a : EAsk) : Side := s.sideOf l w w.group a.ssp a.scap a.srcX
def State.dstSide (s : State) (l : Launch) (w : Wave) (a : EAsk) (g : Nat) : Side := s.sideOf l w g a.dsp a.dcap a.dstX

/-- The sequences that a request's capabilities name. -/
def EAsk.seqs (a : EAsk) (l : Launch) : List Nat :=
  (if a.ssp = .cap then [capSeq (l.cap a.scap)] else []) ++ (if a.dsp = .cap then [capSeq (l.cap a.dcap)] else [])

/-- Step 14 (R309): the source first, with the address of the first byte it would have covered. -/
def State.seqChk (s : State) (l : Launch) (a : EAsk) : Option Nat :=
  let dead := fun sp k (x : W64) =>
    if sp = Space.cap && !s.seqLive l.world (capSeq (l.cap k)) then some (capBase (l.cap k) + x.toNat) else none
  firstSome [dead a.ssp a.scap a.srcX, dead a.dsp a.dcap a.dstX]

/-- Step 15 (R297). -/
def State.gateOk (s : State) (l : Launch) (a : EAsk) (h : Nat) : Bool :=
  match s.world? l.world with
  | none => false
  | some w =>
    if 256 ≤ h then false
    else match w.gates[h]? with
      | none => false
      | some g =>
        let sender := capComp (l.cap a.scap)
        let receiver := capComp (l.cap a.dcap)
        let start := capBase (l.cap a.scap) + a.srcX.toNat
        ((g.from_ == sender && g.to_ == receiver && g.dir % 2 == 1) || (g.from_ == receiver && g.to_ == sender && g.dir / 2 % 2 == 1))
          && (l.comp == sender || l.comp == receiver)
          && capR g.shape && capBase g.shape ≤ start && start + a.length ≤ capBase g.shape + capLen g.shape
          && (if l.comp = receiver then g.recv == 0 || g.recv == l.measure else g.recv == 0)
          && 1 ≤ g.remaining

/-- Steps 13 to 17 in order (R152). Length zero passes every check. -/
def State.engChk (s : State) (c : Ctx) (a : EAsk) : Option Chk :=
  match s.launch? c.w.launch with
  | none => none
  | some l =>
    let mk := fun f st (n : Nat) => some ({ fault := f, step := st, lane := c.low, addr := BitVec.ofNat 64 n } : Chk)
    let src := s.srcSide l c.w a
    let gs := s.targets c.w a.dsp a.mc
    let plan := gs.foldl (fun p g => p.and (a.plan s l src (s.dstSide l c.w a g))) EPlan.none
    let gated := a.gate.isSome
    let quad := match s.group? c.w.launch c.w.group with
      | none => false
      | some g => g.quadset.isSome
    let foreign := fun sp k => gated && sp == Space.cap && capComp (l.cap k) != l.comp
    if a.length = 0 then none
    else if (s.handle? c.w a.hnd).isNone then mk .cap 13 a.hnd.toNat
    else match plan.fail (s.capBad l a.ssp a.scap .read (foreign a.ssp a.scap)) (s.capBad l a.dsp a.dcap .write (foreign a.dsp a.dcap)) with
      | some n => mk .cap 13 n
      | none =>
        if (!quad && a.mc != 0 && a.mc != s.ownBit c.w) || (a.mc != 0 && a.dsp != .scratch) then mk .cap 13 0
        else match s.seqChk l a with
          | some n => mk .keyRetired 14 n
          | none =>
            if (match a.gate with
                | none => false
                | some h => !s.gateOk l a h) then mk .gate 15 0
            else match plan.fail (s.byteBad l c.w.agent .read (foreign a.ssp a.scap))
                (s.byteBad l c.w.agent .write (foreign a.dsp a.dcap)) with
              | some n => mk .lease 16 n
              | none => match gs.findSome? (fun g => a.fmt s l src (s.dstSide l c.w a g) plan) with
                | some n => mk .format 17 n
                | none => none

/-! ## Acceptance (R153) -/

/-- Where a destination byte lies among 256-byte boundaries: an exponent byte by its place in the scale span, which is aligned (R46). -/
def State.cutNo (s : State) (ag : Nat) (l : ELoc) : Nat :=
  match l with
  | .expo sp va b => (s.pageOff ag (.glob sp va)).1 / (4 * b)
  | .glob _ _ | .scr _ _ _ => l.num

/-- Consecutive destination bytes, cut at 256-byte boundaries (R212). -/
def nextTo (no : ELoc → Nat) (a b : ELoc) : Bool := a.plus 1 == b && no b % 256 != 0

def cutRuns (no : ELoc → Nat) : List (ELoc × Option ByteSrc) → List (List (ELoc × Option ByteSrc))
  | [] => []
  | x :: xs => match cutRuns no xs with
    | (y :: ys) :: rest => if nextTo no x.1 y.1 then (x :: y :: ys) :: rest else [x] :: (y :: ys) :: rest
    | rest => [x] :: rest

def pieceOf (id : Nat) (obj : ObjRef) (cells : List (ELoc × Option ByteSrc)) : Piece :=
  let kept := cells.filterMap (fun c => match c.2 with
    | none => none
    | some b => some (c.1, b))
  { id := id, dst := kept.map (·.1), src := kept.map (·.2), count := cells.length, data := none, sent := none, wid := none
    posted := false, obj := obj }

def piecesOf (no : ELoc → Nat) (n : Nat) (obj : ObjRef) (p : EPlan) : List Piece :=
  ((cutRuns no p.body ++ cutRuns no p.exps).zipIdx).map (fun ci => pieceOf (n + ci.2) obj ci.1)

/-- The object that counts the landings in a group: its own at the same offset with a core-scope handle (R153). -/
def objIn (o : ObjRef) (g : Nat) : ObjRef :=
  match o with
  | .core l _ off => .core l g off
  | .net sc h i => .net sc h i

/-- The cores whose engines take a request. -/
def State.coresOf (s : State) (w : Wave) (gs : List Nat) : List Nat :=
  addNew (gs.filterMap (fun g => (s.group? w.launch g).map (fun h => h.core))) w.loc.core

/-- Whether each engine has room: 32 entries (R153). -/
def State.engRoom (s : State) (die : Nat) (cores : List Nat) : Bool :=
  cores.all (fun c => (s.reqs.filter (fun r => r.die == die && r.member.isNone && r.cores.contains c)).length < 32)

def blankReq (id : Nat) (c : Ctx) (o : ObjRef) (sc : Scope) : EngReq where
  id := id
  wave := c.w.uid
  launch := c.w.launch
  group := c.w.group
  die := c.w.loc.die
  core := c.w.loc.core
  cores := [c.w.loc.core]
  pc := c.pc
  active := laneMask c.act
  carry := false
  pieces := []
  started := true
  begun := false
  before := c.w.nextEntry
  ring := none
  seqs := []
  member := none
  ops := []
  obj := o
  scope := sc
  order := id
  source := c.w.source
  refused := false

def State.addReq (s : State) (r : EngReq) : State := { s with reqs := s.reqs ++ [r] }

/-- A gated copy uses a unit and is counted (R297, R316). -/
def State.useGate (s : State) (l : Launch) (g : Option Nat) : State :=
  match g with
  | none => s
  | some h => (s.onWorld l.world (fun w => { w with
      gates := w.gates.modify h (fun g => if g.limit = 2 ^ 32 - 1 then g else { g with remaining := g.remaining - 1 }) })).count l.world 15 1

/-- The request's pieces over its destinations. -/
def State.askPieces (s : State) (l : Launch) (w : Wave) (a : EAsk) (o : ObjRef) : List Piece :=
  (s.targets w a.dsp a.mc).foldl (fun ps g =>
    ps ++ piecesOf (s.cutNo w.agent) ps.length (objIn o g) (a.plan s l (s.srcSide l w a) (s.dstSide l w a g))) []

/-- A full engine queue, or an MMA that still reads scratchpad, holds the request back (R153, R168). -/
def holdEngine (a : Ctx → EAsk) (c : Ctx) (s : State) : Option State :=
  match waitGrid c s with
  | some t => some t
  | none =>
    if (a c).length != 0 && !s.engRoom c.w.loc.die (s.coresOf c.w (s.targets c.w (a c).dsp (a c).mc)) then some (s.stall c (.engine false))
    else none

def acceptReq (a : Ctx → EAsk) (c : Ctx) (s : State) : State :=
  match s.launch? c.w.launch, s.handle? c.w (a c).hnd with
  | some l, some ho =>
    if (a c).length = 0 then s
    else
      let n := s.fresh
      (n.2.useGate l (a c).gate).addReq { blankReq n.1 c ho.2 ho.1.scope with
        cores := s.coresOf c.w (s.targets c.w (a c).dsp (a c).mc)
        carry := (a c).carry
        seqs := (a c).seqs l
        pieces := s.askPieces l c.w (a c) ho.2 }
  | _, _ => s

def runEngine (i : Instr) (pre : Ctx → Option Chk) (a : Ctx → EAsk) (s : State) : Out :=
  runWord i (fun c s => chkBoth (pre c) (s.engChk c (a c))) (holdEngine a) (acceptReq a) s

/-! ## The words -/

/-- What every word of R149 shares. -/
def askOf (o : OpEng) (c : Ctx) (length : Nat) (plan : State → Launch → Side → Side → EPlan)
    (fmt : State → Launch → Side → Side → EPlan → Option Nat) : EAsk where
  ssp := o.ssp
  dsp := o.dsp
  scap := o.scap
  dcap := o.dcap
  mc := o.mc.toNat
  gate := none
  hnd := c.w.sget o.hnd.toNat
  length := length
  carry := false
  srcX := c.w.sget o.a.toNat
  dstX := c.w.sget o.d.toNat
  plan := plan
  fmt := fmt

/-- The gate handle: the low 32 bits of B. -/
def gateNo (o : OpEng) (c : Ctx) (lane : Nat) : Nat :=
  if o.bv then (c.w.slice (c.base + o.b.toNat) lane).toNat else (c.w.sget o.b.toNat).toNat % 2 ^ 32

def dstBlock (s : State) (ag : Nat) (p : EPlan) : Option Nat := lowestFail (s.isBlock ag) ((p.body ++ p.exps).map (·.1))

def cpyAsk (o : OpEng) (c : Ctx) : EAsk :=
  let ag := c.w.agent
  { askOf o c o.imm.toNat (fun s _ a b => s.cpyPlan ag a b o.imm.toNat)
      (fun s _ a _ p => firstSome [s.rowBad ag a 0 o.imm.toNat, dstBlock s ag p]) with
    gate := if o.gate then some (gateNo o c c.low) else none
    carry := !o.gate }

/-- CPY (R156). -/
def execCpy (o : OpEng) (s : State) : Out :=
  runEngine (.cpy o) (fun c => if o.gate && o.bv && o.imm.toNat != 0 then c.nonuniform (gateNo o c) else none) (cpyAsk o) s

/-- R157: what a rotated copy must hold to. -/
def rotBad (rot : Nat) (dst : Side) (n dp : Nat) : Bool :=
  rot != 0 && (n % 4 != 0 || dp % 4 != 0 || dp < n || (match dst with
    | .scr _ _ _ => false
    | _ => true))

def tileFmt (ag rot n rows sp dp : Nat) (s : State) (a b : Side) (p : EPlan) : Option Nat :=
  if rotBad rot b n dp then some 0
  else firstSome ((List.range rows).map (fun r => s.rowBad ag a (r * sp) n) ++ [dstBlock s ag p])

def cpy2dAsk (o : OpEng) (c : Ctx) : EAsk :=
  let ag := c.w.agent
  let n := o.imm.toNat % 2 ^ 20
  let rows := o.imm.toNat / 2 ^ 20 + 1
  let x := (c.w.sget o.b.toNat).toNat
  let sp := x % 2 ^ 32
  let dp := x / 2 ^ 32
  { askOf o c n (fun s _ a b => s.cpy2dPlan ag a b n rows sp dp o.var.toNat)
      (fun s _ a b p => tileFmt ag o.var.toNat n rows sp dp s a b p) with
    carry := true }

/-- CPY2D (R157). -/
def execCpy2d (o : OpEng) (s : State) : Out := runEngine (.cpy2d o) (fun _ => none) (cpy2dAsk o) s

def indexOf (o : OpEng) (c : Ctx) (lane : Nat) : Nat := (c.w.slice (c.base + o.b.toNat) lane).toNat

/-- GATHER and SCATTER take no block-format page (R154). -/
def laneFmt (ag : Nat) (s : State) (_ : Launch) (_ _ : Side) (p : EPlan) : Option Nat :=
  p.fail (s.isBlock ag) (s.isBlock ag)

def gatherAsk (o : OpEng) (c : Ctx) : EAsk :=
  let n := o.imm.toNat
  askOf o c n (fun _ _ a b => lanePlan a b n (c.act.map (fun l => (indexOf o c l * n, l * n)))) (laneFmt c.w.agent)

/-- GATHER (R158). -/
def execGather (o : OpEng) (s : State) : Out := runEngine (.gather o) (fun _ => none) (gatherAsk o) s

def scatterAsk (o : OpEng) (c : Ctx) : EAsk :=
  let n := o.imm.toNat
  askOf o c n (fun _ _ a b => lanePlan a b n (c.act.map (fun l => (l * n, indexOf o c l * n)))) (laneFmt c.w.agent)

/-- SCATTER (R158). -/
def execScatter (o : OpEng) (s : State) : Out := runEngine (.scatter o) (fun _ => none) (scatterAsk o) s

/-- The second destination of the dual form, in the space of the first. -/
def secondSide (o : OpEng) (c : Ctx) (s : State) (l : Launch) (b : Side) : Side :=
  let x := c.w.sget (o.d.toNat + 1)
  match b with
  | .glob sp _ => .glob sp x.toNat
  | .scr l g _ => .scr l g (x.toNat % 2 ^ 32)
  | .cap _ _ _ _ => s.sideOf l c.w c.w.group .cap o.dcap x

def qcpyAsk (o : OpEng) (c : Ctx) : EAsk :=
  let ag := c.w.agent
  let x := (c.w.sget o.b.toNat).toNat
  askOf o c 1 (fun s l a b => s.qcpyPlan ag o a b (secondSide o c s l b) (x % 2 ^ 32) (x / 2 ^ 32))
    (fun s l a b p => s.qcpyBad ag o a b (secondSide o c s l b) (x % 2 ^ 32) (x / 2 ^ 32) p)

/-- QCPY (R159). -/
def execQcpy (o : OpEng) (s : State) : Out := runEngine (.qcpy o) (fun _ => none) (qcpyAsk o) s

/-! ## COLL (R160) -/

/-- The checks see a copy of the member's own bytes; its pieces are made when the collective starts. -/
def collAsk (o : OpEng) (c : Ctx) : EAsk :=
  let n := o.imm.toNat
  let m := if o.var.toNat = 4 then 4 else 1
  { askOf o c n (fun _ _ a b => ⟨(List.range n).map a.at_, (List.range (m * n)).map (fun i => (b.at_ i, none)), []⟩)
      (fun _ _ _ _ _ => if o.var.toNat < 3 && n % 4 != 0 then some 0 else none) with
    mc := 0 }

def collMcChk (o : OpEng) (c : Ctx) (s : State) : Option Chk :=
  let quad := match s.group? c.w.launch c.w.group with
    | none => false
    | some g => g.quadset.isSome
  if !quad && o.mc.toNat != s.ownBit c.w && o.imm.toNat != 0 then some { fault := .cap, step := 13, lane := c.low } else none

/-- A check that stands at step 13 beside another's steps. -/
def orStep (a b : Option Chk) : Option Chk :=
  match a, b with
  | some x, some y => if y.step ≤ x.step then some y else some x
  | some x, none => some x
  | none, y => y

/-- The key of a group's count of collectives. -/
def collKey (launch group : Nat) : Nat := launch * 2 ^ 32 + group

/-- Whether the quad's collective engine has room. -/
def State.collRoom (s : State) (w : Wave) : Bool :=
  (s.reqs.filter (fun r => r.member.isSome && r.die == w.loc.die && s.quadOf r.die r.core == s.quadOf w.loc.die w.loc.core)).length < 32

def holdColl (o : OpEng) (c : Ctx) (s : State) : Option State :=
  match waitGrid c s with
  | some t => some t
  | none => if o.imm.toNat != 0 && !s.collRoom c.w then some (s.stall c (.engine false)) else none

/-- A member's n-th COLL: its quad set, its position, n, and the operands. One of no bytes needs no object: it passes every
check (R152). -/
def acceptColl (o : OpEng) (c : Ctx) (s : State) : State :=
  match s.group? c.w.launch c.w.group with
  | none => s
  | some g =>
    let ho := (s.handle? c.w (c.w.sget o.hnd.toNat)).getD (⟨.core, 0, 0, 0⟩, .core c.w.launch c.w.group 0)
    let k := collKey c.w.launch c.w.group
    let n := mapGet 0 s.colls k
    let r := s.fresh
    { r.2.addReq { blankReq r.1 c ho.2 ho.1.scope with
        started := false
        member := some (g.quadset.getD (2 ^ 32 + g.index), s.physCore g.die g.core % 4, n)
        ops := [(c.w.sget o.a.toNat).toNat % 2 ^ 32, (c.w.sget o.d.toNat).toNat % 2 ^ 32, o.imm.toNat, o.var.toNat,
                o.mc.toNat, (c.w.sget o.b.toNat).toNat] } with
      colls := mapSet 0 r.2.colls k (n + 1) }

/-- COLL (R160). -/
def execColl (o : OpEng) (s : State) : Out :=
  runWord (.coll o) (fun c s => orStep (s.engChk c (collAsk o c)) (collMcChk o c s)) (holdColl o) (acceptColl o) s

/-! ## Rings (R161 to R163) -/

/-- A ring descriptor, with its offset. -/
structure Ring where
  at_      : Nat
  slotBase : Nat
  slotSize : Nat
  nslot    : Nat
  head     : Nat
  ftok     : Nat
  rsv      : Bool
deriving DecidableEq, Repr

def ringOf (at_ n : Nat) : Ring where
  at_ := at_
  slotBase := n % 2 ^ 32
  slotSize := n / 2 ^ 32 % 2 ^ 32
  nslot := n / 2 ^ 64 % 2 ^ 8
  head := n / 2 ^ 72 % 2 ^ 8
  ftok := n / 2 ^ 128 % 2 ^ 64
  rsv := n / 2 ^ 80 % 2 ^ 48 != 0 || n / 2 ^ 192 % 2 ^ 64 != 0

def State.ring (s : State) (w : Wave) (rd : Nat) : Ring :=
  match s.group? w.launch w.group with
  | none => ringOf rd 0
  | some g => ringOf rd (leNat (mapRun 0 g.scratch rd 32))

def Ring.token (r : Ring) : Nat := r.ftok / 2 ^ (4 * r.head) % 16
def Ring.filled (r : Ring) (slot : Nat) : Nat := r.at_ + 32 + 32 * slot
def Ring.free (r : Ring) (slot : Nat) : Nat := r.at_ + 48 + 32 * slot

/-- Step 13 of RPUSH (R162). -/
def Ring.bad (r : Ring) (size : Nat) : Bool :=
  r.rsv || r.at_ % 16 != 0 || r.nslot = 0 || 16 < r.nslot || r.nslot ≤ r.head || r.slotSize = 0 || r.slotSize % 4 != 0
    || r.slotBase % 4 != 0 || size < r.at_ + 32 + 32 * r.nslot || size < r.slotBase + r.nslot * r.slotSize

/-- The shape of a push: row length, rows, pitches. -/
def pushShape (o : OpRpush) (c : Ctx) : Nat × Nat × Nat × Nat :=
  let b := (c.w.sget o.b.toNat).toNat % 2 ^ 32
  let x := (c.w.sget o.c.toNat).toNat
  if o.twod then (b % 2 ^ 20, b / 2 ^ 20 + 1, x % 2 ^ 32, x / 2 ^ 32) else (b, 1, 0, b)

def pushPlan (o : OpRpush) (c : Ctx) (s : State) (a b : Side) : EPlan :=
  let p := pushShape o c
  if o.twod then s.cpy2dPlan c.w.agent a b p.1 p.2.1 p.2.2.1 p.2.2.2 o.rot.toNat
  else s.cpyPlan c.w.agent a b p.1

/-- A push as a request into the slot at HEAD, counted on its filled object. -/
def rpushAsk (o : OpRpush) (r : Ring) (c : Ctx) : EAsk where
  ssp := o.ssp
  dsp := .scratch
  scap := o.scap
  dcap := 0
  mc := 0
  gate := none
  hnd := handleBits (.core 0 0 (r.filled r.head))
  length := (pushShape o c).1
  carry := true
  srcX := c.w.sget o.a.toNat
  dstX := BitVec.ofNat 64 (r.slotBase + r.head * r.slotSize)
  plan := fun s _ a b => pushPlan o c s a b
  fmt := fun s _ a b p =>
    let q := pushShape o c
    tileFmt c.w.agent o.rot.toNat q.1 q.2.1 q.2.2.1 q.2.2.2 s a b p

def ringAt (a : BitVec 6) (c : Ctx) : Nat := (c.w.sget a.toNat).toNat % 2 ^ 32

/-- The push is no longer than a slot: its last byte lies in it. -/
def State.pushFits (s : State) (o : OpRpush) (r : Ring) (c : Ctx) : Bool :=
  match s.launch? c.w.launch with
  | none => true
  | some l =>
    let a := rpushAsk o r c
    let start := r.slotBase + r.head * r.slotSize
    let p := a.plan s l (s.srcSide l c.w a) (s.dstSide l c.w a c.w.group)
    (p.body ++ p.exps).all (fun d => d.1.num < start + r.slotSize)

/-- The wave's own earlier accesses to the descriptor come first (R126, log entry 80). -/
def ringPending (d : BitVec 6) (c : Ctx) : Bool := c.w.pendingAt (ringAt d c) 32

def rpushChk (o : OpRpush) (c : Ctx) (s : State) : Option Chk :=
  let r := s.ring c.w (ringAt o.d c)
  if ringPending o.d c then none
  else if (pushShape o c).1 = 0 then none
  else if r.bad (s.scratchSize c.w) || !s.pushFits o r c then
    some { fault := .cap, step := 13, lane := c.low, addr := BitVec.ofNat 64 r.at_ }
  else s.engChk c (rpushAsk o r c)

/-- At acceptance the descriptor's HEAD and token move on. -/
def State.moveRing (s : State) (w : Wave) (r : Ring) : State :=
  let k := r.head / 2
  let old := r.ftok / 2 ^ (8 * k) % 256
  let t := (r.token + 1) % 16
  let new := if r.head % 2 = 0 then old / 16 * 16 + t else old % 16 + 16 * t
  s.onGroup w.launch w.group (fun g => { g with
    scratch := mapSet 0 (mapSet 0 g.scratch (r.at_ + 9) (BitVec.ofNat 8 ((r.head + 1) % r.nslot)))
      (r.at_ + 16 + k) (BitVec.ofNat 8 new) })

def acceptPush (o : OpRpush) (c : Ctx) (s : State) : State :=
  let r := s.ring c.w (ringAt o.d c)
  if (pushShape o c).1 = 0 then (if r.bad (s.scratchSize c.w) then s else s.moveRing c.w r)
  else
    let t := acceptReq (rpushAsk o r) c s
    ({ t with reqs := updBy (fun q => q.id == s.own.uid) (fun q =>
        { q with started := false, ring := some (.core c.w.launch c.w.group (r.free r.head), r.token) }) t.reqs }).moveRing c.w r

/-- RPUSH (R162). -/
def execRpush (o : OpRpush) (s : State) : Out :=
  runWord (.rpush o) (rpushChk o)
    (fun c s => if ringPending o.d c then some (s.stall c .quiet)
      else holdEngine (fun c => rpushAsk o (s.ring c.w (ringAt o.d c)) c) c s) (acceptPush o) s

/-- The slot and the free object of RFREE (R163). -/
def rfreeSlot (o : OpRfree) (c : Ctx) : Nat := (c.w.sget o.b.toNat).toNat % 16

def rfreeHandle (o : OpRfree) (c : Ctx) (s : State) : W64 :=
  handleBits (.core 0 0 ((s.ring c.w (ringAt o.a c)).free (rfreeSlot o c)))

def rfreeChk (o : OpRfree) (c : Ctx) (s : State) : Option Chk :=
  let r := s.ring c.w (ringAt o.a c)
  if ringPending o.a c then none
  else if r.nslot ≤ rfreeSlot o c || r.at_ % 16 != 0 || (s.handle? c.w (rfreeHandle o c s)).isNone then
    some { fault := .cap, step := 13, lane := c.low, addr := rfreeHandle o c s }
  else none

/-- RFREE is ARRIVE on the slot's free object, and waits as ARRIVE does. -/
def execRfree (o : OpRfree) (s : State) : Out :=
  runWord (.rfree o) (rfreeChk o)
    (fun c s => holdArrive (.rfree o) .core (.core c.w.launch c.w.group ((s.ring c.w (ringAt o.a c)).free (rfreeSlot o c)))
      (rfreeHandle o c s) c s)
    (fun c s => effArrive (.core c.w.launch c.w.group ((s.ring c.w (ringAt o.a c)).free (rfreeSlot o c)))
      (rfreeHandle o c s) c s) s

/-! ## Reading (R153, R155, R226) -/

/-- A byte as an engine finds it: where it lies, its value, poison, tag, and whether it could not be reached. -/
structure ERead where
  place  : Option ByteAt
  val    : Byte
  poison : Bool
  tag    : Bool
  lost   : Bool
deriving DecidableEq, Repr

/-- The place of a byte in memory: none while its page is absent or being moved. -/
def State.locAt (s : State) (ag : Nat) (l : ELoc) : Option ByteAt :=
  match l with
  | .glob sp va => match s.xlate ag sp va with
    | .page f big _ => some (f.byteAt big va)
    | _ => none
  | .expo sp va b => match s.xlate ag sp va with
    | .page f big _ => some { f.byteAt big va with pa := f.sframe + va % pageBytes big / (4 * b) }
    | _ => none
  | .scr _ _ _ => none

/-- A core's engine translates through its core, a collective engine through its die (R279). -/
def EngReq.agent (r : EngReq) : Nat := if r.member.isSome then r.die else coreAgent r.die r.core

def State.engByte (s : State) (r : EngReq) (l : ELoc) : Option ERead :=
  match l with
  | .scr la g off => match s.group? la g with
    | none => none
    | some gr => some ⟨none, mapGet 0 gr.scratch off, mapGet false gr.spoison (off / 4), false, false⟩
  | .glob _ _ | .expo _ _ _ => match s.locAt r.agent l with
    | none => none
    | some b =>
      if s.cut r.die b then some ⟨some b, Config.peerByte s.own.free, false, false, true⟩
      else if b.peer.isSome then some ⟨some b, Config.peerByte s.own.free, false, false, false⟩
      else if (s.die b.home).held then none
      else some ⟨some b, s.homeByte b, s.mem.poisoned b.pa, mapGet false s.mem.tags (b.pa / 16), false⟩

/-- The locations that one destination byte is made from. -/
def ByteSrc.locs : ByteSrc → List ELoc
  | .copy l => [l]
  | .mant _ f es _ => es.flatMap (fun e => (List.range (f.width / 8)).map e.plus)
  | .expo _ f es => es.flatMap (fun e => (List.range (f.width / 8)).map e.plus)
  | .coll _ ws _ => ws.flatMap (fun w => (List.range 4).map w.plus)

/-- Numbers of the elements that follow one another n bytes apart. -/
def elemsOf (n : Nat) (vals : List Byte) : List Nat :=
  (List.range (vals.length / n)).map (fun i => leNat ((vals.drop (n * i)).take n))

/-- The value of a collective's word (R160). -/
def collWord (op : Nat) (xs : List Nat) : Nat :=
  (fCombine (match op with
    | 0 => .add
    | 1 => .max
    | _ => .min) xs).1

def ByteSrc.value (src : ByteSrc) (vals : List Byte) : Byte :=
  match src with
  | .copy _ => vals.headD 0
  | .mant b f _ k => (mantBytes b (quantise b f (elemsOf (f.width / 8) vals)).2).getD k 0
  | .expo b f _ => BitVec.ofNat 8 (quantise b f (elemsOf (f.width / 8) vals)).1
  | .coll op _ k => (leBytes 4 (collWord op (elemsOf 4 vals))).getD k 0

/-- The reads of a piece's bytes: none where one must wait. -/
def State.readPiece (s : State) (r : EngReq) (p : Piece) : Option (List (List ERead)) :=
  p.src.mapM (fun b => b.locs.mapM (s.engByte r))

def readData (src : List ByteSrc) (rs : List (List ERead)) : List (Byte × Bool × Bool) :=
  (src.zip rs).map (fun br => (br.1.value (br.2.map (·.val)), br.2.any (·.poison), br.2.all (·.tag)))

/-- The source locations whose reading is charged: a block's elements once, with its first mantissa byte (log entry 89). -/
def ByteSrc.charged (b : ByteSrc) : List ELoc :=
  match b with
  | .copy l => [l]
  | .mant _ _ _ k => if k = 0 then b.locs else []
  | .expo _ _ _ | .coll _ _ _ => []

/-- What a request's transfer takes of the buckets (R306), for bytes at some places. -/
def State.spendPlaces (s : State) (die world : Nat) (bs : List ByteAt) : Option State :=
  match bs with
  | [] => some s
  | b :: _ => s.spendMem die world b.home b.peer.isSome bs.length

/-- A wave's failure after acceptance (R155). -/
def EngReq.pend (r : EngReq) (f : FaultName) (addr : Nat) : PendFault :=
  ⟨f, 2 * r.id + 1, r.pc, r.active, (maskLanes r.active).headD 0, BitVec.ofNat 64 addr⟩

/-- Every earlier operation of the wave has been performed, those that a discard or a context save keeps among them, and no earlier acquire
stands (R153, R222). -/
def State.reqReady (s : State) (r : EngReq) : Bool :=
  (match s.waveAnywhere? r.wave with
    | none => true
    | some w => w.entries.all (fun e => r.before ≤ e.id) && (s.gridOf w).all (fun g => r.before ≤ g.entry) && !w.fenced r.before)
    && s.ord.overlay.all (fun e => e.wave != r.wave || r.before ≤ e.entry)

/-- The four members' requests of one collective, by position. -/
def State.members (s : State) (r : EngReq) : List EngReq :=
  match r.member with
  | none => []
  | some (q, _, n) => (List.range 4).filterMap (fun m => s.reqs.find? (fun x => x.launch == r.launch && x.member == some (q, m, n)))

/-- A collective reads the sources of all its members. -/
def State.mayRead (s : State) (r : EngReq) : Bool := s.reqReady r && (s.members r).all s.reqReady

/-- Requests of one wave on one engine begin in acceptance order (R153, R162). -/
def State.inTurn (s : State) (r : EngReq) : Bool :=
  (s.reqs.takeWhile (fun q => q.id != r.id)).all (fun q => q.wave != r.wave || q.member.isSome != r.member.isSome || q.begun)

def EngReq.piece? (r : EngReq) (id : Nat) : Option Piece := r.pieces.find? (fun p => p.id == id)

def State.frozenAt (s : State) (die : Nat) : Bool :=
  match s.part? (s.partOf die) with
  | none => false
  | some p => p.frozen || s.switching p

def State.engPlaces (rs : List (List ERead)) : List ByteAt := rs.flatMap (fun r => r.filterMap (·.place))

/-- The places whose reading a piece is charged for. -/
def State.chargedPlaces (s : State) (r : EngReq) (p : Piece) : List ByteAt :=
  unionNew [] ((p.src.flatMap ByteSrc.charged).filterMap (s.locAt r.agent))

def State.canEngineRead (s : State) (req piece : Nat) : Bool :=
  match s.req? req with
  | none => false
  | some r => match r.piece? piece with
    | none => false
    | some p =>
      r.started && p.data.isNone && s.mayRead r && s.inTurn r && !s.frozenAt r.die && !(s.die r.die).held
        && (s.readPiece r p).isSome && (s.spendPlaces r.die (s.launchWorld r.launch) (s.chargedPlaces r p)).isSome
        && !s.logsFull r.die (s.chargedPlaces r p)

def EngReq.onPiece (r : EngReq) (id : Nat) (f : Piece → Piece) : EngReq :=
  { r with pieces := updBy (fun p => p.id == id) f r.pieces }

/-- The first of a piece's source locations, in its order, whose read is bad. -/
def Piece.firstAt (p : Piece) (rs : List (List ERead)) (bad : ERead → Bool) : Nat :=
  match ((p.src.flatMap ByteSrc.locs).zip rs.flatten).find? (fun x => bad x.2) with
  | none => 0
  | some x => x.1.num

/-- A failure that some of a piece's reads meet. -/
def State.readFails (s : State) (r : EngReq) (p : Piece) (rs : List (List ERead)) (f : FaultName) (bad : ERead → Bool) : State :=
  if rs.any (fun x => x.any bad) then s.pendOnce r.wave (r.pend f (p.firstAt rs bad)) else s

/-- The piece's bytes are read; a peer may refuse (R285, R155). -/
def State.doEngineRead (s : State) (req piece : Nat) : State :=
  match s.req? req with
  | none => s
  | some r => match r.piece? piece with
    | none => s
    | some p => match s.readPiece r p with
      | none => s
      | some rs =>
        let wd := s.launchWorld r.launch
        let bs := s.chargedPlaces r p
        let n := (((s.spendPlaces r.die wd bs).getD s).countBytes wd r.die bs).freeNo
        let s := (farHomes r.die bs).foldl (fun s h => s.sendNow r.die h (.engineRead req piece) (s.repairs r.launch)) n.2
        let s := s.onReq req (fun r =>
          { r.onPiece piece (fun p => { p with data := some (readData p.src rs) }) with begun := true })
        let far := fun x : ERead => !x.lost && (match x.place with
          | none => false
          | some b => b.peer.isSome)
        let s := (s.readFails r p rs .poison (·.poison)).readFails r p rs .remoteUnreachable (·.lost)
        if rs.any (fun x => x.any far) && Config.peerRefuses n.1 then s.readFails r p rs .remoteRefused far else s

/-- The homes on other dies that a piece reads admit it now (R330). -/
def State.engineAsksNow (s : State) (req piece : Nat) : Bool :=
  match s.req? req with
  | none => false
  | some r => match r.piece? piece with
    | none => false
    | some p => match s.readPiece r p with
      | none => false
      | some rs => (farHomes r.die (State.engPlaces rs)).all s.admits

/-- ENGINE_READ. -/
def State.readPlaces (s : State) (req piece : Nat) : List ByteAt :=
  match s.req? req with
  | none => []
  | some r => match r.piece? piece with
    | none => []
    | some p => match s.readPiece r p with
      | none => []
      | some rs => State.engPlaces rs

def execEngineRead (req piece : Nat) (s : State) : Out :=
  guardHole (s.readPlaces req piece) (runEvent "ENGINE_READ" (s.canEngineRead req piece && s.engineAsksNow req piece) (s.doEngineRead req piece))

/-! ## Landing (R153, R155, R212, R226, R299) -/

/-- A destination byte as it lands. -/
structure ECell where
  loc    : ELoc
  place  : Option ByteAt
  val    : Byte
  poison : Bool
  tag    : Bool
deriving DecidableEq, Repr

def State.landCell (s : State) (l : ELoc) (b : Option ByteAt) (v : Byte × Bool × Bool) : Option ECell :=
  match l, b with
  | .scr la g _, _ => if (s.group? la g).isSome then some ⟨l, none, v.1, v.2.1, v.2.2⟩ else none
  | _, none => none
  | _, some b => if b.peer.isNone && (s.die b.home).held then none else some ⟨l, some b, v.1, v.2.1, v.2.2⟩

/-- The destination bytes of a piece with their places: those that it was sent to, or those that it would be sent to now. -/
def State.landCells (s : State) (r : EngReq) (p : Piece) : Option (List ECell) :=
  match p.data with
  | none => none
  | some d => ((p.dst.zip ((p.sent.map (·.1)).getD (p.dst.map (s.locAt r.agent)))).zip d).mapM (fun x => s.landCell x.1.1 x.1.2 x.2)

/-- The channel that a piece crosses to a home on another die (R219): once it is sent, the one that it was sent on (R329). A piece to a die
that no route serves goes nowhere. -/
def State.landChan (s : State) (r : EngReq) (p : Piece) (cs : List ECell) : Option ChanRef :=
  match p.sent, cs.findSome? (·.place) with
  | some x, _ => some x.2
  | none, none => none
  | none, some b => if b.peer.isNone && b.home != r.die && s.reachable r.die b.home then some ⟨r.die, b.home, 0⟩ else none

/-- R226: a landed piece is counted once, when it is settled at the object's scope and the log to the object's die has room (R333); the
object of a discarded group waits for the group (R234). -/
def State.landSettled (s : State) (r : EngReq) (p : Piece) (w : Nat) : Bool :=
  !p.posted && s.settledAll r.die r.core r.scope [w] && (s.obj? p.obj).isSome && !(s.repairs r.launch && s.sendsStalled r.die (objDie p.obj)) && (match p.obj with
    | .net .quad _ _ => (s.group? r.launch r.group).isSome
    | _ => true)

/-- Bytes that come from memory: on a deterministic die they are admitted at a round boundary (R330). -/
def Piece.fromMemory (p : Piece) : Bool := p.src.any (fun b => b.locs.any (fun l => match l with
  | .scr _ _ _ => false
  | .glob _ _ | .expo _ _ _ => true))

/-- What a piece's landing needs, but for the round boundary of its own die. -/
def State.mayLand (s : State) (req piece : Nat) : Bool :=
  match s.req? req with
  | none => false
  | some r => match r.piece? piece with
    | none => false
    | some p => !(s.die r.die).held && (match p.wid with
      | some w => s.landSettled r p w
      | none => match s.landCells r p with
        | none => false
        | some cs =>
          let bs := cs.filterMap (·.place)
          let pays := (s.spendPlaces r.die (s.launchWorld r.launch) bs).isSome && !s.invalsStalled bs
          match s.landChan r p cs with
          | none => pays
          | some ch => if p.sent.isSome then s.headMsg? ch == some (.landing req piece) && s.admits ch.dst && !s.invalsStalled bs
              else pays && !s.sendsStalled ch.src ch.dst)

def State.atBoundaryOnly (s : State) (req piece : Nat) : Bool :=
  match s.req? req with
  | none => false
  | some r => s.deterministic r.die && (match r.piece? piece with
    | none => false
    | some p => p.wid.isNone && p.sent.isNone && p.fromMemory)

def State.canEngineLanding (s : State) (req piece : Nat) : Bool := s.mayLand req piece && !s.atBoundaryOnly req piece

/-- Whether a byte's landing is refused, by R326. -/
def State.refusedAt (s : State) (die : Nat) (b : ByteAt) : Bool := b.peer.isNone && b.home != die && !s.frameOwned b

/-- The granules that land whole with tagged sources (R299). -/
def tagsOf (cell : List (ECell × ByteSrc)) : List Nat :=
  let sp := fun (b : ByteSrc) => match b with
    | .copy (.glob s va) => some (s, va)
    | _ => none
  (cell.filterMap (fun c => match c.1.place, c.1.loc, sp c.2 with
    | some b, .glob ds va, some (ss, sva) =>
      if va % 16 = 0 && sva % 16 = 0 && ds = ss
        && (List.range 16).all (fun i => cell.any (fun d => d.1.loc == .glob ds (va + i) && sp d.2 == some (ss, sva + i) && d.1.tag))
      then some (b.pa / 16) else none
    | _, _, _ => none))

/-- Scratchpad bytes land; a whole word without poison loses its mark, a poisoned byte marks its word. -/
def Group.land (g : Group) (wid : Nat) (cs : List ECell) : Group :=
  let offs := cs.map (fun c => c.loc.num)
  let g : Group := cs.foldl (fun g c => { g with
    scratch := mapSet 0 g.scratch c.loc.num c.val
    wids := mapSet 0 g.wids c.loc.num wid }) g
  { g with spoison := cs.foldl (fun m c =>
      let k := c.loc.num / 4
      if cs.any (fun d => d.poison && d.loc.num / 4 == k) then mapSet false m k true
      else if (List.range 4).all (fun i => offs.contains (4 * k + i)) then mapSet false m k false else m) g.spoison }

/-- A destination whose page has been sealed since the request was accepted: the store raises LEASE (R280; DESIGN CHOICE, log entry 124). -/
def State.sealedDst (s : State) (r : EngReq) (l : ELoc) : Bool :=
  match l with
  | .scr _ _ _ => false
  | .glob sp va | .expo sp va _ => match s.xlate r.agent sp va with
    | .page f _ _ => f.sealed
    | _ => false

/-- Landings that R326 refuses: one entry of the fault log and one failure of the wave for the instruction. -/
def State.refuseLanding (s : State) (r : EngReq) (b : ByteAt) (num : Nat) : State :=
  if r.refused then s
  else
    let s := (s.logSource b.home 6 num r.source r.pc).pendOnce r.wave (r.pend .remoteRefused num)
    s.onReq r.id (fun q => { q with refused := true })

/-- A tag of a repairable launch's copy is set again by a replay (R334, R299). -/
def State.redoTag (s : State) (die granule : Nat) : State :=
  s.onRepair die (fun r => { r with
    undo := updBy (fun u => u.line == granule / 8) (fun u => { u with retags := u.retags.set (granule % 8) true }) r.undo })

/-- The bytes of a piece take effect. -/
def State.landBytes (s : State) (r : EngReq) (p : Piece) (cs : List ECell) : State :=
  let placed := (cs.zip p.src).filterMap (fun c => c.1.place.map (fun b => (b, c)))
  let cut := fun b : ByteAt => p.sent.isNone && s.cut r.die b
  let shut := placed.filter (fun c => s.sealedDst r c.2.1.loc)
  let placed := placed.filter (fun c => !s.sealedDst r c.2.1.loc)
  let good := placed.filter (fun c => !cut c.1 && !s.refusedAt r.die c.1 && c.1.peer.isNone)
  let n := s.newWrite (good.map (fun c => c.1.pa)) none
  let tags := if r.carry then tagsOf (good.map (·.2)) else []
  let t := n.2.performBytes (good.map (fun c => (c.1, c.2.1.val))) n.1 (some r.launch)
  let t := if s.repairs r.launch then tags.foldl (fun t g => (List.range 8).foldl (fun t d => t.redoTag d g) t) t else t
  let t : State := { t with mem := { t.mem with
    poison := good.foldl (fun m c => if c.2.1.poison then mapSet false m (eccKey c.1.pa) true else m) t.mem.poison
    tags := tags.foldl (fun m g => mapSet false m g true) t.mem.tags } }
  let t : State := { t with groups := t.groups.map (fun g : Group => g.land n.1 (cs.filter (fun c => match c.loc with
    | .scr l k _ => l == g.launch && k == g.index
    | _ => false))) }
  let t := match shut.head? with
    | none => t
    | some c => t.pendOnce r.wave (r.pend .lease c.2.1.loc.num)
  let t := match placed.find? (fun c => !cut c.1 && s.refusedAt r.die c.1) with
    | none => t
    | some c => t.refuseLanding r c.1 c.2.1.loc.num
  let t := match placed.find? (fun c => cut c.1) with
    | none => t
    | some c => t.pendOnce r.wave (r.pend .remoteUnreachable c.2.1.loc.num)
  let t := match placed.find? (fun c => c.1.peer.isSome && !cut c.1) with
    | none => t
    | some c =>
      let f := t.freeNo
      if Config.peerRefuses f.1 then f.2.pendOnce r.wave (r.pend .remoteRefused c.2.1.loc.num) else f.2
  t.onReq r.id (fun q => q.onPiece p.id (fun p => { p with wid := some n.1 }))

/-- The piece leaves the engine, and takes its grains (R306). -/
def State.landPaid (s : State) (r : EngReq) (cs : List ECell) : State :=
  (s.spendPlaces r.die (s.launchWorld r.launch) (cs.filterMap (·.place))).getD s

/-- A landed piece is counted as it lands (R316, R319). -/
def State.landCounted (s : State) (r : EngReq) (cs : List ECell) : State :=
  s.countBytes (s.launchWorld r.launch) r.die (cs.filterMap (·.place))

/-- The piece's event goes to its object (R226), and the piece is counted when it has reached it (R191). One to a die that no route serves
is lost, as a wave's is (log entry 122). -/
def State.countPiece (s : State) (r : EngReq) (p : Piece) (w : Nat) : State :=
  let op := BarOp.landing p.count [w]
  let s := s.onLaunch r.launch (fun l => { l with seen := addNew l.seen w })
  match p.obj with
  | .core _ _ _ => (s.applyEvent p.obj op (handleBits p.obj)).dropPiece r.id p.id
  | .net _ _ _ =>
    if !s.reachable r.die (objDie p.obj) then
      (s.pendOnce r.wave (r.pend .remoteUnreachable (handleBits p.obj).toNat)).dropPiece r.id p.id
    else (s.onReq r.id (fun q => q.onPiece p.id (fun p => { p with posted := true }))).post
      (chanOf r.die r.core (objDie p.obj)) (.event p.obj op (some (.piece r.id p.id))) (s.repairs r.launch)

def State.landCount (s : State) (req piece : Nat) : State :=
  match s.req? req with
  | none => s
  | some r => match r.piece? piece with
    | none => s
    | some p => match p.wid with
      | none => s
      | some w => if s.landSettled r p w then s.countPiece r p w else s

def State.doEngineLanding (s : State) (req piece : Nat) : State :=
  match s.req? req with
  | none => s
  | some r => match r.piece? piece with
    | none => s
    | some p => match p.wid with
      | some _ => s.landCount req piece
      | none => match s.landCells r p with
        | none => s
        | some cs => match s.landChan r p cs with
          | none => (((s.landPaid r cs).landCounted r cs).landBytes r p cs).landCount req piece
          | some ch =>
            if p.sent.isSome then (((s.popMsg ch).landCounted r cs).landBytes r p cs).landCount req piece
            else ((s.landPaid r cs).onReq req (fun q => q.onPiece piece (fun p => { p with sent := some (cs.map (·.place), ch) }))).post
              ch (.landing req piece) (s.repairs r.launch)

/-- The places that a piece lands at. -/
def State.landPlaces (s : State) (req piece : Nat) : List ByteAt :=
  match s.req? req with
  | none => []
  | some r => match r.piece? piece with
    | none => []
    | some p => match s.landCells r p with
      | none => []
      | some cs => cs.filterMap (·.place)

/-- ENGINE_LANDING: a piece for another die's memory is sent on its channel, and lands at its head (R226); then its event is
placed, once its bytes are settled. -/
def execEngineLanding (req piece : Nat) (s : State) : Out :=
  guardHole (s.landPlaces req piece) (runEvent "ENGINE_LANDING" (s.canEngineLanding req piece) (s.doEngineLanding req piece))

/-! ## RING_FREE_WAIT_MET (R162) -/

def State.canRingMet (s : State) (req : Nat) : Bool :=
  match s.req? req with
  | none => false
  | some r => match r.ring with
    | none => false
    | some (o, t) => !r.started && !(s.die r.die).held && (s.objPoisoned o || (match s.obj? o with
      | none => false
      | some b => (b.phase + 16 - t) % 16 != 0))

/-- The push begins.  A poisoned free object ends the launches that use it (R323), and the accepted
push begins all the same.  DESIGN CHOICE (log 120). -/
def State.doRingMet (s : State) (req : Nat) : State :=
  match (s.req? req).bind (·.ring) with
  | none => s
  | some (o, _) => (if s.objPoisoned o then s.endUsers o (handleBits o) else s).onReq req (fun r => { r with started := true })

def execRingFreeWaitMet (req : Nat) (s : State) : Out :=
  runEvent "RING_FREE_WAIT_MET" (s.canRingMet req) (s.doRingMet req)

/-! ## COLL_START (R160) -/

def EngReq.op (r : EngReq) (k : Nat) : Nat := r.ops.getD k 0

/-- The pieces of a member: operands of member 0, its own scratchpad and object. -/
def collPieces (zero r : EngReq) (ms : List EngReq) : List Piece :=
  let n := zero.op 2
  let src := fun (m : EngReq) d => ELoc.scr m.launch m.group (zero.op 0 + d)
  let dst := fun d => ELoc.scr r.launch r.group (zero.op 1 + d)
  let body : List (ELoc × Option ByteSrc) :=
    match zero.op 3 with
    | 3 => (ms.zipIdx.filter (fun m => (zero.op 4).testBit m.2)).flatMap (fun m =>
        (List.range n).map (fun i => (dst i, some (ByteSrc.copy (src m.1 i)))))
    | 4 => ms.zipIdx.flatMap (fun m => (List.range n).map (fun i => (dst (m.2 * n + i), some (ByteSrc.copy (src m.1 i)))))
    | op => (List.range n).map (fun i => (dst i, some (ByteSrc.coll op (ms.map (fun m => src m (i / 4 * 4))) (i % 4))))
  piecesOf ELoc.num 0 (objIn r.obj r.group) ⟨[], body, []⟩

def State.canCollStart (s : State) (req : Nat) : Bool :=
  match s.req? req with
  | none => false
  | some r =>
    let ms := s.members r
    !r.started && ms.length == 4 && (match ms with
      | z :: _ => z.op 5 ≤ s.pkg.tick
      | [] => false)

def State.doCollStart (s : State) (req : Nat) : State :=
  match s.req? req with
  | none => s
  | some r => match s.members r with
    | [] => s
    | z :: rest =>
      let ms := z :: rest
      let s : State := { s with reqs := s.reqs.map (fun q : EngReq =>
        if ms.any (fun m => m.id == q.id) then { q with started := true, pieces := collPieces z q ms } else q) }
      { s with reqs := s.reqs.filter (fun q => !(ms.any (fun m => m.id == q.id) && q.pieces.isEmpty)) }

def execCollStart (req : Nat) (s : State) : Out :=
  runEvent "COLL_START" (s.canCollStart req) (s.doCollStart req)

end Sys2Proof.Machine
end

