-- ==== Sys2Proof/Machine/Matrix.lean ====
section
/-! DEFINITION. Machine/Matrix.lean: MMODE, MZERO, MMA, MEPI and MSTS (R164 to R170) and the landing of grid operations (R50, R51, R64): operands are staged at issue, results are written when they land. -/

namespace Sys2Proof.Machine

/-! ## MMODE (R164) -/

/-- MMODE.on: every resident fibre at one window base. The failing lane is the lowest whose base is not that of the lowest
resident fibre (R32). -/
def oneBase (c : Ctx) : Option Chk :=
  match c.w.fibres.find? (fun f => some f.winbase != (c.w.fibres.head?).map (fun g => g.winbase)) with
  | some f => some { fault := .nonuniform, step := 12, lane := f.lane }
  | none => none

/-- The wave's mode, and with it the quarter's wiring (R60). -/
def setMode (m : Bool) (c : Ctx) (s : State) : State :=
  if c.w.matrix = m then s
  else (s.onWave c.w.uid (fun w => { w with matrix := m })).onQuarter c.w.loc.die c.w.loc.core c.w.loc.quarter
    (fun q => { q with matrix := m })

/-- Waits until the wave's grid operations have landed. -/
def holdLand (c : Ctx) (s : State) : Option State :=
  if (s.gridOf c.w).isEmpty then none else some (s.stall c .land)

/-- MMODE.on. -/
def execMmodeOn (o : OpBare) (s : State) : Out := runWord (.mmodeOn o) (fun c _ => oneBase c) noHold (setMode true) s

/-- MMODE.off. -/
def execMmodeOff (o : OpBare) (s : State) : Out := runWord (.mmodeOff o) noChk holdLand (setMode false) s

/-! ## Entering the grid (R165) -/

def blankGrid (i : Instr) (c : Ctx) : GridOp where
  wave := c.w.uid
  entry := c.w.nextEntry
  pc := c.pc
  active := laneMask c.act
  instr := i
  base := c.base
  rowsA := []
  rowsB := []
  expA := []
  expB := []
  offsA := []
  offsB := []
  poisoned := ([], [])
  paddr := 0
  params := []

/-- An operation joins the quarter's grid, and marks v64 to v127. -/
def State.enterGrid (s : State) (c : Ctx) (g : GridOp) : State :=
  (s.onWave c.w.uid (fun w => { w with
    marks := w.marks ++ [⟨.grid c.base, w.nextEntry⟩], nextEntry := w.nextEntry + 1 })).onQuarter
    c.w.loc.die c.w.loc.core c.w.loc.quarter (fun q => { q with grid := q.grid ++ [g] })

/-- MZERO. -/
def execMzero (o : OpBare) (s : State) : Out :=
  runWord (.mzero o) noChk holdLand (fun c s => s.enterGrid c (blankGrid (.mzero o) c)) s

/-! ## MMA operands (R166, R167) -/

structure Desc where
  base   : Nat
  rpitch : Nat
  tpitch : Nat
  rot    : Nat
  fmtc   : Nat
  expoff : Nat
  rsv    : Bool
deriving DecidableEq, Repr

def descOf (lo hi : W64) : Desc where
  base := (lo.extractLsb' 0 32).toNat
  rpitch := (lo.extractLsb' 32 16).toNat
  tpitch := (hi.extractLsb' 0 16).toNat
  rot := (hi.extractLsb' 16 3).toNat
  fmtc := (hi.extractLsb' 20 4).toNat
  expoff := (hi.extractLsb' 32 32).toNat
  rsv := lo.extractLsb' 48 16 != 0 || hi.getLsbD 19 || hi.extractLsb' 24 8 != 0

/-- The address of word u of row i at a K-step. -/
def Desc.word (d : Desc) (k i u : Nat) : Nat :=
  let x := k * d.tpitch / 4 + u
  if d.rot = 0 then d.base + i * d.rpitch + 4 * x
  else d.base + i * d.rpitch + 4 * ((x + i * rotStep d.rot) % (d.rpitch / 4))

def Desc.expo (d : Desc) (k i : Nat) : Nat := d.expoff + 64 * k + i

/-- FORMAT at step 17. -/
def Desc.bad (d : Desc) (f : MFmt) : Bool :=
  d.rsv || d.base % 4 != 0 || d.rpitch % 4 != 0 || d.tpitch % 4 != 0 || (d.rot != 0 && d.rpitch = 0) || d.fmtc != f.code.toNat

def descAt (c : Ctx) (x : MSrc) : Option Desc :=
  match x with
  | .regs _ => none
  | .desc s => some (descOf (c.w.sget s.toNat) (c.w.sget (s.toNat + 1)))

/-- The scratchpad offsets of an operand: of its words, row by row, and of its exponents. -/
def wordOffs (f : MFmt) (d : Desc) (k : Nat) : List Nat :=
  (List.range 64).flatMap (fun i => (List.range f.slice).map (d.word k i))
def expoOffs (f : MFmt) (d : Desc) (k : Nat) : List Nat :=
  match f.block with
  | none => []
  | some _ => (List.range 64).map (d.expo k)

/-- The first byte past the scratchpad: of the words, but where a rotation modulo 0 gives them no address, then of the
exponents. -/
def descLease (f : MFmt) (k size : Nat) (d : Desc) : Option Nat :=
  let words := if d.rot != 0 && d.rpitch / 4 = 0 then [] else wordOffs f d k
  match words.find? (fun a => size < a + 4) with
  | some a => some (max a size)
  | none => (expoOffs f d k).find? (fun a => size ≤ a)

def mmaChk (o : OpMma) (c : Ctx) (s : State) : Option Chk :=
  let size := s.scratchSize c.w
  let ds := (descAt c o.a).toList ++ (descAt c o.b).toList
  match ds.findSome? (descLease o.fmt o.kappa.toNat size) with
  | some a => some { fault := .lease, step := 16, lane := c.low, addr := BitVec.ofNat 64 a }
  | none => if ds.any (fun d => d.bad o.fmt) then some { fault := .format, step := 17, lane := c.low } else none

/-! ## Staging (R59, R168) -/

def scratchWord (g : Group) (off : Nat) : Nat := leNat (mapRun 0 g.scratch off 4)

/-- An operand's rows as numbers, one per row, and its exponents. -/
def stageRegs (c : Ctx) (f : MFmt) (r e : Nat) : List (List Nat) × List Nat :=
  ((List.range 64).map (fun i => (List.range f.slice).map (fun u => (c.w.slice (c.base + r + u) i).toNat)),
   match f.block with
   | none => []
   | some _ => (List.range 64).map (fun i => (c.w.slice (c.base + e) i).toNat % 256))

def stageDesc (g : Group) (f : MFmt) (k : Nat) (d : Desc) : List (List Nat) × List Nat :=
  ((List.range 64).map (fun i => (List.range f.slice).map (fun u => scratchWord g (d.word k i u))),
   (expoOffs f d k).map (fun a => (mapGet 0 g.scratch a).toNat))

def descPoison (g : Group) (f : MFmt) (k : Nat) (d : Desc) : List Bool :=
  (List.range 64).map (fun i => (List.range f.slice).any (fun u => mapGet false g.spoison (d.word k i u / 4))
    || (match f.block with
        | none => false
        | some _ => mapGet false g.spoison (d.expo k i / 4)))

structure Staged where
  rows   : List (List Nat)
  exps   : List Nat
  offs   : List Nat
  poison : List Bool
  bad    : List Nat
deriving DecidableEq, Repr

def stage (g : Option Group) (c : Ctx) (len : Len) (f : MFmt) (k : Nat) (x : MSrc) (e : BitVec 7) : Staged :=
  match x, descAt c x, g with
  | .regs r, _, _ =>
    let p := stageRegs c f r.toNat (mmaExp len f x e)
    ⟨p.1, p.2, [], [], []⟩
  | .desc _, some d, some g =>
    let p := stageDesc g f k d
    let offs := wordOffs f d k ++ expoOffs f d k
    ⟨p.1, p.2, offs, descPoison g f k d, offs.filter (fun a => mapGet false g.spoison (a / 4))⟩
  | .desc _, _, _ => ⟨[], [], [], [], []⟩

/-- Scratchpad operands observe the wave's earlier stores: an MMA that reads scratchpad waits for them. -/
def holdMma (o : OpMma) (c : Ctx) (s : State) : Option State :=
  let reads := (descAt c o.a).isSome || (descAt c o.b).isSome
  let stores := c.w.entries.any (fun e => (e.kind == .store || e.kind == .atomic) && e.accs.any (·.scratch))
    || (s.gridOf c.w).any (fun g => storesGrid g.instr)
  if reads && stores then some (s.stall c .drain) else none

def mmaEff (o : OpMma) (c : Ctx) (s : State) : State :=
  let g := s.group? c.w.launch c.w.group
  let a := stage g c o.len o.fmt o.kappa.toNat o.a o.ea
  let b := stage g c o.len o.fmt o.kappa.toNat o.b o.eb
  s.enterGrid c { blankGrid (.mma o) c with
    rowsA := a.rows
    rowsB := b.rows
    expA := a.exps
    expB := b.exps
    offsA := a.offs
    offsB := b.offs
    poisoned := (a.poison, b.poison)
    paddr := (a.bad ++ b.bad).headD 0 }

/-- MMA: its operands are staged at issue. -/
def execMma (o : OpMma) (s : State) : Out := runWord (.mma o) (mmaChk o) (holdMma o) (mmaEff o) s

/-! ## MMA_LANDING (R50, R64, R168) -/

/-- A racing byte reaches the grid in its staged or in its present state (log entry 15). -/
def raceByte (no : Nat) (old new : Nat) : Nat := if Config.raceBit no then new else old

def raceWord (no old new : Nat) : Nat :=
  if old = new then old
  else leNat (((leBytes 4 old).zip (leBytes 4 new)).zipIdx.map (fun x =>
    BitVec.ofNat 8 (raceByte (no + x.2) x.1.1.toNat x.1.2.toNat)))

/-- The rows and exponents of an operand as the grid read them. -/
def settleRows (no : Nat) (g : Option Group) (slice : Nat) (rows : List (List Nat)) (exps offs : List Nat) :
    List (List Nat) × List Nat :=
  match g with
  | none => (rows, exps)
  | some g =>
    if offs.isEmpty then (rows, exps)
    else
      let word := fun i u old => raceWord (no + 4 * (i * slice + u)) old (scratchWord g (offs.getD (i * slice + u) 0))
      (rows.zipIdx.map (fun r => r.1.zipIdx.map (fun x => word r.2 x.2 x.1)),
       exps.zipIdx.map (fun e =>
         let new := (mapGet 0 g.scratch (offs.getD (64 * slice + e.2) 0)).toNat
         if e.1 = new then new else raceByte (no + 4 * 64 * slice + e.2) e.1 new))

/-- K: 16 elements of .bf16 and .f16, 32 of the others (R50). -/
def mTerms (f : MFmt) : Nat :=
  match f with
  | .bf16 | .f16 => 16
  | _ => 32

/-- The element format where there is no block. -/
def mElem (f : MFmt) : FFmt :=
  match f with
  | .f16 => .f16
  | .e4m3 => .e4m3
  | .e5m2 => .e5m2
  | _ => .bf16

/-- A slice as one little-endian number. -/
def sliceNat (ws : List Nat) : Nat := ws.foldr (fun w acc => w + 2 ^ 32 * acc) 0

/-- The exact elements of a slice (R35, R44). -/
def elemsIn (f : MFmt) (n : Nat) : List Fx :=
  (List.range (mTerms f)).map (fun k => match f.block with
    | some b => let m := mantOf b n k; .fin (m < 0) m.natAbs 0
    | none => fDecode (mElem f) (elemBits (mElem f).width k n))

/-- One accumulator element of MMA (R50). -/
def mmaResult (f : MFmt) (a b : List Fx) (ea eb c : Nat) : FRes :=
  match f.block with
  | none => mmaElem ((a.zip b).map (fun p => p.1.mul p.2)) 0 c
  | some w =>
    if ea = 255 || eb = 255 then fSum .f32 .rne [some (.nan false), some (fDecode .f32 c)]
    else mmaElem ((a.zip b).map (fun p => p.1.mul p.2)) (Int.ofNat ea + Int.ofNat eb - 254 - 2 * (Int.ofNat w - 1)) c

/-- Writes lane j of v(64 + i) for every i and j. -/
def Wave.setGrid (w : Wave) (entry base : Nat) (f : Nat → Nat → Nat) : Wave :=
  (List.range 64).foldl (fun w i => w.landSlices entry (base + 64 + i) (List.range 64) (fun j => BitVec.ofNat 32 (f i j))) w

def Wave.accAt (w : Wave) (base i j : Nat) : Nat := (w.valueAt (base + 64 + i) j).toNat

def macClass (f : MFmt) : Nat :=
  match f with
  | .bf16 | .f16 => 1
  | .e4m3 | .e5m2 => 2
  | .q5 | .q6 | .q7 | .q8 => 3
  | .q2 | .q3 | .q4 => 4

def State.popGrid (s : State) (q : QRef) : State :=
  s.onQuarter q.die q.core q.quarter (fun x => { x with grid := x.grid.tail })

def State.gridHead (s : State) (q : QRef) : Option GridOp := (s.quarter q.die q.core q.quarter).grid.head?

/-- Its imprecise POISON: ADDR is the first poisoned or refused offset (R240). -/
def gridPend (g : GridOp) (addr : Nat) : PendFault := ⟨.poison, 2 * g.entry, g.pc, g.active, (maskLanes g.active).headD 0, BitVec.ofNat 64 addr⟩

/-- The results of an MMA for its wave. -/
def landMma (o : OpMma) (g : GridOp) (no : Nat) (gr : Option Group) (w : Wave) : Wave :=
  let a := settleRows no gr o.fmt.slice g.rowsA g.expA g.offsA
  let b := settleRows (no + 4096) gr o.fmt.slice g.rowsB g.expB g.offsB
  let ra := a.1.map (fun r => elemsIn o.fmt (sliceNat r))
  let rb := b.1.map (fun r => elemsIn o.fmt (sliceNat r))
  let bad := fun i j => g.poisoned.1.getD i false || g.poisoned.2.getD j false
  let res : Nat → Nat → FRes := fun i j =>
    if bad i j then (FFmt.cnan .f32, 0)
    else mmaResult o.fmt (ra.getD i []) (rb.getD j []) (a.2.getD i 0) (b.2.getD j 0) (w.accAt g.base i j)
  let table := (List.range 64).map (fun i => (List.range 64).map (fun j => res i j))
  let at_ := fun i j => (table.getD i []).getD j (0, 0)
  (w.setGrid g.entry g.base (fun i j => (at_ i j).1)).landFlags g.entry (orFlags (table.flatMap (fun r => r.map (·.2))))

def State.canMmaLanding (s : State) (q : QRef) : Bool :=
  match s.gridHead q with
  | some g => (match g.instr with
    | .mma _ => !(s.die q.die).held
    | _ => false)
  | none => false

/-- The vector waves of a quarter become eligible: rule 4 of R54 counts from now. -/
def State.reeligible (s : State) (q : QRef) : State :=
  { s with waves := updBy (fun w => w.qref == q && !w.matrix) (fun w => { w with waited := 0 }) s.waves }

def State.doMmaLanding (s : State) (q : QRef) : State :=
  match s.gridHead q with
  | none => s
  | some g => match g.instr, s.wave? g.wave with
    | .mma o, some w =>
      let s := s.popGrid q
      let no := s.own.free
      let s := { s with own := { s.own with free := no + 8192 } }
      let s := s.onLanding g.wave (fun w => (landMma o g no (s.group? w.launch w.group) w).closed g.entry)
      let s := s.reeligible q
      let s := s.countL w.launch (macClass o.fmt) (64 * 64 * (mTerms o.fmt))
      if g.poisoned.1.any id || g.poisoned.2.any id then s.pendOnce g.wave (gridPend g g.paddr) else s
    | _, _ => s.popGrid q

/-- MMA_LANDING. -/
def execMmaLanding (q : QRef) (s : State) : Out := runEvent "MMA_LANDING" (s.canMmaLanding q) (s.doMmaLanding q)

/-! ## MEPI (R169) -/

/-- MEPI's fields: the parameter block, the output base and pitch. -/
def mepiParams (o : OpMepi) (c : Ctx) : List Nat :=
  let b := (c.w.sget o.b.toNat).toNat
  [(c.w.sget o.a.toNat).toNat % 2 ^ 32, b % 2 ^ 32, b / 2 ^ 32 % 2 ^ 16]

/-- Where element (i, j) goes. -/
def mepiAt (o : OpMepi) (ps : List Nat) (i j : Nat) : Nat := ps.getD 1 0 + i * ps.getD 2 0 + j * epiBytes o.out

def pairs64 : List (Nat × Nat) := (List.range 64).flatMap (fun i => (List.range 64).map (fun j => (i, j)))

def mepiChk (o : OpMepi) (c : Ctx) (s : State) : Option Chk :=
  let ps := mepiParams o c
  let size := s.scratchSize c.w
  let fail := if size < ps.getD 0 0 + 768 then some (max (ps.getD 0 0) size)
    else (pairs64.find? (fun p => size < mepiAt o ps p.1 p.2 + epiBytes o.out)).map (fun p => max (mepiAt o ps p.1 p.2) size)
  match fail with
  | some a => some { fault := .lease, step := 16, lane := c.low, addr := BitVec.ofNat 64 a }
  | none =>
    if ps.getD 0 0 % 4 != 0 || (c.w.sget o.a.toNat).extractLsb' 32 32 != 0 || (c.w.sget o.b.toNat).extractLsb' 48 16 != 0
    then some { fault := .format, step := 17, lane := c.low } else none

/-- MEPI, and MSTS after it, wait for earlier MMAs to have read scratchpad (R168): they wait for the grid to be empty. -/
def execMepi (o : OpMepi) (s : State) : Out :=
  runWord (.mepi o) (mepiChk o) holdLand
    (fun c s => s.enterGrid c { blankGrid (.mepi o) c with params := mepiParams o c }) s

/-- What a grid operation stores: offset, bytes of the element, its flags, and whether it depends on poison. -/
structure GridStore where
  off    : Nat
  size   : Nat
  bits   : Nat
  flags  : FFlags
  poison : Bool
deriving DecidableEq, Repr

def mepiStores (o : OpMepi) (g : GridOp) (gr : Group) (w : Wave) : List GridStore :=
  let par := fun k => (scratchWord gr (g.params.getD 0 0 + k), mapGet false gr.spoison ((g.params.getD 0 0 + k) / 4))
  pairs64.map (fun p =>
    let r := par (4 * p.1)
    let sc := par (256 + 4 * p.2)
    let b := par (512 + 4 * p.2)
    let bad := r.2 || sc.2 || b.2
    let t : FRes := if bad then (FFmt.cnan .f32, 0)
      else epiScale o.kind o.lo.toNat o.hi.toNat (w.accAt g.base p.1 p.2) r.1 sc.1 b.1
    let out := epiOut o.out t.1
    ⟨mepiAt o g.params p.1 p.2, epiBytes o.out, out.1, if bad then 0 else t.2 ||| out.2, bad⟩)

/-! ## MSTS (R170) -/

def mstsParams (o : OpMsts) (c : Ctx) : List Nat :=
  [(c.w.sget o.a.toNat).toNat % 2 ^ 32, (c.w.sget o.b.toNat).toNat % 2 ^ 16, (c.w.sget o.c.toNat).toNat]

/-- The stored elements in row-major order: row, column, offset. -/
def mstsCells (o : OpMsts) (ps : List Nat) : List (Nat × Nat × Nat) :=
  let size := o.fmt.width / 8
  (List.range o.n.toNat).flatMap (fun r => ((List.range 64).filter (fun j => (ps.getD 2 0).testBit j)).map (fun j =>
    (o.row0.toNat + r, j, ps.getD 0 0 + (if o.trans then j * ps.getD 1 0 + r * size else r * ps.getD 1 0 + j * size))))

def mstsChk (o : OpMsts) (c : Ctx) (s : State) : Option Chk :=
  let size := s.scratchSize c.w
  match (mstsCells o (mstsParams o c)).find? (fun x => size < x.2.2 + o.fmt.width / 8) with
  | some x => some { fault := .lease, step := 16, lane := c.low, addr := BitVec.ofNat 64 (max x.2.2 size) }
  | none =>
    if (c.w.sget o.a.toNat).extractLsb' 32 32 != 0 || (c.w.sget o.b.toNat).extractLsb' 16 48 != 0
    then some { fault := .format, step := 17, lane := c.low } else none

def execMsts (o : OpMsts) (s : State) : Out :=
  runWord (.msts o) (mstsChk o) holdLand
    (fun c s => s.enterGrid c { blankGrid (.msts o) c with params := mstsParams o c }) s

def mstsStores (o : OpMsts) (g : GridOp) (w : Wave) : List GridStore :=
  (mstsCells o g.params).map (fun x =>
    let v := w.accAt g.base x.1 x.2.1
    let r : FRes := if o.fmt = .f32 then (v, 0) else fConvert o.fmt .f32 o.rm v
    ⟨x.2.2, o.fmt.width / 8, r.1, r.2, false⟩)

/-! ## GRID_OP_LANDING (R165, R324) -/

/-- Stores land; an element that covers only part of a poisoned word that the operation leaves in part is not stored. -/
def Group.gridStores (g : Group) (wid : Nat) (xs : List GridStore) : Group :=
  let offs := xs.flatMap (fun x => span x.off x.size)
  let half := fun o => mapGet false g.spoison (o / 4) && !((List.range 4).all (fun k => offs.contains (o / 4 * 4 + k)))
  let good := xs.filter (fun x => !((span x.off x.size).any half))
  let g : Group := good.foldl (fun g x => { g with
    scratch := mapSetRun 0 g.scratch x.off (leBytes x.size x.bits)
    wids := (span x.off x.size).foldl (fun m o => mapSet 0 m o wid) g.wids }) g
  { g with spoison := (good.flatMap (fun x => span x.off x.size)).foldl (fun m o => mapSet false m (o / 4) false) g.spoison }

/-- The scratchpad accesses of the wave before a grid operation have been performed (R126). -/
def State.gridReady (s : State) (g : GridOp) : Bool :=
  match s.wave? g.wave with
  | none => true
  | some w => !storesGrid g.instr
    || w.entries.all (fun e => g.entry ≤ e.id || e.accs.all (fun a => !a.scratch || a.stepped))

def State.canGridOpLanding (s : State) (q : QRef) : Bool :=
  match s.gridHead q with
  | some g => (match g.instr with
    | .mma _ => false
    | _ => s.gridReady g && !(s.die q.die).held)
  | none => false

/-- The first poisoned offset that a storing grid operation reads: of MEPI's parameters, in address order. -/
def gridBad (g : GridOp) (gr : Group) : Nat :=
  match ((List.range 192).map (fun k => g.params.getD 0 0 + 4 * k)).find? (fun a => mapGet false gr.spoison (a / 4)) with
  | none => 0
  | some a => a

/-- A storing grid operation lands in its group's scratchpad. -/
def State.landStores (s : State) (g : GridOp) (w : Wave) (gr : Group) (xs : List GridStore) : State :=
  let offs := xs.flatMap (fun x => span x.off x.size)
  let halves := offs.filter (fun o => mapGet false gr.spoison (o / 4) && !((List.range 4).all (fun k => offs.contains (o / 4 * 4 + k))))
  let half := !halves.isEmpty
  let n := s.newWrite [] none
  let s := n.2.onGroup w.launch w.group (fun gr => gr.gridStores n.1 xs)
  let s := s.onWave w.uid (fun w => ((w.wrote [] n.1).landFlags g.entry (orFlags (xs.map (·.flags)))))
  let s := if half then s.logSource w.loc.die 5 0 w.source g.pc else s
  if half || xs.any (·.poison) then s.pendOnce w.uid (gridPend g (if xs.any (·.poison) then gridBad g gr else halves.headD 0)) else s

def State.doGridOpLanding (s : State) (q : QRef) : State :=
  match s.gridHead q with
  | none => s
  | some g => match s.wave? g.wave with
    | none => s.popGrid q
    | some w =>
      let t := s.popGrid q
      match g.instr, s.group? w.launch w.group with
      | .mzero _, _ => t.onLanding w.uid (fun w => (w.setGrid g.entry g.base (fun _ _ => 0)).closed g.entry)
      | .mepi o, some gr => (t.landStores g w gr (mepiStores o g gr w)).onWave w.uid (fun w => w.closed g.entry)
      | .msts o, some gr => (t.landStores g w gr (mstsStores o g w)).onWave w.uid (fun w => w.closed g.entry)
      | _, _ => t.onWave w.uid (fun w => w.closed g.entry)

/-- GRID_OP_LANDING. -/
def execGridOpLanding (q : QRef) (s : State) : Out :=
  runEvent "GRID_OP_LANDING" (s.canGridOpLanding q) (s.doGridOpLanding q)

end Sys2Proof.Machine
end

