-- ==== Sys2Proof/Machine/Estates.lean ====
section
/-! DEFINITION. Machine/Estates.lean: the estate directory, eviction and the estate area (R204, R263 to R270), and BEQUEATH, CLAIM and ESTATE (R174 to R179) with CLAIM_DELIVERY. -/

namespace Sys2Proof.Machine

/-! ## The register file and the directory (R204, R266) -/

def Estate.inFile (e : Estate) : Bool := e.st != .evicted

def Estate.holdsRegs (e : Estate) : Bool :=
  match e.st with
  | .kept | .sealed | .transit _ _ => true
  | .recorded _ | .evicted => false

def State.directory (s : State) (die core : Nat) : List Estate :=
  s.estates.filter (fun e => e.die == die && e.core == core && e.inFile)

/-- Physical registers that a quarter's estates keep: a holding's once. -/
def State.estateRegs (s : State) (die core q : Nat) : Nat :=
  let es := (s.directory die core).filter (fun e => e.quarter == q && e.holdsRegs)
  (unionNew [] (es.map (fun e => (e.holding, e.tags.length)))).foldl (fun n h => n + h.2) 0

/-- Where a wave holds its registers: a granted landing slot is held from the grant. -/
def Wave.place (w : Wave) : Loc :=
  match w.transit with
  | some l => l
  | none => w.loc

def State.wavesAt (s : State) (die core q : Nat) : List Wave :=
  s.waves.filter (fun w => w.place.die == die && w.place.core == core && w.place.quarter == q)

/-- R193: a roaming launch is resident in a die's partition. -/
def State.roamers (s : State) (die : Nat) : Bool :=
  s.waves.any (fun w => s.partOf w.place.die == s.partOf die && s.roaming w.launch)

/-- What a quarter keeps for its landing slot, unless that is occupied (R193, R204). roam: in any case. -/
def State.reserve (s : State) (die core q : Nat) (roam : Bool) : Nat :=
  if (roam || s.roamers die) && !(s.wavesAt die core q).any (fun w => w.place.slot == 8) then 64 else 0

/-- Physical registers of a quarter that waves and estates hold (R204). -/
def State.usedRegs (s : State) (die core q : Nat) : Nat :=
  ((s.wavesAt die core q).map (fun w => w.winsize)).sum + s.estateRegs die core q

/-- A quarter's free physical registers (R204). -/
def State.freeRegs (s : State) (die core q : Nat) (roam : Bool) : Nat :=
  256 - s.usedRegs die core q - s.reserve die core q roam

/-- What a wave may grow by. -/
def State.growRoom (s : State) (w : Wave) : Nat := s.freeRegs w.loc.die w.loc.core w.loc.quarter false

/-! ## Eviction (R268) -/

/-- The estates of a holding that are Sealed, lane by lane. -/
def State.holdingOf (s : State) (h : Nat) : List Estate := s.estates.filter (fun e => e.holding == h && e.st == .sealed)

/-- Whole Sealed holdings of some estates, in the order of eviction: earliest sealed, then lowest physical register. -/
def State.evictable (s : State) (p : Estate → Bool) : List Nat :=
  let es := s.estates.filter (fun e => e.st == .sealed && p e && !(s.estates.any (fun f => f.holding == e.holding && f.inFile && f.st != .sealed)))
  let keys := unionNew [] (es.map (fun e => (e.order, e.pregs.headD 0, e.holding)))
  let before := fun (a b : Nat × Nat × Nat) => a.1 < b.1 || (a.1 == b.1 && (a.2.1 < b.2.1 || (a.2.1 == b.2.1 && a.2.2 ≤ b.2.2)))
  (keys.foldl (fun out k => (out.takeWhile (fun x => before x k)) ++ [k] ++ out.dropWhile (fun x => before x k)) []).map (fun k => k.2.2)

/-- The packed registers of a holding: a lane without an estate holds zero. -/
def holdingRows (es : List Estate) : List Row :=
  match es with
  | [] => []
  | e :: _ => (List.range e.tags.length).map (fun k => (List.range 64).map (fun l =>
      match es.find? (fun e => e.lane == l) with
      | none => 0
      | some e => e.regs.getD k 0))

def tagsNat (ts : List (BitVec 4)) : Nat := ts.zipIdx.foldl (fun n t => n + t.1.toNat * 2 ^ (4 * t.2)) 0

/-- The bytes of an evicted holding. -/
def holdingBytes (num : Nat) (es : List Estate) : List Byte :=
  match es with
  | [] => []
  | e :: _ =>
    let head := e.tags.length * 2 ^ 76 + tagsNat e.tags * 2 ^ 80 + e.cls * 2 ^ 112 + num * 2 ^ 128 + e.seq * 2 ^ 160
      + (laneMask (es.map (·.lane))).toNat * 2 ^ 192
    let ids := ((List.range 64).filterMap (fun l => es.find? (fun e => e.lane == l))).flatMap (fun e => leBytes 8 e.ident)
    leBytes 32 head ++ ids ++ ((holdingRows es).zip (e.tags.zip e.logs)).flatMap (fun rt =>
      let p := packRow rt.1
      (SpillRec.mk rt.2.2 rt.2.1 p.1 p.2).bytes)

/-- The lowest offset of the area where so many bytes are free. -/
def firstGap (size n : Nat) (used : List Holding) : Option Nat :=
  let starts := 0 :: used.map (fun h => h.base + h.size)
  let fits := starts.filter (fun o => o + n ≤ size && used.all (fun h => o + n ≤ h.base || h.base + h.size ≤ o))
  fits.foldl (fun m o => match m with
    | none => some o
    | some x => some (min x o)) none

def State.areaUsed (s : State) (world seq : Nat) : List Holding := s.holdings.filter (fun h => h.world == world && h.seq == seq)

/-- Evicts a holding, where its sequence's area has room. -/
def State.evict (s : State) (h : Nat) : Option State :=
  match s.holdingOf h with
  | [] => none
  | e :: es => match s.seq? e.world e.seq with
    | none => none
    | some q =>
      let num := match s.launch? e.launch with
        | none => 0
        | some l => l.num
      let bytes := holdingBytes num (e :: es)
      match firstGap q.easize bytes.length (s.areaUsed e.world e.seq) with
      | none => none
      | some o =>
        let s := s.deviceWrite e.world e.die (s.space e.world q.comp) (q.eabase.toNat + o) (some q.slot) bytes (some e.launch)
        some { s with
          estates := s.estates.map (fun x => if x.holding == h && x.st == .sealed then { x with st := .evicted } else x)
          holdings := s.holdings ++ [⟨h, e.world, e.seq, (e :: es).map (·.lane), o, bytes.length⟩] }

/-- Evicts holdings in order until the need is met. -/
def State.evictUntil (s : State) (met : State → Bool) : List Nat → State
  | [] => s
  | h :: hs => if met s then s else match s.evict h with
    | none => s.evictUntil met hs
    | some t => t.evictUntil met hs

/-! ## Ends (R269) -/

/-- Takes an estate out of being. An evicted one clears its LANES bit; the space is freed with the last. -/
def State.takeEstate (s : State) (e : Estate) : State :=
  let s := { s with estates := s.estates.filter (fun x => x != e) }
  if e.st != .evicted then s
  else match s.holdings.find? (fun h => h.id == e.holding), s.seq? e.world e.seq with
    | some h, some q =>
      let lanes := h.lanes.filter (· != e.lane)
      let s := s.deviceWrite e.world e.die (s.space e.world q.comp) (q.eabase.toNat + h.base + 24) (some q.slot)
        (leBytes 8 (laneMask lanes).toNat) (some e.launch)
      { s with holdings := (updBy (fun x => x.id == h.id) (fun x => { x with lanes := lanes }) s.holdings).filter (fun x => !x.lanes.isEmpty) }
    | _, _ => s

/-- The estate that a wave finds under a class and an identity: a sealed one before another (R263). -/
def State.findEstate (s : State) (l : Launch) (cls ident : Nat) : Option Estate :=
  let p := fun e : Estate => e.world == l.world && e.seq == l.block.seq && e.cls == cls && e.ident == ident && (match e.st with
    | .transit _ _ => false
    | _ => true)
  if cls = 0 then none
  else match s.estates.find? (fun e => p e && (e.st == .sealed || e.st == .evicted)) with
    | some e => some e
    | none => s.estates.find? p

def Estate.isSealed (e : Estate) : Bool := e.st == .sealed || e.st == .evicted

/-- Where an estate lies for a wave (R178). -/
def srcOf (w : Wave) (e : Estate) : Nat :=
  if e.st = .evicted then 2
  else if e.die != w.loc.die then 3
  else if e.core = w.loc.core then 0 else 1

/-! ## BEQUEATH (R175, R349) -/

def maskRegs (m : BitVec 8) : List Nat := (List.range 8).filter (fun k => m.getLsbD k)

/-- The TYPE code of a tag (R124). -/
def tagCode (t : MemTy) : BitVec 4 := t.code

/-- One lane's bequest. -/
def bequeathLane (o : OpBequeath) (c : Ctx) (l : Launch) (hold : Nat) (acc : State × List Nat) (lane : Nat) : State × List Nat :=
  let s := acc.1
  let id := idOf c.w c.base o.id lane
  let held := s.estates.any (fun e => e.lane == lane && (match e.st with
    | .recorded u => u == c.w.uid
    | _ => false))
  if l.block.bclass = 0 || l.block.roam || held then acc
  else
    let here := fun s : State => s.directory c.w.loc.die c.w.loc.core
    let s := if 1024 ≤ (here s).length then
        s.evictUntil (fun s => (here s).length < 1024)
          (s.evictable (fun e => e.die == c.w.loc.die && e.core == c.w.loc.core))
      else s
    if 1024 ≤ (here s).length || (here s).any (fun e => e.launch == l.uid && e.cls == l.block.bclass && e.ident == id) then (s, acc.2)
    else
      let ks := maskRegs o.mask
      let e : Estate := {
        world := l.world, seq := l.block.seq, cls := l.block.bclass, ident := id, launch := l.uid,
        die := c.w.loc.die, core := c.w.loc.core, quarter := c.w.loc.quarter, slot := c.w.loc.slot, lane := lane,
        holding := hold, tags := ks.map (fun _ => tagCode o.tag), logs := ks.map (fun k => c.base + o.a.toNat + k),
        pregs := ks.zipIdx.map (fun k => Config.preg (8 * hold + k.2) % 256), regs := [], st := .recorded c.w.uid, order := 0, poison := [] }
      ({ s with estates := s.estates ++ [e] }, acc.2 ++ [lane])

def bequeathEff (o : OpBequeath) (c : Ctx) (s : State) : State :=
  match s.launch? c.w.launch with
  | none => s.onWave c.w.uid (c.putP o.c (fun _ => false))
  | some l =>
    let n := s.fresh
    let r := c.act.foldl (bequeathLane o c l n.1) (n.2, [])
    r.1.onWave c.w.uid (fun w =>
      let w := c.putP o.c (fun l => r.2.contains l) w
      if r.2.isEmpty then w
      else { w with etags := (maskRegs o.mask).foldl (fun m k => mapSet 6 m (c.base + o.a.toNat + k) (tagCode o.tag)) w.etags })

/-- BEQUEATH. -/
def execBequeath (o : OpBequeath) (s : State) : Out := runWord (.bequeath o) noChk noHold (bequeathEff o) s

/-! ## CLAIM (R177, R178) -/

/-- A CLAIM takes an estate: at once in its own core or from memory, and from another core it is in transit until delivery. -/
def State.claimEstate (s : State) (w : Wave) (e : Estate) : State :=
  if srcOf w e = 1 || srcOf w e = 3 then
    { s with estates := updBy (fun x => x == e) (fun x => { x with st := .transit w.uid w.nextEntry }) s.estates }
  else s.takeEstate e

/-- One lane's answer. -/
def claimLane (o : OpClaim) (c : Ctx) (acc : State × List ClaimAns) (lane : Nat) : State × List ClaimAns :=
  let s := acc.1
  let found := match s.launch? c.w.launch with
    | none => none
    | some l => s.findEstate l ((c.w.sget o.a.toNat).toNat % 2 ^ 16) (idOf c.w c.base o.id lane)
  match found with
  | none => (s, acc.2 ++ [⟨lane, 8, 0, 15, [], []⟩])
  | some e =>
    if e.isSealed then
      let m := e.regs.length
      let n := o.n.toNat
      let regs := (List.range n).map (fun k => if k < m then (e.regs.getD k 0, e.tags.getD k 0) else (0, tagCode o.tag))
      let st : BitVec 5 := 1 ||| (if n = m then 0 else 2)
        ||| (if (e.tags.take n).all (fun t => t == tagCode o.tag) then 0 else 4)
      (s.claimEstate c.w e, acc.2 ++ [⟨lane, st, m, srcOf c.w e, regs, e.poison⟩])
    else (s, acc.2 ++ [⟨lane, 16, 0, 15, [], []⟩])

/-- The estates that a CLAIM's lanes name before it takes any. -/
def State.claimed (s : State) (o : OpClaim) (c : Ctx) : List Estate :=
  match s.launch? c.w.launch with
  | none => []
  | some l => c.act.filterMap (fun lane => s.findEstate l ((c.w.sget o.a.toNat).toNat % 2 ^ 16) (idOf c.w c.base o.id lane))

/-- SRC 2: the spill engine fetches an evicted holding from its area (R267, R316). -/
def State.fetchHolding (s : State) (w : Wave) (h : Holding) : State :=
  match s.seq? h.world h.seq with
  | none => s
  | some q => s.deviceReadPaid h.world w.agent (s.space h.world q.comp) (q.eabase.toNat + h.base) h.size

/-- SRC 3: an estate crosses the die links (R267), at 4 bytes a register: its payload is counted (R316) and its flits are activity of
the partition (R215). -/
def State.crossEstate (s : State) (w : Wave) (e : Estate) : State :=
  let n := 4 * e.regs.length
  let t := (((s.spend (s.partOf w.loc.die) e.world .link (s.linkBytes e.die w.loc.die n)).getD s).cross e.die w.loc.die).count e.world 7
    (n * s.hops e.die w.loc.die)
  match t.launch? w.launch with
  | none => t
  | some l => t.firing l.part

def claimEff (o : OpClaim) (c : Ctx) (s : State) : State :=
  let hs := s.holdings.filter (fun h => (s.claimed o c).any (fun e => e.st == .evicted && e.holding == h.id))
  let r := c.act.foldl (claimLane o c) (hs.foldl (fun s h => s.fetchHolding c.w h) s, [])
  r.1.onWave c.w.uid (fun w =>
    let e := { c.entry w.nextEntry { instr := .claim o, kind := .claim, acquire := true, accs := [] } with answers := r.2 }
    { w with
      entries := w.entries ++ [e]
      marks := w.marks ++ ((List.range o.n.toNat).map (fun k => ⟨.vec (c.base + o.d.toNat + k), w.nextEntry⟩)
        ++ [⟨.pred o.c.toNat, w.nextEntry⟩, ⟨.claim, w.nextEntry⟩])
      nextEntry := w.nextEntry + 1 })

/-- CLAIM takes its estates at issue; the answer is written when it arrives. -/
def execClaim (o : OpClaim) (s : State) : Out := runWord (.claim o) noChk noHold (claimEff o) s

def ClaimAns.word (a : ClaimAns) : W32 := BitVec.ofNat 32 (a.st.toNat + a.bcnt * 2 ^ 12 + a.src * 2 ^ 16)

/-- A lane's answer is written: the registers and their tags where it delivered, with the mark that an error has left on a register's word
(R323), the predicate and %claim. -/
def Wave.answer (w : Wave) (entry base : Nat) (o : OpClaim) (a : ClaimAns) : Wave :=
  let w := a.regs.zipIdx.foldl (fun (w : Wave) r =>
    let log := base + o.d.toNat + r.2
    let v := w.landSlices entry log [a.lane] (fun _ => r.1.1)
    if w.dead.contains (entry, log) then v
    else
      let v := v.tagged log r.1.2
      if a.bad.contains r.2 then { v with vpoison := addNew v.vpoison (log, a.lane) } else v) w
  let w := w.pset o.c.toNat [a.lane] (fun _ => a.st == 1)
  w.onLanes [a.lane] (fun f => { f with claim := a.word })

/-- The checkpoint takes the predicate too: the CLAIM ended its region at issue. -/
def Wave.answerPoint (w : Wave) (o : OpClaim) (a : ClaimAns) : Wave :=
  if o.c = 15 then w
  else { w with checkpoint := { w.checkpoint with fibres := w.checkpoint.fibres.map (fun f =>
    let bit : BitVec 16 := BitVec.ofNat 16 (2 ^ o.c.toNat)
    if f.lane == a.lane then { f with preds := if a.st == 1 then f.preds ||| bit else f.preds &&& ~~~bit } else f) } }

def State.claimAt (s : State) (wave entry : Nat) : Option (Wave × Entry × OpClaim) :=
  match s.wave? wave with
  | none => none
  | some w => match w.entries.find? (fun e => e.id == entry) with
    | none => none
    | some e => match e.instr with
      | .claim o => some (w, e, o)
      | _ => none

/-- The estates that are on their way to a CLAIM from another die. -/
def State.farClaimed (s : State) (wave entry : Nat) (die : Nat) : List Estate :=
  s.estates.filter (fun e => e.st == .transit wave entry && e.die != die)

/-- Estates of another die come while a route serves it and neither die is held (R328, R334; log entry 123), and as their world's
bandwidth lets them pass (R306). -/
def State.canClaimDelivery (s : State) (wave entry : Nat) : Bool :=
  match s.claimAt wave entry with
  | none => false
  | some (w, _, _) =>
    !(s.die w.loc.die).held && (s.farClaimed wave entry w.loc.die).all (fun e => s.reachable e.die w.loc.die && !(s.die e.die).held
      && (s.spend (s.partOf w.loc.die) e.world .link (s.linkBytes e.die w.loc.die (4 * e.regs.length))).isSome)

def State.doClaimDelivery (s : State) (wave entry : Nat) : State :=
  match s.claimAt wave entry with
  | none => s
  | some (w, e, o) =>
    let s := (s.farClaimed wave entry w.loc.die).foldl (fun s x => s.crossEstate w x) s
    let s : State := { s with estates := s.estates.filter (fun x => x.st != .transit wave entry) }
    s.onLanding wave (fun w =>
      let w := e.answers.foldl (fun w a => (w.answer entry e.base o a).answerPoint o a) w
      { w.closed entry with entries := w.entries.filter (fun x => x.id != entry) })

/-- CLAIM_DELIVERY. -/
def execClaimDelivery (wave entry : Nat) (s : State) : Out :=
  runEvent "CLAIM_DELIVERY" (s.canClaimDelivery wave entry) (s.doClaimDelivery wave entry)

/-! ## ESTATE (R179) -/

def estateReport (w : Wave) (e : Option Estate) : W32 :=
  match e with
  | none => BitVec.ofNat 32 (15 * 2 ^ 16)
  | some e => BitVec.ofNat 32 (1 + (if e.isSealed then 0 else 2 ^ 4) + (e.tags.headD 0).toNat * 2 ^ 8 + e.tags.length * 2 ^ 12
      + srcOf w e * 2 ^ 16)

/-- One lane's report; .drop releases a sealed estate after it. -/
def estateLane (o : OpEstate) (drop : Bool) (c : Ctx) (acc : State × List (Nat × W32)) (lane : Nat) : State × List (Nat × W32) :=
  let s := acc.1
  let found := match s.launch? c.w.launch with
    | none => none
    | some l => s.findEstate l ((c.w.sget o.a.toNat).toNat % 2 ^ 16) (idOf c.w c.base o.id lane)
  let out := acc.2 ++ [(lane, estateReport c.w found)]
  match found with
  | none => (s, out)
  | some e => if drop && e.isSealed then (s.takeEstate e, out) else (s, out)

def estateEff (o : OpEstate) (drop : Bool) (c : Ctx) (s : State) : State :=
  let r := c.act.foldl (estateLane o drop c) (s, [])
  r.1.onWave c.w.uid (fun w => w.setSlices (c.base + o.d.toNat) c.act (fun l =>
    match r.2.find? (fun x => x.1 == l) with
    | none => 0
    | some x => x.2))

/-- ESTATE. -/
def execEstate (o : OpEstate) (s : State) : Out := runWord (.estate o) noChk noHold (estateEff o false) s

/-- ESTATE.drop. -/
def execEstateDrop (o : OpEstate) (s : State) : Out := runWord (.estateDrop o) noChk noHold (estateEff o true) s

end Sys2Proof.Machine
end

