-- ==== Sys2Proof/Machine/Blocks.lean ====
section
/-! DEFINITION. Machine/Blocks.lean: reading a launch block (R244), the dispatcher's refusals (R247), and the acceptance of a launch into its queue's dispatcher. -/

namespace Sys2Proof.Machine

/-! ## The block (R244) -/

/-- Bits hi:lo of a number. -/
def field (n lo w : Nat) : Nat := n / 2 ^ lo % 2 ^ w

/-- The quadword at an offset. -/
def qword (bs : List Byte) (off : Nat) : Nat := leNat ((bs.drop off).take 8)

/-- tagged: its capabilities were, when it was read. -/
def blockOf (bs : List Byte) (tagged : Bool) : Block :=
  let q := qword bs
  { entry := BitVec.ofNat 64 (q 0)
    gx := field (q 8) 0 32
    gy := field (q 8) 32 16
    gz := field (q 8) 48 16
    fibres := field (q 0x10) 0 11
    window := field (q 0x10) 16 8
    l1min := field (q 0x10) 24 4
    scratch := field (q 0x10) 32 32
    coop := (q 0x18).testBit 0
    roam := (q 0x18).testBit 1
    repair := (q 0x18).testBit 2
    matrix := (q 0x18).testBit 3
    quadset := (q 0x18).testBit 4
    early := (q 0x18).testBit 5
    faultEnd := (q 0x18).testBit 6
    prio := field (q 0x18) 16 4
    seq := field (q 0x18) 32 32
    bsbase := BitVec.ofNat 64 (q 0x20)
    bssize := field (q 0x28) 0 32
    bclass := field (q 0x28) 32 16
    cclass := field (q 0x28) 48 16
    idbase := field (q 0x30) 0 48
    idstride := field (q 0x30) 48 16
    depobj := BitVec.ofNat 64 (q 0x38)
    deptok := field (q 0x40) 0 4
    triggers := field (q 0x40) 16 16
    doneobj := BitVec.ofNat 64 (q 0x48)
    notice := BitVec.ofNat 64 (q 0x50)
    start := q 0x58
    ratioreq := BitVec.ofNat 32 (field (q 0x60) 0 32)
    ranges := [BitVec.ofNat 64 (q 0x68), BitVec.ofNat 64 (q 0x70)]
    node := BitVec.ofNat 64 (q 0x78)
    caps := (List.range 8).map (fun c => BitVec.ofNat 128 (leNat ((bs.drop (0x80 + 16 * c)).take 16)))
    tagged := tagged
    args := (List.range (field (q 0x18) 24 6)).map (fun k => BitVec.ofNat 64 (qword bs (0x100 + 8 * k))) }

/-- The argument bytes that follow a header. -/
def argBytes (bs : List Byte) : Nat := 8 * field (qword bs 0x18) 24 6

/-- Code 1: reserved bits of the header. -/
def reservedOk (bs : List Byte) : Bool :=
  let q := qword bs
  field (q 0x10) 11 5 == 0 && field (q 0x10) 28 4 == 0 && field (q 0x18) 7 9 == 0 && field (q 0x18) 20 4 == 0
    && field (q 0x18) 30 2 == 0 && field (q 0x40) 4 12 == 0 && field (q 0x40) 32 32 == 0 && field (q 0x60) 32 32 == 0

def ratioIn (lo hi x : Nat) : Bool := x == 0 || (lo ≤ x && x ≤ hi)

/-- Code 1: the ranges of R205, R244 and R260. -/
def Block.rangesOk (b : Block) : Bool :=
  b.entry.toNat % 4 == 0 && 1 ≤ b.gx && 1 ≤ b.gy && 1 ≤ b.gz && b.groups < 2 ^ 32
    && 1 ≤ b.fibres && b.fibres ≤ 1024 && 32 ≤ b.window && b.window ≤ 128 && b.window % 16 == 0
    && 1 ≤ b.l1min && b.l1min ≤ 12 && b.scratch ≤ 720896 && b.scratch % 16 == 0 && b.bssize % 256 == 0
    && b.args.length ≤ 32
    && ratioIn 8 20 (b.ratioreq.extractLsb' 0 8).toNat && ratioIn 8 20 (b.ratioreq.extractLsb' 8 8).toNat
    && ratioIn 8 24 (b.ratioreq.extractLsb' 16 8).toNat && ratioIn 12 20 (b.ratioreq.extractLsb' 24 8).toNat

/-! ## Object ranges (R245) -/

structure ObjRange where
  scope : Scope
  pkg   : Nat
  die   : Nat
  index : Nat
  count : Nat
deriving DecidableEq, Repr

/-- A range without its count: the layout of a handle but for the size of INDEX. -/
def rangeHandle (x : W64) : Option Handle :=
  let pkg := (x.extractLsb' 54 10).toNat
  let die := (x.extractLsb' 51 3).toNat
  match scopeOf (x.extractLsb' 0 3).toNat with
  | none => none
  | some sc =>
    if x.extractLsb' 3 5 != 0 || (pkg != 0 && sc != .pod) || (die != 0 && sc != .die) then none
    else some ⟨sc, pkg, die, (x.extractLsb' 8 24).toNat⟩

/-- A used range of network objects. -/
def rangeOf (x : W64) : Option ObjRange :=
  match rangeHandle x with
  | none => none
  | some h => if h.scope = .core then none else some ⟨h.scope, h.pkg, h.die, h.index, (x.extractLsb' 32 19).toNat⟩

def rangeUsed (x : W64) : Bool := x.extractLsb' 32 19 != 0

/-- Code 1 for a range: a used range has the layout of a handle (R138). -/
def rangeShape (x : W64) : Bool := !rangeUsed x || (rangeHandle x).isSome

/-- Code 5: past the scope's objects, or crossing a queue object. DESIGN CHOICE (log 117): a used range of core scope, of which R245 says
nothing, has code 5 too. -/
def rangeBad (x : W64) : Bool :=
  rangeUsed x && (match rangeOf x with
    | none => true
    | some r => scopeSize r.scope < r.index + r.count || (r.scope == .pkg && 768 < r.index + r.count))

/-- The objects of a range outside quad scope, and the indices of the quad ones. -/
def ObjRange.objs (r : ObjRange) : List ObjRef :=
  (List.range r.count).filterMap (fun k => match r.scope with
    | .die => some (.net .die r.die (r.index + k))
    | .pkg => some (.net .pkg ((r.index + k) % 8) (r.index + k))
    | .pod => some (.net .pod r.pkg (r.index + k))
    | .core | .quad => none)

def Block.objs (b : Block) : List ObjRef :=
  (b.ranges.filter rangeUsed).flatMap (fun x => match rangeOf x with
    | none => []
    | some r => r.objs)

def Block.quadObjs (b : Block) : List Nat :=
  (b.ranges.filter rangeUsed).flatMap (fun x => match rangeOf x with
    | some r => if r.scope = .quad then (List.range r.count).map (fun k => r.index + k) else []
    | none => [])

/-- Whether a handle names an object of the block's ranges. -/
def Block.inRange (b : Block) (x : W64) : Bool :=
  match handleOf x with
  | none => false
  | some h => match h.scope with
    | .quad => b.quadObjs.contains h.index
    | .die => b.objs.contains (.net .die h.die h.index)
    | .pkg => b.objs.contains (.net .pkg (h.index % 8) h.index)
    | .pod => b.objs.contains (.net .pod h.pkg h.index)
    | .core => false

/-! ## Fit (R192, R195, R206) -/

/-- Waves of a group on a quarter. -/
def Block.wavesOn (b : Block) (q : Nat) : Nat := (b.waves + 3 - q) / 4

/-- Groups of a launch that an empty core holds; beside roaming waves a quarter keeps 64 registers (R193). -/
def Block.perCore (b : Block) : Nat :=
  let regs := if b.roam then 192 else 256
  ((List.range 8).filter (fun k => b.wavesOn 0 * (k + 1) ≤ 8 && b.wavesOn 0 * (k + 1) * b.window ≤ regs
    && b.alloc * (k + 1) ≤ (12 - b.l1min) * 64)).length

/-- Quad sets of a launch that a quad holds: one alone where they are given objects of the quad (R245). -/
def Block.perQuad (b : Block) : Nat := if b.quadObjs.isEmpty then b.perCore else min 1 b.perCore

/-- The dies of a partition. -/
def State.diesOf (s : State) (part : Nat) : List Nat := (List.range s.partDies).map (fun d => part + d)

/-- Complete quads of a die, by physical number (R257). -/
def State.quadsOf (s : State) (die : Nat) : List Nat :=
  (List.range 9).filter (fun q => (List.range 4).all (fun k => (s.die die).harvest.getLsbD (4 * q + k)))

/-- Whether every group fits with nothing else resident, dealt as R256 and R257 deal; R181 bounds roaming waves. -/
def State.coopFits (s : State) (part : Nat) (b : Block) : Bool :=
  let ds := s.diesOf part
  let units := if b.quadset then (b.groups + 3) / 4 else b.groups
  ds.zipIdx.all (fun di =>
    let mine := (units + ds.length - 1 - di.2) / ds.length
    mine ≤ if b.quadset then (s.quadsOf di.1).length * b.perQuad else (s.present di.1).length * b.perCore)
    && (!b.roam || ds.all (fun d => b.groups ≤ 4 * (s.present d).length))

/-! ## Refusal (R247) -/

/-- The object is a queue object that the queue holds. -/
def State.ownsObj (s : State) (queue : Nat) (x : W64) : Bool :=
  match handleOf x with
  | none => false
  | some h => h.scope == .pkg && 768 ≤ h.index && (match s.netObj? .pkg (h.index % 8) h.index with
    | none => false
    | some n => n.byQueue && n.owner == queue)

def State.protected (s : State) (world : Nat) : Bool :=
  match s.world? world with
  | none => false
  | some w => w.prot

def State.seqOpen (s : State) (world comp num : Nat) : Bool :=
  match s.seq? world num with
  | none => false
  | some q => q.st == .open_ && q.comp == comp

/-- The lowest code of refusal of a block for a queue and a compartment: 0 for none. -/
def State.refusalCode (s : State) (q : Queue) (comp : Nat) (b : Block) (shapeOk : Bool) : Nat :=
  if !shapeOk || !b.rangesOk || !(b.ranges.all rangeShape) then 1
  else if b.perCore = 0 || (b.coop && !s.coopFits q.part b) then 2
  else if b.roam && (b.coop || b.matrix || b.quadset || b.scratch != 0 || 64 < b.fibres || (b.window != 32 && b.window != 48)) then 3
  else if b.quadset && (s.diesOf q.part).all (fun d => (s.quadsOf d).isEmpty) then 4
  else if b.ranges.any rangeBad then 5
  else if (b.depobj != 0 && !s.ownsObj q.id b.depobj) || (b.doneobj != 0 && !s.ownsObj q.id b.doneobj)
      || (b.notice != 0 && !b.inRange b.notice) then 6
  else if !s.seqOpen q.world comp b.seq then 7
  else if s.protected q.world && (!b.tagged || b.caps.any (fun c => c != 0 && 2 ^ 48 < capBase c + capLen c)) then 8
  else 0

/-! ## Acceptance -/

def newLaunch (uid num comp born : Nat) (q : Queue) (b : Block) (inherit_ : List Nat) (node : Option Nat) (prefill : List Byte) :
    Launch where
  uid := uid
  num := num
  queue := q.id
  world := q.world
  comp := comp
  part := q.part
  block := b
  st := .setup
  leased := false
  released := b.depobj == 0 || b.early
  measure := 0
  grant := none
  granted := 0
  next := 0
  dealt := 0
  live := 0
  placed := false
  paid := 0
  inherit_ := inherit_
  stopped := false
  endFault := (0, 0, 0, 0, 8)
  order := uid
  born := born
  seen := []
  node := node
  prefill := prefill
  frames := []
  left := []
  notices := 0

/-- The dispatcher takes a block: it is refused with a record, or becomes a launch whose lease is to be set up. -/
def State.dispatch (s : State) (queue comp : Nat) (b : Block) (shapeOk : Bool) (inherit_ : List Nat) (node : Option Nat)
    (prefill : List Byte) : State :=
  match s.queue? queue with
  | none => s
  | some q =>
    let s := s.onQueue queue (fun q => { q with nextNum := q.nextNum + 1 })
    let code := s.refusalCode q comp b shapeOk
    if code != 0 then
      State.count { s with records := s.records ++ [.refusal queue q.nextNum code] } q.world 14 1
    else
      let n := s.fresh
      { n.2 with launches := n.2.launches ++ [newLaunch n.1 q.nextNum comp s.own.stepNo q b inherit_ node prefill] }

/-! ## Reading a block from memory -/

/-- The bytes at an address of a space, where all of them are mapped. -/
def State.spaceBytes (s : State) (agent space va n : Nat) : Option (List Byte) :=
  (s.deviceRead agent space va n).mapM (fun x => x.map (·.2))

def State.headBytes (s : State) (agent space va : Nat) : Option (List Byte) := s.spaceBytes agent space va 256

/-- The bytes of a block at an address of a space: the header, then its arguments. -/
def State.blockBytes (s : State) (agent space va : Nat) : Option (List Byte) :=
  match s.headBytes agent space va with
  | none => none
  | some h => s.spaceBytes agent space va (256 + argBytes h)

/-- Whether every used capability of a block lies in a tagged granule (R299). -/
def State.blockTagged (s : State) (agent space va : Nat) (caps : List W128) : Bool :=
  caps.zipIdx.all (fun ci => ci.1 == 0 || (match s.xlate agent space (va + 0x80 + 16 * ci.2) with
    | .page f big _ => f.tier != 2 && mapGet false s.mem.tags ((f.byteAt big (va + 0x80 + 16 * ci.2)).pa / 16)
    | _ => false))

/-- The block that some bytes read at an address give. -/
def State.blockAt (s : State) (agent space va : Nat) (bs : List Byte) : Block :=
  blockOf bs (s.blockTagged agent space va (blockOf bs false).caps)

/-- A block that a host writes into a table lies in no granule: its capabilities are untagged (log entry 92). -/
def tableBlock (bs : List Byte) : Block := blockOf bs ((blockOf bs false).caps.all (· == 0))

/-! ## Work-graph batches (R252) -/

/-- The scratchpad that a batch's group begins with. -/
def batchBytes (records : List (List Byte)) : List Byte := leBytes 8 records.length ++ List.replicate 8 0 ++ records.flatten

/-- Records that a node's pool holds. -/
def Node.pool (n : Node) : Nat := n.records.length + (n.waiting.map (fun b => b.2.length)).sum

def State.onNode (s : State) (world node : Nat) (f : Node → Node) : State :=
  s.onWorld world (fun w => { w with nodes := updBy (fun n => n.id == node) f w.nodes })

def State.node? (s : State) (world node : Nat) : Option Node :=
  match s.world? world with
  | none => none
  | some w => w.nodes.find? (fun n => n.id == node)

/-- Takes a batch of the gathered records and dispatches one group for it; a refused batch leaves the pool. -/
def State.takeBatch (s : State) (world node : Nat) : State :=
  match s.node? world node with
  | none => s
  | some n =>
    let batch := n.records.take n.g
    let b := { n.template with gx := 1, gy := 1, gz := 1 }
    let comp := match s.seq? world b.seq with
      | none => n.comp
      | some q => q.comp
    let t := s.dispatch n.queue comp b true n.seen (some node) (batchBytes batch)
    t.onNode world node (fun n => { n with
      records := n.records.drop n.g
      first := s.pkg.tick
      waiting := n.waiting ++ ((t.launches.drop s.launches.length).map (fun l => (l.uid, batch))) })

end Sys2Proof.Machine
end

