-- ==== Sys2Proof/Machine/System.lean ====
section
/-! DEFINITION. Machine/System.lean: MIGRATE, LAUNCH, REMIT, SRD, SWR, GROW and SHRINK (R180 to R187), and GROW_SERVE, GROW_DEADLOCK_BREAK, MIGRATE_GRANT and MIGRATION_LANDING. -/

namespace Sys2Proof.Machine

/-! ## Releases at pkg scope (R224, R226) -/

/-- Every earlier operation of the wave has taken its step, and what it has observed is settled at pkg scope. -/
def State.released (s : State) (c : Ctx) : Bool :=
  c.w.entries.all (fun e => c.upto ≤ e.id || e.stepped) && !c.earlier.any Stall.orders
    && (s.gridOf c.w).all (fun g => !storesGrid g.instr || c.upto ≤ g.entry)
    && s.settledAll c.w.loc.die c.w.loc.core .pkg c.w.observed

def holdRelease (c : Ctx) (s : State) : Option State := if s.released c then none else some (s.stall c (.settle .pkg))

/-! ## MIGRATE (R180, R181) -/

def migrateAddr (o : OpMigrate) (c : Ctx) (lane : Nat) : W64 := aBase c.w c.base o.a lane

/-- An address in some range of the lease, whatever its permissions. -/
def Launch.covers (l : Launch) (va : Nat) : Bool :=
  l.block.caps.zipIdx.any (fun c => capHas c.1 va && capComp c.1 == l.comp && !l.left.contains c.2)

def migrateChk (o : OpMigrate) (c : Ctx) (s : State) : Option Chk :=
  let uni := match o.a with
    | .pair _ => c.nonuniform (fun l => (migrateAddr o c l).toNat)
    | .scalar _ => none
  let a := migrateAddr o c c.low
  chkBoth uni (match s.launch? c.w.launch with
    | none => none
    | some l => if l.covers a.toNat then none else some { fault := .lease, step := 16, lane := c.low, addr := a })

/-- The compute die that homes an address, and the address's home slice. -/
def State.homeOf (s : State) (w : Wave) (va : Nat) : Option (Nat × Nat) :=
  match s.launch? w.launch with
  | none => none
  | some l => match s.xlate w.agent (s.space l.world l.comp) va with
    | .page f big _ => if f.tier = 2 || 8 ≤ f.home then none else some (f.home, homeSlice (f.frame + va % pageBytes big))
    | _ => none

def State.beingMoved (s : State) (w : Wave) (va : Nat) : Bool :=
  match s.launch? w.launch with
  | none => false
  | some l => s.xlate w.agent (s.space l.world l.comp) va == .held

/-- Where a wave must go; none where it stays. -/
def State.migrateTo (s : State) (o : OpMigrate) (c : Ctx) : Option (Nat × Nat) :=
  match s.homeOf c.w (migrateAddr o c c.low).toNat with
  | none => none
  | some h => if h.1 = c.w.loc.die then none else some h

/-- A MIGRATE waits as END does, raises pending faults, settles what it has observed, and then waits for its grant. -/
def holdMigrate (o : OpMigrate) (c : Ctx) (s : State) : Option State :=
  match c.stall? with
  | some (.migrate d sl n) => some (s.stall c (.migrate d sl n))
  | _ => match holdBoth (holdSync .finish endBusy) holdRelease c s with
    | some t => some t
    | none =>
      if s.beingMoved c.w (migrateAddr o c c.low).toNat then some (s.stall c .finish)
      else match s.migrateTo o c with
        | none => none
        | some h => let n := s.fresh; some (n.2.stall c (.migrate h.1 h.2 n.1))

/-- MIGRATE that stays: false in every active lane. -/
def execMigrate (o : OpMigrate) (s : State) : Out :=
  runWord (.migrate o) (migrateChk o) (holdMigrate o)
    (fun c s => s.onWave c.w.uid (fun w => s.acquireSeen (c.putP o.d (fun _ => false) w))) s

/-- The context of a stalled set, with the guard's active lanes. -/
def Wave.ctxAt (w : Wave) (x : Stall) (i : Instr) : Ctx where
  w := w.sources (some x)
  pc := x.pc
  base := x.base
  set_ := maskLanes x.lanes
  act := (maskLanes x.lanes).filter (fun l => match w.fibre? l with
    | none => false
    | some f => guardHolds i.guard? f)
  len := instrLen i
  instr := i

/-- The landing slot that R181 and R337 choose: the first free one from core s mod P upward, with room for the wave. -/
def State.landingSlot (s : State) (die slice need : Nat) : Option Loc :=
  let p := (s.present die).length
  let cores := (List.range p).map (fun k => (slice % p + k) % p)
  let slots := cores.flatMap (fun c => (List.range 4).map (fun q => (c, q)))
  match slots.find? (fun cq => !(s.wavesAt die cq.1 cq.2).any (fun w => w.place.slot == 8) && need + s.usedRegs die cq.1 cq.2 ≤ 256) with
  | none => none
  | some cq => some ⟨die, cq.1, cq.2, 8⟩

/-- No other wave that asks the die stands before this one. -/
def State.firstAsker (s : State) (uid die n : Nat) : Bool :=
  s.waves.all (fun v => v.uid == uid || (match v.asking with
    | some (_, d, _, m) => d != die || n ≤ m
    | none => true))

/-- A landing slot is granted to a wave that has nothing left to complete: it carries no engine request to accept, no pending load, and
no store that is not settled (R180). It asks over a route between the dies (log entry 110). -/
def State.grantFor (s : State) (wave : Nat) : Option (Wave × Ctx × OpMigrate × Loc) :=
  match s.wave? wave with
  | none => none
  | some w => match w.asking with
    | none => none
    | some (x, d, sl, n) =>
      if w.parked.isSome || !s.firstAsker wave d n || (s.die d).held || s.sendsStalled w.loc.die d then none
      else match x.instr with
        | .migrate o =>
          let c := w.ctxAt x (.migrate o)
          if endBusy c s || !s.released c || !s.reachable w.loc.die d then none
          else (s.landingSlot d sl w.winsize).map (fun l => (w, c, o, l))
        | _ => none

/-- The bytes of a wave that a migration ships: its vector registers in their formats, 64 scalar registers, and each fibre's
PC, predicates and claim (R180; log entry 93). -/
def Wave.shipped (w : Wave) : Nat :=
  ((List.range w.winsize).map (fun i => (packRow (w.row (w.runBase + i))).2.length)).sum + 512 + 14 * w.fibres.length

/-- A world has been resident on a die in this millisecond (R317). -/
def State.noteStay (s : State) (launch die : Nat) : State :=
  s.onWorld (s.launchWorld launch) (fun w => { w with stayed := addNew w.stayed die })

/-- A quarter without a resident wave. -/
def State.asleep (s : State) (die core q : Nat) : Bool :=
  s.waves.all (fun w => w.transit.isSome || !(w.loc.die == die && w.loc.core == core && w.loc.quarter == q))

/-- The MIGRATE retires, and the wave is sent: its slot is free, and the landing slot is its own. -/
def State.doMigrateGrant (s : State) (wave : Nat) : State :=
  match s.grantFor wave with
  | none => s
  | some (w, c, o, l) =>
    let s := s.onWave wave (fun w => c.putP o.d (fun _ => true) (c.passed w))
    let s := s.retire (.migrate o) c
    let s := (s.onWave wave (fun w => { w with transit := some l })).noteIdle w.loc
    let rep := match s.launch? w.launch with
      | none => false
      | some l => l.block.repair
    s.post ⟨w.loc.die, l.die, 0⟩ (.wave wave) rep

/-- MIGRATE_GRANT. -/
def execMigrateGrant (wave : Nat) (s : State) : Out :=
  runEvent "MIGRATE_GRANT" (s.grantFor wave).isSome (s.doMigrateGrant wave)

def State.canLand (s : State) (c : ChanRef) : Bool :=
  match s.headMsg? c with
  | some (.wave _) => !(s.die c.dst).held
  | _ => false

/-- What a die admits at a round boundary of %tick and of the grants (R330); also as its deterministic issue begins. -/
def State.admitTime (s : State) (die : Nat) : State :=
  s.onRepair die (fun r => { r with
    tick := s.pkg.tick
    grants := s.launches.filterMap (fun l => l.grant.map (fun g => (l.uid, g))) })

/-- R340: arrivals of a group's wave 0 are counted on any die, and the n-th may be on the die that is to be reset. -/
def State.countArrival (s : State) (group index die : Nat) : State :=
  { s with armedR := updBy (fun a => a.group == group && index == 0) (fun a =>
      { a with seen := a.seen + 1, landed := a.landed || (a.die == die && a.count != 0 && a.seen + 1 == a.count) }) s.armedR }

/-- The wave lands: its group is now there, and it has acquired (R180). A quarter that it wakes is counted (R258), its bytes have
crossed the die boundaries (R316), and blocks of L1 follow its group (R206). -/
def State.doLand (s : State) (c : ChanRef) : State :=
  match s.headMsg? c with
  | some (.wave u) => match s.wave? u with
    | none => s.popMsg c
    | some w => match w.transit with
      | none => s.popMsg c
      | some l =>
        let woken := if s.asleep l.die l.core l.quarter then 1 else 0
        let begun := s.deterministic l.die
        let s := (s.popMsg c).onGroup w.launch w.group (fun g => { g with die := l.die, core := l.core })
        let s := s.onWave u (fun w => s.acquireSeen { w with loc := l, transit := none, waited := 0, since := s.own.stepNo })
        let s := (s.chargeRamp (s.partOf l.die) woken).resizeL1
        let s := (s.countL w.launch 7 (w.shipped * s.hops c.src c.dst)).noteStay w.launch l.die
        let s := if begun then s else s.admitTime l.die
        s.countArrival w.group w.index l.die
  | _ => s

def State.repairEn (s : State) (die : Nat) : Bool :=
  match s.part? (s.partOf die) with
  | none => false
  | some p => p.rick.getLsbD 31

/-- A repairable wave that comes to a die without a rick since its launch was dispatched (R338). -/
def State.needsRick (s : State) (c : ChanRef) : Bool :=
  match s.headMsg? c with
  | some (.wave u) => match s.wave? u with
    | none => false
    | some w => match s.launch? w.launch with
      | none => false
      | some l => l.block.repair && s.repairEn c.dst && ((s.die c.dst).rickNo ≤ l.born || (s.repair? c.dst).isNone)
  | _ => false

/-- MIGRATION_LANDING. -/
def execMigrationLanding (c : ChanRef) (s : State) : Out :=
  runEvent "MIGRATION_LANDING" (s.canLand c && s.admits c.dst && !s.needsRick c) (s.doLand c)

/-! ## LAUNCH (R182) -/

/-- What LAUNCH reads of its block once it has released. -/
def State.askedBlock (s : State) (o : OpLaunch) (c : Ctx) (l : Launch) : Option (List Byte) :=
  s.blockBytes c.w.agent (s.space l.world l.comp) (c.w.sget o.a.toNat).toNat

/-- The first byte of the header, or then of the arguments that it counts, outside the lease. -/
def State.blockLease (s : State) (l : Launch) (agent va : Nat) : Option Nat :=
  let bad := fun a => match s.leaseByte l agent .read a with
    | .error .retry => false
    | .error _ => true
    | .ok _ => false
  match (span va 256).find? bad with
  | some a => some a
  | none => match s.headBytes agent (s.space l.world l.comp) va with
    | none => none
    | some h => (span (va + 256) (argBytes h)).find? bad

/-- Steps 13 and 14 on the header of the block (R182, R300). -/
def State.headChk (s : State) (c : Ctx) (l : Launch) (a : W64) : Option Chk :=
  let sp := s.space l.world l.comp
  match s.headBytes c.w.agent sp a.toNat with
  | none => none
  | some h =>
    let b := s.blockAt c.w.agent sp a.toNat h
    if b.seq != l.block.seq || (s.protected l.world && !b.tagged) then
      some { fault := .cap, step := 13, lane := c.low, addr := a }
    else if !s.seqLive l.world b.seq then some { fault := .keyRetired, step := 14, lane := c.low, addr := a }
    else none

/-- Steps 13, 14 and 16 in R31's order: the block is read once the release is made. -/
def launchChk (o : OpLaunch) (c : Ctx) (s : State) : Option Chk :=
  let a := c.w.sget o.a.toNat
  match s.launch? c.w.launch with
  | none => none
  | some l =>
    if a.toNat % 256 != 0 then some { fault := .cap, step := 13, lane := c.low, addr := a }
    else if !s.released c then none
    else chkBoth (s.headChk c l a) (match s.blockLease l c.w.agent a.toNat with
      | some n => some { fault := .lease, step := 16, lane := c.low, addr := BitVec.ofNat 64 n }
      | none => none)

/-- A block whose page is being moved is read when the move is done. -/
def holdLaunch (o : OpLaunch) (c : Ctx) (s : State) : Option State :=
  match holdRelease c s with
  | some t => some t
  | none => match s.launch? c.w.launch with
    | none => none
    | some l => if (s.askedBlock o c l).isSome then none else some (s.stall c (.settle .pkg))

/-- The block enters the device-side queue of its thread: 64 entries (R249). -/
def launchEff (o : OpLaunch) (c : Ctx) (s : State) : State :=
  match s.launch? c.w.launch with
  | none => s.onWave c.w.uid (c.putP o.d (fun _ => false))
  | some l => match s.askedBlock o c l, s.queue? l.queue with
    | some bs, some q =>
      if 64 ≤ q.device.length then s.onWave c.w.uid (c.putP o.d (fun _ => false))
      else
        let s := s.onQueue l.queue (fun q => { q with
          device := q.device ++ [⟨s.blockAt c.w.agent (s.space l.world l.comp) (c.w.sget o.a.toNat).toNat bs, l.comp, reservedOk bs,
            c.w.observed⟩] })
        s.onWave c.w.uid (c.putP o.d (fun _ => true))
    | _, _ => s.onWave c.w.uid (c.putP o.d (fun _ => false))

/-- LAUNCH. -/
def execLaunch (o : OpLaunch) (s : State) : Out := runWord (.launch o) (launchChk o) (holdLaunch o) (launchEff o) s

/-! ## REMIT (R183, R251, R252) -/

/-- The node that a handle names, where it is the launch's own. -/
def State.nodeOf (s : State) (w : Wave) (x : W64) : Option (Launch × Node) :=
  match s.launch? w.launch with
  | none => none
  | some l => if x = 0 || x != l.block.node || 4096 ≤ x.toNat then none else match s.node? l.world x.toNat with
    | none => none
    | some n => some (l, n)

/-- The offset of the record of the r-th active lane. -/
def remitAt (o : OpRemit) (c : Ctx) (z r : Nat) : Nat := (c.w.sget o.b.toNat).toNat % 2 ^ 32 + r * z

def remitChk (o : OpRemit) (c : Ctx) (s : State) : Option Chk :=
  let x := c.w.sget o.a.toNat
  match s.nodeOf c.w x with
  | none => some { fault := .cap, step := 13, lane := c.low, addr := x }
  | some ln =>
    let size := s.scratchSize c.w
    match (c.act.zipIdx c.heldFrom.2).find? (fun lr => size < remitAt o c ln.2.z lr.2 + ln.2.z) with
    | none => none
    | some lr => some { fault := .lease, step := 16, lane := lr.1, addr := BitVec.ofNat 64 (max (remitAt o c ln.2.z lr.2) size) }

/-- One lane's record: it is appended where the pool has room, and a full batch is taken. -/
def remitLane (o : OpRemit) (c : Ctx) (world node z : Nat) (gr : Group) (acc : State × List Nat) (lr : Nat × Nat) :
    State × List Nat :=
  let s := acc.1
  match s.node? world node with
  | none => acc
  | some n =>
    if n.capacity ≤ n.pool then acc
    else
      let rec_ := mapRun 0 gr.scratch (remitAt o c z lr.2) z
      let s := s.onNode world node (fun n => { n with
        first := if n.records.isEmpty then s.pkg.tick else n.first
        records := n.records ++ [rec_]
        seen := unionNew n.seen c.w.observed })
      let s := match s.launch? c.w.launch with
        | none => s
        | some l => s.onNode world node (fun n => if n.records.length = 1 then { n with queue := l.queue } else n)
      let full := match s.node? world node with
        | none => false
        | some n => n.g ≤ n.records.length
      (if full then s.takeBatch world node else s, acc.2 ++ [lr.1])

def remitEff (o : OpRemit) (c : Ctx) (s : State) : State :=
  match s.nodeOf c.w (c.w.sget o.a.toNat), s.group? c.w.launch c.w.group with
  | some (l, n), some gr =>
    let r := (c.act.zipIdx c.heldFrom.2).foldl (remitLane o c l.world n.id n.z gr) (s, [])
    r.1.onWave c.w.uid (c.putP o.d (fun l => r.2.contains l))
  | _, _ => s.onWave c.w.uid (c.putP o.d (fun _ => false))

/-- REMIT. -/
def execRemit (o : OpRemit) (s : State) : Out := runWord (.remit o) (remitChk o) holdRelease (remitEff o) s

/-! ## SRD and SWR (R184, R185) -/

def grantWord (g : Option Grant) : Nat :=
  match g with
  | none => 0
  | some g => g.mat + g.vec * 2 ^ 8 + g.net * 2 ^ 16 + g.mem * 2 ^ 24 + g.gen % 256 * 2 ^ 32

def modeWord (w : Wave) (b : Block) : Nat :=
  (if w.matrix then 1 else 0) + (if b.roam then 2 else 0) + (if b.repair then 4 else 0) + (if b.coop then 8 else 0)

def State.estatesWord (s : State) (w : Wave) (l : Launch) : Nat :=
  let d := s.directory w.loc.die w.loc.core
  d.length + (d.filter (fun e => e.world == l.world && e.seq == l.block.seq)).length * 2 ^ 16

/-- %tick and %ratio on a die in deterministic issue are as they were admitted at the last round boundary (R330). -/
def State.admittedBy (s : State) (die : Nat) : Option Repair := if s.deterministic die then s.repair? die else none

def State.tickFor (s : State) (die : Nat) : Nat :=
  match s.admittedBy die with
  | none => s.pkg.tick
  | some r => r.tick

def State.grantOn (s : State) (die : Nat) (l : Launch) : Option Grant :=
  match s.admittedBy die with
  | none => l.grant
  | some r => match r.grants.find? (fun g => g.1 == l.uid) with
    | none => l.grant
    | some g => some g.2

/-- The value of a special register for a lane. -/
def State.special (s : State) (c : Ctx) (idx elem : Nat) (lane : Nat) : Nat :=
  let w := c.w
  let f := w.fibre? lane
  match s.launch? w.launch with
  | none => 0
  | some l =>
    match idx with
    | 0 => lane
    | 1 => w.index * 64 + lane
    | 2 => w.index
    | 3 => w.group
    | 4 => w.group % l.block.gx
    | 5 => w.group / l.block.gx % l.block.gy
    | 6 => w.group / l.block.gx / l.block.gy
    | 7 => w.loc.core
    | 8 => s.quadOf w.loc.die w.loc.core
    | 9 => w.loc.die
    | 10 => s.pkg.pkg
    | 11 => s.pkg.pod.toNat
    | 12 => s.tickFor w.loc.die
    | 13 => grantWord (s.grantOn w.loc.die l)
    | 14 => l.block.ratioreq.toNat
    | 15 => w.fflags.toNat
    | 16 => modeWord w l.block
    | 17 => match f with
      | none => 0
      | some f => f.winbase
    | 18 => w.winsize
    | 19 => match f with
      | none => 0
      | some f => f.region.toNat
    | 20 => l.block.seq
    | 21 => l.world
    | 22 => l.comp
    | 23 => match f with
      | none => 0
      | some f => f.claim.toNat
    | 24 => (s.die w.loc.die).harvest.toNat
    | 25 => s.physCore w.loc.die (elem % 64)
    | _ => s.estatesWord w l

/-- The element of %ltop for a lane. -/
def srdElem (o : OpSrd) (c : Ctx) (lane : Nat) : Nat := (aOff c.w c.base o.elem lane).toNat

def srdValue (o : OpSrd) (c : Ctx) (s : State) (lane : Nat) : W64 :=
  let v := s.special c o.idx.toNat (srdElem o c lane) lane
  BitVec.ofNat 64 (if o.wide then v else v % 2 ^ 32)

/-- What is read of %tick and %ratio is listed in the admission record (R330). -/
def State.noteRead (s : State) (die idx value : Nat) : State :=
  if (idx = 12 || idx = 13) && s.deterministic die then s.onRepair die (fun r => { r with reads := r.reads ++ [(idx, value)] }) else s

def srdEff (o : OpSrd) (c : Ctx) (s : State) : State :=
  let s := s.noteRead c.w.loc.die o.idx.toNat (s.special c o.idx.toNat 0 c.low)
  match o.d with
  | .vec r => s.onWave c.w.uid (c.putV r o.wide (srdValue o c s))
  | .scalar d => s.onWave c.w.uid (fun w => w.sset d.toNat (srdValue o c s c.low))

/-- SRD; a read of %fflags waits for the grid (R41, R59). -/
def execSrd (o : OpSrd) (s : State) : Out :=
  runWord (.srd o) noChk (if o.idx.toNat = 15 then holdLand else noHold) (srdEff o) s

/-- SWR of %fflags. -/
def execSwr (o : OpSwr) (s : State) : Out :=
  runWord (.swr o) noChk holdLand
    (fun c s => s.onWave c.w.uid (fun w => w.setFlags (if o.wide then c.w.sget o.a.toNat else c.w.sget o.a.toNat &&& 0xFFFFFFFF))) s

/-! ## GROW and SHRINK (R186, R187, R199) -/

def growCount (b : BSrc) (len : Len) (c : Ctx) : Nat := b32 c.w c.base len b c.low

/-- Whether a GROW can ever succeed: the size rules, and a roaming launch's limit (R193). -/
def State.growOk (s : State) (w : Wave) (n : Nat) : Bool :=
  n % 16 == 0 && w.winsize + n ≤ 128 && !(s.roaming w.launch && 64 < w.winsize + n)

/-- The blocked GROWs of a quarter: wave, set, count, order. -/
def State.growsAt (s : State) (q : QRef) : List (Wave × Stall × Nat × Nat) :=
  (s.waves.filter (fun w => w.loc.die == q.die && w.loc.core == q.core && w.loc.quarter == q.quarter && w.transit.isNone)).flatMap
    (fun w => w.stalls.filterMap (fun x => match x.kind with
      | .grow n order => some (w, x, n, order)
      | _ => none))

/-- The oldest blocked GROW. -/
def oldestGrow (gs : List (Wave × Stall × Nat × Nat)) : Option (Wave × Stall × Nat × Nat) :=
  gs.foldl (fun m g => match m with
    | none => some g
    | some h => if g.2.2.2 < h.2.2.2 then some g else some h) none

/-- The window grows at its top: the new registers are zero and untagged, and their records are discarded. -/
def Wave.grown (w : Wave) (n : Nat) : Wave :=
  let inNew := fun log => w.runBase + w.winsize ≤ log && log < w.runBase + w.winsize + n
  { w.forget inNew with
    winsize := w.winsize + n
    high := w.high.filter (fun r => !inNew r.log)
    vregs := w.vregs.filter (fun e => !inNew e.1) }

/-- GROW finds its registers at once where no other GROW of the quarter is blocked before it. -/
def State.growNow (s : State) (w : Wave) (n : Nat) : Bool :=
  n = 0 || (s.growsAt w.qref).isEmpty && n ≤ s.growRoom w

def growChk (b : BSrc) (len : Len) (c : Ctx) : Option Chk := uniformB b len c

def holdGrow (o : OpGrow) (c : Ctx) (s : State) : Option State :=
  let n := growCount o.b o.len c
  if !s.growOk c.w n then none
  else match c.stall? with
    | some (.grow m k) => some (s.stall c (.grow m k))
    | _ => if s.growNow c.w n then none else let k := s.fresh; some (k.2.stall c (.grow n k.1))

def growEff (o : OpGrow) (c : Ctx) (s : State) : State :=
  let n := growCount o.b o.len c
  let ok := s.growOk c.w n
  s.onWave c.w.uid (fun w => c.putP o.d (fun _ => ok) (if ok then w.grown n else w))

/-- GROW. -/
def execGrow (o : OpGrow) (s : State) : Out :=
  runWord (.grow o) (fun c _ => growChk o.b o.len c) (holdGrow o) (growEff o) s

/-- The registers past the window are released with their contents. -/
def Wave.shrunk (w : Wave) (n : Nat) : Wave :=
  if n % 16 != 0 || w.winsize < n + 32 then w
  else
    let top := w.runBase + (w.winsize - n)
    let v := w.forget (fun g => top ≤ g && g < w.runBase + w.winsize)
    { v with
      winsize := w.winsize - n
      vregs := w.vregs.filter (fun e => e.1 < top) }

/-- SHRINK. -/
def execShrink (o : OpShrink) (s : State) : Out :=
  runWord (.shrink o) (fun c _ => growChk o.b o.len c) noHold
    (fun c s => s.onWave c.w.uid (fun w => w.shrunk (growCount o.b o.len c))) s

/-- Completes a blocked GROW; one that the window's limit has come to bar meanwhile completes false (R186). -/
def State.endGrow (s : State) (w : Wave) (x : Stall) (n : Nat) (ok : Bool) : State :=
  match x.instr with
  | .grow o =>
    let c := w.ctxAt x (.grow o)
    let ok := ok && s.growOk w n
    let s := s.onWave w.uid (fun w => c.putP o.d (fun _ => ok) (c.passed (if ok then w.grown n else w)))
    s.retire (.grow o) c
  | _ => s

def State.servable (s : State) (q : QRef) : Option (Wave × Stall × Nat × Nat) :=
  match oldestGrow (s.growsAt q) with
  | none => none
  | some g => if (g.2.2.1 ≤ s.growRoom g.1 || !s.growOk g.1 g.2.2.1) && g.1.parked.isNone then some g else none

/-- GROW_SERVE: the oldest blocked GROW, once the quarter has its registers or the limit bars it. -/
def execGrowServe (q : QRef) (s : State) : Out :=
  runEvent "GROW_SERVE" (s.servable q).isSome (match s.servable q with
    | none => s
    | some (w, x, n, _) => s.endGrow w x n true)

/-- Every fibre of the wave stands at a blocked GROW. -/
def Wave.growBlocked (w : Wave) : Bool :=
  w.fibres.all (fun f => w.stalls.any (fun x => x.pc == f.pc && x.base == f.winbase && (match x.kind with
    | .grow _ _ => true
    | _ => false)))

def State.residentsAt (s : State) (q : QRef) : List Wave :=
  s.waves.filter (fun w => w.loc.die == q.die && w.loc.core == q.core && w.loc.quarter == q.quarter && w.transit.isNone)

/-- The youngest wave of a quarter: the last made resident, the higher slot among equals. -/
def youngest (ws : List Wave) : Option Wave :=
  ws.foldl (fun m w => match m with
    | none => some w
    | some v => if v.since < w.since || (v.since = w.since && v.loc.slot < w.loc.slot) then some w else some v) none

def State.canGrowBreak (s : State) (q : QRef) : Bool :=
  let ws := s.residentsAt q
  !ws.isEmpty && ws.all Wave.growBlocked && (s.servable q).isNone

/-- The sealed estates of the quarter are evicted; if the oldest GROW still cannot be served, the youngest wave's completes
false: of several the oldest (DESIGN CHOICE, log entry 47). -/
def State.doGrowBreak (s : State) (q : QRef) : State :=
  let s := s.evictUntil (fun s => (s.servable q).isSome)
    (s.evictable (fun e => e.die == q.die && e.core == q.core && e.quarter == q.quarter))
  if (s.servable q).isSome then s
  else match youngest (s.residentsAt q) with
    | none => s
    | some w => match oldestGrow ((s.growsAt q).filter (fun g => g.1.uid == w.uid)) with
      | none => s
      | some (w, x, n, _) => s.endGrow w x n false

/-- GROW_DEADLOCK_BREAK. -/
def execGrowDeadlockBreak (q : QRef) (s : State) : Out :=
  runEvent "GROW_DEADLOCK_BREAK" (s.canGrowBreak q) (s.doGrowBreak q)

end Sys2Proof.Machine
end

