-- ==== Sys2Proof/Machine/Pages.lean ====
section
/-! DEFINITION. Machine/Pages.lean: writing leaves (R275, R276), invalidation (R282), MAPPING_REQUEST, INVALIDATION, INVALIDATION_COMPLETE, PAGE_MOVE and PEER_DOWN_NOTICE (R282 to R285). -/

namespace Sys2Proof.Machine

/-- Measured boot is complete: the host functions are released (R310). -/
def State.booted (s : State) : Bool := s.pkg.bootStage == 6 && s.pkg.bootFail.isNone

/-! ## Leaves (R275, R276) -/

def State.tableAt (s : State) (a : Nat) : W128 := mapGet 0 s.mem.tables a

/-- The address of the entry that maps a page, where its tables stand. -/
def State.leafAddr (s : State) (space va : Nat) (big : Bool) : Option Nat :=
  let root := mapGet 0 s.mem.roots space
  if root = 0 then none
  else match nextTable (s.tableAt (root + 16 * (va / 2 ^ 40))) with
    | none => none
    | some t1 => match nextTable (s.tableAt (t1 * 512 + 16 * (va / 2 ^ 32 % 256))) with
      | none => none
      | some t2 =>
        let a := t2 * 512 + 16 * (va / 2 ^ 21 % 2048)
        if big then some a
        else match nextTable (s.tableAt a) with
          | none => none
          | some t3 => some (t3 * 512 + 16 * (va / 2 ^ 16 % 32))

/-- Firmware writes an entry: its bytes lie in memory under the firmware key (R287). -/
def MemSys.putEntry (m : MemSys) (a : Nat) (e : W128) : MemSys :=
  let put := fun (m : MemSys) (b : Byte × Nat) => m.put 1 0 (a + b.2) b.1
  (leBytes 16 e.toNat).zipIdx.foldl put { m with tables := mapSet 0 m.tables a e }

def State.putEntry (s : State) (a : Nat) (e : W128) : State := { s with mem := s.mem.putEntry a e }

/-- A new table of some bytes, aligned to its size. -/
def State.newTable (s : State) (size : Nat) : Nat × State :=
  let a := (s.mem.nextTable + size - 1) / size * size
  (a, { s with mem := { s.mem with nextTable := a + size } })

/-- The table below an entry, made where there is none. -/
def State.tableBelow (s : State) (a size : Nat) : Nat × State :=
  match nextTable (s.tableAt a) with
  | some t => (t * 512, s)
  | none =>
    let t := s.newTable size
    (t.1, t.2.putEntry a (BitVec.ofNat 128 (t.1 + 1)))

/-- The address of the entry for a page, its tables made as needed. -/
def State.makeLeaf (s : State) (space va : Nat) (big : Bool) : Nat × State :=
  let t1 := s.tableBelow (mapGet 0 s.mem.roots space + 16 * (va / 2 ^ 40)) 4096
  let t2 := t1.2.tableBelow (t1.1 + 16 * (va / 2 ^ 32 % 256)) 32768
  let a := t2.1 + 16 * (va / 2 ^ 21 % 2048)
  if big then (a, t2.2)
  else
    let t3 := t2.2.tableBelow a 512
    (t3.1 + 16 * (va / 2 ^ 16 % 32), t3.2)

/-- Writes a leaf, with the owner of its frame in the frame table (R326). -/
def State.putLeaf (s : State) (m : MapReq) : State :=
  let a := s.makeLeaf m.space m.va.toNat m.big
  let l := leafOf m.leaf
  let s := a.2.putEntry a.1 m.leaf
  if l.tier = 2 || !l.v then s
  else
    let fs := mapSetRun 0 s.mem.frames (l.frame / 2 ^ 16) (List.replicate (pageBytes m.big / 2 ^ 16) l.kslot)
    { s with mem := { s.mem with frames := fs } }

def samePage (m : MapReq) (space va : Nat) : Bool := m.space == space && m.va.toNat / pageBytes m.big == va / pageBytes m.big

/-- Changes bits of the valid leaf that maps an address. -/
def State.editLeaf (s : State) (space va : Nat) (f : W128 → W128) : State :=
  match s.walk space va with
  | .page _ big e => match s.leafAddr space va big with
    | none => s
    | some a => s.putEntry a (f e)
  | _ => s

/-! ## Invalidation (R282) -/

/-- A range of a space: no bytes stand for the whole space. -/
structure VRange where
  space : Nat
  va    : Nat
  bytes : Nat
deriving DecidableEq, Repr

def VRange.meets (r : VRange) (space va n : Nat) : Bool :=
  r.space == space && (r.bytes == 0 || (va < r.va + r.bytes && r.va < va + n))

def TlbEntry.inRange (t : TlbEntry) (r : VRange) : Bool := r.meets t.space (t.vpage * pageBytes t.big) (pageBytes t.big)

/-- A large page that a range meets is affected whole. -/
def State.affected (s : State) (r : VRange) : VRange :=
  let bigAt := fun va => (match s.walk r.space va with
    | .page _ big _ => big
    | _ => false) || s.mem.tlb.any (fun t => t.big && t.space == r.space && t.vpage == va / 2 ^ 21)
  if r.bytes = 0 then r
  else
    let lo := if bigAt r.va then r.va / 2 ^ 21 * 2 ^ 21 else r.va
    let last := r.va + r.bytes - 1
    let hi := if bigAt last then last / 2 ^ 21 * 2 ^ 21 + 2 ^ 21 else r.va + r.bytes
    { r with va := lo, bytes := hi - lo }

/-- A place that was translated through the range, in a space. -/
def VRange.hits (r : VRange) (space : Nat) (b : ByteAt) : Bool := r.meets space (b.vpage * 2 ^ 16) (2 ^ 16)

/-- Lanes not sent or not done that were translated through some entries are cancelled with XLATE_RETRY (R238). -/
def Entry.cancelled (e : Entry) (hit : ByteAt → Bool) : Entry :=
  { e with accs := e.accs.map (fun a =>
      if !a.scratch && (a.st == .waiting || a.st == .unsent) && (a.at_ ++ a.scale.toList).any hit then { a with st := .retry, got := [] }
      else a) }

def Wave.cancelled (w : Wave) (hit : ByteAt → Bool) : Wave := { w with entries := w.entries.map (fun e => e.cancelled hit) }

/-- The same for every wave, where it stands. -/
def State.cancelLanes (s : State) (hit : Nat → ByteAt → Bool) : State :=
  let f := fun w : Wave => w.cancelled (hit (s.waveSpace w))
  { s with
    waves := s.waves.map f
    saved := s.saved.map (fun g => { g with waves := g.waves.map f })
    contexts := s.contexts.map (fun c => { c with waves := c.waves.map f }) }

def State.launchSpace (s : State) (launch : Nat) : Nat :=
  match s.launch? launch with
  | none => 0
  | some l => s.space l.world l.comp

/-- The accepted stores that were translated through some entries. -/
def State.storesThrough (s : State) (hit : Nat → ByteAt → Bool) : List Nat :=
  (s.ord.overlay.filter (fun e => e.cells.any (fun c => hit (s.launchSpace e.launch) c.1))).map (fun e => e.id)

/-- A destination's space: a gate transfer writes another compartment's. -/
def ELoc.space : ELoc → Nat
  | .glob sp _ | .expo sp _ _ => sp
  | .scr _ _ _ => 0

/-- A piece that was sent through some entries and has not landed. -/
def Piece.through (p : Piece) (hit : Nat → ByteAt → Bool) : Bool :=
  p.wid.isNone && (p.dst.zip ((p.sent.map (·.1)).getD [])).any (fun x => match x.2 with
    | none => false
    | some b => hit x.1.space b)

def State.piecesThrough (s : State) (hit : Nat → ByteAt → Bool) : List (Nat × Nat) :=
  s.reqs.flatMap (fun r => (r.pieces.filter (fun p => p.through hit)).map (fun p => (r.id, p.id)))

/-- Every agent's part of an invalidation: TLB entries, L1 lines, and lanes that are not done. -/
def State.invalRange (s : State) (r0 : VRange) : State :=
  let r := s.affected r0
  let s := { s with mem := { s.mem with tlb := s.mem.tlb.filter (fun t => !t.inRange r) } }
  let s := s.dropCopies (fun c => match c.place with
    | .l1 _ _ sp vp => r.meets sp (vp * 2 ^ 16) (2 ^ 16)
    | .l2 _ => false)
  s.cancelLanes r.hits

/-- Nothing that was translated through a range is still to be performed. -/
def State.rangeQuiet (s : State) (r0 : VRange) : Bool :=
  let r := s.affected r0
  (s.storesThrough r.hits).isEmpty && (s.piecesThrough r.hits).isEmpty

/-- INVALIDATION: every agent acts; what it has accepted through the range it still performs. -/
def execInvalidation (space : Nat) (va : BitVec 64) (bytes : Nat) (s : State) : Out :=
  let n := s.fresh
  let r := s.affected ⟨space, va.toNat, bytes⟩
  runEvent "INVALIDATION" s.booted { n.2.invalRange ⟨space, va.toNat, bytes⟩ with
    invals := s.invals ++ [⟨n.1, space, va, bytes, s.storesThrough r.hits, s.piecesThrough r.hits⟩] }

/-- Every agent has acknowledged: what it had translated has been performed. -/
def State.acknowledged (s : State) (i : Inval) : Bool :=
  i.stores.all (fun id => !s.ord.overlay.any (fun e => e.id == id))
    && i.pieces.all (fun p => !s.reqs.any (fun r => r.id == p.1 && r.pieces.any (fun q => q.id == p.2 && q.wid.isNone)))

/-- INVALIDATION_COMPLETE. -/
def execInvalidationComplete (id : Nat) (s : State) : Out :=
  runEvent "INVALIDATION_COMPLETE" (s.invals.any (fun i => i.id == id) && s.invals.all (fun i => i.id != id || s.acknowledged i))
    { s with invals := s.invals.filter (fun i => i.id != id) }

/-! ## MAPPING_REQUEST (R275 to R277, R285) -/

/-- Bytes of a space in some lease. -/
def State.leasedPage (s : State) (space va n : Nat) : Bool :=
  s.launches.any (fun l => l.leased && (l.block.caps.zipIdx).any (fun c =>
    capLen c.1 != 0 && !l.left.contains c.2 && s.space l.world (capComp c.1) == space
      && capBase c.1 < va + n && va < capBase c.1 + capLen c.1))

/-- The key slot of a leaf is that of a sequence of the world, not yet closed (R289). -/
def State.slotOf (s : State) (world slot : Nat) : Bool :=
  s.seqs.any (fun q => q.world == world && q.slot == slot && (q.st == .open_ || q.st == .draining))

/-- A physical page of the HBM or of the second tier (R278), clear of the frames from 2^36 of die 0 that hold firmware's
tables (log entry 94). -/
def frameOk (frame n : Nat) : Bool :=
  frame % n == 0 && ((frame < 2 ^ 40 && frame % 2 ^ 37 + n ≤ 96 * 2 ^ 30 && (2 ^ 37 ≤ frame || frame + n ≤ 2 ^ 36))
    || (2 ^ 46 ≤ frame && frame + n ≤ 2 ^ 46 + 2 ^ 43))

/-- The bytes whose mapping a write of a leaf changes: a leaf of 64 KiB written into a mapping of 2 MiB replaces it, one of a peer that went
down among them (R285). -/
def State.mapSpan (s : State) (m : MapReq) : VRange :=
  let n := match s.walk m.space m.va.toNat, s.deadPage m.space m.va.toNat with
    | .page _ true _, _ => 2 ^ 21
    | .absent, some d => max (pageBytes d.big) (pageBytes m.big)
    | _, _ => pageBytes m.big
  ⟨m.space, m.va.toNat / n * n, n⟩

/-- Some page of a range has a valid leaf. -/
def State.anyValid (s : State) (r : VRange) : Bool :=
  (List.range (r.bytes / 2 ^ 16)).any (fun k => match s.walk r.space (r.va + k * 2 ^ 16) with
    | .page _ _ _ => true
    | _ => false)

/-- What firmware grants: an aligned page that exists of the compartment's space, a leaf that is not malformed and whose PEER is 0
but in TIER 2, under the key of the world's own sequence; no change to a leased page, nor to one through which an access
is still to be performed. A leaf with V = 0 maps a page that is not resident (log entry 30). -/
def State.canMap (s : State) (world comp : Nat) (m : MapReq) : Bool :=
  let l := leafOf m.leaf
  let r := s.mapSpan m
  s.booted && m.space != 0 && m.space == s.space world comp && m.va.toNat < 2 ^ 48 && m.va.toNat % pageBytes m.big == 0
    && m.leaf.getLsbD 8 && !l.held && !l.sealed && !l.malformed m.big
    && (l.tier == 2 || (l.peer == 0 && s.slotOf world l.kslot && frameOk l.frame (pageBytes m.big) && inWindow l.sframe))
    && !s.leasedPage m.space r.va r.bytes && s.rangeQuiet r

/-- A valid leaf that is replaced is invalidated first (R282). -/
def State.doMap (s : State) (m : MapReq) : State :=
  let l := leafOf m.leaf
  let r := s.mapSpan m
  let s := if s.anyValid r then s.invalRange r else s
  let gone := fun a : MapReq => r.meets a.space a.va.toNat (pageBytes a.big)
  let s : State := { s with mem := { s.mem with
    absent := s.mem.absent.filter (fun a => !gone a)
    dead := s.mem.dead.filter (fun a => !gone a) } }
  let s : State := if l.tier = 2 then { s with pkg := { s.pkg with peersDown := s.pkg.peersDown.filter (· != l.peer) } } else s
  if l.v then s.putLeaf m
  else { s.putLeaf m with mem := { (s.putLeaf m).mem with absent := (s.putLeaf m).mem.absent ++ [{ m with leaf := m.leaf ||| 1 }] } }

/-- MAPPING_REQUEST: a request that firmware does not grant changes nothing. -/
def execMappingRequest (world comp : Nat) (m : MapReq) (s : State) : Out :=
  .next (if s.canMap world comp m then s.doMap m else s)

/-! ## PAGE_MOVE (R283) -/

/-- Entries of a map in [a, a + n), moved to b. -/
def moveRun {α : Type} [DecidableEq α] (d : α) (m : Sparse α) (a n b : Nat) : Sparse α :=
  let here := m.filter (fun e => a ≤ e.1 && e.1 < a + n)
  let rest := m.filter (fun e => !(b ≤ e.1 && e.1 < b + n))
  here.foldl (fun m e => mapSet d m (e.1 - a + b) e.2) rest

/-- The engine's copy of n bytes under a key: each is read and written again under that key (R283), with its writer and its tag; the old
frame's tags are dropped (R299). An ECC word of the new frame is poisoned where some word of the old one that it takes was. -/
def MemSys.moveFrame (m : MemSys) (gen a n b : Nat) : MemSys :=
  let bad := (List.range (n / 32)).filter (fun k => mapGet false m.poison (eccKey (a + 32 * k))
    || (2 ^ 46 ≤ a && m.expDown.contains (a / 2 ^ 40 % 8)))
  let clean := (List.range (n / 32)).foldl (fun p k => mapSet false p (eccKey (b + 32 * k)) false) m.poison
  { m with
    bytes := mapSetRun 0 m.bytes b ((List.range n).map (fun i => decrypt gen (a + i) (mapGet 0 m.owner (a + i)) (mapGet 0 m.bytes (a + i))))
    owner := mapSetRun 0 m.owner b (List.replicate n gen)
    writer := moveRun 0 m.writer a n b
    tags := (moveRun false m.tags (a / 16) (n / 16) (b / 16)).filter (fun t => !(a / 16 ≤ t.1 && t.1 < a / 16 + n / 16))
    poison := bad.foldl (fun p k => mapSet false p (eccKey (b + 32 * k)) true) clean
    sram := moveRun false m.sram (a / 4) (n / 4) (b / 4) }

/-- The leaf with new frames: tier and home follow FRAME. -/
def reframe (e : W128) (frame sframe : Nat) : W128 :=
  let f := fun lo w => (e.extractLsb' lo w).toNat * 2 ^ lo
  let keep := e.toNat - f 32 32 - f 64 36 - f 14 2 - f 5 3
  let home := if frame < 2 ^ 40 then frame / 2 ^ 37 else (e.extractLsb' 5 3).toNat
  BitVec.ofNat 128 (keep + frame / 2 ^ 16 * 2 ^ 32 + sframe / 2 ^ 12 * 2 ^ 64 + (if frame < 2 ^ 40 then 0 else 1) * 2 ^ 14 + home * 2 ^ 5)

/-- The bytes of a page's scale frame: one for each block (R277). -/
def Leaf.scaleBytes (l : Leaf) (big : Bool) : Nat :=
  match blockBits l.efmt with
  | none => 0
  | some b => pageBytes big / (4 * b)

/-- A page can be moved to free frames: a leased one in its tier (R280). Nothing through it is still to be performed. -/
def State.canMove (s : State) (space va frame sframe : Nat) : Bool :=
  s.booted && (match s.walk space va with
    | .page l big e =>
      let n := pageBytes big
      let r := leafOf (reframe e frame sframe)
      l.tier != 2 && frameOk frame n && inWindow sframe && sframe % 2 ^ 12 == 0 && !r.malformed big
        && (r.tier == l.tier || !s.leasedPage space (va / n * n) n) && s.rangeQuiet ⟨space, va / n * n, n⟩
        && (List.range (n / 2 ^ 16)).all (fun k => mapGet 0 s.mem.frames (frame / 2 ^ 16 + k) == 0)
    | _ => false)

/-- Undo records of a moved page follow it (R332). -/
def Repair.moved (r : Repair) (all : List Undo) (inOld : Undo → Bool) (rename : Undo → Undo) (home : Nat) : Repair :=
  { r with undo := r.undo.filter (fun u => !inOld u) ++ (if r.die = home then (all.filter inOld).map rename else []) }

/-- The four steps of a move: the leaf is held and invalidated, the page and its scale frame are copied, the new leaf is
written. -/
def State.doMove (s : State) (space va frame sframe : Nat) : State :=
  match s.walk space va with
  | .page l big e =>
    let n := pageBytes big
    let base := va / n * n
    let k := l.scaleBytes big
    let s := s.invalRange ⟨space, base, n⟩
    let inNew := fun line => (frame ≤ line * 128 && line * 128 < frame + n) || (sframe ≤ line * 128 && line * 128 < sframe + k)
    let s := s.dropCopies (fun c => inNew c.line)
    let old := l.frame / 2 ^ 16
    let moved := fun f => if old ≤ f && f < old + n / 2 ^ 16 then f - old + frame / 2 ^ 16 else f
    let inOld := fun u : Undo => l.frame ≤ u.line * 128 && u.line * 128 < l.frame + n
    let rename := fun u : Undo => { u with line := u.line - l.frame / 128 + frame / 128 }
    let all := s.repair.flatMap (fun r => r.undo)
    let gen := s.keyGen l.kslot
    let m := s.mem.moveFrame gen l.frame n frame
    let m := if k = 0 then m else m.moveFrame gen l.sframe k sframe
    let s : State := { s with
      mem := { m with frames := mapSetRun 0 m.frames old (List.replicate (n / 2 ^ 16) 0) }
      launches := s.launches.map (fun x => { x with frames := x.frames.map moved })
      repair := s.repair.map (fun r => r.moved all inOld rename (frame / 2 ^ 37)) }
    s.putLeaf ⟨space, BitVec.ofNat 64 base, big, reframe e frame sframe⟩
  | _ => s

/-- PAGE_MOVE. -/
def execPageMove (space : Nat) (va : BitVec 64) (frame : MoveTo) (s : State) : Out :=
  runEvent "PAGE_MOVE" (s.canMove space va.toNat frame.frame frame.sframe) (s.doMove space va.toNat frame.frame frame.sframe)

/-! ## PEER_DOWN_NOTICE (R285) -/

/-- Every leaf of the tables that names a peer, with the page it maps, found through the mapped pages of the caches and of
the leases. -/
def State.peerPages (s : State) (peer : Nat) : List MapReq :=
  let named := fun (e : W128) => (leafOf e).v && (leafOf e).tier == 2 && (leafOf e).peer == peer
  let cached := (s.mem.tlb.filter (fun t => named t.leaf)).map (fun t =>
    (⟨t.space, BitVec.ofNat 64 (t.vpage * pageBytes t.big), t.big, t.leaf⟩ : MapReq))
  let leased := s.launches.flatMap (fun l => if !l.leased then [] else l.block.caps.flatMap (fun c =>
    if capLen c = 0 then [] else
      (List.range ((capBase c + capLen c - 1) / 2 ^ 16 - capBase c / 2 ^ 16 + 1)).filterMap (fun k =>
        let va := (capBase c / 2 ^ 16 + k) * 2 ^ 16
        match s.walk (s.space l.world (capComp c)) va with
        | .page _ big e => if named e then some (⟨s.space l.world (capComp c), BitVec.ofNat 64 (va / pageBytes big * pageBytes big), big, e⟩ : MapReq) else none
        | _ => none)))
  unionNew [] (cached ++ leased)

/-- A place of a package that went down is of none that stands (R285). -/
def ByteAt.cutOff (b : ByteAt) (peer : Nat) : ByteAt := if b.peer = some peer then { b with peer := some (1024 + peer) } else b

def Wave.cutOff (w : Wave) (peer : Nat) : Wave :=
  { w with entries := w.entries.map (fun e => { e with accs := e.accs.map (fun a =>
      { a with at_ := a.at_.map (fun b => b.cutOff peer), scale := a.scale.map (fun b => b.cutOff peer) }) }) }

def OvEntry.cutOff (e : OvEntry) (peer : Nat) : OvEntry := { e with cells := e.cells.map (fun c => (c.1.cutOff peer, c.2)) }

/-- The notice: the translations are dropped, V = 0 is written in every leaf that names the peer, and the pages of the
leases stand without it. Accesses that were sent through the dropped translations reach the peer no more. -/
def State.doPeerDown (s : State) (peer : Nat) : State :=
  let pages := s.peerPages peer
  let named := fun (e : W128) => e.getLsbD 8 && (leafOf e).v && (leafOf e).tier == 2 && (leafOf e).peer == peer
  let f := fun w : Wave => w.cutOff peer
  let s : State := { s with
    pkg := { s.pkg with peersDown := addNew s.pkg.peersDown peer }
    waves := s.waves.map f
    saved := s.saved.map (fun g => { g with waves := g.waves.map f })
    contexts := s.contexts.map (fun c => { c with waves := c.waves.map f })
    ord := { s.ord with overlay := s.ord.overlay.map (fun e => e.cutOff peer) }
    mem := { s.mem with
      tlb := s.mem.tlb.filter (fun t => !named t.leaf)
      dead := s.mem.dead ++ pages } }
  (s.mem.tables.filter (fun e => named e.2)).foldl (fun s e => s.putEntry e.1 (e.2 - 1)) s

/-- PEER_DOWN_NOTICE. -/
def execPeerDownNotice (peer : Nat) (s : State) : Out :=
  runEvent "PEER_DOWN_NOTICE" (peer < 1024 && peer != s.pkg.pkg) (s.doPeerDown peer)

/-! ## EXPANDER_STOPS_ANSWERING (R284) -/

/-- Every line of the port becomes poison. -/
def execExpanderStopsAnswering (port : Nat) (s : State) : Out :=
  runEvent "EXPANDER_STOPS_ANSWERING" (port < 8)
    ((s.dropCopies (fun c => 2 ^ 46 ≤ c.line * 128 && c.line * 128 / 2 ^ 40 % 8 == port)) |>
      fun s => { s with mem := { s.mem with expDown := addNew s.mem.expDown port } })

end Sys2Proof.Machine
end

