-- ==== Sys2Proof/Machine/Ends.lean ====
section
/-! DEFINITION. Machine/Ends.lean: the end of a launch (R191, R241, R250, R265, R301), sweeps (R270), and LAUNCH_END, HOST_END_LAUNCH, SWEEP and the life of a sequence: SEQOPEN, SEQCLOSE and its steps (R287 to R291, R308). -/

namespace Sys2Proof.Machine

/-! ## Estates at a launch's end (R265, R176) -/

/-- The order in which R176 keeps one of two equal identities. -/
def State.before (s : State) (a b : Estate) : Bool :=
  let k := fun e : Estate => [e.die, s.physCore e.die e.core, e.quarter, e.slot, e.lane]
  decide (k a < k b)

def Estate.sameKey (a b : Estate) : Bool := a.world == b.world && a.seq == b.seq && a.cls == b.cls && a.ident == b.ident

def Estate.isRecorded (e : Estate) : Bool :=
  match e.st with
  | .recorded _ => true
  | _ => false

/-- Kept estates are sealed, recorded ones abandoned, duplicates within the launch resolved; each loss is counted. They may
lie in their world's saved context, or have been saved with a discarded group. -/
def State.sealEstates (s : State) (l : Launch) : State :=
  let n := s.fresh
  let s := n.2
  let own := fun e : Estate => e.launch == l.uid
  let all := s.estates ++ s.contexts.flatMap (fun c => c.estates)
  let mine := all.filter (fun e => own e && e.st == .kept)
  let lost := mine.filter (fun e => mine.any (fun f => f.sameKey e && s.before f e))
  let recorded := ((all ++ s.saved.flatMap (fun g => g.estates)).filter (fun e => own e && e.isRecorded)).length
  let seal_ := fun es : List Estate =>
    updBy (fun e => own e && e.st == .kept) (fun e => { e with st := .sealed, order := n.1 })
      (es.filter (fun e => !(own e && e.isRecorded) && !lost.contains e))
  State.count { s with
    estates := seal_ s.estates
    contexts := s.contexts.map (fun c => { c with estates := seal_ c.estates })
    saved := s.saved.map (fun g => { g with estates := g.estates.filter (fun e => !(own e && e.isRecorded)) }) }
    l.world 12 (recorded + lost.length)

/-! ## The lease ends (R280, R301) -/

/-- Whether some other lease sealed a page. -/
def State.sealedBy (s : State) (m : MapReq) : Bool :=
  s.launches.any (fun l => l.leased && (l.block.caps.zipIdx).any (fun c =>
    capLen c.1 != 0 && capX c.1 && !l.left.contains c.2 && s.space l.world (capComp c.1) == m.space
      && capBase c.1 < m.va.toNat + pageBytes m.big && m.va.toNat < capBase c.1 + capLen c.1))

/-- Bits of SEAL and W. -/
def sealBits : W128 := BitVec.ofNat 128 (2 ^ 4 + 2 ^ 2)

/-- W returns to the pages that no lease seals any more. -/
def State.restoreW (s : State) : State :=
  let free := s.mem.seals.filter (fun m => !s.sealedBy m)
  let s := free.foldl (fun s m =>
    let t := s.editLeaf m.space m.va.toNat (fun e => (e &&& ~~~sealBits) ||| (m.leaf &&& sealBits))
    t.invalRange ⟨m.space, m.va.toNat, pageBytes m.big⟩) s
  { s with mem := { s.mem with seals := s.mem.seals.filter (fun m => !free.contains m) } }

/-! ## The end of a launch -/

/-- R250: arrivals that a launch still owes. -/
def Launch.owed (l : Launch) : Nat := max l.block.triggers 1 - l.paid

def State.arrive (s : State) (x : W64) (n : Nat) (seen : List Nat) : State :=
  match handleOf x with
  | none => s
  | some h => if h.scope = .pkg then
      (List.range n).foldl (fun s _ => s.applyEvent (.net .pkg (h.index % 8) h.index) (.arrive seen) x) s
    else s

/-- A batch whose launch ends leaves its node's pool (R252). -/
def State.dropBatch (s : State) (l : Launch) : State :=
  match l.node with
  | none => s
  | some n => s.onNode l.world n (fun n => { n with waiting := n.waiting.filter (fun b => b.1 != l.uid) })

/-- A launch ends in one step: what is left of its waves and groups goes, its estates are sealed, its lease and objects,
those in a saved context too (R211), return, its record is sent, and then the unpaid arrivals are made. -/
def State.finishLaunch (s : State) (uid : Nat) : State :=
  match s.launch? uid with
  | none => s
  | some l =>
    let s := (s.waves.filter (fun w => w.launch == uid)).foldl (fun s w =>
      if w.transit.isSome then s.dropWave w.uid else (s.dropWave w.uid).noteIdle w.loc) s
    let s := s.sealEstates l
    let s : State := { s with
      groups := s.groups.filter (fun g => g.launch != uid)
      saved := s.saved.filter (fun g => g.group.launch != uid)
      reqs := s.reqs.filter (fun r => r.launch != uid)
      armedD := s.armedD.filter (fun a => a.launch != uid) }
    let s := s.dropBatch l
    let s := (s.onLaunch uid (fun l => { l with st := .ended, leased := false, live := 0 })).restoreW
    let kept := fun ns : List NetObj => ns.filter (fun n => n.byQueue || n.owner != uid)
    let s : State := { s with
      objs := kept s.objs
      contexts := s.contexts.map (fun c => { c with objs := kept c.objs, groups := c.groups.filter (fun g => g.launch != uid) }) }
    let f := l.endFault
    let s := State.count { s with records := s.records ++ [.endRec l.queue l.num f.1 f.2.1 f.2.2.1 f.2.2.2.1 f.2.2.2.2] } l.world 14 1
    s.arrive l.block.doneobj l.owed l.seen

/-- What R241 lets complete has: kept atomics and posted events, and grid operations of its waves, and every engine request that
they issued (R153, R191). A lane that a watch range stopped waits for lemmel, who has ended the launch. -/
def Wave.atEnd (w : Wave) : Bool :=
  w.entries.all (fun e => e.kind != .event && e.kind != .claim && (!e.kept || e.accs.all (fun a => a.st == .done || a.st == .watched)))

def State.stopDone (s : State) (l : Launch) : Bool :=
  s.waves.all (fun w => w.launch != l.uid || ((s.gridOf w).isEmpty && w.atEnd))
    && s.saved.all (fun g => g.group.launch != l.uid || g.waves.all Wave.atEnd)
    && s.reqs.all (fun r => r.launch != l.uid)

/-- A world's saved context holds nothing of the launch: its slice must come first. -/
def State.unsaved (s : State) (uid : Nat) : Bool :=
  s.contexts.all (fun c => c.waves.all (fun w => w.launch != uid) && c.reqs.all (fun r => r.launch != uid))

/-- R191, R241: when a launch ends. Its arrivals are a release at pkg scope. -/
def State.canEnd (s : State) (uid : Nat) : Bool :=
  match s.launch? uid with
  | none => false
  | some l => l.st != .ended && s.unsaved uid && s.settledAll 0 0 .pkg l.seen
    && (if l.stopped then s.stopDone l
        else l.leased && l.next == l.block.groups && l.live == 0 && s.reqs.all (fun r => r.launch != uid))

/-- LAUNCH_END. -/
def execLaunchEnd (launch : Nat) (s : State) : Out := runEvent "LAUNCH_END" (s.canEnd launch) (s.finishLaunch launch)

/-- R217: a thaw restarts the window from the moment of thawing. -/
def State.thaw (s : State) (part : Nat) : State :=
  ((s.onPart part (fun p => { p with frozen := false, stalled := [] })).firing part).rewait (fun w => s.partOf w.loc.die == part)

/-- A frozen partition goes on once the host has ended every launch that the STALL was raised against. -/
def State.letGo (s : State) : State :=
  let done := fun u => match s.launch? u with
    | none => true
    | some l => l.stopped || l.st == .ended
  (s.parts.filter (fun p => p.frozen && p.stalled.all done)).foldl (fun s p => s.thaw p.id) s

/-- HOST_END_LAUNCH: the launch ends as its fault action would end it, with no fault to name. -/
def execHostEndLaunch (launch : Nat) (s : State) : Out :=
  runEvent "HOST_END_LAUNCH" (match s.launch? launch with
    | none => false
    | some l => l.st != .ended) (s.endLaunch launch 0 0 0 0 8).letGo

/-! ## Sweeps (R270) -/

def sweeps (world seq cls : Nat) (e : Estate) : Bool :=
  e.world == world && e.seq == seq && (cls == 0 || e.cls == cls) && e.isSealed

/-- Releases the unclaimed estates of a key, those in a saved context too; the number released. -/
def State.sweepEstates (s : State) (world seq cls : Nat) : State × Nat :=
  let here := s.estates.filter (sweeps world seq cls)
  let there := (s.contexts.map (fun c => (c.estates.filter (sweeps world seq cls)).length)).sum
  let s := here.foldl State.takeEstate s
  let s : State := { s with contexts := s.contexts.map (fun c => { c with estates := c.estates.filter (fun e => !sweeps world seq cls e) }) }
  (s.count world 12 (here.length + there), here.length + there)

/-! ## Queue packets -/

/-- The packet that a queue's thread takes next: device-side entries come first (R249). -/
def State.nextPacket (s : State) (queue : Nat) : Option (Queue × Packet) :=
  match s.queue? queue with
  | none => none
  | some q =>
    if q.halted || q.waiting || q.closing.isSome || !q.device.isEmpty then none
    else match q.packets with
      | [] => none
      | p :: _ => some (q, p)

def State.popPacket (s : State) (queue : Nat) : State := s.onQueue queue (fun q => { q with packets := q.packets.tail })

def State.note (s : State) (r : Record) : State := { s with records := s.records ++ [r] }

def State.isSweep (s : State) (queue : Nat) : Option (Queue × Nat × Nat) :=
  match s.nextPacket queue with
  | some (q, .sweep n c) => some (q, n, c)
  | _ => none

/-- SWEEP. -/
def execSweep (queue : Nat) (s : State) : Out :=
  runEvent "SWEEP" (s.isSweep queue).isSome (match s.isSweep queue with
    | none => s
    | some (q, n, c) =>
      let r := s.sweepEstates q.world n c
      (r.1.popPacket queue).note (.sweep queue n c r.2))

/-! ## Packets as bytes (R248, R288) -/

/-- A packet of 64 bytes. Of codes 0x01 to 0x04 and 0x07 the manual gives the operands and not their places (log entry 95): such
a packet enters a queue by its operands. A SEQOPEN or SEQCLOSE with a nonzero byte that is not listed is no packet of the
table. -/
def packetOf (bs : List Byte) : Option Packet :=
  let n := fun k w => leNat ((bs.drop k).take w)
  let zero := fun k w => n k w == 0
  let code := n 0 1
  if bs.length != 64 then none
  else if code = 5 then
    some (if zero 2 2 && zero 24 40 then .seqopen (n 1 1) (n 4 4) (BitVec.ofNat 64 (n 8 8)) (n 16 8) else .other code)
  else if code = 6 then some (if zero 2 2 && zero 8 56 then .seqclose (n 1 1) (n 4 4) else .other code)
  else if 1 ≤ code && code ≤ 7 then none
  else some (.other code)

/-! ## SEQOPEN (R287 to R289) -/

/-- A slot is free from SEQCLOSE step 9 on. -/
def State.slotFree (s : State) (k : Nat) : Bool := mapGet 0 s.slots k == 0 && s.seqs.all (fun q => q.slot != k || q.st == .closed)

def State.freeSlot (s : State) : Option Nat := ((List.range 512).filter (· != 0)).find? s.slotFree

/-- The estate area is aligned, and mapped writable in the compartment's space. -/
def State.areaOk (s : State) (space base size : Nat) : Bool :=
  base % 2 ^ 16 == 0 && size % 2 ^ 16 == 0 && (List.range (size / 2 ^ 16)).all (fun k => match s.walk space (base + k * 2 ^ 16) with
    | .page l _ _ => l.w
    | _ => false)

def State.openCount (s : State) (world comp : Nat) : Nat :=
  (s.seqs.filter (fun q => q.world == world && q.comp == comp && q.st == .open_)).length

/-- EABASE 0 is no estate area (R288). -/
def areaSize (base size : Nat) : Nat := if base = 0 then 0 else size

/-- A world that is being destroyed opens no sequence (R294). R289: what a SEQOPEN needs, and the slot that it takes. -/
def State.openSlot (s : State) (q : Queue) (comp num base size : Nat) : Option Nat :=
  match s.world? q.world with
  | none => none
  | some w => match w.comps[comp]? with
    | none => none
    | some c =>
      if w.destroying || num = 0 || 2 ^ 32 ≤ num || w.used.contains num || c.maxOpen ≤ s.openCount q.world comp || !s.areaOk c.space base (areaSize base size) then none
      else s.freeSlot

def State.isSeqopen (s : State) (queue : Nat) : Option (Queue × Nat × Nat × W64 × Nat) :=
  match s.nextPacket queue with
  | some (q, .seqopen comp num base size) => some (q, comp, num, base, size)
  | _ => none

def State.doSeqopen (s : State) (queue : Nat) : State :=
  match s.isSeqopen queue with
  | none => s
  | some (q, comp, num, base, size) =>
    let s := s.popPacket queue
    match s.openSlot q comp num base.toNat size with
    | none => s.note (.seqRefused queue num)
    | some k =>
      let n := s.fresh
      let s := n.2.onWorld q.world (fun w => { w with used := w.used ++ [num] })
      State.note { s with
        slots := mapSet 0 s.slots k (n.1 + 1)
        seqs := s.seqs ++ [⟨q.world, num, comp, .open_, k, base, areaSize base.toNat size, none, none⟩] } (.seqOpened queue num k)

/-- SEQOPEN: refused with a record, or open under a fresh key in the lowest free slot. -/
def execSeqopen (queue : Nat) (s : State) : Out := runEvent "SEQOPEN" (s.isSeqopen queue).isSome (s.doSeqopen queue)

/-! ## SEQCLOSE (R291) -/

/-- Step 1: no new launches, and the accepted ones of which no group has started end without starting. -/
def State.drainSeq (s : State) (world num : Nat) (closer : Option Nat) : State :=
  let s := s.onSeq world num (fun q => { q with st := .draining, closer := closer })
  let unstarted := s.launches.filter (fun l => l.world == world && l.block.seq == num && l.st != .ended && l.next == 0)
  unstarted.foldl (fun s l => (s.endLaunch l.uid 11 0 0 0 8).finishLaunch l.uid) s

def State.isSeqclose (s : State) (queue : Nat) : Option (Queue × Nat × Nat) :=
  match s.nextPacket queue with
  | some (q, .seqclose comp num) => some (q, comp, num)
  | _ => none

/-- A SEQCLOSE of a sequence that is not open in the compartment retires with nothing released (log entry 31). -/
def State.doSeqclose (s : State) (queue : Nat) : State :=
  match s.isSeqclose queue with
  | none => s
  | some (q, comp, num) =>
    if s.seqOpen q.world comp num then
      (s.drainSeq q.world num (some queue)).onQueue queue (fun q => { q with closing := some num })
    else (s.popPacket queue).note (.seqClosed queue num 0)

/-- SEQCLOSE. -/
def execSeqclose (queue : Nat) (s : State) : Out := runEvent "SEQCLOSE" (s.isSeqclose queue).isSome (s.doSeqclose queue)

/-- Step 2: every launch of the sequence has ended. -/
def State.canDrained (s : State) (world num : Nat) : Bool :=
  match s.seq? world num with
  | none => false
  | some q => q.st == .draining && s.launches.all (fun l => l.world != world || l.block.seq != num || l.st == .ended)

/-- SEQCLOSE_DRAINED. -/
def execSeqcloseDrained (world seq : Nat) (s : State) : Out :=
  runEvent "SEQCLOSE_DRAINED" (s.canDrained world seq) (s.onSeq world seq (fun q => { q with st := .retiring }))

/-- A place under a key slot of this package. -/
def ByteAt.under (b : ByteAt) (slot : Nat) : Bool := b.kslot == slot && b.peer.isNone

/-- Step 4: no accepted request names a capability of the sequence. Nor is anything that was accepted under the slot still to be
performed when its key is zeroed (R282). -/
def State.canEnginesDone (s : State) (world num : Nat) : Bool :=
  let free := fun r : EngReq => s.launchWorld r.launch != world || !r.seqs.contains num
  match s.seq? world num with
  | none => false
  | some q => q.st == .retiring && s.reqs.all free && s.contexts.all (fun c => c.reqs.all free)
    && (s.storesThrough (fun _ b => b.under q.slot)).isEmpty && (s.piecesThrough (fun _ b => b.under q.slot)).isEmpty

/-- Steps 5 and 6: the key is zeroed, the slot's translations are invalidated, lanes translated under it are cancelled, and its
pages leave the leases (R308). -/
def State.doEnginesDone (s : State) (world num : Nat) : State :=
  match s.seq? world num with
  | none => s
  | some q =>
    let n := s.fresh
    let s := n.2
    let mine := fun (e : W128) => (leafOf e).kslot == q.slot && (leafOf e).tier != 2
    let gen := mapGet 0 s.slots q.slot
    let kept := fun f => mapGet 0 s.mem.frames f != q.slot
    let leave := fun l : Launch =>
      let l := { l with frames := l.frames.filter kept }
      if l.world != world then l else
        { l with left := unionNew l.left ((l.block.caps.zipIdx.filter (fun c => capLen c.1 != 0 && capSeq c.1 == num)).map (·.2)) }
    let s := s.dropCopies (fun c => c.data.any (fun b => b.owner == gen))
    let s := s.cancelLanes (fun _ b => b.under q.slot)
    let s := (s.mem.tables.filter (fun e => e.2.getLsbD 8 && e.2.getLsbD 0 && mine e.2)).foldl (fun s e => s.putEntry e.1 0) s
    let s : State := { s with
      slots := mapSet 0 s.slots q.slot 0
      launches := s.launches.map leave
      invals := s.invals ++ [⟨n.1, s.space world q.comp, 0, 0, [], []⟩]
      mem := { s.mem with
        tlb := s.mem.tlb.filter (fun t => !mine t.leaf)
        absent := s.mem.absent.filter (fun m => !mine m.leaf)
        seals := s.mem.seals.filter (fun m => !mine m.leaf) } }
    s.onSeq world num (fun q => { q with st := .invalidating, inval := some n.1 })

/-- SEQCLOSE_ENGINES_DONE. -/
def execSeqcloseEnginesDone (world seq : Nat) (s : State) : Out :=
  runEvent "SEQCLOSE_ENGINES_DONE" (s.canEnginesDone world seq) (s.doEnginesDone world seq)

def State.canInvalDone (s : State) (world num : Nat) : Bool :=
  match s.seq? world num with
  | none => false
  | some q => q.st == .invalidating && (match q.inval with
    | none => true
    | some i => s.invals.all (fun x => x.id != i))

/-- Steps 7 to 9: the sweep, the fence, Closed, and the frames and the slot are free. Tags go with the frames (R299). -/
def State.doInvalDone (s : State) (world num : Nat) : State :=
  match s.seq? world num with
  | none => s
  | some q =>
    let r := s.sweepEstates world num 0
    let s := r.1
    let owned := fun f => mapGet 0 s.mem.frames f == q.slot
    let s : State := { s with
      mem := { s.mem with
        tags := s.mem.tags.filter (fun t => !owned (t.1 / 2 ^ 12))
        frames := s.mem.frames.filter (fun f => f.2 != q.slot) }
      repair := s.repair.map (fun r => { r with undo := r.undo.filter (fun u => !owned (u.line / 2 ^ 9)) }) }
    let s := s.onSeq world num (fun q => { q with st := .closed })
    match q.closer with
    | none => s
    | some k => ((s.popPacket k).onQueue k (fun q => { q with closing := none })).note (.seqClosed k num r.2)

/-! ## The end of a world (R294) -/

/-- The world's spaces, queues and records go. -/
def State.removeWorld (s : State) (world : Nat) : State :=
  let spaces : List Nat := match s.world? world with
    | none => []
    | some w => w.comps.map (fun c : Comp => c.space)
  let n := s.fresh
  let gone := s.queues.filter (fun q => q.world == world)
  let hit := fun (x space : Nat) (_ : ByteAt) => x == space
  let out := spaces.map (fun x => (⟨n.1, x, 0, 0, s.storesThrough (hit x), s.piecesThrough (hit x)⟩ : Inval))
  let s := spaces.foldl (fun s x => s.invalRange ⟨x, 0, 0⟩) n.2
  { s with
    worlds := s.worlds.filter (fun w => w.id != world)
    seqs := s.seqs.filter (fun q => q.world != world)
    queues := s.queues.filter (fun q => q.world != world)
    objs := s.objs.filter (fun o => !(o.byQueue && gone.any (fun q => q.id == o.owner)))
    launches := s.launches.filter (fun l => l.world != world)
    contexts := s.contexts.filter (fun c => c.world != world)
    holdings := s.holdings.filter (fun h => h.world != world)
    invals := s.invals ++ out
    mem := { s.mem with
      roots := s.mem.roots.filter (fun r => !spaces.contains r.1)
      absent := s.mem.absent.filter (fun m => !spaces.contains m.space)
      dead := s.mem.dead.filter (fun m => !spaces.contains m.space)
      seals := s.mem.seals.filter (fun m => !spaces.contains m.space) } }

/-- Every sequence of a world has closed and every launch has ended. -/
def State.worldIdle (s : State) (world : Nat) : Bool :=
  s.seqs.all (fun q => q.world != world || q.st == .closed) && s.launches.all (fun l => l.world != world || l.st == .ended)

/-- A world whose destruction waits goes once its last sequence has closed (R294). -/
def State.destroyed (s : State) (world : Nat) : State :=
  match s.world? world with
  | none => s
  | some w => if w.destroying && s.worldIdle world then s.removeWorld world else s

/-- SEQCLOSE_INVAL_DONE. -/
def execSeqcloseInvalDone (world seq : Nat) (s : State) : Out :=
  runEvent "SEQCLOSE_INVAL_DONE" (s.canInvalDone world seq) ((s.doInvalDone world seq).destroyed world)

end Sys2Proof.Machine
end

