-- ==== Sys2Proof/Machine/Grants.lean ====
section
/-! DEFINITION. Machine/Grants.lean: the clock-ratio arbiter (R259 to R261, R227), the package power cap (R320), and POWER_CAP_WRITE, DROOP_STRETCH, PERSISTENT_DROOP_STEP, DROOP_RESTORE, THERMAL_LIMIT_STEP and THERMAL_RESTORE. -/

namespace Sys2Proof.Machine

/-! ## The working cap (R259, R320) -/

/-- Milliwatts of a partition's working cap: steps of 5 % of its share of CAPW, never below half of it. -/
def State.workingCap (s : State) (p : Part) : Nat :=
  s.pkg.capw * 1000 * s.partDies / 8 * (20 - min 10 (p.droop + p.thermal)) / 20

/-! ## Sets of ratios (R260) -/

/-- (mat, vec, net, mem). -/
structure Ratios where
  mat : Nat
  vec : Nat
  net : Nat
  mem : Nat
deriving DecidableEq, Repr

def Grant.ratios (g : Grant) : Ratios := ⟨g.mat, g.vec, g.net, g.mem⟩

def Ratios.power (r : Ratios) (matrix : Bool) : Nat := Config.power matrix r.mat r.vec r.net r.mem

/-- The requested fields: 0 means any. -/
def Block.want (b : Block) : Ratios where
  mat := (b.ratioreq.extractLsb' 0 8).toNat
  vec := (b.ratioreq.extractLsb' 8 8).toNat
  net := (b.ratioreq.extractLsb' 16 8).toNat
  mem := (b.ratioreq.extractLsb' 24 8).toNat

def gap (a b : Nat) : Nat := if b = 0 then 0 else max a b - min a b

/-- R260 test 1. -/
def Ratios.distance (r w : Ratios) (matrix : Bool) : Nat :=
  (if matrix then 4 * gap r.mat w.mat else 0) + 2 * gap r.vec w.vec + gap r.net w.net + 2 * gap r.mem w.mem

def between (lo hi : Nat) : List Nat := (List.range (hi - lo + 1)).map (· + lo)

/-- Every set of the ranges; without MATRIX mat equals vec. -/
def allRatios (matrix : Bool) : List Ratios :=
  (between 8 20).flatMap (fun v => (if matrix then between 8 20 else [v]).flatMap (fun m =>
    (between 8 24).flatMap (fun n => (between 12 20).map (fun e => ⟨m, v, n, e⟩))))

/-- The three tests of R260, in order. -/
def Ratios.rank (r w : Ratios) (matrix : Bool) : List Nat :=
  [r.distance w matrix, r.power matrix, r.mat, r.vec, r.net, r.mem]

def bestRatios (w : Ratios) (matrix : Bool) (ok : Ratios → Bool) : Option Ratios :=
  ((allRatios matrix).filter ok).foldl (fun m r => match m with
    | none => some r
    | some x => if r.rank w matrix < x.rank w matrix then some r else some x) none

/-- One field raised to the highest value that stays feasible. -/
def raiseBy (hi : Nat) (get : Ratios → Nat) (put : Ratios → Nat → Ratios) (ok : Ratios → Bool) (r : Ratios) : Ratios :=
  match ((between (get r) hi).filter (fun v => ok (put r v))).getLast? with
  | none => r
  | some v => put r v

/-- The fields that are any, raised in the order mat, vec, mem, net. -/
def raiseAny (w : Ratios) (matrix : Bool) (ok : Ratios → Bool) (r : Ratios) : Ratios :=
  let r := if matrix && w.mat = 0 then raiseBy 20 (·.mat) (fun r v => { r with mat := v }) ok r else r
  let r := if w.vec = 0 then
      raiseBy 20 (·.vec) (fun r v => if matrix then { r with vec := v } else { r with vec := v, mat := v }) ok r
    else r
  let r := if w.mem = 0 then raiseBy 20 (·.mem) (fun r v => { r with mem := v }) ok r else r
  if w.net = 0 then raiseBy 24 (·.net) (fun r v => { r with net := v }) ok r else r

/-- The set that R260 grants beside others that draw so much. -/
def grantSet (b : Block) (cap others : Nat) : Option Ratios :=
  let ok := fun r : Ratios => decide (others + r.power b.matrix ≤ cap)
  (bestRatios b.want b.matrix ok).map (raiseAny b.want b.matrix ok)

def leastRatios : Ratios := ⟨8, 8, 8, 12⟩

/-! ## Grants of the launches of a partition -/

/-- Launches that hold a grant. -/
def State.granted (s : State) (part : Nat) : List Launch :=
  s.launches.filter (fun l => l.part == part && l.st != .ended && l.grant.isSome)

def Launch.draw (l : Launch) : Nat :=
  match l.grant with
  | none => 0
  | some g => g.ratios.power l.block.matrix

/-- The first grant (R260): a launch that has one keeps it. -/
def State.firstGrant (s : State) (l : Launch) : Option Grant :=
  match l.grant with
  | some g => some g
  | none => match s.part? l.part with
    | none => none
    | some p => (grantSet l.block (s.workingCap p) ((s.granted l.part).map Launch.draw).sum).map
        (fun r => ⟨r.mat, r.vec, r.net, r.mem, 0⟩)

/-- Whether an object is a launch's notice object: in quad scope each quad set has its own. -/
def NetObj.isNotice (n : NetObj) (l : Launch) (h : Handle) : Bool :=
  n.scope == h.scope && n.index == h.index && !n.byQueue && n.owner == l.uid && (match h.scope with
    | .die => n.home == h.die
    | .pod => n.home == h.pkg
    | _ => true)

/-- An ARRIVE on an object that is saved with its group or its world. -/
def NetObj.arriveAway (n : NetObj) : NetObj :=
  let r := barEvent n.obj (.arrive [])
  { n with obj := r.1, carried := if r.2 then [] else n.carried, past := if r.2 then n.carried :: n.past else n.past }

/-- What a saved wave counts of such an arrival. -/
def Wave.wokenBy (w : Wave) (ns : List NetObj) : Wave :=
  { w with stalls := w.stalls.map (fun x => ns.foldl (fun x n =>
      wakeStall (.net n.scope n.home n.index) (.arrive []) (barEvent n.obj (.arrive [])).2 x) x) }

/-- The notice object of a launch takes one ARRIVE (R227), where it lies. -/
def State.notify (s : State) (l : Launch) : State :=
  match handleOf l.block.notice with
  | none => s
  | some h =>
    let p := fun n : NetObj => n.isNotice l h && !n.poison
    let objs := fun ns : List NetObj => updBy p NetObj.arriveAway ns
    let s : State := { s with
      saved := s.saved.map (fun g => { g with objs := objs g.objs, waves := g.waves.map (fun w => w.wokenBy (g.objs.filter p)) })
      contexts := s.contexts.map (fun c => { c with objs := objs c.objs, waves := c.waves.map (fun w => w.wokenBy (c.objs.filter p)) }) }
    (s.objs.filter (fun n => n.isNotice l h)).foldl (fun s n =>
      s.applyEvent (.net n.scope n.home n.index) (.arrive []) l.block.notice) s

/-- Every quarter that the launch occupies reads the grant: a die in deterministic issue reads it from the next round boundary on
(R330), and the notice object counts it only then (R227). -/
def State.allGranted (s : State) (l : Launch) : Bool := s.waves.all (fun w => w.launch != l.uid || s.grantOn w.loc.die l == l.grant)

/-- The arrivals that a launch's notice object is still to take, once they are due. -/
def State.noticeNow (s : State) (uid : Nat) : State :=
  match s.launch? uid with
  | none => s
  | some l =>
    if l.notices = 0 || !s.allGranted l then s
    else (Nat.repeat (fun s => s.notify l) l.notices s).onLaunch uid (fun l => { l with notices := 0 })

/-- The order of a round: descending PRIO, then first grant. -/
def roundOrder (ls : List Launch) : List Launch :=
  let before := fun (a b : Launch) => b.block.prio < a.block.prio || (a.block.prio == b.block.prio && a.granted ≤ b.granted)
  ls.foldl (fun out l => out.takeWhile (fun x => before x l) ++ [l] ++ out.dropWhile (fun x => before x l)) []

/-- One launch of a round: done holds those granted again before it, the rest count at their least-power sets. -/
def State.regrant (s : State) (p : Part) (done : List Nat) (uid : Nat) : State :=
  match s.launch? uid with
  | none => s
  | some l => match l.grant with
    | none => s
    | some g =>
      let others := (s.granted p.id).filter (fun x => x.uid != uid)
      let draw := (others.map (fun x => if done.contains x.uid then x.draw else leastRatios.power x.block.matrix)).sum
      let r := (grantSet l.block (s.workingCap p) draw).getD leastRatios
      if r = g.ratios then s
      else (s.onLaunch uid (fun l => { l with grant := some ⟨r.mat, r.vec, r.net, r.mem, g.gen + 1⟩, notices := l.notices + 1 })).noticeNow uid

/-- A round of forced grants (R261). -/
def State.grantRound (s : State) (part : Nat) : State :=
  match s.part? part with
  | none => s
  | some p => ((roundOrder (s.granted part)).foldl (fun (a : State × List Nat) l => (a.1.regrant p a.2 l.uid, a.2 ++ [l.uid])) (s, [])).1

/-! ## Configuration records (R310) -/

/-- The identity of a register in its configuration record (log entry 32). -/
def regBytes (id part index : Nat) (v : W64) : List Byte := leBytes 2 id ++ leBytes 2 part ++ leBytes 4 index ++ leBytes 8 v.toNat

def digestBytes (d : BitVec 512) : List Byte := leBytes 64 d.toNat

/-- An extend of a measurement register. -/
def Pkg.extend (k : Pkg) (n : Nat) (d : BitVec 512) : Pkg :=
  { k with mrs := k.mrs.modify n (fun m => Config.sha512 (digestBytes m ++ digestBytes d)) }

/-- An accepted write is measured into MR7. -/
def State.configured (s : State) (id part index : Nat) (v : W64) : State :=
  { s with pkg := s.pkg.extend 7 (Config.sha512 (regBytes id part index v)) }

/-! ## POWER_CAP_WRITE (R320) -/

def State.parts_ (s : State) : List Nat := s.parts.map (·.id)

def State.doCapWrite (s : State) (v : W64) : State :=
  let c := (v.extractLsb' 0 12).toNat
  let s : State := { s with pkg := { s.pkg with capw := max 1600 (min 3600 c) } }
  s.parts_.foldl State.grantRound (s.configured 1 0 0 v)

def execPowerCapWrite (value : BitVec 64) (s : State) : Out :=
  runEvent "POWER_CAP_WRITE" s.booted (s.doCapWrite value)

/-! ## Droop and thermal steps (R259) -/

/-- DROOP_STRETCH: the sensor's own; a stretch changes no ratio and no result. The last 10.1 ms of them are kept. -/
def execDroopStretch (die : Nat) (s : State) : Out :=
  let now := s.pkg.tick
  runEvent "DROOP_STRETCH" (die < 8)
    (s.onDie die (fun d => { d with droopCnt := d.droopCnt + 1, recent := (now :: d.recent).filter (fun t => now < t + 10100000) }))

/-- Each stretch of a die, newest first, with the one a thousand before it. -/
def Die.spans (d : Die) : List (Nat × Nat) := d.recent.zip (d.recent.drop 1000)

/-- More than 1,000 stretches within 100 µs on one die, the last of them after some tick. -/
def State.persistentSince (s : State) (p : Part) (since : Nat) : Bool :=
  (s.diesOf p.id).any (fun d => (s.die d).spans.any (fun ab => since < ab.1 && ab.1 < ab.2 + 100000))

/-- The intervals of 100 µs counted from the last step that are over and in which a die has more than 1,000 stretches, by
their ends. -/
def State.droopIntervals (s : State) (p : Part) : List Nat :=
  ((s.diesOf p.id).flatMap (fun d =>
    let ks := ((s.die d).recent.filter (fun t => p.droopAt ≤ t)).map (fun t => (t - p.droopAt) / 100000)
    ((unionNew [] ks).filter (fun k => 1000 < (ks.filter (· == k)).length)).map (fun k => p.droopAt + 100000 * (k + 1)))).filter (fun t => t ≤ s.pkg.tick)

/-- When a step of the cap falls due: at once for a persistent droop, and then at the end of each further interval (R259). -/
def State.droopDue (s : State) (p : Part) : Option Nat :=
  if p.droop = 0 then (if s.persistentSince p (max p.droopAt p.droopBack) then some s.pkg.tick else none)
  else (s.droopIntervals p).min?

def State.canDroopStep (s : State) (part : Nat) : Bool :=
  match s.part? part with
  | none => false
  | some p => (s.droopDue p).isSome

/-- PERSISTENT_DROOP_STEP. -/
def execPersistentDroopStep (part : Nat) (s : State) : Out :=
  runEvent "PERSISTENT_DROOP_STEP" (s.canDroopStep part)
    ((s.onPart part (fun p => { p with droop := p.droop + 1, droopAt := (s.droopDue p).getD s.pkg.tick })).grantRound part)

/-- DROOP_RESTORE: 10 ms have passed with no step taken or restored, and with no persistent droop. -/
def State.canDroopRestore (s : State) (part : Nat) : Bool :=
  match s.part? part with
  | none => false
  | some p => p.droop != 0 && max p.droopAt p.droopBack + 10000000 ≤ s.pkg.tick && !s.persistentSince p (s.pkg.tick - 10000000)

def execDroopRestore (part : Nat) (s : State) : Out :=
  runEvent "DROOP_RESTORE" (s.canDroopRestore part)
    ((s.onPart part (fun p => { p with droop := p.droop - 1, droopBack := s.pkg.tick })).grantRound part)

/-- A die is at its thermal limit, by the sensors: the first time, or 1 ms after the last step down. DESIGN CHOICE (log 119): R259 counts
the steps of a partition, and a second die that reaches its limit within that 1 ms takes no step of its own. -/
def State.canThermalStep (s : State) (part : Nat) : Bool :=
  match s.part? part with
  | none => false
  | some p => p.thermal == 0 || p.thermAt + 1000000 ≤ s.pkg.tick

/-- THERMAL_LIMIT_STEP. -/
def execThermalLimitStep (part : Nat) (s : State) : Out :=
  runEvent "THERMAL_LIMIT_STEP" (s.canThermalStep part)
    ((s.onPart part (fun p => { p with thermal := p.thermal + 1, thermAt := s.pkg.tick })).grantRound part)

def State.canThermalRestore (s : State) (part : Nat) : Bool :=
  match s.part? part with
  | none => false
  | some p => p.thermal != 0 && max p.thermAt p.thermBack + 10000000 ≤ s.pkg.tick

/-- THERMAL_RESTORE: by the sensors every die of the partition has stayed below its limit for 10 ms. -/
def execThermalRestore (part : Nat) (s : State) : Out :=
  runEvent "THERMAL_RESTORE" (s.canThermalRestore part)
    ((s.onPart part (fun p => { p with thermal := p.thermal - 1, thermBack := s.pkg.tick })).grantRound part)

end Sys2Proof.Machine
end

