-- ==== Sys2Proof/Machine/Queues.lean ====
section
/-! DEFINITION. Machine/Queues.lean: the packets of a host queue (R248, R249), QUEUE_MAP and QUEUE_UNMAP (R246, R350), DEPENDENCE_RELEASE (R250), work-graph nodes (R251, R252), launches from the network (R253, R254), and LEASE_SETUP (R280, R281, R301, R308). -/

namespace Sys2Proof.Machine

/-! ## LAUNCH packets and device-side entries -/

/-- The thread takes a device-side entry before a packet. -/
def State.deviceEntry (s : State) (queue : Nat) : Option (Queue × DevEntry) :=
  match s.queue? queue with
  | none => none
  | some q => if q.halted || q.waiting || q.closing.isSome then none else q.device.head?.map (fun e => (q, e))

def State.isLaunch (s : State) (queue : Nat) : Option (Queue × W64 × Nat) :=
  match s.nextPacket queue with
  | some (q, .launch va comp) => some (q, va, comp)
  | _ => none

/-- A hub agent's request of a world for some bytes: its partition's grains (R306), and the world's counters (R316). -/
def State.hubPay (s : State) (hub part world : Nat) (bs : List ByteAt) : Option State :=
  let here := bs.filter (fun b => b.peer.isNone)
  match s.spend part world .mem here.length with
  | none => none
  | some s => match s.spend part world .link (((here.filter (fun b => s.hops hub b.home != 0)).map (fun b => s.linkBytes hub b.home 1)).sum) with
    | none => none
    | some s => (s.spend part world .fabric (bs.length - here.length)).map (fun s => s.countBytes world hub bs)

/-- The places of some bytes of a space. -/
def State.placesAt (s : State) (agent space va n : Nat) : List ByteAt := (s.deviceRead agent space va n).filterMap (fun x => x.map (·.1))

/-- The block that a hub agent reads for a world, as its bytes, its tags and the state after the read: the bucket may hold it back. -/
def State.hubBlock (s : State) (agent part world space va : Nat) : Option (Option (List Byte × Block) × State) :=
  match s.blockBytes agent space va with
  | none => some (none, s)
  | some bs => (s.hubPay (agentDie agent) part world (s.placesAt agent space va bs.length)).map (fun t =>
      (some (bs, s.blockAt agent space va bs), t.cacheXlate agent space va))

/-- The block of a packet is read once. One that is misaligned or cannot be read is refused with code 1 (log entry 33). -/
def State.takeLaunch (s : State) (q : Queue) (va : W64) (comp : Nat) : Option State :=
  (s.hubBlock (threadAgent q.id) q.part q.world (s.space q.world comp) va.toNat).map (fun r =>
    let t := r.2.popPacket q.id
    match r.1 with
    | none => t.dispatch q.id comp (blockOf [] false) false q.seen none []
    | some b => t.dispatch q.id comp b.2 (reservedOk b.1 && va.toNat % 256 == 0) q.seen none [])

def State.doLaunchPacket (s : State) (queue : Nat) : Option State :=
  match s.deviceEntry queue with
  | some (q, e) => some ((s.onQueue queue (fun q => { q with device := q.device.tail })).dispatch queue e.comp e.block e.wellFormed
      (unionNew q.seen e.inherit_) none [])
  | none => match s.isLaunch queue with
    | none => none
    | some (q, va, comp) => s.takeLaunch q va comp

/-- LAUNCH_PACKET: the dispatcher accepts or refuses the block. -/
def execLaunchPacket (queue : Nat) (s : State) : Out :=
  runEvent "LAUNCH_PACKET" (s.doLaunchPacket queue).isSome ((s.doLaunchPacket queue).getD s)

/-! ## WAIT, ARRIVE and BINIT packets -/

/-- The object that a packet's handle names: a thread has no group. -/
def packetObj (x : W64) : Option ObjRef :=
  match handleOf x with
  | none => none
  | some h => match h.scope with
    | .die => some (.net .die h.die h.index)
    | .pkg => some (.net .pkg (h.index % 8) h.index)
    | .pod => some (.net .pod h.pkg h.index)
    | .core | .quad => none

def State.haltQueue (s : State) (queue : Nat) (r : Record) : State :=
  ((s.popPacket queue).onQueue queue (fun q => { q with halted := true })).note r

/-- (PHASE − token) mod 16: an object given to nobody stands at its reset. -/
def State.phaseAhead (s : State) (o : ObjRef) (token : Nat) : Nat :=
  (((s.obj? o).getD barBlank).phase + 16 - token % 16) % 16

/-- A WAIT packet, or one of an unknown code. -/
def State.isWait (s : State) (queue : Nat) : Option (Queue × Packet) :=
  match s.nextPacket queue with
  | some (q, .wait h t) => some (q, .wait h t)
  | some (q, .other c) => some (q, .other c)
  | _ => none

def State.doWaitPacket (s : State) (queue : Nat) : State :=
  match s.isWait queue with
  | some (_, .wait h t) => match packetObj h with
    | none => s.haltQueue queue (.halted queue 2)
    | some o => if 9 ≤ s.phaseAhead o t then s.haltQueue queue (.phaseAhead queue)
        else s.onQueue queue (fun q => { q with waiting := true })
  | some (_, .other c) => s.haltQueue queue (.halted queue c)
  | _ => s

/-- WAIT_PACKET: the thread blocks; a token that is far ahead, or an unknown code, halts the queue. -/
def execWaitPacket (queue : Nat) (s : State) : Out :=
  runEvent "WAIT_PACKET" (s.isWait queue).isSome (s.doWaitPacket queue)

/-- The blocked WAIT whose object has passed its token. -/
def State.waitDone (s : State) (queue : Nat) : Option (ObjRef × Nat) :=
  match s.queue? queue with
  | none => none
  | some q => if !q.waiting then none else match q.packets with
    | .wait h t :: _ => match packetObj h with
      | none => none
      | some o => if s.phaseAhead o t = 0 then none else some (o, s.phaseAhead o t)
    | _ => none

def State.doWaitReturn (s : State) (queue : Nat) : State :=
  match s.waitDone queue with
  | none => s
  | some (o, d) => (s.popPacket queue).onQueue queue (fun q => { q with waiting := false, seen := unionNew q.seen (s.pastOf o d) })

/-- WAIT_PACKET_RETURN: an acquire. -/
def execWaitPacketReturn (queue : Nat) (s : State) : Out :=
  runEvent "WAIT_PACKET_RETURN" (s.waitDone queue).isSome (s.doWaitReturn queue)

def State.isArrive (s : State) (queue : Nat) : Option (Queue × W64) :=
  match s.nextPacket queue with
  | some (q, .arrive h) => some (q, h)
  | _ => none

/-- The hub's way to an object's die. -/
def State.hubReaches (s : State) (o : ObjRef) : Bool :=
  8 ≤ objDie o || (s.reachable 8 (objDie o) && !(s.die (objDie o)).held)

/-- A release at pkg scope that reaches its object. -/
def State.canArrivePacket (s : State) (queue : Nat) : Bool :=
  match s.isArrive queue with
  | none => false
  | some (q, h) => match packetObj h with
    | none => true
    | some o => s.settledAll 0 0 .pkg q.seen && s.hubReaches o

def State.doArrivePacket (s : State) (queue : Nat) : State :=
  match s.isArrive queue with
  | none => s
  | some (q, h) => match packetObj h with
    | none => s.haltQueue queue (.halted queue 3)
    | some o => (s.popPacket queue).applyEvent o (.arrive q.seen) h

/-- ARRIVE_PACKET. -/
def execArrivePacket (queue : Nat) (s : State) : Out :=
  runEvent "ARRIVE_PACKET" (s.canArrivePacket queue) (s.doArrivePacket queue)

def State.isBinit (s : State) (queue : Nat) : Option (Queue × W64 × Nat × Nat) :=
  match s.nextPacket queue with
  | some (q, .binit h a b) => some (q, h, a, b)
  | _ => none

def blankObj (sc : Scope) (home index owner : Nat) (byQueue : Bool) : NetObj where
  scope := sc
  home := home
  index := index
  owner := owner
  byQueue := byQueue
  obj := barBlank
  carried := []
  past := []
  poison := false

/-- A queue object of the queue, taken where no queue holds it; another's halts the queue (R246). -/
def State.doBinitPacket (s : State) (queue : Nat) : State :=
  match s.isBinit queue with
  | none => s
  | some (_, x, a, b) => match handleOf x with
    | none => s.haltQueue queue (.halted queue 4)
    | some h =>
      let home := h.index % 8
      let held := match s.netObj? .pkg home h.index with
        | none => some ({ s with objs := s.objs ++ [blankObj .pkg home h.index queue true] } : State)
        | some n => if n.byQueue && n.owner = queue then some s else none
      if h.scope != .pkg || h.index < 768 then s.haltQueue queue (.halted queue 4)
      else match held with
        | none => s.haltQueue queue (.halted queue 4)
        | some t => (t.popPacket queue).applyEvent (.net .pkg home h.index) (.binit (min a 65535) (min b (2 ^ 31 - 1))) x

/-- BINIT_PACKET. -/
def execBinitPacket (queue : Nat) (s : State) : Out :=
  runEvent "BINIT_PACKET" (s.isBinit queue).isSome (s.doBinitPacket queue)

/-! ## QUEUE_MAP and QUEUE_UNMAP -/

def newQueue (id world part : Nat) : Queue where
  id := id
  world := world
  part := part
  packets := []
  device := []
  halted := false
  waiting := false
  closing := none
  seen := []
  nextNum := 1

/-- QUEUE_MAP: a queue of a world, in a partition named by its lowest die. -/
def execQueueMap (queue world part : Nat) (s : State) : Out :=
  runEvent "QUEUE_MAP" (s.booted && (s.queue? queue).isNone && (s.world? world).isSome && (s.part? part).isSome)
    { s with queues := s.queues ++ [newQueue queue world part] }

/-- QUEUE_UNMAP: its objects return to the pool. It waits for the queue's launches and closes (log entry 34). -/
def execQueueUnmap (queue : Nat) (s : State) : Out :=
  runEvent "QUEUE_UNMAP" (match s.queue? queue with
    | none => false
    | some q => q.closing.isNone && s.launches.all (fun l => l.queue != queue || l.st == .ended))
    { s with
      queues := s.queues.filter (fun q => q.id != queue)
      objs := s.objs.filter (fun n => !(n.byQueue && n.owner == queue)) }

/-! ## DEPENDENCE_RELEASE (R250) -/

def State.depReady (s : State) (launch : Nat) : Option (ObjRef × Nat) :=
  match s.launch? launch with
  | none => none
  | some l =>
    if l.released || l.stopped || l.st == .ended then none
    else match packetObj l.block.depobj with
      | none => none
      | some o => if s.phaseAhead o l.block.deptok = 0 then none else some (o, s.phaseAhead o l.block.deptok)

def State.doRelease (s : State) (launch : Nat) : State :=
  match s.depReady launch with
  | none => s
  | some (o, d) => s.onLaunch launch (fun l => { l with
      released := true
      st := if l.st = .held then .waiting else l.st
      inherit_ := unionNew l.inherit_ (s.pastOf o d) })

/-- DEPENDENCE_RELEASE: the launch's waves inherit as a WAIT that returns would. -/
def execDependenceRelease (launch : Nat) (s : State) : Out :=
  runEvent "DEPENDENCE_RELEASE" (s.depReady launch).isSome (s.doRelease launch)

/-! ## Nodes (R251, R252) -/

/-- What a node entry must hold to. -/
def nodeOk (b : Block) (z g t : Nat) : Bool :=
  z % 16 == 0 && 16 ≤ z && z ≤ 1008 && 1 ≤ g && g ≤ b.fibres && 1 ≤ t && t ≤ 65535 && 16 + g * z ≤ b.scratch

/-- DESIGN CHOICE (log 118): an entry that is written anew keeps what the node has gathered by then (its records, its first tick, its
waiting batches), whatever the new z and G; R251 does not say. -/
def putNode (n : Node) : List Node → List Node
  | [] => [n]
  | m :: ms => if m.id = n.id then { n with records := m.records, first := m.first, waiting := m.waiting, queue := m.queue, seen := m.seen } :: ms
      else m :: putNode n ms

/-- NODE_TABLE_WRITE: an entry out of its ranges is refused with code 1. -/
def execNodeTableWrite (world node : Nat) (template : List (BitVec 8)) (z g t capacity : Nat) (s : State) : Out :=
  let b := tableBlock template
  runEvent "NODE_TABLE_WRITE" (s.booted && (s.world? world).isSome && 1 ≤ node && node < 4096)
    (if 256 ≤ template.length && reservedOk template && nodeOk b z g t then
      (s.onWorld world (fun w => { w with nodes := putNode ⟨node, b, 0, z, g, t, capacity, [], 0, [], 0, []⟩ w.nodes })).note (.written 20 true)
    else s.note (.nodeRefused world node 1))

def State.timerDue (s : State) (world node : Nat) : Bool :=
  match s.node? world node with
  | none => false
  | some n => !n.records.isEmpty && n.first + 1000 * n.t ≤ s.pkg.tick

/-- NODE_BATCH_TIMER: a partial batch. -/
def execNodeBatchTimer (world node : Nat) (s : State) : Out :=
  runEvent "NODE_BATCH_TIMER" (s.timerDue world node) (s.takeBatch world node)

/-! ## The network (R253, R254) -/

/-- LAUNCH_TABLE_WRITE. -/
def execLaunchTableWrite (world index : Nat) (entry : List (BitVec 8)) (s : State) : Out :=
  runEvent "LAUNCH_TABLE_WRITE" (s.booted && (s.world? world).isSome && index < 256 && entry.length == 64)
    (s.onWorld world (fun w => { w with table := mapSet [] w.table index entry }))

def half (bs : List Byte) (off : Nat) : Nat := leNat ((bs.drop off).take 2)

/-- A source package lies in a used range of an entry. -/
def sourceOk (e : List Byte) (source : Nat) : Bool :=
  (List.range 4).any (fun k => half e (16 + 8 * k) ≤ source && source ≤ half e (18 + 8 * k))

/-- The reserved bytes of an entry, and its fields' ranges. R254 calls an entry with a nonzero reserved byte empty. DESIGN CHOICE
(log 114): so is one whose TEMPLATE is not aligned to 256, whose COMP is above 7, or whose MAXARG is above 256 or no multiple of 8. -/
def tableOk (e : List Byte) : Bool :=
  e.length == 64 && leNat (e.take 8) != 0 && leNat (e.take 8) % 256 == 0 && leNat ((e.drop 10).take 1) ≤ 7
    && leNat ((e.drop 11).take 1) ≤ 15 && half e 12 % 8 == 0 && half e 12 ≤ 256 && half e 14 == 0
    && (List.range 4).all (fun k => leNat ((e.drop (20 + 8 * k)).take 4) == 0) && leNat (e.drop 48) == 0

/-- The template with its arguments replaced and its priority lowered. -/
def requestBlock (b : Block) (args : List Byte) (prio : Nat) : Block :=
  { b with args := (List.range ((args.length + 7) / 8)).map (fun k => BitVec.ofNat 64 (qword args (8 * k))), prio := min b.prio prio }

/-- What an accepted request puts into its queue, and the state after its template was read; none at all while the bucket of the
queue's partition holds the read back. R253's refusals do not name a template that cannot be read. DESIGN CHOICE (log 115): such a request
is refused, and counted with the others. -/
def State.request (s : State) (world index source : Nat) (args : List Byte) : Option (Option (Nat × DevEntry) × State) :=
  match s.world? world with
  | none => some (none, s)
  | some w =>
    let e := mapGet [] w.table index
    let comp := leNat ((e.drop 10).take 1)
    if 256 ≤ index || !tableOk e || !sourceOk e source || half e 12 < args.length then some (none, s)
    else match s.queue? (half e 8) with
      | none => some (none, s)
      | some q => (s.hubBlock netAgent q.part world (s.space world comp) (leNat (e.take 8))).map (fun r => match r.1 with
        | none => (none, s)
        | some b =>
          if q.world != world || 64 ≤ q.device.length || (w.prot && !b.2.tagged) then (none, r.2)
          else (some (q.id, ⟨requestBlock b.2 args (leNat ((e.drop 11).take 1)), comp, reservedOk b.1, []⟩), r.2))

/-- The refusal of a request, or its entry. -/
def State.answer (world index source : Nat) (r : Option (Nat × DevEntry) × State) : State :=
  match r.1 with
  | some (q, e) => r.2.onQueue q (fun q => { q with device := q.device ++ [e] })
  | none => (r.2.count world 13 1).note (.netRefused world index source)

/-- NETWORK_LAUNCH_REQUEST: queued as a device-side entry, or refused and counted. The Farsol ports stand from stage 5 of boot on
(R310, R311). -/
def execNetworkLaunchRequest (world index source : Nat) (args : List (BitVec 8)) (s : State) : Out :=
  let r := s.request world index source args
  runEvent "NETWORK_LAUNCH_REQUEST" (5 ≤ s.pkg.bootStage && r.isSome) (State.answer world index source (r.getD (none, s)))

/-! ## LEASE_SETUP (R280) -/

/-- The 64 KiB pages that a capability's range touches. -/
def capPages (c : W128) : List Nat :=
  if capLen c = 0 then []
  else (List.range ((capBase c + capLen c - 1) / 2 ^ 16 - capBase c / 2 ^ 16 + 1)).map (fun k => (capBase c / 2 ^ 16 + k) * 2 ^ 16)

/-- The capabilities that setup leaves out: their sequence is Retiring or Closed (R308). -/
def State.leftOut (s : State) (l : Launch) : List Nat :=
  (l.block.caps.zipIdx.filter (fun c => capLen c.1 != 0 && (match s.seq? l.world (capSeq c.1) with
    | none => false
    | some q => q.st != .open_ && q.st != .draining))).map (·.2)

def Launch.kept (l : Launch) : List W128 := (l.block.caps.zipIdx.filter (fun c => capLen c.1 != 0 && !l.left.contains c.2)).map (·.1)

/-- The pages of a lease in ascending address order, with their spaces. -/
def State.leasePages (s : State) (l : Launch) : List (Nat × Nat) :=
  let all := unionNew [] (l.kept.flatMap (fun c => (capPages c).map (fun va => (va, s.space l.world (capComp c)))))
  all.foldl (fun out p => out.takeWhile (fun x => x.1 ≤ p.1) ++ [p] ++ out.dropWhile (fun x => x.1 ≤ p.1)) []

def State.absentAt (s : State) (space va : Nat) : Option MapReq := s.mem.absent.find? (fun m => samePage m space va)

/-- The leaf of a page that firmware brings in: of its own frame, or of another free one in the tier that firmware chooses (R284). -/
def State.setupLeaf (s : State) (m : MapReq) : W128 :=
  let l := leafOf m.leaf
  let n := pageBytes m.big
  let frame := Config.setupFrame s.own.uid
  let e := reframe m.leaf frame l.sframe
  if l.tier != 2 && frameOk frame n && !(leafOf e).malformed m.big
    && (List.range (n / 2 ^ 16)).all (fun k => mapGet 0 s.mem.frames (frame / 2 ^ 16 + k) == 0) then e
  else m.leaf

/-- Bytes that come from a host or from storage into a run of memory, under a key. -/
def MemSys.bringIn (m : MemSys) (gen base n no first : Nat) : MemSys :=
  ((List.range n).foldl (fun m i => m.put gen 0 (base + i) (Config.storedByte no (first + i))) m).heal (span base n)

/-- Firmware brings a page in, with its scale frame: its leaf becomes valid. -/
def State.fetchPage (s : State) (m : MapReq) : State :=
  let m' : MapReq := { m with leaf := s.setupLeaf m }
  let l := leafOf m'.leaf
  let no := s.fresh
  let t := no.2.putLeaf m'
  let t : State := { t with mem := { t.mem with absent := t.mem.absent.filter (fun a => a != m) } }
  if l.tier = 2 then t
  else
    let n := pageBytes m.big
    let k := l.scaleBytes m.big
    let inNew := fun line => (l.frame ≤ line * 128 && line * 128 < l.frame + n) || (l.sframe ≤ line * 128 && line * 128 < l.sframe + k)
    let t := t.dropCopies (fun c => inNew c.line)
    let gen := t.keyGen l.kslot
    { t with mem := (t.mem.bringIn gen l.frame n no.1 0).bringIn gen l.sframe k no.1 n }

def State.resident (s : State) (space va : Nat) : Bool :=
  match s.walk space va with
  | .page _ _ _ => true
  | _ => false

/-- The neighbourhood prefetcher (R281), over spans that double: every absent page of a span is fetched. -/
def State.widen (s : State) (x : W64) (m : MapReq) (n : Nat) : Nat → State
  | 0 => s
  | fuel + 1 =>
    let size := pageBytes m.big
    let log := min 10 (x.extractLsb' 0 5).toNat
    let thresh := if x.extractLsb' 16 4 = 0 then 16 else (x.extractLsb' 16 4).toNat
    if !x.getLsbD 31 || 2 ^ log < 2 * n then s
    else
      let start := m.va.toNat / size / (2 * n) * (2 * n)
      let pages := (List.range (2 * n)).map (fun k => (start + k) * size)
      if (pages.filter (s.resident m.space)).length * 16 < thresh * (2 * n) then s
      else
        let inSpan := fun a : MapReq => a.space == m.space && a.va.toNat < (start + 2 * n) * size
          && start * size < a.va.toNat + pageBytes a.big
        ((s.mem.absent.filter inSpan).foldl State.fetchPage s).widen x m (2 * n) fuel

/-- Setup visits a page. -/
def State.visit (s : State) (part : Nat) (space va : Nat) : State :=
  match s.absentAt space va with
  | none => s
  | some m =>
    let x := match s.part? part with
      | none => 0
      | some p => p.prefetch
    (s.fetchPage m).widen x m 1 10

/-- Whether a page answers a capability's permissions. -/
def State.pageFails (s : State) (l : Launch) (c : W128) (va : Nat) : Bool :=
  match s.walk (s.space l.world (capComp c)) va with
  | .page f _ _ => (capR c && !f.r) || (capW c && !f.w) || (capX c && !f.x) || (f.tier == 2 && s.peerDown f.peer)
  | _ => true

/-- The first failing page of a lease. -/
def State.leaseFails (s : State) (l : Launch) : Option Nat :=
  (l.kept.flatMap (fun c => (capPages c).filter (s.pageFails l c))).foldl (fun m va => match m with
    | none => some va
    | some x => some (min x va)) none

/-- Code-seals a page (R301), keeping the leaf as it was. -/
def State.sealPage (s : State) (space va : Nat) : State :=
  if s.mem.seals.any (fun m => samePage m space va) then s
  else match s.walk space va with
    | .page _ big e =>
      let base := va / pageBytes big * pageBytes big
      let s : State := { s with mem := { s.mem with seals := s.mem.seals ++ [⟨space, BitVec.ofNat 64 base, big, e⟩] } }
      (s.editLeaf space va (fun e => (e ||| BitVec.ofNat 128 16) &&& ~~~(BitVec.ofNat 128 4))).invalRange ⟨space, base, pageBytes big⟩
    | _ => s

/-- The measured bytes: the ranges of the X capabilities in order. What a peer's page holds is what its fetch gives. -/
def State.codeBytes (s : State) (l : Launch) : List Byte :=
  (l.kept.filter capX).flatMap (fun c => (s.deviceRead 9 (s.space l.world (capComp c)) (capBase c) (capLen c)).map (fun x => match x with
    | none => 0
    | some b => b.2))

/-- What hub 1's read of them moves (R306, R316). -/
def State.codePaid (s : State) (l : Launch) : State :=
  (l.kept.filter capX).foldl (fun s c => s.deviceReadPaid l.world 9 (s.space l.world (capComp c)) (capBase c) (capLen c)) s

/-- An entry of a world's measurement log (R314). -/
def State.logEntry (s : State) (world : Nat) (d : BitVec 512) : State :=
  s.onWorld world (fun w => { w with
    log := (w.log ++ [d]).drop (w.log.length + 1 - 4096)
    logd := Config.sha512 (digestBytes w.logd ++ digestBytes d)
    entries := w.entries + 1
    logTick := s.pkg.tick })

def State.leaseFrames (s : State) (l : Launch) : List Nat :=
  unionNew [] (l.kept.flatMap (fun c => (capPages c).filterMap (fun va => match s.walk (s.space l.world (capComp c)) va with
    | .page f big _ => if f.tier = 2 then none else some ((f.frame + va % pageBytes big) / 2 ^ 16)
    | _ => none)))

def State.doLease (s : State) (uid : Nat) : State :=
  match s.launch? uid with
  | none => s
  | some l =>
    let s := s.onLaunch uid (fun l => { l with left := s.leftOut l })
    let l : Launch := { l with left := s.leftOut l }
    let s := (s.leasePages l).foldl (fun s p => s.visit l.part p.2 p.1) s
    match s.leaseFails l with
    | some va => (s.endLaunch uid 8 0 (BitVec.ofNat 64 va) 0 8).finishLaunch uid
    | none =>
      let s := (l.kept.filter capX).foldl (fun s c => (capPages c).foldl (fun s va => s.sealPage (s.space l.world (capComp c)) va) s) s
      let d := Config.sha512 (s.codeBytes l)
      let fs := s.leaseFrames l
      ((s.codePaid l).logEntry l.world d).onLaunch uid (fun l => { l with
        leased := true
        measure := d
        frames := fs
        st := if l.released then .waiting else .held })

/-- No page of a lease is being moved (R283), and nothing is still to be performed through one that is to be sealed (R282, R301). -/
def State.leaseCalm (s : State) (l : Launch) : Bool :=
  (s.leasePages l).all (fun p => s.walk p.2 p.1 != .held)
    && (l.kept.filter capX).all (fun c => (capPages c).all (fun va => s.rangeQuiet ⟨s.space l.world (capComp c), va, 2 ^ 16⟩))

def State.canLease (s : State) (uid : Nat) : Bool :=
  match s.launch? uid with
  | none => false
  | some l => l.st == .setup && !l.stopped && s.leaseCalm { l with left := s.leftOut l }

/-- LEASE_SETUP. -/
def execLeaseSetup (launch : Nat) (s : State) : Out := runEvent "LEASE_SETUP" (s.canLease launch) (s.doLease launch)

end Sys2Proof.Machine
end

