-- ==== Sys2Proof/Machine/Placement.lean ====
section
/-! DEFINITION. Machine/Placement.lean: making groups resident (R189 to R195, R204 to R207, R234, R245, R255 to R258, R262, R272): GROUP_PLACEMENT and TIMED_START. -/

namespace Sys2Proof.Machine

/-! ## Birth (R189, R190) -/

def bornFibre (pc : W64) (lane : Nat) : Fibre where
  lane := lane
  pc := pc
  preds := 0
  winbase := 0
  stack := []
  claim := 0
  region := pc
  age := 0

/-- The scalar registers at birth: the arguments from s32 on (R7). -/
def bornScalars (args : List W64) : Sparse W64 := args.zipIdx.foldl (fun m a => mapSet 0 m (32 + a.2) a.1) []

def bornPoint : Checkpoint := ⟨[], [], 0, false, 0, 0, []⟩

/-- A wave of a launch at birth, before its checkpoint. -/
def bornWave (uid : Nat) (l : Launch) (group index : Nat) (loc : Loc) (started : Bool) (since : Nat) : Wave where
  uid := uid
  launch := l.uid
  group := group
  index := index
  loc := loc
  fibres := (List.range (min 64 (l.block.fibres - 64 * index))).map (bornFibre l.block.entry)
  sregs := bornScalars l.block.args
  vregs := []
  etags := []
  winsize := l.block.window
  runBase := 0
  low := []
  high := []
  matrix := false
  fflags := 0
  checkpoint := bornPoint
  streak := 0
  lastPair := none
  waited := 0
  yielded := false
  marks := []
  entries := []
  nextEntry := 0
  dead := []
  presented := []
  since := since
  stalls := []
  pend := []
  lost := []
  parked := none
  vpoison := []
  spoison := []
  ppoison := []
  observed := l.inherit_
  returned := []
  floors := []
  started := started
  transit := none

def Wave.pointed (w : Wave) : Wave := { w with checkpoint := w.snapshot }

def newGroup (launch index die core waves order : Nat) (quadset : Option Nat) (prefill : List Byte) : Group where
  launch := launch
  index := index
  die := die
  core := core
  waves := waves
  scratch := mapSetRun 0 [] 0 prefill
  spoison := []
  carried := []
  past := []
  wids := []
  quadset := quadset
  order := order
  stopping := false

/-! ## Fit (R192, R204, R206, R271) -/

/-- What a group needs of a core: a wave's quarter and registers each, KiB of scratchpad, blocks of L1, directory entries. -/
structure Need where
  waves   : List (Nat × Nat)
  alloc   : Nat
  l1min   : Nat
  roam    : Bool
  entries : Nat
deriving DecidableEq, Repr

def Block.need (b : Block) : Need :=
  ⟨(List.range b.waves).map (fun w => (w % 4, b.window)), b.alloc, b.l1min, b.roam, 0⟩

def Need.on (n : Need) (q : Nat) : List Nat := (n.waves.filter (fun w => w.1 == q)).map (·.2)

def State.freeSlots (s : State) (die core q : Nat) : List Nat :=
  (List.range 8).filter (fun k => (s.wavesAt die core q).all (fun w => w.place.slot != k))

def State.coreGroups (s : State) (die core : Nat) : List Block :=
  (s.groups.filter (fun g => g.die == die && g.core == core)).filterMap (fun g => (s.launch? g.launch).map (fun l => l.block))

def State.sramFits (s : State) (die core : Nat) (n : Need) : Bool :=
  let bs := s.coreGroups die core
  (bs.map Block.alloc).sum + n.alloc ≤ (12 - (bs.map (fun b => b.l1min)).foldl max n.l1min) * 64

def State.regsFit (s : State) (die core q : Nat) (n : Need) : Bool :=
  (n.on q).isEmpty || (n.on q).sum ≤ s.freeRegs die core q n.roam

def State.entriesFit (s : State) (die core : Nat) (n : Need) : Bool := (s.directory die core).length + n.entries ≤ 1024

def State.fits (s : State) (die core : Nat) (n : Need) : Bool :=
  core < (s.present die).length && s.sramFits die core n && s.entriesFit die core n
    && (List.range 4).all (fun q => (n.on q).length ≤ (s.freeSlots die core q).length && s.regsFit die core q n)

/-- R268: the state in which sealed holdings have made room on a core, where they can. -/
def State.makeRoom (s : State) (die core : Nat) (n : Need) : Option State :=
  let quarter := fun (s : State) q => s.evictUntil (fun s => s.regsFit die core q n)
    (s.evictable (fun e => e.die == die && e.core == core && e.quarter == q))
  let t := (List.range 4).foldl quarter s
  let t := t.evictUntil (fun s => s.entriesFit die core n) (t.evictable (fun e => e.die == die && e.core == core))
  if t.fits die core n then some t else none

/-- Every quarter of a partition, with its die and core. -/
def State.quartersOf (s : State) (part : Nat) : List QRef :=
  (s.diesOf part).flatMap (fun d => (List.range (s.present d).length).flatMap (fun c => (List.range 4).map (fun q => ⟨d, c, q⟩)))

/-- A quarter has what R193 keeps for its landing slot while a roaming launch is resident. -/
def State.keepsLanding (s : State) (q : QRef) : Bool := s.usedRegs q.die q.core q.quarter + s.reserve q.die q.core q.quarter true ≤ 256

/-- The state in which every quarter of the partition has it, holdings evicted as needed, where they can. -/
def State.makeLanding (s : State) (part : Nat) : Option State :=
  let t := (s.quartersOf part).foldl (fun s q => s.evictUntil (fun s => s.keepsLanding q)
    (s.evictable (fun e => e.die == q.die && e.core == q.core && e.quarter == q.quarter))) s
  if (s.quartersOf part).all t.keepsLanding then some t else none

/-- R193, R181: as many roaming waves as landing slots can take. -/
def State.roamRoom (s : State) (part : Nat) : Bool :=
  let least := (s.diesOf part).foldl (fun m d => min m (s.present d).length) 36
  (s.waves.filter (fun w => s.partOf w.place.die == part && s.roaming w.launch)).length + 1 ≤ 4 * least

/-! ## The ramp (R258) -/

def rampEn (x : W64) : Bool := x.getLsbD 31

/-- Quarters of a core that a group would wake. -/
def State.wakes (s : State) (die core : Nat) (n : Need) : Nat :=
  ((List.range 4).filter (fun q => !(n.on q).isEmpty && (s.wavesAt die core q).isEmpty)).length

/-- The interval's budget covers the wakes that were not made ahead. -/
def Part.rampOk (p : Part) (wakes : Nat) : Bool :=
  !rampEn p.ramp || wakes = 0 || p.used + (wakes - p.woken) ≤ rampStep p.ramp

/-! ## Seating a group -/

def repairBlank (die : Nat) : Repair where
  die := die
  slots := [none, none]
  undo := []
  admitted := []
  issues := []
  stalled := []
  tick := 0
  grants := []
  reads := []
  edge := 0
  replay := []
  restored := none
  sends := []


/-- A die that a repairable wave comes to has a repair state, and takes a rick before the wave issues (R330, R332). -/
def State.protect (s : State) (die : Nat) (begun : Bool) : State :=
  let s : State := if (s.repair? die).isSome then s else { s with repair := s.repair ++ [repairBlank die] }
  let s := if begun then s else s.admitTime die
  if s.repairEn die then s.onDie die (fun d => { d with rickDue := true }) else s

/-- Waves of a group take the lowest free slots of their quarters, one after another. -/
def State.seatWave (l : Launch) (g die core : Nat) (s : State) (index : Nat) : State :=
  let q := index % 4
  let slot := (s.freeSlots die core q).headD 0
  let n := s.fresh
  let started := l.block.start == 0 || decide (l.block.start ≤ s.pkg.tick)
  { n.2 with waves := n.2.waves ++ [(bornWave n.1 l g index ⟨die, core, q, slot⟩ started s.own.stepNo).pointed] }

/-- A new group becomes resident on a core. -/
def State.seat (s : State) (l : Launch) (g die core : Nat) (quadset : Option Nat) : State :=
  let begun := s.deterministic die
  let s := s.chargeRamp l.part (s.wakes die core l.block.need)
  let n := s.fresh
  let s : State := { n.2 with groups := n.2.groups ++ [newGroup l.uid g die core l.block.waves n.1 quadset l.prefill] }
  let s := (List.range l.block.waves).foldl (State.seatWave l g die core) s
  let s := (s.onLaunch l.uid (fun l => { l with next := l.next + 1, live := l.live + 1 })).resizeL1.noteStay l.uid die
  if l.block.repair then s.protect die begun else s

/-! ## Where a group goes (R256) -/

/-- The core of the sealed estate that a group's first identity names, in the partition. -/
def State.estateHome (s : State) (l : Launch) (g : Nat) : Option (Nat × Nat) :=
  let b := l.block
  if b.cclass = 0 || b.idstride = 0 then none
  else (s.estates.find? (fun e => e.world == l.world && e.seq == b.seq && e.cls == b.cclass && e.st == .sealed
      && e.ident == (b.idbase + g * b.idstride) % 2 ^ 48 && s.partOf e.die == l.part)).map (fun e => (e.die, e.core))

/-- The home of the next unit dealt: its die, and its place among n cores or quads. -/
def State.dealDie (s : State) (l : Launch) : Nat := l.part + l.dealt % s.partDies
def State.dealPlace (s : State) (l : Launch) (n : Nat) : Nat := l.dealt / s.partDies % n

/-- Places of a die from one upward, wrapping. -/
def fromPlace {α : Type} (xs : List α) (k : Nat) : List α := xs.drop k ++ xs.take k

/-- One group: by estate, by the deal, by overflow, and then with holdings evicted. -/
def State.findCore (s : State) (l : Launch) (g : Nat) : Option (State × Nat × Nat) :=
  let n := l.block.need
  let byEstate := match s.estateHome l g with
    | none => none
    | some h => if s.fits h.1 h.2 n then some (s, h.1, h.2) else none
  match byEstate with
  | some x => some x
  | none =>
    let d := s.dealDie l
    let p := (s.present d).length
    let cores := fromPlace (List.range p) (s.dealPlace l p)
    match cores.find? (fun c => s.fits d c n) with
    | some c => some (s, d, c)
    | none => cores.findSome? (fun c => (s.makeRoom d c n).map (fun t => (t, d, c)))

/-! ## Objects (R245, R227) -/

/-- An object as a launch is given it: the notice object expects one arrival. -/
def givenObj (l : Launch) (sc : Scope) (home index : Nat) : NetObj :=
  let o := blankObj sc home index l.uid false
  match handleOf l.block.notice with
  | none => o
  | some h =>
    if h.scope = sc && h.index = index && (sc != .die || h.die = home) && (sc != .pod || h.pkg = home)
    then { o with obj := { barBlank with expA := 1, penA := 1 } } else o

/-- The launch takes the objects of its ranges outside quad scope, at its first placement. One that a launch holds in a saved context is
not free (R211). -/
def State.giveObjs (s : State) (l : Launch) : Option State :=
  if l.placed then some s
  else
    let os : List (Scope × Nat × Nat) := l.block.objs.filterMap (fun o => match o with
      | .net sc home i => some (sc, home, i)
      | .core _ _ _ => none)
    let away := fun (o : Scope × Nat × Nat) => s.contexts.any (fun c => c.objs.any (fun n => n.isAt o.1 o.2.1 o.2.2))
    if os.any (fun o => (s.netObj? o.1 o.2.1 o.2.2).isSome || away o) then none
    else
      let t : State := { s with objs := s.objs ++ (unionNew [] os).map (fun (o : Scope × Nat × Nat) => givenObj l o.1 o.2.1 o.2.2) }
      some (t.onLaunch l.uid (fun l => { l with placed := true }))

/-! ## Quad sets (R194, R257) -/

def State.logCore (s : State) (die phys : Nat) : Nat := (s.present die).idxOf phys
def State.quadCores (s : State) (die quad : Nat) : List Nat := (List.range 4).map (fun k => s.logCore die (4 * quad + k))

/-- The quad's objects are free for a quad set of a launch: no other launch or quad set holds them (R235). -/
def State.quadFree (s : State) (launch : Nat) (b : Block) (die quad : Nat) : Bool :=
  b.quadObjs.all (fun i => match s.netObj? .quad (die * 9 + quad) i with
    | none => true
    | some n => n.owner == launch && s.groups.all (fun g => !(g.launch == launch && g.die == die && s.quadOf die g.core == quad)))

/-- The quad's objects go to the launch at their reset values. -/
def State.giveQuad (s : State) (l : Launch) (die quad : Nat) : State :=
  let is := unionNew [] l.block.quadObjs
  let home := die * 9 + quad
  { s with objs := s.objs.filter (fun n => !(n.scope == .quad && n.home == home && is.contains n.index))
      ++ is.map (fun i => givenObj l .quad home i) }

/-- Four groups on the four cores of a quad, one after another. -/
def State.seatQuad (s : State) (l : Launch) (die : Nat) (cores groups : List Nat) : Option State :=
  if (cores.zip groups).all (fun c => s.fits die c.1 l.block.need) then
    let n := s.fresh
    some ((cores.zip groups).foldl (fun s c => s.seat l c.2 die c.1 (some n.1)) n.2)
  else none

def State.tryQuad (s : State) (l : Launch) (groups : List Nat) (room : Bool) (die quad : Nat) : Option State :=
  if !s.quadFree l.uid l.block die quad then none
  else
    let cores := s.quadCores die quad
    let t := if room then (cores.zip groups).foldl (fun (s : Option State) c => match s with
        | none => none
        | some s => if s.fits die c.1 l.block.need then some s else s.makeRoom die c.1 l.block.need) (some s)
      else some s
    match t with
    | none => none
    | some t => (t.giveQuad l die quad).seatQuad l die cores groups

def State.placeQuad (s : State) (l : Launch) : Option State :=
  let groups := (List.range (min 4 (l.block.groups - l.next))).map (l.next + ·)
  let byEstate := match s.estateHome l l.next with
    | none => none
    | some h =>
      let quad := s.quadOf h.1 h.2
      if (s.quadsOf h.1).contains quad then s.tryQuad l groups false h.1 quad else none
  match byEstate with
  | some t => some t
  | none =>
    let d := s.dealDie l
    let qs := s.quadsOf d
    let quads := fromPlace qs (s.dealPlace l qs.length)
    match quads.findSome? (s.tryQuad l groups false d) with
    | some t => some t
    | none => quads.findSome? (s.tryQuad l groups true d)

/-! ## Restart (R234, R235) -/

def SavedGroup.need (g : SavedGroup) (b : Block) : Need :=
  { b.need with waves := g.waves.map (fun w => (w.index % 4, w.winsize)), entries := g.estates.length }

/-- The groups that restart together. -/
def State.restartUnit (s : State) (g : SavedGroup) : List SavedGroup :=
  let coop := match s.launch? g.group.launch with
    | none => false
    | some l => l.block.coop
  s.saved.filter (fun h => h.group.launch == g.group.launch
    && (coop || h.id == g.id || (g.group.quadset.isSome && h.group.quadset == g.group.quadset)))

/-- A MIGRATE that waits to go to the die where its wave is made resident again is presented again there (log entry 96). -/
def Wave.arrivedAt (w : Wave) (die : Nat) : Wave :=
  { w with stalls := w.stalls.filter (fun x => match x.kind with
    | .migrate d _ _ => d != die
    | _ => true) }

/-- A saved wave takes a slot on its new core; its recorded estates follow it. -/
def State.reseat (die core : Nat) (s : State) (w : Wave) : State :=
  let q := w.index % 4
  { s with waves := s.waves ++ [{ w.arrivedAt die with
      loc := ⟨die, core, q, (s.freeSlots die core q).headD 0⟩
      waited := 0
      since := s.own.stepNo }] }

/-- A saved group takes its places again. DESIGN CHOICE (log 116): it counts as newly placed, with a fresh place in the order of placement by
which R255 chooses the most recently placed of equals. -/
def State.reseatGroup (s : State) (g : SavedGroup) (die core : Nat) : State :=
  let slotOf := fun (s : State) u => match s.wave? u with
    | none => (0, 0)
    | some w => (w.loc.quarter, w.loc.slot)
  let need := g.waves.map (fun w => (w.index % 4, w.winsize))
  let s := s.chargeRamp (s.partOf die) (s.wakes die core ⟨need, 0, 0, false, 0⟩)
  let n := s.fresh
  let s : State := { n.2 with
    groups := n.2.groups ++ [{ g.group with die := die, core := core, order := n.1 }]
    saved := n.2.saved.filter (fun h => h.id != g.id) }
  let s := g.waves.foldl (State.reseat die core) s
  let back := g.estates.map (fun e : Estate => match e.st with
    | .recorded u => { e with die := die, core := core, quarter := (slotOf s u).1, slot := (slotOf s u).2 }
    | _ => e)
  (State.resizeL1 { s with estates := s.estates ++ back }).noteStay g.group.launch die

def State.restartAt (s : State) (l : Launch) (g : SavedGroup) (die core : Nat) : Option State :=
  let n := g.need l.block
  match (if s.fits die core n then some s else s.makeRoom die core n) with
  | none => none
  | some t => some (t.reseatGroup g die core)

/-- Objects of a quad set move to their new quad, and pending engine requests name them there. -/
def ObjRef.moved (o : ObjRef) (old new : Nat) : ObjRef :=
  match o with
  | .net .quad h i => if h = old then .net .quad new i else o
  | _ => o

def EngReq.moved (r : EngReq) (launch : Nat) (groups : List Nat) (old new : Nat) : EngReq :=
  if r.launch = launch && groups.contains r.group then
    { r with
      obj := r.obj.moved old new
      ring := r.ring.map (fun x => (x.1.moved old new, x.2))
      pieces := r.pieces.map (fun p => { p with obj := p.obj.moved old new }) }
  else r

def State.restartQuad (s : State) (l : Launch) (gs : List SavedGroup) (die quad : Nat) : Option State :=
  if !(s.quadsOf die).contains quad || !s.quadFree l.uid l.block die quad then none
  else
    let old := match gs with
      | [] => 0
      | g :: _ => g.group.die * 9 + s.quadOf g.group.die g.group.core
    let new := die * 9 + quad
    let objs := (gs.flatMap (fun g => g.objs)).map (fun o : NetObj => { o with home := new })
    let t := gs.foldl (fun (t : Option State) g => match t with
      | none => none
      | some t => t.restartAt l g die (t.logCore die (4 * quad + g.pos))) (some s)
    t.map (fun t => { t with
      objs := t.objs.filter (fun n => !(objs.any (fun o => n.isAt o.scope o.home o.index))) ++ objs
      reqs := t.reqs.map (fun r => r.moved l.uid (gs.map (fun g => g.group.index)) old new) })

/-- A roaming group restarts under the rules of its placement (R181, R193). -/
def State.restartRoam (s t : State) (l : Launch) : Option State :=
  if !l.block.roam then some t else if s.roamRoom l.part then t.makeLanding l.part else none

/-- One unit of restart, at a core or at its quad. -/
def State.restartOne (s : State) (l : Launch) (g : SavedGroup) (die core : Nat) : Option State :=
  if g.group.quadset.isSome then
    s.restartQuad l (s.saved.filter (fun h => h.group.launch == g.group.launch && h.group.quadset == g.group.quadset)) die
      (s.quadOf die core)
  else match s.restartAt l g die core with
    | none => none
    | some t => s.restartRoam t l

def State.partCores (s : State) (part : Nat) : List (Nat × Nat) :=
  (s.diesOf part).flatMap (fun d => (List.range (s.present d).length).map (fun c => (d, c)))

/-- The rest of a cooperative launch, on the first cores that fit. -/
def State.restartRest (s : State) (l : Launch) : Nat → Option State
  | 0 => some s
  | n + 1 => match s.saved.find? (fun g => g.group.launch == l.uid) with
    | none => some s
    | some g => match (s.partCores l.part).findSome? (fun c => s.restartOne l g c.1 c.2) with
      | none => none
      | some t => t.restartRest l n

/-- A discarded unit is resident again, beginning at a core: of a cooperative launch, all of it. -/
def State.restartFrom (s : State) (l : Launch) (g : SavedGroup) (die core : Nat) : Option State :=
  if s.partOf die != l.part || 8 ≤ die then none
  else match s.restartOne l g die core with
    | none => none
    | some t => if l.block.coop then t.restartRest l t.saved.length else some t

/-- The discarded group of a launch that restarts first: groups keep their order (R255). -/
def State.firstSaved (s : State) (l : Launch) : Option SavedGroup :=
  (s.saved.filter (fun g => g.group.launch == l.uid)).foldl (fun m g => match m with
    | none => some g
    | some h => if g.group.index < h.group.index then some g else some h) none

/-- It is resident again, on the first core that has room. -/
def State.comeBack (s : State) (l : Launch) : Option State :=
  match s.firstSaved l with
  | none => none
  | some g => (s.partCores l.part).findSome? (fun c => s.restartFrom l g c.1 c.2)

/-! ## Placing a launch -/

/-- The next unit of a launch: one group or one quad set; it takes one place in the deal. -/
def State.placeUnit (s : State) (l : Launch) : Option State :=
  let t := if l.block.quadset then s.placeQuad l
    else match s.findCore l l.next with
      | none => none
      | some (t, d, c) =>
        if !l.block.roam then some (t.seat l l.next d c none)
        else if s.roamRoom l.part then ((t.seat l l.next d c none).makeLanding l.part) else none
  t.map (fun t => t.onLaunch l.uid (fun l => { l with dealt := l.dealt + 1 }))

/-- Every unit of a cooperative launch, judged one at a time (R272). -/
def State.placeAll (s : State) (uid : Nat) : Nat → Option State
  | 0 => some s
  | n + 1 => match s.launch? uid with
    | none => none
    | some l =>
      if l.next = l.block.groups then some s
      else match s.placeUnit l with
        | none => none
        | some t => t.placeAll uid n

/-- The wakes between two states. -/
def State.wakesTo (s t : State) (part : Nat) : Nat :=
  match s.part? part, t.part? part with
  | some p, some q => q.used - p.used
  | _, _ => 0

/-- A placement along the ramp, where the ramp allows it: wakes made ahead are not made again. The interval is the one in progress. -/
def State.alongRamp (s t : State) (part : Nat) : Option State :=
  match s.part? part with
  | none => none
  | some p =>
    let w := s.wakesTo t part
    if p.rampOk w then some (t.onPart part (fun q => { q with used := p.used + (w - p.woken), woken := p.woken - w })) else none

/-- A batch leaves its node's pool when its group becomes resident (R252). -/
def State.leavePool (s : State) (l : Launch) : State :=
  match l.node with
  | none => s
  | some n => s.onNode l.world n (fun n => { n with waiting := n.waiting.filter (fun b => b.1 != l.uid) })

/-- The quantum table of a partition has an enabled entry of a world (R350). -/
def State.entered (s : State) (part world : Nat) : Bool :=
  match s.part? part with
  | none => false
  | some p => p.enabled world

/-- Whether a launch waits for its discarded groups to be resident again: in a launch that has stopped, for kept atomics that are to complete
(R234, R241). -/
def State.waitsBack (s : State) (l : Launch) : Bool :=
  l.st != .ended && s.runs l.part l.world && s.entered l.part l.world
    && s.saved.any (fun g => g.group.launch == l.uid && (!l.stopped || !g.waves.all Wave.atEnd))

/-- Whether a launch waits for the placement of a next group. -/
def State.waits (s : State) (l : Launch) : Bool :=
  l.wantsPlace && s.runs l.part l.world && s.entered l.part l.world
    && s.saved.all (fun g => g.group.launch != l.uid)
    && s.launches.all (fun m => m.node != l.node || l.node.isNone || m.world != l.world || m.st == .ended || l.uid ≤ m.uid || m.next != 0)

/-- The placement of a launch's next unit, where it fits and a set of ratios is feasible, without the ramp. -/
def State.placeFree (s : State) (l : Launch) : Option State :=
  match s.firstGrant l, s.giveObjs l with
  | some g, some t =>
    let n := t.fresh
    let t := n.2.onLaunch l.uid (fun l => { l with grant := some g, granted := if l.grant.isSome then l.granted else n.1 })
    let u := match t.launch? l.uid with
      | none => none
      | some l => if l.block.coop then t.placeAll l.uid l.block.groups else t.placeUnit l
    u.map (fun u => u.leavePool l)
  | _, _ => none

/-- Makes groups of a partition resident along the ramp. -/
def State.onRamp (s : State) (part : Nat) (f : State → Option State) : Option State :=
  let s := s.renewRamp part
  match f s with
  | none => none
  | some t => s.alongRamp t part

/-- The same along the ramp. -/
def State.place (s : State) (l : Launch) : Option State := s.onRamp l.part (fun s => s.placeFree l)

/-- A launch's next unit is resident: one that was discarded, before any that has not started (R234). -/
def State.seatFree (s : State) (l : Launch) : Option State := if s.waitsBack l then s.comeBack l else s.placeFree l

/-- A launch waits for some group of it to be resident. -/
def State.waiting (s : State) (l : Launch) : Bool := s.waits l || s.waitsBack l

/-- R255: a launch stands before another. -/
def Launch.ahead (a b : Launch) : Bool := b.block.prio < a.block.prio || (a.block.prio == b.block.prio && a.order < b.order)

/-- R195: a cooperative launch that waits holds back the placements of equal or lower priority. -/
def State.heldBack (s : State) (l : Launch) : Bool :=
  s.launches.any (fun m => m.part == l.part && m.uid != l.uid && m.block.coop && s.waiting m
    && (if l.block.coop then m.ahead l else l.block.prio ≤ m.block.prio))

/-- The launches before a launch in its partition that wait and are not held back. -/
def State.aheadOf (s : State) (l : Launch) : List Launch :=
  s.launches.filter (fun m => m.part == l.part && m.uid != l.uid && m.ahead l && s.waiting m && !s.heldBack m)

/-- A launch that waits, is not held back and stands before every other that would fit: the ramp alone delays it. -/
def State.isNext (s : State) (l : Launch) : Bool :=
  s.waiting l && !s.heldBack l && (s.aheadOf l).all (fun m => (s.seatFree m).isNone)

def State.placement (s : State) (launch : Nat) : Option State :=
  match s.launch? launch with
  | none => none
  | some l => if s.waits l && s.isNext l then s.place l else none

/-- The quarters that a saved context would wake. -/
def State.restoreWakes (s : State) (c : SavedContext) : Nat :=
  ((s.quartersOf c.part).filter (fun q => s.asleep q.die q.core q.quarter
    && c.waves.any (fun w => w.transit.isNone && w.loc.die == q.die && w.loc.core == q.core && w.loc.quarter == q.quarter))).length

/-- The context that a partition is to restore. -/
def State.contextDue (s : State) (p : Part) : Option SavedContext :=
  s.contexts.find? (fun c => c.part == p.id && p.sliceWorld == some c.world)

/-- The wakes that the restore or the next placement of a partition asks for (R258). -/
def State.wakesAsked (s : State) (part : Nat) : Nat :=
  match (s.part? part).bind s.contextDue with
  | some c => s.restoreWakes c
  | none => match s.launches.find? (fun l => l.part == part && s.isNext l && (s.seatFree l).isSome) with
    | none => 0
    | some l => match s.seatFree l with
      | none => 0
      | some t => s.wakesTo t part

/-- GROUP_PLACEMENT: the next group, quad set or cooperative launch becomes resident. -/
def execGroupPlacement (launch : Nat) (s : State) : Out :=
  runEvent "GROUP_PLACEMENT" (s.placement launch).isSome ((s.placement launch).getD s)

/-! ## TIMED_START (R262) -/

def State.canTimed (s : State) (launch : Nat) : Bool :=
  match s.launch? launch with
  | none => false
  | some l => l.block.start != 0 && l.block.start ≤ s.pkg.tick && s.waves.any (fun w => w.launch == launch && !w.started)

/-- TIMED_START: the placed waves may issue. -/
def execTimedStart (launch : Nat) (s : State) : Out :=
  runEvent "TIMED_START" (s.canTimed launch)
    { s with waves := updBy (fun w => w.launch == launch) (fun w => { w with started := true }) s.waves }

end Sys2Proof.Machine
end

