-- ==== Sys2Proof/Machine/Discard.lean ====
section
/-! DEFINITION. Machine/Discard.lean: discarding groups and restarting them (R233 to R237, R242, R243, R255, R271): PRIORITY_DISCARD and DISCARD_RESTART. -/

namespace Sys2Proof.Machine

/-! ## What is discarded together (R195, R235) -/

/-- The groups that a discard of a group takes; one that has ended is none of them. -/
def State.unitOf (s : State) (g : Group) : List Group :=
  let coop := match s.launch? g.launch with
    | none => false
    | some l => l.block.coop
  s.groups.filter (fun h => h.launch == g.launch && h.waves != 0
    && (coop || h.index == g.index || (g.quadset.isSome && h.quadset == g.quadset)))

def State.wavesOf (s : State) (g : Group) : List Wave := s.waves.filter (fun w => w.launch == g.launch && w.group == g.index)

/-- R237: no wave of the groups is parked or in transit; R255: no group of a repairable launch. -/
def State.mayDiscard (s : State) (gs : List Group) : Bool :=
  gs.all (fun g => (s.wavesOf g).all (fun w => w.parked.isNone && w.transit.isNone)
    && (match s.launch? g.launch with
        | none => false
        | some l => !l.block.repair && !l.stopped))

def State.prioOf (s : State) (g : Group) : Nat :=
  match s.launch? g.launch with
  | none => 0
  | some l => l.block.prio

/-- The group that a waiting launch takes: the lowest priority, the last placed among equals (R255). -/
def State.victim (s : State) (l : Launch) : Option Group :=
  let gs := s.groups.filter (fun g => g.waves != 0 && s.partOf g.die == l.part && s.prioOf g + 2 ≤ l.block.prio && s.mayDiscard (s.unitOf g))
  gs.foldl (fun m g => match m with
    | none => some g
    | some h => if s.prioOf g < s.prioOf h || (s.prioOf g == s.prioOf h && h.order < g.order) then some g else some h) none

/-- A launch waits for room alone: for a discarded group, or for its next one, where its objects are there and a set of ratios is feasible. -/
def State.wantsRoom (s : State) (l : Launch) : Bool :=
  if s.waitsBack l then !s.heldBack l && (s.comeBack l).isNone
  else s.waits l && !s.heldBack l && (s.firstGrant l).isSome && (match s.giveObjs l with
    | none => false
    | some t => match t.launch? l.uid with
      | none => false
      | some l => (if l.block.coop then t.placeAll l.uid l.block.groups else t.placeUnit l).isNone)

/-! ## lemmel's armed discard (R243) -/

/-- Every fibre of a wave is blocked in WAIT: one whose object has completed a phase since is not. -/
def Wave.waitBlocked (w : Wave) : Bool :=
  w.fibres.all (fun f => w.stalls.any (fun x => x.pc == f.pc && x.base == f.winbase && (match x.kind with
    | .wait _ _ _ b => b
    | _ => false)))

/-- Every other wave of a launch is resident and blocked in WAIT, or has ended. -/
def State.othersBlocked (s : State) (launch group index : Nat) : Bool :=
  s.waves.all (fun w => w.launch != launch || (w.group == group && w.index == index) || w.waitBlocked)
    && s.saved.all (fun g => g.group.launch != launch)
    && (match s.launch? launch with
      | none => false
      | some l => l.block.groups ≤ l.next)

/-- An armed discard whose issue has come, and whose other waves are blocked. -/
def State.armedGroup (s : State) (launch : Nat) : Option Group :=
  match s.armedD.find? (fun a => a.launch == launch && a.hit.isSome) with
  | none => none
  | some a => match s.group? launch a.group with
    | none => none
    | some g =>
      if s.mayDiscard (s.unitOf g) && s.othersBlocked launch a.group a.wave then some g else none

/-! ## Stop and cancel (R233 steps 1 and 2) -/

/-- The unit that a launch's discard begins with. -/
def State.chosen (s : State) (launch : Nat) : Option (List Group) :=
  match s.launch? launch with
  | none => none
  | some l => match s.armedGroup launch with
    | some g => some (s.unitOf g)
    | none => if s.wantsRoom l then (s.victim l).map s.unitOf else none

/-- A discard does not begin while a context save is under way (R304). -/
def State.mayBegin (s : State) (launch : Nat) : Bool :=
  match s.launch? launch with
  | none => false
  | some l => match s.part? l.part with
    | none => false
    | some p => !s.switching p

/-- The groups that have stopped, in a launch's partition. -/
def State.stopped (s : State) (launch : Nat) : List Group :=
  match s.launch? launch with
  | none => []
  | some l => s.groups.filter (fun g => g.stopping && (g.launch == launch || s.partOf g.die == l.part))

/-- Some set of the wave stands at an entry. -/
def Wave.standsAt (w : Wave) (id : Nat) : Bool :=
  w.stalls.any (fun x => match x.kind with
    | .retry e _ _ | .posted e => e == id
    | _ => false)

/-- Issued before the wave's region began, and passed by its set: the instruction is none of those that run again (R231, R236). -/
def Wave.earlier (w : Wave) (e : Entry) : Bool := e.id < w.checkpoint.upto && !w.standsAt e.id

def Acc.sent (a : Acc) : Bool := a.st == .waiting || a.st == .returned
def Entry.inFlight (e : Entry) : Bool := e.accs.any Acc.sent

/-- An access has come to rest for a discard: of a kept atomic the lanes sent are done; beside one, and before the region, every
lane is, but those that wait for a translation or a repair and go with the wave; what the region issued is cancelled. -/
def Wave.rests (w : Wave) (e : Entry) : Bool :=
  if e.kept then !e.inFlight
  else if w.asStands then !e.inFlight && e.accs.all (fun a => a.st != .unsent)
  else !w.earlier e || !e.inFlight

/-- An access that meets poison rests where it is: a discard that came first wins, and the fault is raised after the restart (R242).
The lanes of an atomic below the poisoned one are done first (R33). -/
def State.restsPoisoned (s : State) (w : Wave) (e : Entry) : Bool :=
  match s.poisonLane w e with
  | none => false
  | some p => e.kind != .atomic || e.accs.all (fun a => p.1 ≤ a.lane || !a.sent)

/-- Nothing of the wave is on its way: events have been counted, answers delivered, stores performed, grid operations landed. -/
def State.quiet (s : State) (w : Wave) : Bool :=
  w.transit.isNone && (s.gridOf w).isEmpty && s.ord.overlay.all (fun e => e.wave != w.uid)
    && w.entries.all (fun e => e.kind != .event && e.kind != .claim && (w.rests e || s.restsPoisoned w e))

/-- A quad set's objects have no event on its way. -/
def State.quadQuiet (s : State) (g : Group) : Bool :=
  g.quadset.isNone || s.ord.chans.all (fun c => c.msgs.all (fun m => match m with
    | .event (.net .quad home _) _ _ => home != g.die * 9 + s.quadOf g.die g.core
    | _ => true))

/-! ## Save, rewind, release (R233 steps 3 to 5) -/

/-- ARRIVEs and RFREEs that their objects have counted are treated as retired (R136). -/
def State.retirePosted (s : State) (uid : Nat) : State :=
  match s.wave? uid with
  | none => s
  | some w => w.stalls.foldl (fun s x => match x.kind, s.wave? uid with
    | .posted id, some w =>
      if w.entries.any (fun e => e.id == id) then s
      else (s.onWave uid (w.ctxAt x x.instr).passed).retire x.instr (w.ctxAt x x.instr)
    | _, _ => s) s

/-- The fibres of a checkpoint. -/
def Fibre.rewound (f : Fibre) (p : Checkpoint) : Fibre :=
  match p.fibres.find? (fun c => c.lane == f.lane) with
  | none => { f with pc := f.region }
  | some c => { f with pc := f.region, preds := c.preds, winbase := c.winbase, stack := c.stack }

/-- The wave with some entries of its list alone, their marks, and its registers that wait for them. -/
def Wave.keeping (w : Wave) (p : Entry → Bool) : Wave :=
  let es := w.entries.filter p
  let left := fun id => es.any (fun e => e.id == id)
  { w with entries := es, marks := w.marks.filter (fun m => left m.entry), dead := w.dead.filter (fun d => left d.2) }

def Wave.rewound (w : Wave) : Wave :=
  let v := w.keeping w.earlier
  { v with
    fibres := w.fibres.map (fun f => f.rewound w.checkpoint)
    sregs := w.checkpoint.sregs
    winsize := w.checkpoint.winsize
    matrix := w.checkpoint.matrix
    fflags := w.checkpoint.fflags
    presented := w.checkpoint.presented
    stalls := [] }

/-- An issue that is cancelled is presented again, and is not counted again (R243). -/
def unpresent (xs : List Stall) (m : Sparse Nat) : Sparse Nat :=
  xs.foldl (fun m x => mapSet 0 m x.pc.toNat (mapGet 0 m x.pc.toNat - 1)) m

/-- A wave that stands at a kept instruction, or in MIGRATE, is saved as it stands (R233, R237). -/
def Wave.saved (w : Wave) : Wave :=
  if w.asStands then
    let stays := fun x => w.keepsStall x || (match x.kind with
      | .migrate _ _ _ => true
      | _ => false)
    { w.keeping (fun e => e.kept || !e.accs.all (fun a => a.st == .done)) with
      stalls := w.stalls.filter stays
      presented := unpresent (w.stalls.filter (fun x => !stays x)) w.presented }
  else w.rewound

def recordedBy (ws : List Wave) (e : Estate) : Bool :=
  match e.st with
  | .recorded u => ws.any (fun w => w.uid == u)
  | _ => false

/-- The group leaves its core: its waves and their recorded estates are saved with it. -/
def State.saveGroup (s : State) (g : Group) : State :=
  let s := (s.wavesOf g).foldl (fun s w => s.retirePosted w.uid) s
  let ws := s.wavesOf g
  let n := s.fresh
  let s := n.2
  let quad := s.quadOf g.die g.core
  let mine := fun o : NetObj => g.quadset.isSome && o.scope == .quad && o.home == g.die * 9 + quad && o.owner == g.launch && !o.byQueue
  let sv : SavedGroup := {
    id := n.1, group := { g with stopping := false }, waves := ws.map Wave.saved
    estates := s.estates.filter (recordedBy ws), objs := s.objs.filter mine, pos := s.physCore g.die g.core % 4 }
  let s : State := { s with
    saved := s.saved ++ [sv]
    estates := s.estates.filter (fun e => !recordedBy ws e)
    objs := s.objs.filter (fun o => !mine o)
    groups := s.groups.filter (fun h => !(h.launch == g.launch && h.index == g.index)) }
  (ws.foldl (fun s w => (s.dropWave w.uid).noteIdle w.loc) s).resizeL1

def State.markStop (s : State) (gs : List Group) (b : Bool) : State :=
  { s with groups := updBy (fun g => gs.any (fun h => h.launch == g.launch && h.index == g.index)) (fun g => { g with stopping := b }) s.groups }

/-- Issue stops; when the groups are quiet they are saved. A wave that parks first calls the discard off (R242). -/
def State.discardNext (s : State) (launch : Nat) : Option State :=
  match s.stopped launch with
  | [] => if s.mayBegin launch then (s.chosen launch).map (fun gs => s.markStop gs true) else none
  | g :: gs =>
    let all := g :: gs
    if !s.mayDiscard all && all.any (fun g => (s.wavesOf g).any (fun w => w.parked.isSome)) then some (s.markStop all false)
    else if all.all (fun g => s.quadQuiet g && (s.wavesOf g).all s.quiet) then
      let t := all.foldl State.saveGroup s
      some { t with armedD := t.armedD.filter (fun a => !(a.hit.isSome && all.any (fun g => g.launch == a.launch && g.index == a.group))) }
    else none

/-- PRIORITY_DISCARD: for a launch that waits for room, or by lemmel's arming: the next step of the discard. -/
def execPriorityDiscard (launch : Nat) (s : State) : Out :=
  runEvent "PRIORITY_DISCARD" (s.discardNext launch).isSome ((s.discardNext launch).getD s)

/-! ## Restart (R234, R235) -/

/-- Room that a discard makes for a launch is not taken again by one that it discards (log entry 59). -/
def State.yields (s : State) (l : Launch) : Bool :=
  s.launches.any (fun m => m.part == l.part && l.block.prio + 2 ≤ m.block.prio && s.wantsRoom m)

/-- R234, R255: the first discarded group of a launch whose turn it is restarts on a core. -/
def State.restart (s : State) (saved die core : Nat) : Option State :=
  match s.saved.find? (fun g => g.id == saved) with
  | none => none
  | some g => match s.launch? g.group.launch with
    | none => none
    | some l =>
      if s.waitsBack l && s.firstSaved l == some g && s.isNext l && !s.yields l
      then s.onRamp l.part (fun s => s.restartFrom l g die core) else none

/-- DISCARD_RESTART: a discarded group, with those that restart with it, on a core of the device's choice. -/
def execDiscardRestart (saved die core : Nat) (s : State) : Out :=
  runEvent "DISCARD_RESTART" (s.restart saved die core).isSome ((s.restart saved die core).getD s)

end Sys2Proof.Machine
end

