-- ==== Sys2Proof/Machine/Worlds.lean ====
section
/-! DEFINITION. Machine/Worlds.lean: the host's physical function over worlds, capabilities and partitions (R274, R294 to R299, R302 to R305, R350, R239): WORLD_CREATE, WORLD_DESTROY, CAPABILITY_MINT, PARTITION_REGISTER_WRITE, CONFIG_REGISTER_WRITE and WATCH_RANGE_WRITE. A write that is refused leaves a record. -/

namespace Sys2Proof.Machine

/-! ## The manifest (R295, R296) -/

def byteAt (bs : List Byte) (k : Nat) : Nat := (bs.getD k 0).toNat

def compOf (bs : List Byte) (spaces : List Nat) (c : Nat) : Comp :=
  let x := qword bs (8 + 8 * c)
  ⟨x % 256, x / 2 ^ 8 % 2 ^ 16, spaces.getD c 0⟩

def gateOf (bs : List Byte) (g : Nat) : Gate :=
  let at_ := fun off n => leNat ((bs.drop (0x48 + 128 * g + off)).take n)
  ⟨at_ 0 1, at_ 1 1, at_ 2 1, at_ 4 4, at_ 4 4, BitVec.ofNat 128 (at_ 16 16), BitVec.ofNat 512 (at_ 32 64)⟩

def nComp (bs : List Byte) : Nat := byteAt bs 1
def nGate (bs : List Byte) : Nat := leNat ((bs.drop 2).take 2)

def compOk (bs : List Byte) (c : Nat) : Bool :=
  let x := qword bs (8 + 8 * c)
  if c < nComp bs then 1 ≤ x / 2 ^ 8 % 2 ^ 16 && x / 2 ^ 8 % 2 ^ 16 ≤ 511 && x / 2 ^ 24 == 0 else x == 0

def gateOk (bs : List Byte) (g : Nat) : Bool :=
  let e := gateOf bs g
  let at_ := fun off n => leNat ((bs.drop (0x48 + 128 * g + off)).take n)
  e.from_ < 8 && e.to_ < 8 && e.from_ != e.to_ && 1 ≤ e.dir && e.dir ≤ 3 && at_ 3 1 == 0 && at_ 8 8 == 0 && at_ 96 32 == 0

/-- Every field of a manifest lies in its range. -/
def manifestOk (bs : List Byte) : Bool :=
  byteAt bs 0 == 1 && 1 ≤ nComp bs && nComp bs ≤ 8 && nGate bs ≤ 256 && byteAt bs 4 ≤ 1
    && leNat ((bs.drop 5).take 3) == 0 && bs.length == 0x48 + 128 * nGate bs
    && (List.range 8).all (compOk bs) && (List.range (nGate bs)).all (gateOk bs)

/-- R274: the spaces that firmware assigns are its to give. -/
def State.spacesOk (s : State) (spaces : List Nat) (n : Nat) : Bool :=
  spaces.length == n && spaces.all (fun x => x != 0 && x < 2 ^ 16 && mapGet 0 s.mem.roots x == 0 && s.invals.all (fun i => i.space != x))
    && (unionNew [] spaces).length == n

def newWorld (id : Nat) (bs : List Byte) (spaces : List Nat) (key : Nat) : World where
  id := id
  prot := byteAt bs 4 == 1
  comps := (List.range (nComp bs)).map (compOf bs spaces)
  gates := (List.range (nGate bs)).map (gateOf bs)
  counters := List.replicate 16 0
  manifest := Config.sha512 bs
  log := []
  logd := 0
  entries := 0
  logTick := 0
  snapNo := 0
  table := []
  nodes := []
  used := []
  emarks := []
  stayed := []
  ctxKey := key
  snapTick := 0
  destroying := false

/-- A space with an empty level-1 table (R275). -/
def State.newRoot (s : State) (space : Nat) : State :=
  let t := s.newTable 4096
  { t.2 with mem := { t.2.mem with roots := mapSet 0 t.2.mem.roots space t.1 } }

def State.createWorld (s : State) (id : Nat) (bs : List Byte) (spaces : List Nat) : State :=
  let n := s.fresh
  let s : State := { n.2 with worlds := n.2.worlds ++ [newWorld id bs spaces (n.1 + 1)] }
  (spaces.foldl State.newRoot s).logEntry id (Config.sha512 bs)

/-- WORLD_CREATE: the manifest is measured, and its compartments get their spaces. -/
def execWorldCreate (world : Nat) (manifest : List (BitVec 8)) (spaces : List Nat) (s : State) : Out :=
  runEvent "WORLD_CREATE" (s.booted && world < 64 && (s.world? world).isNone)
    (if manifestOk manifest && s.spacesOk spaces (nComp manifest) then s.createWorld world manifest spaces
      else s.note (.written 21 false))

/-! ## Destruction (R294) -/

def State.openSeqs (s : State) (world : Nat) : List Seq := s.seqs.filter (fun q => q.world == world && q.st == .open_)

/-- WORLD_DESTROY: its open sequences are closed, and the world goes once every one has closed. -/
def execWorldDestroy (world : Nat) (s : State) : Out :=
  runEvent "WORLD_DESTROY" (match s.world? world with
    | none => false
    | some w => !w.destroying)
    (((s.openSeqs world).foldl (fun s q => s.drainSeq world q.num none)
      (s.onWorld world (fun w => { w with destroying := true }))).destroyed world)

/-! ## CAPABILITY_MINT (R299) -/

/-- Every page of the range is mapped with the permissions, under the sequence's key slot; the sequence is Open. -/
def State.mintOk (s : State) (world : Nat) (c : W128) : Bool :=
  capLen c != 0 && (match s.seq? world (capSeq c) with
    | none => false
    | some q => q.st == .open_ && (capPages c).all (fun va => match s.walk (s.space world (capComp c)) va with
      | .page f _ _ => (!capR c || f.r) && (!capW c || f.w) && (!capX c || f.x) && (f.tier == 2 || f.kslot == q.slot)
      | _ => false))

/-- The granule of a page that is not sealed is written for the world (R280, R301). -/
def State.mint (s : State) (world space : Nat) (va : Nat) (c : W128) : Option State :=
  match s.walk space va with
  | .page f big _ =>
    if va % 16 != 0 || f.tier = 2 || f.sealed then none
    else
      let s := s.deviceWrite world 8 space va none (leBytes 16 c.toNat) none
      some { s with mem := { s.mem with tags := mapSet false s.mem.tags ((f.byteAt big va).pa / 16) true } }
  | _ => none

/-- CAPABILITY_MINT at a granule of a compartment's space. -/
def execCapabilityMint (world comp : Nat) (va : BitVec 64) (capability : BitVec 128) (s : State) : Out :=
  let t := if s.mintOk world capability then s.mint world (s.space world comp) va.toNat capability else none
  runEvent "CAPABILITY_MINT" (s.booted && (s.world? world).isSome) (t.getD (s.note (.written 22 false)))

/-! ## PARTITION_REGISTER_WRITE (R302, R350) -/

/-- No launch is resident, no world is in a slice, and no quantum entry is enabled. -/
def State.maySplit (s : State) : Bool :=
  s.groups.isEmpty && s.saved.isEmpty && s.waves.isEmpty && s.contexts.all (fun c => c.groups.isEmpty)
    && s.launches.all (fun l => l.st == .ended || l.next == 0)
    && s.parts.all (fun p => p.world.isNone && p.quantum.all (fun e => !qEn e.2))

/-- The partitions of a split, and the partition that a die then lies in. -/
def splitParts (k : Nat) : List Part := (List.range (2 ^ k)).map (fun i => partReset (i * (8 / 2 ^ k)))
def partUnder (k die : Nat) : Nat := die / (8 / 2 ^ k) * (8 / 2 ^ k)

/-- The saved estates of the worlds lie in the new partitions of their dies (R271). -/
def State.resaved (s : State) (k : Nat) : List SavedContext :=
  (splitParts k).flatMap (fun p => s.worlds.filterMap (fun w =>
    let es := (s.contexts.filter (fun c => c.world == w.id)).flatMap (fun c => c.estates.filter (fun e => partUnder k e.die == p.id))
    if es.isEmpty then none
    else some { part := p.id, world := w.id, key := w.ctxKey, rows := [], waves := [], groups := [], quarters := [], reqs := [], objs := [], estates := es }))

def State.resplit (s : State) (k : Nat) : State :=
  { s with
    pkg := { s.pkg with split := k }
    parts := splitParts k
    contexts := s.resaved k
    queues := s.queues.map (fun q => { q with part := partUnder k q.part })
    launches := s.launches.map (fun l => { l with part := partUnder k l.part }) }

/-- PARTITION_REGISTER_WRITE: reserved bits are ignored. -/
def execPartitionRegisterWrite (value : BitVec 64) (s : State) : Out :=
  let k := (value.extractLsb' 0 2).toNat
  runEvent "PARTITION_REGISTER_WRITE" s.booted
    (if s.maySplit then ((s.resplit k).configured 8 0 0 value).note (.written 8 true) else s.note (.written 8 false))

/-! ## CONFIG_REGISTER_WRITE (R216, R258, R281, R303, R305, R310, R331) -/

/-- The number of a register in its records, its partition, its index, and the bits that a write sets. -/
def cfgId : CfgReg → Nat
  | .quantum _ _ => 2
  | .share _ _ => 3
  | .ramp _ => 4
  | .ember _ => 5
  | .prefetch _ => 6
  | .rick _ => 7

def cfgPart : CfgReg → Nat
  | .quantum p _ | .share p _ | .ramp p | .ember p | .prefetch p | .rick p => p

def cfgIndex : CfgReg → Nat
  | .quantum _ i | .share _ i => i
  | .ramp _ | .ember _ | .prefetch _ | .rick _ => 0

def cfgBits : CfgReg → W64
  | .quantum _ _ => 0x803FFFFF
  | .share _ _ => 0x0FFFFFFFFFFFFFFF
  | .ramp _ => 0x800007FF
  | .ember _ | .rick _ => 0x800FFFFF
  | .prefetch _ => 0x800F001F

def Part.config (p : Part) (r : CfgReg) (v : W64) (now : Nat) : Part :=
  match r with
  | .quantum _ i => { p with quantum := mapSet 0 p.quantum i v }
  | .share _ w => { p with share := mapSet 0 p.share w v }
  | .ramp _ => { p.renewed (now / 1000) with ramp := v }
  | .ember _ => { p with ember := v, armedAt := now }
  | .prefetch _ => { p with prefetch := v }
  | .rick _ => { p with rick := v }

/-- CONFIG_REGISTER_WRITE: of a register of a partition that is there, with an index of 0 to 63. -/
def execConfigRegisterWrite (reg : CfgReg) (value : BitVec 64) (s : State) : Out :=
  let v := value &&& (cfgBits reg)
  runEvent "CONFIG_REGISTER_WRITE" s.booted
    (if (s.part? (cfgPart reg)).isSome && (cfgIndex reg) < 64 then
      ((s.onPart (cfgPart reg) (fun p => p.config reg v s.pkg.tick)).configured (cfgId reg) (cfgPart reg) (cfgIndex reg) value).note (.written (cfgId reg) true)
    else s.note (.written (cfgId reg) false))

/-! ## WATCH_RANGE_WRITE (R239) -/

def watchBits : W64 := 0xFFFFFFFFFFFF000F

/-- WATCH_RANGE_WRITE: a base or a length that is not a multiple of 8 is refused. -/
def execWatchRangeWrite (part range : Nat) (base ctl : BitVec 64) (s : State) : Out :=
  let ok := (s.part? part).isSome && range < 8 && base.toNat % 8 == 0 && (ctl.extractLsb' 32 32).toNat % 8 == 0
  .next (if ok then s.onPart part (fun p => { p with watch := p.watch.set range (base, ctl &&& watchBits) })
    else s.note (.written 9 false))

end Sys2Proof.Machine
end

