-- ==== Sys2Proof/Machine/Repair.lean ====
section
/-! DEFINITION. Machine/Repair.lean: errors and poison (R322, R323, R325), die links (R286, R327 to R329), deterministic issue, ricks and warm resets (R330 to R340): FLIT_RESEND, LINK_RETRAIN, RETRAIN_COMPLETE, LINK_KEY_REPLACE, ECC_CORRECTED, ECC_UNCORRECTABLE, PATROL_SCRUB, ROUND_BOUNDARY, RICK, SEND_LOG_FULL, WARM_RESET and REJOIN. -/

namespace Sys2Proof.Machine

/-! ## The fault log's entries (R325) -/

/-- The 48 bytes of an entry. -/
def FaultLog.pack (e : FaultLog) : BitVec 384 :=
  BitVec.ofNat 64 e.tick ++ BitVec.ofNat 64 e.addr ++ e.pc ++ BitVec.ofNat 32 e.launch ++ BitVec.ofNat 32 e.group ++ (0 : BitVec 64)
    ++ BitVec.ofNat 6 e.src.core ++ BitVec.ofNat 2 e.src.quarter ++ BitVec.ofNat 4 e.src.slot ++ BitVec.ofNat 4 e.src.die
    ++ BitVec.ofNat 6 e.world ++ BitVec.ofNat 3 e.comp ++ (0 : BitVec 3) ++ BitVec.ofNat 4 e.die ++ BitVec.ofNat 16 e.count
    ++ (0 : BitVec 8) ++ BitVec.ofNat 8 e.kind

/-- What the host reads of a die's or a hub's log, oldest first. -/
def State.readFaultLog (s : State) (die : Nat) : List (BitVec 384) := (s.pkg.logs.filter (fun e => e.die == die)).map FaultLog.pack

/-! ## Links -/

def State.onLink (s : State) (i : Nat) (f : Link → Link) : State :=
  { s with pkg := { s.pkg with links := s.pkg.links.modify i f } }

/-- The die or hub that records a link's entries: the lower end. -/
def linkDie (i : Nat) : Nat := if i < 6 then i / 3 * 4 + i % 3 else if i < 10 then i - 6 else if i < 12 then 8 else 9

/-- The links stand from stage 5 of boot on (R310, R311). -/
def State.linked (s : State) : Bool := 5 ≤ s.pkg.bootStage

/-- FLIT_RESEND: a CRC error on a flit. It is sent again; after 16 resends of it have failed, the link is retrained (R327). -/
def execFlitResend (link : Nat) (s : State) : Out :=
  runEvent "FLIT_RESEND" (s.linked && s.linkUp link)
    (s.onLink link (fun l => if l.resends < 16 then { l.flit with resends := l.resends + 1 } else { l with retraining := true }))

/-- LINK_RETRAIN: traffic takes other routes meanwhile (R328). -/
def execLinkRetrain (link : Nat) (s : State) : Out :=
  runEvent "LINK_RETRAIN" (s.linked && s.linkUp link) (s.onLink link (fun l => { l with retraining := true }))

/-- The messages on their way over a link: their flits are not acknowledged, and are sent again in order (R327, R329). -/
def State.resendAll (s : State) (link : Nat) : State :=
  (s.ord.chans.filter (fun c => c.src != c.dst && (s.pathLinks c.src c.dst).contains link)).foldl (fun s c =>
    c.msgs.foldl (fun s _ => s.cross c.src c.dst) s) s

/-- A retraining ends: with a new key, or a failure; after three in a row the link is down. -/
def State.retrained (s : State) (link : Nat) (ok : Bool) : State :=
  let entry := fun k => logBlank s.pkg.tick (linkDie link) k 0
  let s := s.addLog (entry 7)
  if ok then (s.onLink link (fun l => { l with retraining := false, failures := 0, key := l.key + 1, counter := 0, resends := 0 })).resendAll link
  else match s.pkg.links[link]? with
    | none => s
    | some l =>
      if 2 ≤ l.failures then (s.onLink link (fun l => { l with retraining := false, failures := 3, down := true })).addLog (entry 8)
      else s.onLink link (fun l => { l with failures := l.failures + 1 })

/-- RETRAIN_COMPLETE. -/
def execRetrainComplete (link : Nat) (ok : Bool) (s : State) : Out :=
  runEvent "RETRAIN_COMPLETE" (s.linked && (match s.pkg.links[link]? with
    | none => false
    | some l => l.retraining && !l.down)) (s.retrained link ok)

/-- LINK_KEY_REPLACE. -/
def execLinkKeyReplace (link : Nat) (s : State) : Out :=
  runEvent "LINK_KEY_REPLACE" (s.linked && s.linkUp link) (s.onLink link (fun l => { l with key := l.key + 1, counter := 0 }))

/-! ## ECC (R322, R323, R325) -/

/-- A line of a die's own memory in its L2: the model keeps its data at home, and the marks of its L2 words there (R322). -/
def ownL2 (k : CopyAt) (line : Nat) : Bool :=
  match k with
  | .l1 _ _ _ _ => false
  | .l2 d => d < 8 && inWindow (line * 128) && line * 128 < 2 ^ 40 && line * 128 / 2 ^ 37 == d

def EccIs (s : State) (a : EccAt) : Bool :=
  match a with
  | .memory pa => pa < 2 ^ 40 && pa % 2 ^ 37 < 96 * 2 ^ 30 || (2 ^ 46 ≤ pa && pa < 2 ^ 46 + 2 ^ 43)
  | .scratch g _ => s.groups.any (fun x => x.order == g)
  | .vreg w _ lane => (s.wave? w).isSome && lane < 64
  | .sreg w r => (s.wave? w).isSome && r < 64
  | .pred w lane => (s.wave? w).isSome && lane < 64
  | .object sc home i => (s.netObj? sc home i).isSome
  | .estate h lane reg => s.estates.any (fun e => e.holding == h && e.lane == lane && e.inFile && reg < e.regs.length)
  | .copy k line off => off < 128 && (ownL2 k line || s.ord.copies.any (fun c => c.place == k && c.line == line))

/-- The die of a place, its kind of storage (0 memory, 1 SRAM), its address, and the launch whose state it is. -/
def eccOf (s : State) (a : EccAt) : Nat × Nat × Nat × Option Nat :=
  let wave := fun u => match s.wave? u with
    | none => (0, 1, 0, none)
    | some w => (w.loc.die, 1, 0, some w.launch)
  match a with
  | .memory pa => (if pa < 2 ^ 40 then pa / 2 ^ 37 else 8, 0, pa, none)
  | .scratch g _ => match s.groups.find? (fun x => x.order == g) with
    | none => (0, 1, 0, none)
    | some x => (x.die, 1, 0, some x.launch)
  | .vreg w _ _ | .sreg w _ | .pred w _ => wave w
  | .object sc home i => (objDie (.net sc home i), 1, 0, s.objLaunch (.net sc home i))
  | .estate h lane _ => match s.estates.find? (fun e => e.holding == h && e.lane == lane) with
    | none => (0, 1, 0, none)
    | some e => (e.die, 1, 0, some e.launch)
  | .copy k line off => (copyDie k, 1, line * 128 + off, none)

/-- The entry of an error: ADDR is a physical address, where the word has one, and two errors are at one address where they are at one word. -/
def State.eccEntry (s : State) (a : EccAt) (memory sram : Nat) : FaultLog :=
  let e := eccOf s a
  { logBlank s.pkg.tick e.1 (if e.2.1 = 0 then memory else sram) e.2.2.1 with place := some a }

/-- ECC_CORRECTED: the word is written back as it was. -/
def execEccCorrected (loc : EccAt) (s : State) : Out :=
  runEvent "ECC_CORRECTED" (EccIs s loc) (s.addCorrected (s.eccEntry loc 1 2))

/-- The 4-byte word of a cached line that holds an offset is poisoned. -/
def Copy.mark (c : Copy) (off : Nat) : Copy :=
  { c with data := c.data.zipIdx.map (fun x => if x.2 / 4 = off / 4 then { x.1 with poison := true } else x.1) }

def State.poison (s : State) (a : EccAt) : State :=
  match a with
  | .memory pa => { s with mem := { s.mem with poison := mapSet false s.mem.poison (eccKey pa) true } }
  | .scratch g off => { s with groups := updBy (fun x => x.order == g) (fun x => { x with spoison := mapSet false x.spoison (off / 4) true }) s.groups }
  | .vreg w reg lane => s.onWave w (fun w => { w with vpoison := addNew w.vpoison (reg, lane) })
  | .sreg w reg => s.onWave w (fun w => { w with spoison := addNew w.spoison reg })
  | .pred w lane => s.onWave w (fun w => { w with ppoison := addNew w.ppoison lane })
  | .object sc home i => { s with objs := updBy (fun n => n.isAt sc home i) (fun n => { n with poison := true }) s.objs }
  | .estate h lane reg => { s with estates := updBy (fun e : Estate => e.holding == h && e.lane == lane && e.inFile) (fun e => { e with poison := addNew e.poison reg }) s.estates }
  | .copy k line off =>
    if ownL2 k line then { s with mem := { s.mem with sram := mapSet false s.mem.sram ((line * 128 + off) / 4) true } }
    else { s with ord := { s.ord with copies := updBy (fun c : Copy => c.place == k && c.line == line) (fun c => c.mark off) s.ord.copies } }

/-- Hub 1 orders a warm reset of a die (R334); one order stands at a time. -/
def State.orderReset (s : State) (die : Nat) : State :=
  if s.resetDue die then s else { s with armedR := s.armedR ++ [⟨die, 0, 0, 0, false, true⟩] }

/-- A word is poisoned, but not in the state of a repairable launch (R323). An error in the SRAM of a die where a repairable
launch is resident orders a warm reset (R334). -/
def State.uncorrectable (s : State) (a : EccAt) : State :=
  let e := eccOf s a
  let s := s.addLog (s.eccEntry a 3 4)
  let own := match e.2.2.2 with
    | some l => s.repairs l && e.1 < 8
    | none => false
  let s := if e.1 < 8 && (own || e.2.1 != 0 && s.deterministic e.1) then s.orderReset e.1 else s
  if own then s else s.poison a

/-- ECC_UNCORRECTABLE. -/
def execEccUncorrectable (loc : EccAt) (s : State) : Out := runEvent "ECC_UNCORRECTABLE" (EccIs s loc) (s.uncorrectable loc)

def dayTicks : Nat := 24 * 3600 * 10 ^ 9

/-- PATROL_SCRUB of a stack, once in each 24 hours: what it finds are errors of their own. -/
def execPatrolScrub (die stack : Nat) (s : State) : Out :=
  let last := mapGet 0 s.pkg.scrubbed (2 * die + stack)
  runEvent "PATROL_SCRUB" (die < 8 && stack < 2 && (last == 0 || last / dayTicks < s.pkg.tick / dayTicks))
    { s with pkg := { s.pkg with scrubbed := mapSet 0 s.pkg.scrubbed (2 * die + stack) s.pkg.tick } }

/-! ## Rounds (R330) -/

/-- A piece of an engine that heads its channel may land (R326). -/
def State.landingWaits (s : State) (c : ChanRef) (req piece : Nat) : Bool :=
  match s.req? req with
  | none => false
  | some r => match r.piece? piece with
    | none => false
    | some p => p.sent.isSome && p.wid.isNone && (match s.landCells r p with
      | none => false
      | some cs => !s.invalsStalled (cs.filterMap (·.place))) && !(s.die c.dst).held && !(s.die r.die).held

/-- Takes the message at the head of a channel, where it can be taken. -/
def State.admitHead (s : State) (c : ChanRef) : Option State :=
  match s.headMsg? c with
  | some (.store id) => if s.canPerform id then some (s.doPerform id) else none
  | some (.inval _ _) => some (s.doInval c)
  | some (.event _ _ _) => if s.canEvent c then some (s.doEvent c) else none
  | some (.wave _) => if s.canLand c && !s.needsRick c then some (s.doLand c) else none
  | some (.landing req piece) => if s.landingWaits c req piece then some (s.doEngineLanding req piece) else none
  | none => none

/-- Inputs that a boundary has admitted so far, each with its source die. -/
abbrev Admitting := State × List (Nat × Input)

/-- Takes what a channel brings, in its order. -/
def Admitting.channel (c : ChanRef) : Nat → Admitting → Admitting
  | 0, a => a
  | n + 1, a => match a.1.admitHead c with
    | none => a
    | some t => Admitting.channel c n (t, a.2 ++ (a.1.headMsg? c).toList.map (fun m => (c.src, Input.msg m)))

/-- Messages that wait on the channel from a die. -/
def State.inbox (s : State) (src die : Nat) : Nat :=
  ((s.ord.chans.filter (fun c => c.dst == die && c.src == src)).map (fun c => c.msgs.length)).sum

/-- The accesses of the waves of a die in some state, as they stand. -/
def State.accsOf (s : State) (die : Nat) (p : Entry → Acc → Bool) : List AccRef :=
  (s.waves.filter (fun w => w.loc.die == die && w.transit.isNone)).flatMap (fun w => w.entries.flatMap (fun e =>
    (e.accs.filter (fun a => !a.scratch && p e a)).map (fun a => ⟨w.uid, e.id, a.lane⟩)))

/-- The homes that some bytes ask on other dies are a die at its boundary, and others that admit an access now. -/
def State.asksAt (s : State) (die src : Nat) (bs : List ByteAt) : Bool :=
  let hs := farHomes src bs
  hs.contains die && hs.all (fun h => h == die || s.admits h)

/-- A READ or an ATOMIC of another die's wave at a home of this one: at the boundary it takes its step. -/
def Admitting.access (die src : Nat) (a : Admitting) (r : AccRef) : Admitting :=
  let s := a.1
  match s.acc? r with
  | none => a
  | some (w, e, x) =>
    if (s.accPlaces r).any ByteAt.hole then a
    else if e.kind == .load && s.canRead r && s.asksAt die src (s.homeBytes w x.nextBytes) then (s.doRead r, a.2 ++ [(src, .access r)])
    else if e.kind == .atomic && s.canAtomic r && s.asksAt die src x.at_ then (s.doAtomic r, a.2 ++ [(src, .access r)])
    else a

/-- The home that an access asks first. -/
def Acc.homeOf (a : Acc) (die : Nat) : Nat := (a.at_.head?.map (fun b => if b.peer.isSome then 8 else b.home)).getD die

/-- Data that has come from a home for a wave of the die. -/
def Admitting.data (die src : Nat) (a : Admitting) (r : AccRef) : Admitting :=
  match a.1.acc? r with
  | none => a
  | some (_, _, x) => if x.homeOf die == src && a.1.canReturn r then (a.1.doReturn r, a.2 ++ [(src, .data r)]) else a

/-- Pieces of a die's engines in some state. -/
def State.piecesOn (s : State) (die : Nat) (p : EngReq → Piece → Bool) : List (Nat × Nat) :=
  (s.reqs.filter (fun r => r.die == die)).flatMap (fun r => (r.pieces.filter (p r)).map (fun x => (r.id, x.id)))

/-- The home that a piece's bytes come from. -/
def State.pieceHome (s : State) (r : EngReq) (p : Piece) : Nat :=
  ((s.chargedPlaces r p).head?.map (fun b => if b.peer.isSome then 8 else b.home)).getD r.die

/-- A piece whose bytes have come from a home lands. -/
def Admitting.landing (src : Nat) (a : Admitting) (p : Nat × Nat) : Admitting :=
  match a.1.req? p.1 with
  | none => a
  | some r => match r.piece? p.2 with
    | none => a
    | some x =>
      if a.1.pieceHome r x == src && !(a.1.landPlaces p.1 p.2).any ByteAt.hole && a.1.mayLand p.1 p.2
      then (a.1.doEngineLanding p.1 p.2, a.2 ++ [(src, .landing p.1 p.2)]) else a

/-- An engine of another die reads a home of this one. -/
def Admitting.engineRead (die src : Nat) (a : Admitting) (p : Nat × Nat) : Admitting :=
  let bs := a.1.readPlaces p.1 p.2
  if !bs.any ByteAt.hole && a.1.canEngineRead p.1 p.2 && a.1.asksAt die src bs
  then (a.1.doEngineRead p.1 p.2, a.2 ++ [(src, .engineRead p.1 p.2)]) else a

/-- What a die admits from one source: its channel, the accesses that it makes here, the data that its home gives, its engines' reads
(R330; DEDUCED, log entry 58). -/
def Admitting.source (die : Nat) (a : Admitting) (src : Nat) : Admitting :=
  let a := if src = die then a else Admitting.channel ⟨src, die, 0⟩ (a.1.inbox src die) a
  let a := if src = die then a else (a.1.accsOf src (fun _ x => x.st == .waiting)).foldl (Admitting.access die src) a
  let a := (a.1.accsOf die (fun _ x => x.st == .returned)).foldl (Admitting.data die src) a
  let a := (a.1.piecesOn die (fun _ p => p.data.isSome && p.wid.isNone && p.sent.isNone && p.fromMemory)).foldl (Admitting.landing src) a
  if src = die then a else (a.1.piecesOn src (fun _ p => p.data.isNone)).foldl (Admitting.engineRead die src) a

/-- The inputs of a round are taken in ascending source die and sequence number, and listed in the admission record with what the
round has read of %tick and %ratio. A reset that an arrival of an earlier boundary armed falls here (R340). -/
def State.doRound (s : State) (die : Nat) : State :=
  let due := s.armedR.map (fun a => if a.die == die && a.landed then { a with due := true } else a)
  let a := (List.range 10).foldl (Admitting.source die) ({ s with armedR := due }, [])
  let s := a.1.onRepair die (fun x => { x with
    issues := []
    admitted := x.admitted ++ [⟨(s.die die).round, a.2, x.reads⟩]
    reads := []
    edge := s.own.stepNo + 1 })
  (s.admitTime die).onDie die (fun d => { d with round := d.round + 1 })

/-! ## Ricks (R331, R332, R338) -/

def rickPeriod (x : W64) : Nat := 1000 * max 1000 (x.extractLsb' 0 20).toNat

/-- A wave of a paused die has nothing on its way (R304 step 2). -/
def State.settledWave (s : State) (w : Wave) : Bool :=
  w.transit.isNone && (s.gridOf w).isEmpty && s.ord.overlay.all (fun e => e.wave != w.uid)
    && w.entries.all (fun e => e.kind != .event && e.kind != .claim && !e.inFlight)

def State.settledReqs (s : State) (dies : List Nat) : Bool :=
  s.reqs.all (fun r => !dies.contains r.die || r.pieces.all (fun p => p.data.isNone))

def State.diePaused (s : State) (die : Nat) : Bool :=
  s.waves.all (fun w => w.loc.die != die || s.settledWave w) && s.settledReqs [die]

/-- A rick is due: groups have come, the period is over, or a repairable wave is about to land. -/
def State.rickWanted (s : State) (die : Nat) : Bool :=
  let period := match s.part? (s.partOf die) with
    | none => 0
    | some p => rickPeriod p.rick
  (s.die die).rickDue || (s.deterministic die && (s.die die).lastRick + period ≤ s.pkg.tick)
    || (List.range 8).any (fun src => s.needsRick ⟨src, die, 0⟩)

/-- A die that runs no rounds is always at a boundary. -/
def State.atBoundary (s : State) (die : Nat) : Bool :=
  match s.repair? die with
  | none => true
  | some r => !s.deterministic die || r.issues.isEmpty

/-- The context key of the world that runs on a die. -/
def State.runningKey (s : State) (die : Nat) : Nat :=
  match (s.part? (s.partOf die)).bind (·.sliceWorld) with
  | none => 0
  | some w => match s.world? w with
    | none => 0
    | some w => w.ctxKey

def State.snapDie (s : State) (die : Nat) : DieSnap where
  tick := s.pkg.tick
  key := s.runningKey die
  waves := s.waves.filter (fun w => w.loc.die == die)
  groups := s.groups.filter (fun g => g.die == die)
  quarters := s.quarters.filter (fun q => q.1 / 144 == die)
  reqs := s.reqs.filter (fun r => r.die == die)
  objs := s.objs.filter (fun n => objDie (.net n.scope n.home n.index) == die)
  estates := s.estates.filter (fun e => e.die == die && e.inFile)
  seqs := (s.ord.chans.filter (fun c => c.src == die)).map (fun c => (c.dst, c.seq))

/-- Logged messages that a die has not yet admitted stay. -/
def State.unadmitted (s : State) (m : LogMsg) : Bool :=
  s.ord.chans.any (fun c => c.src == m.src && c.dst == m.dst && c.msgs.any (fun x => m.msg == .sent x))

/-- The two slots are used in turn; the undo log, the admission record and the list of what the die has sent restart empty. -/
def State.doRick (s : State) (die : Nat) : State :=
  let s : State := if (s.repair? die).isSome then s else State.admitTime { s with repair := s.repair ++ [repairBlank die] } die
  let slot := (s.die die).rickSlot
  let snap := s.snapDie die
  let s := s.onRepair die (fun r => { r with slots := r.slots.set slot (some snap), undo := [], admitted := [], sends := [], stalled := [] })
  let s : State := { s with msglog := s.msglog.filter (fun m => m.dst != die || s.unadmitted m) }
  s.onDie die (fun d => { d with lastRick := s.pkg.tick, rickNo := s.own.stepNo + 1, rickSlot := 1 - slot, rickDue := false })

def State.canRick (s : State) (die : Nat) : Bool :=
  die < 8 && s.repairEn die && !(s.die die).held && s.rickWanted die && s.atBoundary die && s.diePaused die

/-- RICK. -/
def execRick (die : Nat) (s : State) : Out := runEvent "RICK" (s.canRick die) (s.doRick die)

/-! ## Message logs (R333) -/

/-- SEND_LOG_FULL: the sender stalls, and the die is ordered to take a rick. -/
def execSendLogFull (src dst : Nat) (s : State) : Out :=
  runEvent "SEND_LOG_FULL" ((s.repair? dst).isSome && s.msglog.any (fun m => m.src == src && m.dst == dst))
    ((s.onRepair dst (fun r => { r with stalled := addNew r.stalled src })).onDie dst (fun d => { d with rickDue := true }))

/-! ## WARM_RESET (R334 steps 1 to 4, R335) -/

/-- Launches with waves on a die, and repairable launches with pages there. -/
def State.onDieLaunches (s : State) (die : Nat) : List Launch :=
  s.launches.filter (fun l => l.st != .ended && s.waves.any (fun w => w.launch == l.uid && w.loc.die == die && w.transit.isNone))
def State.repairedBy (s : State) (die : Nat) : List Launch :=
  s.launches.filter (fun l => l.st != .ended && l.block.repair
    && (s.waves.any (fun w => w.launch == l.uid && w.loc.die == die && w.transit.isNone)
      || l.frames.any (fun f => f * 2 ^ 16 < 2 ^ 40 && f * 2 ^ 16 / 2 ^ 37 == die)))

/-- A line's bytes and tags take a recorded value (R299). -/
def MemSys.putLine (m : MemSys) (line : Nat) (bs : List CopyByte) (tags : List Bool) : MemSys :=
  let m := bs.zipIdx.foldl (fun m b =>
    let pa := line * 128 + b.2
    { m with bytes := mapSet 0 m.bytes pa b.1.val, owner := mapSet 0 m.owner pa b.1.owner, writer := mapSet 0 m.writer pa b.1.writer }) m
  { m with tags := mapSetRun false m.tags (line * 8) tags }

/-- The undo log is applied, newest first; a replay writes again what repairable launches had written. -/
def State.undoLines (s : State) (die : Nat) (redo : Bool) : State :=
  match s.repair? die with
  | none => s
  | some r => { s with mem := r.undo.reverse.foldl (fun m u =>
      if redo then m.putLine u.line u.redo u.retags else m.putLine u.line u.old u.tags) s.mem }

/-- A translation cached on a die or on one of its cores. -/
def TlbEntry.onDie (e : TlbEntry) (die : Nat) : Bool := (tlbLevels e.at_).contains die

/-- The die's SRAM is discarded: its caches are empty, its L2 holds no poisoned word, and its objects are those of the rick. -/
def State.cleanDie (s : State) (die : Nat) (snap : Option DieSnap) : State :=
  let sound := fun n : NetObj => (snap.map (fun d => d.objs.any (fun o => o.isAt n.scope n.home n.index && !o.poison))).getD false
  { s with
    mem := { s.mem with
      tlb := s.mem.tlb.filter (fun e => !e.onDie die)
      sram := s.mem.sram.filter (fun e => !(e.1 * 4 < 2 ^ 40 && e.1 * 4 / 2 ^ 37 == die)) }
    ord := { s.ord with copies := s.ord.copies.filter (fun c => copyDie c.place != die) }
    objs := updBy (fun n : NetObj => objDie (.net n.scope n.home n.index) == die && sound n) (fun n => { n with poison := false }) s.objs }

/-- The last complete rick of a die. -/
def State.lastSlot (s : State) (die : Nat) : Option DieSnap :=
  match s.repair? die with
  | none => none
  | some r => (r.slots[1 - (s.die die).rickSlot]?).bind id

/-- R335: there is nothing to restore from: no complete rick, none since a launch came to the die, or its holder is itself being reset. -/
def State.noRick (s : State) (die : Nat) : Bool :=
  (s.lastSlot die).isNone || (s.die (die ^^^ 1)).held || (s.onDieLaunches die).any (fun l => l.block.repair && (s.die die).rickNo ≤ l.born)

/-- The entry of a reset names a repairable launch that it concerns. -/
def State.resetEntry (s : State) (die : Nat) : FaultLog :=
  { logBlank s.pkg.tick die 9 0 with launch := ((s.repairedBy die).head?.map (·.num)).getD 0 }

/-- R335: the repairable launches of the die end; the entry names the channel, by its ends, and a sequence number (log entry 108). -/
def State.diverge (s : State) (die src dst seq : Nat) : State :=
  let s := (s.repairedBy die).foldl (fun s l => s.endLaunch l.uid 33 0 0 3 die) s
  let s := s.addLog { logBlank s.pkg.tick dst 10 0 with src := ⟨src, 0, 0, 0⟩, seq := seq }
  s.onRepair die (fun r => { r with replay := [] })

/-- The die is to replay so many rounds from its rick; with none left, what repairable launches had written stands again. -/
def State.replayFrom (s : State) (die : Nat) (rounds : List Admission) : State :=
  let s := s.onRepair die (fun r => { r with replay := rounds })
  if rounds.isEmpty then s.undoLines die true else s

/-- Hold, reset, undo and restore. One arming is consumed by one reset (R340). -/
def State.doWarmReset (s : State) (die : Nat) : State :=
  let snap := s.lastSlot die
  let s := (s.onDie die (fun d => { d with held := true })).addLog (s.resetEntry die)
  let s : State := { s with armedR := s.armedR.eraseP (fun a => a.die == die && (a.due || a.landed)) }
  let s := ((s.onDieLaunches die).filter (fun l => !l.block.repair)).foldl (fun s l => s.endLaunch l.uid 18 0 0 0 die) s
  let t := ((s.undoLines die false).cleanDie die snap).onRepair die (fun r => { r with restored := snap })
  if (s.repairedBy die).isEmpty then t.replayFrom die []
  else if s.noRick die then t.diverge die die die 0
  else t.replayFrom die (((s.repair? die).map (·.admitted)).getD [])

/-- A die in deterministic issue is reset at a boundary: its waves stand there as R339 leaves them. -/
def State.atEdge (s : State) (die : Nat) : Bool :=
  !s.deterministic die || (match s.repair? die with
    | none => true
    | some r => r.edge == s.own.stepNo)

/-- WARM_RESET: ordered inside a round, the reset falls at its end (log entry 21). -/
def execWarmReset (die : Nat) (s : State) : Out :=
  runEvent "WARM_RESET" (die < 8 && !(s.die die).held) (if s.atEdge die then s.doWarmReset die else s.orderReset die)

/-! ## Replay (R334 steps 5 and 6, R335, R339) -/

/-- A logged message for a die. -/
def State.inLog (s : State) (src dst : Nat) (m : Logged) : Bool := s.msglog.any (fun x => x.src == src && x.dst == dst && x.msg == m)

/-- An input of the die that the replay needs is in its sender's log: a message of a repairable launch from another die. -/
def State.inputLogged (s : State) (die src : Nat) (i : Input) : Bool :=
  8 ≤ src || src == die || (match i with
    | .msg m => !((s.msgLaunch m).any s.repairs) || s.inLog src die (.sent m)
    | .engineRead req piece => !((s.req? req).any (fun r => s.repairs r.launch)) || s.inLog src die (.engineRead req piece)
    | .access _ | .data _ | .landing _ _ => true)

/-- The first input of a record that is missing from every log, by its source. -/
def State.missingFrom (s : State) (die : Nat) (a : Admission) : Option Nat :=
  (a.inputs.find? (fun i => !s.inputLogged die i.1 i.2)).map (·.1)

/-- The first message that the die sends again in a round and whose digest is not that of the first; whether it differs is free (log entry
21). The others are dropped where they were first delivered. -/
def State.differs (s : State) (die : Nat) (a : Admission) : Option LogMsg :=
  match s.repair? die with
  | none => none
  | some r => r.sends.find? (fun m => m.round == a.round && Config.digestDiffers s.own.stepNo m.seq)

/-- One round of the record is replayed. -/
def State.replayRound (s : State) (die : Nat) : State :=
  match (s.repair? die).map (·.replay) with
  | some (a :: rest) => match s.missingFrom die a, s.differs die a with
    | some src, _ => s.diverge die src die 0
    | none, some m => s.diverge die m.src m.dst m.seq
    | none, none => s.replayFrom die rest
  | _ => s

/-- Rounds of a record are left to replay. -/
def State.replaying (s : State) (die : Nat) : Bool := ((s.repair? die).map (fun r => !r.replay.isEmpty)).getD false

def State.canRound (s : State) (die : Nat) : Bool := die < 8 && (if (s.die die).held then s.replaying die else s.deterministic die)

/-- ROUND_BOUNDARY: of a die that is held, one of its replay. -/
def execRoundBoundary (die : Nat) (s : State) : Out :=
  runEvent "ROUND_BOUNDARY" (s.canRound die) (if (s.die die).held then s.replayRound die else s.doRound die)

/-- REJOIN: the record is exhausted; the accesses that wait are resent by XLATE_RETRY_RESEND. -/
def execRejoin (die : Nat) (s : State) : Out :=
  runEvent "REJOIN" ((s.die die).held && !s.replaying die)
    (((s.onRepair die (fun r => { r with restored := none })).onDie die (fun d => { d with held := false })).rewait (fun w => w.loc.die == die))

end Sys2Proof.Machine
end

