-- ==== Sys2Proof/Machine/Contexts.lean ====
section
/-! DEFINITION. Machine/Contexts.lean: slices and context switches (R271, R303, R304), the ramp's intervals (R258), the ember watch (R215 to R217) and the bandwidth buckets (R305, R306): QUANTUM_EXPIRY, CONTEXT_RESTORE, RAMP_INTERVAL, EMBER_CHECK, HOST_THAW and BANDWIDTH_REFILL. -/

namespace Sys2Proof.Machine

/-! ## Saving a world (R304) -/

/-- Everything of the partition's world has come to rest (steps 1 and 2). -/
def State.partQuiet (s : State) (part : Nat) : Bool :=
  let ds := s.diesOf part
  let mine := fun o => match s.objLaunch o with
    | none => false
    | some l => match s.launch? l with
      | none => false
      | some l => l.part == part
  s.waves.all (fun w => (!ds.contains w.loc.die && !ds.contains w.place.die) || s.settledWave w) && s.settledReqs ds
    && s.groups.all (fun g => !g.stopping || !ds.contains g.die)
    && s.ord.chans.all (fun c => c.msgs.all (fun m => match m with
      | .event o _ _ => !mine o
      | _ => true))

/-- Network objects held by a world's launches of a partition. -/
def State.heldObjs (s : State) (part world : Nat) : List NetObj :=
  s.objs.filter (fun n => !n.byQueue && s.bound part world n.owner)

def inPart (ds : List Nat) (world : Nat) (e : Estate) : Bool := e.world == world && ds.contains e.die && e.inFile

/-- The registers of a wave as they are written out: each packed, with its format and its element tag (R200, R203). -/
def Wave.packed (w : Wave) : List SpillRec :=
  (unionNew (w.vregs.map (·.1)) ((List.range w.winsize).map (w.runBase + ·))).map (fun g =>
    let p := packRow (w.row g)
    ⟨g, w.etag g, p.1, p.2⟩)

/-- The generation of a world's context key. -/
def State.ctxKey (s : State) (world : Nat) : Nat :=
  match s.world? world with
  | none => 0
  | some w => w.ctxKey

/-- What a wave, a group or a request of a launch on a die is to a save: its world is being switched out. -/
def State.outgoing (s : State) (part world die launch : Nat) : Bool :=
  (s.diesOf part).contains die && s.launchWorld launch == world

/-- Step 3: the context as it is written out, under the world's context key. -/
def State.context (s : State) (part world : Nat) : SavedContext :=
  let ds := s.diesOf part
  let ws := s.waves.filter (fun w => s.outgoing part world w.loc.die w.launch)
  { part := part
    world := world
    key := s.ctxKey world
    rows := ws.map (fun w => (w.uid, w.packed))
    waves := ws.map (fun w => { w with vregs := [] })
    groups := s.groups.filter (fun g => s.outgoing part world g.die g.launch)
    quarters := s.quarters.filter (fun q => ds.contains (q.1 / 144))
    reqs := s.reqs.filter (fun r => s.outgoing part world r.die r.launch)
    objs := s.heldObjs part world
    estates := s.estates.filter (inPart ds world) }

/-- A copy of an L1 under a space of the world (step 4). -/
def State.worldCopy (s : State) (part world : Nat) (c : Copy) : Bool :=
  match c.place with
  | .l1 d _ sp _ => (s.diesOf part).contains d && (match s.world? world with
    | none => false
    | some w => w.comps.any (fun k => k.space == sp))
  | .l2 _ => false

/-- The quarters of a partition that a save leaves without a resident wave (R258). -/
def State.idlesOf (s : State) (part world : Nat) : Nat :=
  ((s.quartersOf part).filter (fun q => !s.asleep q.die q.core q.quarter
    && s.waves.all (fun w => w.transit.isSome || w.qref != q || s.outgoing part world w.loc.die w.launch))).length

/-- Steps 3 to 5. -/
def State.saveWorld (s : State) (part world : Nat) : State :=
  let ds := s.diesOf part
  let c := s.context part world
  let out := s.outgoing part world
  let t : State := { s with
    contexts := s.contexts ++ [c]
    waves := s.waves.filter (fun w => !out w.loc.die w.launch)
    groups := s.groups.filter (fun g => !out g.die g.launch)
    quarters := s.quarters.filter (fun q => !ds.contains (q.1 / 144))
    reqs := s.reqs.filter (fun r => !out r.die r.launch)
    objs := s.objs.filter (fun n => !c.objs.contains n)
    estates := s.estates.filter (fun e => !inPart ds world e) }
  (((t.dropCopies (s.worldCopy part world)).resizeL1).chargeRamp part (s.idlesOf part world)).count world 11 1

/-- A full save of a die's world counts as a rick (R332). -/
def State.rickAll (s : State) (part : Nat) : State :=
  (s.diesOf part).foldl (fun s d => if (s.repair? d).isSome then s.doRick d else s) s

/-! ## QUANTUM_EXPIRY (R303) -/

/-- The slice of an entry begins: its world is the entry's until the slice ends. -/
def State.beginSlice (s : State) (part i : Nat) : State :=
  match s.part? part with
  | none => s
  | some p =>
    let world := qWorld (p.entry i)
    (s.onPart part (fun p => { p with slice := some i, world := some world, sliceAt := s.pkg.tick })).count world 10 1

/-- The outgoing world leaves the partition, once it has come to rest. -/
def State.leave (s : State) (part out : Nat) : Option State :=
  if s.partQuiet part then some ((s.rickAll part).saveWorld part out) else none

def State.expiry (s : State) (part : Nat) : Option State :=
  match s.part? part with
  | none => none
  | some p =>
    if p.gated || !s.sliceOver p then none
    else match p.world, s.nextSlice p with
      | none, none => none
      | none, some i => some (s.beginSlice part i)
      | some out, none => (s.leave part out).map (fun t => t.onPart part (fun p => { p with world := none }))
      | some out, some i =>
        if qWorld (p.entry i) = out then some (s.beginSlice part i)
        else (s.leave part out).map (fun t => t.beginSlice part i)

/-- QUANTUM_EXPIRY: the next slice begins; where its world differs, or none is next, the outgoing one is saved once it has come
to rest. -/
def execQuantumExpiry (part : Nat) (s : State) : Out :=
  runEvent "QUANTUM_EXPIRY" (s.expiry part).isSome ((s.expiry part).getD s)

/-! ## CONTEXT_RESTORE (R304) -/

def State.context? (s : State) (part world : Nat) : Option SavedContext :=
  s.contexts.find? (fun c => c.part == part && c.world == world)

/-- Only the world's own context key opens its context. -/
def State.canRestore (s : State) (part world : Nat) : Bool :=
  match s.part? part, s.context? part world with
  | some p, some c => p.sliceWorld == some world && c.key == s.ctxKey world
  | _, _ => false

/-- A saved wave as it comes back: its registers unpacked; rule 4 of R54 counts anew. -/
def SavedContext.back (c : SavedContext) (w : Wave) : Wave :=
  let rs := match c.rows.find? (fun r => r.1 == w.uid) with
    | none => []
    | some r => r.2
  { w with
    vregs := rs.foldl (fun m r => mapSet zeroRow m r.log (unpackRow r.fmt r.payload)) w.vregs
    waited := 0 }

/-- The die's deterministic issue begins with the context. -/
def State.admitNew (s t : State) (die : Nat) : State :=
  if !s.deterministic die && t.deterministic die then t.admitTime die else t

def State.doRestore (s : State) (part world : Nat) : State :=
  match s.context? part world with
  | none => s
  | some c =>
    let t : State := { s with
      contexts := s.contexts.filter (fun x => !(x.part == part && x.world == world))
      waves := s.waves ++ c.waves.map c.back
      groups := s.groups ++ c.groups
      quarters := c.quarters.foldl (fun m q => mapSet quarterReset m q.1 q.2) s.quarters
      reqs := s.reqs ++ c.reqs
      objs := s.objs ++ c.objs
      estates := s.estates ++ c.estates }
    let t := ((c.waves.foldl (fun t w => t.noteStay w.launch w.loc.die) t).resizeL1).chargeRamp part (s.restoreWakes c)
    (s.diesOf part).foldl (fun t d => s.admitNew t d) t

/-- The same along the ramp (R258). -/
def State.restored (s : State) (part world : Nat) : Option State := s.onRamp part (fun s => some (s.doRestore part world))

/-- CONTEXT_RESTORE: every wave, group, object, request and estate is back where it was. -/
def execContextRestore (part world : Nat) (s : State) : Out :=
  runEvent "CONTEXT_RESTORE" (s.canRestore part world && (s.restored part world).isSome) ((s.restored part world).getD s)

/-! ## RAMP_INTERVAL (R258) -/

/-- The budget of the intervals since the last renewal first pays for the idles and wakes that were beyond it; what is left
wakes quarters ahead for a placement that asks for more than one interval gives. -/
def State.doRamp (s : State) (part : Nat) : State :=
  let asked := s.wakesAsked part
  let now := s.pkg.tick / 1000
  s.onPart part (fun p =>
    let budget := rampStep p.ramp * (now - p.rampAt)
    { p with
      woken := if asked = 0 then 0 else min asked (p.woken + (budget - p.used))
      used := p.used - budget + (if asked = 0 then p.woken else 0)
      rampAt := now })

/-- RAMP_INTERVAL: every microsecond since the last renewal gives its budget. -/
def execRampInterval (part : Nat) (s : State) : Out :=
  runEvent "RAMP_INTERVAL" (match s.part? part with
    | none => false
    | some p => p.rampAt < s.pkg.tick / 1000) (s.doRamp part)

/-! ## EMBER_CHECK and HOST_THAW (R215 to R217) -/

def emberEn (x : W64) : Bool := x.getLsbD 31
def emberWindow (x : W64) : Nat := 1000 * max 16 (x.extractLsb' 0 20).toNat

/-- The first microsecond boundary at which a wave is resident and the window before it holds no activity; time for which the watch
has paused does not count. It is none before the register was last written: the watch was not armed so until then (R216). -/
def Part.emberAt (p : Part) : Nat :=
  max (((p.activity + p.paused + emberWindow p.ember) / 1000 + 1) * 1000) ((max (p.occupied.getD 0) p.armedAt + 999) / 1000 * 1000)

def State.residents (s : State) (part : Nat) : List Wave :=
  s.waves.filter (fun w => s.partOf w.loc.die == part && w.transit.isNone)

def State.canEmber (s : State) (part : Nat) : Bool :=
  match s.part? part with
  | none => false
  | some p => emberEn p.ember && !p.frozen && !s.watchPaused p && p.occupied.isSome && !(s.residents part).isEmpty && p.emberAt ≤ s.pkg.tick

/-- One entry per wave blocked in WAIT. -/
def State.stallEntries (s : State) (launch part : Nat) : List StallEntry :=
  ((s.residents part).filter (fun w => w.launch == launch)).flatMap (fun w => w.stalls.filterMap (fun x => match x.kind with
    | .wait o t _ true =>
      let b := (s.obj? o).getD barBlank
      some ⟨x.pc, handleBits o, t, b.phase, b.penA⟩
    | _ => none))

def State.stallRecord (s : State) (part t last : Nat) (l : Launch) : State :=
  let r : FaultRec := {
    tick := s.pkg.tick, loc := ⟨8, 0, 0, 0⟩, wave := 0, group := 0, launch := l.num, addr := 0, active := 0, syncpc := 0, pc := 0
    cause := 0, step := 0, lane := 0, cls := 3, code := 32 }
  (s.note (.stall l.queue r t last (s.stallEntries l.uid part))).count l.world 13 1

def State.doEmber (s : State) (part : Nat) : State :=
  match s.part? part with
  | none => s
  | some p =>
    let ls := s.launches.filter (fun l => (s.residents part).any (fun w => w.launch == l.uid))
    ls.foldl (fun s l => s.stallRecord part p.emberAt p.activity l) (s.onPart part (fun p => { p with frozen := true, stalled := ls.map (fun l => l.uid) }))

/-- EMBER_CHECK. -/
def execEmberCheck (part : Nat) (s : State) : Out := runEvent "EMBER_CHECK" (s.canEmber part) (s.doEmber part)

/-- HOST_THAW. -/
def execHostThaw (part : Nat) (s : State) : Out :=
  runEvent "HOST_THAW" (match s.part? part with
    | none => false
    | some p => p.frozen) (s.thaw part)

/-! ## BANDWIDTH_REFILL (R306) -/

/-- A period is 1,024 base cycles at 940 MHz. -/
def periodOf (tick : Nat) : Nat := tick * 940 / 1024000

/-- Worlds by descending share, the lower number first among equals. -/
def byShare (xs : List (Nat × Nat)) : List (Nat × Nat) :=
  let before := fun (a b : Nat × Nat) => b.2 < a.2 || (a.2 == b.2 && a.1 ≤ b.1)
  xs.foldl (fun out x => out.takeWhile (fun y => before y x) ++ [x] ++ out.dropWhile (fun y => before y x)) []

/-- A bucket at a refill: its world, its share, its cap, and what it would hold with its share. -/
structure Filling where
  world : Nat
  share : Nat
  cap   : Nat
  got   : Nat
deriving DecidableEq, Repr

/-- What a bucket holds, within the cap of its present share, and its share. -/
def Part.filling (p : Part) (r : Resource) (world : Nat) : Filling :=
  let share := shareOf (mapGet 0 p.share world) r
  ⟨world, share, capOf share, min ((p.bucket world).get r) (capOf share) + share⟩

/-- What each bucket below its cap gets of the unused refill: in proportion to the shares, or equally where they are all 0. -/
def dealUnused (unused : Nat) (below : List Filling) : List (Nat × Nat) :=
  let total := (below.map (·.share)).sum
  let part := fun (f : Filling) => if total = 0 then unused / below.length else unused * f.share / total
  let rest := unused - (below.map part).sum
  let lucky := ((byShare (below.map (fun f => (f.world, f.share)))).take rest).map (·.1)
  below.map (fun f => (f.world, part f + (if lucky.contains f.world then 1 else 0)))

/-- One refill of one resource over the worlds (R306). -/
def Part.refillOne (p : Part) (worlds : List Nat) (r : Resource) : Part :=
  if p.unshared r then p
  else
    let fs := worlds.map (p.filling r)
    let dealt := dealUnused (fs.map (fun f => f.got - f.cap)).sum (fs.filter (fun f => f.got < f.cap))
    let gain := fun world => match dealt.find? (fun d => d.1 == world) with
      | none => 0
      | some d => d.2
    fs.foldl (fun (p : Part) f =>
      { p with buckets := putBucket f.world ((p.bucket f.world).put r (min (f.got + gain f.world) f.cap)) p.buckets }) p

def Part.refill (worlds : List Nat) (p : Part) : Part :=
  ((p.refillOne worlds .fabric).refillOne worlds .link).refillOne worlds .mem

/-- One refill for each period boundary that has passed. -/
def State.doRefill (s : State) (part : Nat) : State :=
  let now := periodOf s.pkg.tick
  let worlds := s.worlds.map (·.id)
  s.onPart part (fun p => { Nat.repeat (Part.refill worlds) (now - p.refillAt) p with refillAt := now })

/-- BANDWIDTH_REFILL, at the period boundaries that have passed. -/
def execBandwidthRefill (part : Nat) (s : State) : Out :=
  runEvent "BANDWIDTH_REFILL" (match s.part? part with
    | none => false
    | some p => p.refillAt < periodOf s.pkg.tick) (s.doRefill part)

end Sys2Proof.Machine
end

