-- ==== Sys2Proof/Machine/Lemmel.lean ====
section
/-! DEFINITION. Machine/Lemmel.lean: the debugger's commands (R241, R243, R340): LEMMEL_CONTINUE, LEMMEL_STEP, LEMMEL_END_LAUNCH, LEMMEL_ARM_DISCARD and LEMMEL_ARM_RESET. Each attaches lemmel to the launch's queue. -/

namespace Sys2Proof.Machine

def State.attach (s : State) (launch : Nat) : State :=
  match s.launch? launch with
  | none => s
  | some l => { s with pkg := { s.pkg with lemmel := addNew s.pkg.lemmel l.queue } }

/-- A parked wave. -/
def State.parkedAt (s : State) (wave : Nat) : Option (Wave × Park) :=
  match s.wave? wave with
  | none => none
  | some w => w.parked.map (fun p => (w, p))

/-- Lanes that stopped at a watched range, or by a poisoned lane, are to be sent again. -/
def Acc.unwatched (a : Acc) : Acc :=
  if a.st == .watched then { a with st := if a.scratch then .waiting else .retry } else a

def Wave.unwatched (w : Wave) : Wave :=
  { w with entries := w.entries.map (fun e => { e with accs := e.accs.map Acc.unwatched }) }

def State.doContinue (s : State) (wave : Nat) : State :=
  match s.parkedAt wave with
  | none => s
  | some (w, p) => (s.setWave ((w.resume p).unwatched)).attach w.launch

/-- LEMMEL_CONTINUE: the return from an exception. -/
def execLemmelContinue (wave : Nat) (s : State) : Out :=
  runEvent "LEMMEL_CONTINUE" (s.parkedAt wave).isSome (s.doContinue wave)

/-- The set that stands at the instruction passes it, and nothing more of it is performed: the access whose lanes have
stopped leaves the list (log entry 79). -/
def Wave.stepped (w : Wave) (p : Park) : Wave :=
  let w := w.skipSet p
  let stops := fun e : Entry => e.accs.any (fun a => a.st == .watched)
  { w with
    parked := none
    stalls := w.stalls.filter (fun x => !(x.pc == p.pc && x.base == p.base && x.lanes == p.lanes))
    marks := w.marks.filter (fun m => !(w.entries.any (fun e => e.id == m.entry && stops e)))
    entries := w.entries.filter (fun e => !stops e) }

def State.doStep (s : State) (wave : Nat) : State :=
  match s.parkedAt wave with
  | none => s
  | some (w, p) => (s.setWave (w.stepped p)).attach w.launch

/-- LEMMEL_STEP. -/
def execLemmelStep (wave : Nat) (s : State) : Out := runEvent "LEMMEL_STEP" (s.parkedAt wave).isSome (s.doStep wave)

def State.doLemmelEnd (s : State) (wave : Nat) : State :=
  match s.parkedAt wave with
  | none => s
  | some (w, p) => (s.attach w.launch).endLaunch w.launch (faultCode p.fault) 0 0 (if p.imprecise then 1 else 0) 8

/-- LEMMEL_END_LAUNCH: its end record names the fault at which the wave stood. -/
def execLemmelEndLaunch (wave : Nat) (s : State) : Out :=
  runEvent "LEMMEL_END_LAUNCH" (s.parkedAt wave).isSome (s.doLemmelEnd wave)

def State.alive (s : State) (launch : Nat) : Bool :=
  match s.launch? launch with
  | none => false
  | some l => l.st != .ended

/-- LEMMEL_ARM_DISCARD: at the pass-th issue of pc by a wave of a group. -/
def execLemmelArmDiscard (launch group wave : Nat) (pc : BitVec 64) (pass split : Nat) (s : State) : Out :=
  runEvent "LEMMEL_ARM_DISCARD" (s.alive launch && pass != 0)
    { s.attach launch with armedD := s.armedD ++ [⟨launch, group, wave, pc, pass, split, none, false⟩] }

/-- LEMMEL_ARM_RESET: after the count-th arriving MIGRATE of a group's wave 0. -/
def execLemmelArmReset (die count group : Nat) (s : State) : Out :=
  runEvent "LEMMEL_ARM_RESET" (die < 8 && count != 0) { s with armedR := s.armedR ++ [⟨die, count, group, 0, false, false⟩] }

/-! ## What lemmel reads (R217, R229, R266, R277) -/

/-- The grid operations of a quarter have landed, in their order. -/
def State.gridLanded (s : State) (q : QRef) : Nat → State
  | 0 => s
  | n + 1 => match s.gridHead q with
    | none => s
    | some g => (match g.instr with
      | .mma _ => s.doMmaLanding q
      | _ => s.doGridOpLanding q).gridLanded q n

/-- A wave as lemmel sees it: its grid operations already issued have landed (R229). -/
def State.lemmelWave (s : State) (wave : Nat) : Option Wave :=
  match s.wave? wave with
  | none => none
  | some w => (s.gridLanded w.qref (s.quarter w.loc.die w.loc.core w.loc.quarter).grid.length).wave? wave

/-- A vector register, by the window of the lane's fibre; a scalar register; a predicate. -/
def State.lemmelVreg (s : State) (wave reg lane : Nat) : Option W32 :=
  (s.lemmelWave wave).bind (fun w => (w.fibre? lane).map (fun f => w.valueAt (f.winbase + reg) lane))
def State.lemmelSreg (s : State) (wave reg : Nat) : Option W64 := (s.lemmelWave wave).map (fun w => w.sget reg)
def State.lemmelPreg (s : State) (wave p lane : Nat) : Option Bool :=
  (s.lemmelWave wave).bind (fun w => (w.fibre? lane).map (fun f => f.pred p))

/-- LAYOUT of the page that a wave's core maps an address by, with its element format: of its TLB entry, or else of the leaf (R277). -/
def State.lemmelLayout (s : State) (wave va : Nat) : Option (Nat × Bool) :=
  (s.wave? wave).bind (fun w => (s.leafFor w.agent (s.waveSpace w) va).map (fun l => ((leafOf l.1).efmt, (leafOf l.1).layout)))

/-- STATE of a directory entry. -/
def EState.code : EState → Nat
  | .recorded _ => 0
  | .kept => 1
  | .sealed => 2
  | .transit _ _ => 3
  | .evicted => 0

def packFields (width : Nat) (xs : List Nat) : Nat := xs.reverse.foldl (fun a x => a * 2 ^ width + x) 0

/-- An estate's entry in the directory of its core, under the key slot of its sequence. -/
def Estate.word (e : Estate) (kslot : Nat) : BitVec 192 :=
  BitVec.ofNat 64 (packFields 8 e.pregs) ++ BitVec.ofNat 32 (packFields 4 (e.tags.map (·.toNat))) ++ BitVec.ofNat 48 e.ident
    ++ BitVec.ofNat 16 e.cls ++ BitVec.ofNat 9 kslot ++ BitVec.ofNat 3 e.st.code ++ BitVec.ofNat 6 e.lane ++ BitVec.ofNat 2 e.quarter
    ++ BitVec.ofNat 4 e.tags.length ++ (0 : BitVec 7) ++ (1 : BitVec 1)

/-- The valid entries of a core's directory. -/
def State.lemmelDirectory (s : State) (die core : Nat) : List (BitVec 192) :=
  (s.directory die core).map (fun e => e.word (match s.seq? e.world e.seq with
    | none => 0
    | some q => q.slot))

end Sys2Proof.Machine
end

