-- ==== Sys2Proof/Machine/Boot.lean ====
section
/-! DEFINITION. Machine/Boot.lean: measured boot (R310, R311), attestation (R312 to R315), accounting (R316 to R319) and ageing (R321): POWER_ON, FIRMWARE_LOAD, the SPDM requests, COUNTER_SNAPSHOT, ENERGY_APPORTION and AGE_UPDATE. -/

namespace Sys2Proof.Machine

/-! ## Measured boot -/

/-- The checks of an image for its stage: the manufacturer's signature over its digest, and the fused minimum for that image. -/
def imageOk (i : Image) : Bool :=
  Config.verify (digestBytes (Config.sha512 i.bytes)) i.signature && Config.minVersion i.stage ≤ i.version

/-- Stage 5 releases the links, each with a fresh key (R286). -/
def State.raiseLinks (s : State) : State :=
  { s with pkg := { s.pkg with
    links := s.pkg.links.map (fun l => { l with retraining := false, key := l.key + 1 })
    farsol := s.pkg.farsol.map (fun l => { l with retraining := false, key := l.key + 1 }) } }

/-- The quantum table that a device configuration gives a partition. -/
def imageTable (bytes : List Byte) (part : Nat) : Sparse W64 :=
  (List.range 64).foldl (fun m i => mapSet 0 m i (Config.imageQuantum bytes part i &&& cfgBits (.quantum part i))) []

/-- Stage 6 loads the partition register, the power cap and the quantum tables from the device configuration. -/
def State.configure (s : State) (i : Image) : State :=
  let k := Config.imageSplit i.bytes % 4
  { s with
    pkg := { s.pkg with
      split := k
      capw := max 1600 (min 3600 (Config.imageCap i.bytes)) }
    parts := (splitParts k).map (fun p => { p with quantum := imageTable i.bytes p.id }) }

/-- What a stage releases, beyond what the state of boot lets run. -/
def State.release (s : State) (i : Image) : State :=
  if i.stage = 5 then s.raiseLinks else if i.stage = 6 then s.configure i else s

/-- One stage: its image is measured into its register and released, or the boot stops there. -/
def State.bootStage (s : State) (stage : Nat) : State :=
  if s.pkg.bootFail.isSome then s
  else match s.pkg.flash[stage - 1]? with
    | none => { s with pkg := { s.pkg with bootFail := some stage } }
    | some i =>
      if i.stage == stage && imageOk i then
        ({ s with pkg := { s.pkg.extend (stage - 1) (Config.sha512 i.bytes) with bootStage := stage } } : State).release i
      else { s with pkg := { s.pkg with bootFail := some stage } }

/-- The stages that are still to come. -/
def State.boot (s : State) : State :=
  ((List.range 6).filter (fun k => s.pkg.bootStage ≤ k)).foldl (fun s k => s.bootStage (k + 1)) s

/-- The state that power gives: fused facts, the images of the six stages, and nothing else (R310, R321). -/
def State.powered (s : State) (images : List Image) : State :=
  { State.reset with
    own := s.own
    pkg := { pkgReset with
      flash := images
      dies := (List.range 8).map (fun d => { dieReset with harvest := Config.presentCores d }) } }

/-- POWER_ON: a power cycle, and then the six stages. -/
def execPowerOn (images : List Image) (s : State) : Out := .next (s.powered images).boot

/-- After boot an image that passes is measured into MR6. In the state of R311 it takes the place of its stage's image, and the boot
goes on from the stage that failed. -/
def State.loadImage (s : State) (i : Image) : State :=
  if s.booted then
    if imageOk i then ({ s with pkg := s.pkg.extend 6 (Config.sha512 i.bytes) } : State).note (.written 23 true)
    else s.note (.written 23 false)
  else
    ({ s with pkg := { s.pkg with flash := s.pkg.flash.set (i.stage - 1) i, bootFail := none } } : State).boot

/-- FIRMWARE_LOAD: after boot, or through the management port after a failed one. -/
def execFirmwareLoad (image : Image) (s : State) : Out :=
  runEvent "FIRMWARE_LOAD" (s.booted || s.pkg.bootFail.isSome) (s.loadImage image)

/-! ## SPDM (R312) -/

/-- Hub 1 serves SPDM once its boot code runs: over the management port, and over hub 0's PCIe function where the host sees it. -/
def State.serves (s : State) : Bool :=
  match s.own.asked.via with
  | .mctp => s.pkg.bootStage != 0 || s.pkg.bootFail.isSome
  | .doe => s.booted

def State.respond (s : State) (r : Spdm) : State := { s with pkg := { s.pkg with responses := s.pkg.responses ++ [r] } }

/-- One request, one response. -/
def runSpdm (name : String) (r : Spdm) (s : State) : Out := runEvent name s.serves (s.respond r)

/-- Certificate slot 0 only. -/
def State.inSlot0 (s : State) (r : Spdm) : Spdm := if s.own.asked.slot = 0 then r else .invalid

def chainDigest : BitVec 512 := Config.sha512 Config.certificates

/-- SPDM 1.3. -/
def execGetVersion (s : State) : Out := runSpdm "GET_VERSION" (.version 0x13) s

def execGetCapabilities (s : State) : Out :=
  runSpdm "GET_CAPABILITIES" (.capabilities true true true true true true) s

def execNegotiateAlgorithms (s : State) : Out :=
  runSpdm "NEGOTIATE_ALGORITHMS" (.algorithms .ed25519 .sha512 .x25519 .aes256gcm) s

def execGetDigests (s : State) : Out := runSpdm "GET_DIGESTS" (.digests [(0, chainDigest)]) s

def execGetCertificate (s : State) : Out :=
  runSpdm "GET_CERTIFICATE" (s.inSlot0 (.certificate Config.certificates)) s

/-- Signed by the attestation key (log entry 66). -/
def execChallenge (nonce : BitVec 256) (s : State) : Out :=
  runSpdm "CHALLENGE" (s.inSlot0 (.challenge chainDigest nonce
    (Config.sign (digestBytes chainDigest ++ leBytes 32 nonce.toNat)))) s

/-! ## Measurements (R313 to R315) -/

/-- The partitions that a world's queues are bound to. -/
def State.partsOf (s : State) (w : Nat) : List Part :=
  s.parts.filter (fun p => s.queues.any (fun q => q.world == w && q.part == p.id))

/-- STATE: a world whose slice is in progress runs; it is gated where its partition is, and descheduled where its partition runs another
world's (log entry 98). -/
def State.worldState (s : State) (w : Nat) : Nat :=
  match s.world? w with
  | none => 3
  | some _ =>
    if s.parts.any (fun p => p.sliceWorld == some w) then 0
    else if (s.partsOf w).any (·.gated) then 2
    else if (s.partsOf w).any (fun p => p.sliceWorld.isSome) then 1 else 0

/-- What a world reads of its own log: the newest 4,096 entries. -/
def State.readLog (s : State) (w : Nat) : List (BitVec 512) :=
  match s.world? w with
  | none => []
  | some w => w.log

def State.worldBlock (s : State) (n : Nat) : List Byte :=
  let st := BitVec.ofNat 8 (s.worldState n) :: List.replicate 15 0
  match s.world? n with
  | none => List.replicate 144 0 ++ st
  | some w => digestBytes w.manifest ++ digestBytes w.logd ++ leBytes 8 w.entries ++ leBytes 8 w.logTick ++ st

/-- The blocks that are reported, with their kinds; after a failed boot only the registers extended before it, and the status. -/
def State.measurement (s : State) (i : Nat) : Option (MeasKind × List Byte) :=
  if 1 ≤ i && i ≤ 8 then
    if s.pkg.bootFail.isSome && s.pkg.bootStage < i then none else s.pkg.mrs[i - 1]?.map (fun d => (.digest, digestBytes d))
  else if i = 9 then some (.digest, leBytes 64 (s.pkg.bootFail.getD 0))
  else if 0x40 ≤ i && i < 0x80 && s.pkg.bootFail.isNone then some (.raw, s.worldBlock (i - 0x40))
  else none

/-- GET_MEASUREMENTS: an index that is not listed is absent. -/
def execGetMeasurements (index : Nat) (nonce : BitVec 256) (s : State) : Out :=
  let block := s.measurement index
  runSpdm "GET_MEASUREMENTS" (s.inSlot0 (.measurement index block
    (Config.sign (leBytes 32 nonce.toNat ++ leBytes 1 index ++ (block.map (·.2)).getD [])))) s

/-! ## Sessions -/

def State.inSession (s : State) (n : Nat) : State := { s with pkg := { s.pkg with session := n } }

def execKeyExchange (share : BitVec 256) (s : State) : Out :=
  let own := Config.keyShare share
  runEvent "KEY_EXCHANGE" s.serves
    (if s.own.asked.slot = 0 then
      (s.inSession 1).respond (.session own (Config.sign (leBytes 32 share.toNat ++ leBytes 32 own.toNat)))
    else s.respond .invalid)

def execFinish (s : State) : Out :=
  runEvent "FINISH" s.serves (if s.pkg.session = 1 then (s.inSession 2).respond .finished else s.respond .unexpected)

def execEndSession (s : State) : Out :=
  runEvent "END_SESSION" s.serves (if s.pkg.session = 0 then s.respond .unexpected else (s.inSession 0).respond .ended)

/-! ## Accounting (R316 to R319) -/

/-- Bytes 0x00 to 0xBF of a snapshot. -/
def snapBytes (world state no tick : Nat) (nonce : BitVec 256) (counters : List Nat) : List Byte :=
  leBytes 4 (1 + world * 2 ^ 8 + state * 2 ^ 16) ++ leBytes 4 no ++ leBytes 8 tick ++ leBytes 32 nonce.toNat
    ++ counters.flatMap (leBytes 8) ++ List.replicate 16 0

def State.doSnapshot (s : State) (world : Nat) (nonce : BitVec 256) : State :=
  match s.world? world with
  | none => s
  | some w =>
    let body := snapBytes world (s.worldState world) (w.snapNo + 1) s.pkg.tick nonce w.counters
    (s.onWorld world (fun w => { w with
      snapNo := w.snapNo + 1
      snapTick := s.pkg.tick })).respond (.snapshot (body ++ digestBytes (Config.sign body)))

/-- The host reads a world's snapshot, or the world its own; its TICK is above that of the one before. -/
def State.canSnapshot (s : State) (world : Nat) : Bool :=
  (s.own.asked.world.isNone || s.own.asked.world == some world) && (match s.world? world with
    | none => false
    | some w => w.snapNo == 0 || w.snapTick < s.pkg.tick)

/-- COUNTER_SNAPSHOT: the sixteen counters at this step, signed. -/
def execCounterSnapshot (world : Nat) (nonce : BitVec 256) (s : State) : Out :=
  runEvent "COUNTER_SNAPSHOT" (s.canSnapshot world) (s.doSnapshot world nonce)

/-- What a world has done since a die's last millisecond, weighted (R317). -/
def World.work (w : World) (die : Nat) : Nat :=
  let old := mapGet [] w.emarks die
  ((List.range 5).map (fun n => (w.counters.getD n 0 - old.getD n 0) * (if n = 0 then 1 else Config.energyWeight n))).sum

/-- The worlds that have been resident on a die since its last millisecond. -/
def State.worldsOn (s : State) (die : Nat) : List World := s.worlds.filter (fun w => w.stayed.contains die)

/-- A world has waves on a die. -/
def State.staysOn (s : State) (die world : Nat) : Bool :=
  s.waves.any (fun v => v.transit.isNone && v.loc.die == die && s.launchWorld v.launch == world)

def State.apportion (s : State) (die energy : Nat) : State :=
  let ws := s.worldsOn die
  let total := (ws.map (fun w => w.work die)).sum
  let s := if total = 0 then s else ws.foldl (fun s w => s.count w.id 9 (energy * w.work die / total)) s
  { s with worlds := s.worlds.map (fun w => { w with
    emarks := mapSet [] w.emarks die (w.counters.take 5)
    stayed := w.stayed.filter (fun d => d != die || s.staysOn die w.id) }) }

def milliTicks : Nat := 10 ^ 6

/-- ENERGY_APPORTION: a die's millijoules of one millisecond, which are its power in watts. -/
def execEnergyApportion (die : Nat) (energy : Nat) (s : State) : Out :=
  runEvent "ENERGY_APPORTION" (die < 8 && (s.die die).energyAt / milliTicks < s.pkg.tick / milliTicks)
    ((s.apportion die energy).onDie die (fun d => { d with
      power := energy % 2 ^ 14
      energyAt := s.pkg.tick }))

/-! ## Ageing (R321) -/

def hourTicks : Nat := 3600 * 10 ^ 9

/-- AGE_UPDATE, once an hour. -/
def execAgeUpdate (die : Nat) (age eol : Nat) (s : State) : Out :=
  let d := s.die die
  runEvent "AGE_UPDATE" (die < 8 && age ≤ 1000 && (d.ageTick == 0 || d.ageTick + hourTicks ≤ s.pkg.tick))
    (s.onDie die (fun d => { d with age := age, eolDays := min eol 65535, ageTick := s.pkg.tick }))

/-- A die's health register, as the host and the management port read it; the sensors give TEMP. -/
def State.health (s : State) (die : Nat) : W64 :=
  let d := s.die die
  BitVec.ofNat 16 d.eolDays ++ BitVec.ofNat 10 d.age ++ BitVec.ofNat 8 (Config.hottest die s.own.stepNo) ++ BitVec.ofNat 14 d.power
    ++ (0 : BitVec 16)

end Sys2Proof.Machine
end

