-- ==== Sys2Proof/Machine/Control.lean ====
section
/-! DEFINITION. Machine/Control.lean: the control instructions 0x00 to 0x0B (R112 to R121). -/

namespace Sys2Proof.Machine

/-- NOP has no effect (R119). -/
def execNop (o : OpNop) (s : State) : Out := runPlain (.nop o) (fun _ w => w) s

/-- Sets the PC of every active fibre. -/
def Ctx.jump (c : Ctx) (t : Nat → W64) (w : Wave) : Wave := w.onLanes c.act (fun f => { f with pc := t f.lane })

/-- BRA's target: in 4-byte units from X16, in bytes from IMM32 (R113). -/
def braTarget (o : OpBra) (pc : W64) : W64 :=
  match o.len with
  | .w96 => pc + (o.off.setWidth 16).signExtend 64 * 4
  | .w64 | .w128 => pc + o.off.signExtend 64

/-- The target of BRX and CALLX: the lane's pair, or a scalar register (R113). -/
def targetOf (t : Target) (c : Ctx) (l : Nat) : W64 :=
  match t with
  | .vec r => c.w.vget (c.base + r.toNat) true l
  | .scalar s => c.w.sget s.toNat

/-- BRA (R113). -/
def execBra (o : OpBra) (s : State) : Out := runPlain (.bra o) (fun c w => c.jump (fun _ => braTarget o c.pc) w) s

/-- BRX (R113). -/
def execBrx (o : OpBrx) (s : State) : Out := runPlain (.brx o) (fun c w => c.jump (fun l => targetOf o.tgt c l) w) s

/-! ## Calls (R114, R199) -/

/-- Step 18 of CALL and CALLX: 16 frames, then the room of the backing store. The second is a check of the whole wave, and R114 names no
lane of its record. DESIGN CHOICE (log 112): the lowest active lane. -/
def callChk (f : Nat) (c : Ctx) (s : State) : Option Chk :=
  match c.act.find? (fun l => match c.w.fibre? l with
      | none => false
      | some x => 16 ≤ x.stack.length) with
  | some l => some { fault := .windowStore, step := 18, lane := l, cause := 1 }
  | none =>
    let top := c.w.fibres.foldl (fun m x => max m (x.winbase + (if c.act.contains x.lane then f else 0) + c.w.winsize)) 0
    let room := match s.launch? c.w.launch with
      | none => 0
      | some l => l.block.bssize
    if room < (top - c.w.winsize) * 264 then some { fault := .windowStore, step := 18, lane := c.low, cause := 2 } else none

/-- A frame is pushed, the window base moves, the run slides there, the callee's v0 takes the return address (R8). -/
def callEff (f : Nat) (t : Nat → W64) (c : Ctx) (s : State) : State :=
  let s := s.onWave c.w.uid (fun w => w.onLanes c.act (fun x =>
    { x with stack := f :: x.stack, winbase := x.winbase + f, pc := t x.lane }))
  match s.wave? c.w.uid with
  | none => s
  | some w =>
    let r := s.slideTo w (c.base + f)
    r.1.onWave c.w.uid (fun w => w.vset (c.base + f) false c.act (fun _ => c.pc + BitVec.ofNat 64 c.len))

/-- CALL (R114). -/
def execCall (o : OpCall) (s : State) : Out :=
  runWord (.call o) (callChk o.frame.toNat) noHold
    (fun c s => callEff o.frame.toNat (fun _ => c.pc + o.off.signExtend 64) c s) s

/-- CALLX (R114). -/
def execCallx (o : OpCallx) (s : State) : Out :=
  runWord (.callx o) (callChk o.frame.toNat) noHold (fun c s => callEff o.frame.toNat (targetOf o.tgt c) c s) s

/-! ## RET and END (R115, R118) -/

/-- The active lanes whose window stack is empty: RET ends their fibres. -/
def retEnds (c : Ctx) : List Nat :=
  c.act.filter (fun l => match c.w.fibre? l with
    | none => false
    | some f => f.stack.isEmpty)

/-- The others return: the upper half of the target is the RET's own. -/
def retFibre (c : Ctx) (f : Fibre) : Fibre :=
  match f.stack with
  | [] => f
  | n :: rest => { f with
      stack := rest
      winbase := f.winbase - n
      pc := c.pc.extractLsb' 32 32 ++ c.w.slice c.base f.lane }

def retEff (c : Ctx) (s : State) : State :=
  let s := s.onWave c.w.uid (fun w => w.onLanes c.act (retFibre c))
  if (retEnds c).isEmpty then s else s.endFibres c.w.uid (retEnds c)

/-- RET (R115): where it ends a fibre it waits as END does. -/
def execRet (o : OpBare) (s : State) : Out :=
  runWord (.ret o) noChk (fun c s => if (retEnds c).isEmpty then none else holdSync .finish endBusy c s) retEff s

/-- END (R118). -/
def execEndF (o : OpBare) (s : State) : Out :=
  runWord (.endF o) noChk (holdSync .finish endBusy) (fun c s => s.endFibres c.w.uid c.act) s

/-! ## FORK (R117) -/

def insertFibre (f : Fibre) : List Fibre → List Fibre
  | [] => [f]
  | x :: xs => if f.lane < x.lane then f :: x :: xs else x :: insertFibre f xs

/-- A fibre born by FORK (R189). -/
def forkFibre (lane : Nat) (pc : W64) (winbase : Nat) : Fibre where
  lane := lane
  pc := pc
  preds := 0
  winbase := winbase
  stack := []
  claim := 0
  region := pc
  age := 0

def forkEff (o : OpFork) (c : Ctx) (w : Wave) : Wave :=
  let want := maskLanes (c.w.sget o.mask.toNat)
  let free := want.filter (fun l => (c.w.fibre? l).isNone)
  let born := free.foldl (fun fs l => insertFibre (forkFibre l (c.pc + o.off.signExtend 64) c.base) fs) w.fibres
  c.putP o.d (fun _ => free.length == want.length)
    { w with fibres := born, ppoison := w.ppoison.filter (fun l => !free.contains l) }

/-- FORK (R117): the new fibres stand at the issue's window base, that of its lowest active lane. -/
def execFork (o : OpFork) (s : State) : Out := runPlain (.fork o) (forkEff o) s

/-! ## YIELD, REGION, TRAP, BRK -/

/-- YIELD: the quarter passes over the wave at its next turn (R119). -/
def execYield (o : OpBare) (s : State) : Out := runPlain (.yield o) (fun _ w => { w with yielded := true }) s

/-- REGION ends the region (R120): retiring does so. -/
def execRegion (o : OpBare) (s : State) : Out := runPlain (.region o) (fun _ w => w) s

/-- TRAP raises TRAP at step 19, with its code in ADDR (R121, R240). -/
def execTrap (o : OpCode) (s : State) : Out :=
  runWave (.trap o) (fun c => some { fault := .trap, step := 19, lane := c.low, addr := o.code.setWidth 64 }) (fun _ w => w) s

/-- BRK raises BRK at step 19 (R121). -/
def execBrk (o : OpCode) (s : State) : Out :=
  runWave (.brk o) (fun c => some { fault := .brk, step := 19, lane := c.low, addr := o.code.setWidth 64 }) (fun _ w => w) s

/-! ## A fetch that fails -/

/-- ILLEGAL_WORD_FETCH: the fault of R31 steps 1 to 9 and 20, at the issuing set's PC (R10, R12, R27, R32, R33). The
record's ADDR is that PC but for ILLEGAL (log entry 27). What a peer's page makes of a fetch is an imprecise fault (R5, R285): the
fetch is its synchronisation point (log entry 97). -/
def execIllegalWordFetch (fault : FaultName) (step : Nat) (s : State) : Out :=
  match s.own.cur with
  | none => .refused .noIssue
  | some q => match s.wave? q.wave with
    | none => .refused .noIssue
    | some w =>
      let set_ := maskLanes q.set_
      let c : Ctx := { w := w, pc := q.pc, base := q.base, set_ := set_, act := set_, len := q.len, instr := .illegalWordFetch fault step }
      if fault == .remoteUnreachable || fault == .remoteRefused then
        let w := w.pendFault ⟨fault, 2 * w.nextEntry, q.pc, q.set_, c.low, q.pc⟩
        .next ((s.setWave w).imprecise { c with w := w })
      else .next (s.precise c { fault := fault, step := step, lane := c.low, addr := if fault == .illegal then 0 else q.pc })

end Sys2Proof.Machine
end

