-- ==== Sys2Proof/Machine/FloatOps.lean ====
section
/-! DEFINITION. Machine/FloatOps.lean: the floating-point and conversion instructions 0x40 to 0x58 (R86 to R100). Each ORs its flags into %fflags. -/

namespace Sys2Proof.Machine

/-- The bits of a floating operand A. -/
def fA (c : Ctx) (f : FFmt) (a : VSrc) (l : Nat) : Nat := fBits f (laneRead c.w c.base a false l)

def fltF2 (f : Nat → Nat → FRes) (o : OpF2) (c : Ctx) (w : Wave) : Wave :=
  c.putF o.d (fun l => f (fA c o.fmt o.a l) (bFlt c.w c.base o.len o.fmt o.b l)) w

def fltF1 (f : Nat → FRes) (o : OpF1) (c : Ctx) (w : Wave) : Wave := c.putF o.d (fun l => f (fA c o.fmt o.a l)) w

def fltMm (isMax : Bool) (o : OpFmm) (c : Ctx) (w : Wave) : Wave :=
  c.putF o.d (fun l => fMinMax o.fmt isMax o.num (fA c o.fmt o.a l) (bFlt c.w c.base o.len o.fmt o.b l)) w

/-- The two elements of a slice, low first, and a slice of two results (R99). -/
def halves (x : Nat) : Nat × Nat := (x % 2 ^ 16, x / 2 ^ 16 % 2 ^ 16)
def joinHalves (a b : FRes) : FRes := (a.1 + 2 ^ 16 * b.1, a.2 ||| b.2)

/-- The elements of B that the half route feeds to the low and the high result (R99). -/
def routed (r : Route) (x : Nat) : Nat × Nat :=
  let h := halves x
  match r with
  | .straight => h
  | .sw => (h.2, h.1)
  | .bl => (h.1, h.1)
  | .bh => (h.2, h.2)

def fltPk2 (f : Nat → Nat → FRes) (o : OpPk2) (c : Ctx) (w : Wave) : Wave :=
  c.putF o.d (fun l =>
    let a := halves (low32 (laneRead c.w c.base o.a false l))
    let b := routed o.route (bPair c.w c.base o.len o.b l)
    joinHalves (f a.1 b.1) (f a.2 b.2)) w

/-- A dot form: C and D are .f32 (R100). -/
def fltDot (g : FFmt) (n : Nat) (o : OpF3) (c : Ctx) (w : Wave) : Wave :=
  c.putF o.d (fun l => fDot g n o.rm (low32 (laneRead c.w c.base o.a false l)) (low32 (rSrc c.w c.base false o.b l))
    (low32 (laneRead c.w c.base o.c false l))) w

/-- FADD (R89). -/
def execFadd (o : OpF2) (s : State) : Out := runPlain (.fadd o) (fltF2 (fAdd o.fmt o.rm) o) s

/-- FSUB (R89). -/
def execFsub (o : OpF2) (s : State) : Out := runPlain (.fsub o) (fltF2 (fSub o.fmt o.rm) o) s

/-- FMUL (R89). -/
def execFmul (o : OpF2) (s : State) : Out := runPlain (.fmul o) (fltF2 (fMul o.fmt o.rm) o) s

/-- FMA: one rounding (R89). -/
def execFma (o : OpF3) (s : State) : Out :=
  runPlain (.fma o) (fun c w => c.putF o.d (fun l => fFma o.fmt o.rm (fA c o.fmt o.a l)
    (fBits o.fmt (rSrc c.w c.base false o.b l)) (fA c o.fmt o.c l)) w) s

/-- FSCALE (R90). -/
def execFscale (o : OpF2) (s : State) : Out :=
  runPlain (.fscale o) (fun c w => c.putF o.d (fun l =>
    fScale o.fmt o.rm (fA c o.fmt o.a l) (bScale c.w c.base o.len o.b l)) w) s

/-- FMIN (R91). -/
def execFmin (o : OpFmm) (s : State) : Out := runPlain (.fmin o) (fltMm false o) s

/-- FMAX (R91). -/
def execFmax (o : OpFmm) (s : State) : Out := runPlain (.fmax o) (fltMm true o) s

/-- FSET: quiet comparisons (R92). -/
def execFset (o : OpFset) (s : State) : Out :=
  runPlain (.fset o) (fun c w =>
    let r := fun l => fCond o.fmt o.cond (fA c o.fmt o.a l) (bFlt c.w c.base o.len o.fmt o.b l)
    (c.putP o.d (fun l => (r l).1) w).orFlags (orFlags (c.act.map (fun l => (r l).2)))) s

/-- FCLASS (R93). -/
def execFclass (o : OpFclass) (s : State) : Out :=
  runPlain (.fclass o) (fun c w => c.putV o.d false (fun l => BitVec.ofNat 64 (fClass o.fmt (fA c o.fmt o.a l))) w) s

/-- FRND (R94). -/
def execFrnd (o : OpFrnd) (s : State) : Out :=
  runPlain (.frnd o) (fun c w => c.putF o.d (fun l => fRnd o.fmt o.rm o.exact (fA c o.fmt o.a l)) w) s

/-- FRCP (R52, R95). -/
def execFrcp (o : OpF1) (s : State) : Out := runPlain (.frcp o) (fltF1 (fRcp o.fmt o.rm) o) s

/-- FSQRT (R52, R95). -/
def execFsqrt (o : OpF1) (s : State) : Out := runPlain (.fsqrt o) (fltF1 (fSqrt o.fmt o.rm) o) s

/-- FRSQ (R52, R95). -/
def execFrsq (o : OpF1) (s : State) : Out := runPlain (.frsq o) (fltF1 (fRsq o.fmt o.rm) o) s

/-- FEXP2 (R52, R95). -/
def execFexp2 (o : OpF1) (s : State) : Out := runPlain (.fexp2 o) (fltF1 (fExp2 o.fmt o.rm) o) s

/-- FLOG2 (R52, R95). -/
def execFlog2 (o : OpF1) (s : State) : Out := runPlain (.flog2 o) (fltF1 (fLog2 o.fmt o.rm) o) s

/-- FSINPI (R52, R95). -/
def execFsinpi (o : OpF1) (s : State) : Out := runPlain (.fsinpi o) (fltF1 (fSinPi o.fmt o.rm) o) s

/-- FCOSPI (R52, R95). -/
def execFcospi (o : OpF1) (s : State) : Out := runPlain (.fcospi o) (fltF1 (fCosPi o.fmt o.rm) o) s

/-- FCVT: target fmt, source src (R42, R96). -/
def execFcvt (o : OpFcvt) (s : State) : Out :=
  runPlain (.fcvt o) (fun c w => c.putF o.d (fun l => fConvert o.fmt o.src o.rm (fA c o.src o.a l)) w) s

/-- FTOI (R43, R97). -/
def execFtoi (o : OpFint) (s : State) : Out :=
  runPlain (.ftoi o) (fun c w =>
    let r := fun l => fToInt (intMin o.ty) (intMax o.ty) o.fmt o.rm (fA c o.fmt o.a l)
    (c.putV o.d o.ty.wide (fun l => intWrap o.ty (r l).1) w).orFlags (orFlags (c.act.map (fun l => (r l).2)))) s

/-- ITOF (R43, R98). -/
def execItof (o : OpFint) (s : State) : Out :=
  runPlain (.itof o) (fun c w => c.putF o.d (fun l =>
    fOfInt o.fmt o.rm (intVal o.ty (laneRead c.w c.base o.a o.ty.wide l))) w) s

/-- PKADD (R99). -/
def execPkadd (o : OpPk2) (s : State) : Out := runPlain (.pkadd o) (fltPk2 (fAdd o.fmt o.rm) o) s

/-- PKMUL (R99). -/
def execPkmul (o : OpPk2) (s : State) : Out := runPlain (.pkmul o) (fltPk2 (fMul o.fmt o.rm) o) s

/-- PKFMA (R99). -/
def execPkfma (o : OpPk3) (s : State) : Out :=
  runPlain (.pkfma o) (fun c w => c.putF o.d (fun l =>
    let a := halves (low32 (laneRead c.w c.base o.a false l))
    let b := routed o.route (low32 (rSrc c.w c.base false o.b l))
    let d := halves (low32 (laneRead c.w c.base o.c false l))
    joinHalves (fFma o.fmt o.rm a.1 b.1 d.1) (fFma o.fmt o.rm a.2 b.2 d.2)) w) s

/-- FDOT2 (R100). -/
def execFdot2 (o : OpF3) (s : State) : Out := runPlain (.fdot2 o) (fltDot .bf16 2 o) s

/-- FDOT4 (R100). -/
def execFdot4 (o : OpF3) (s : State) : Out := runPlain (.fdot4 o) (fltDot .e4m3 4 o) s

end Sys2Proof.Machine
end

