-- ==== Sys2Proof/Machine/Integer.lean ====
section
/-! DEFINITION. Machine/Integer.lean: the vector integer instructions 0x10 to 0x2D (R65 to R79). Each computes in every active lane on values extended by its type and writes the low bits of the result. -/

namespace Sys2Proof.Machine

/-- A two-source form: D := f(A, B) in every active lane. -/
def intV2 (f : W64 → W64 → W64) (o : OpV2) (c : Ctx) (w : Wave) : Wave :=
  c.putV o.d o.ty.wide (fun l => f (laneRead c.w c.base o.a o.ty.wide l) (bInt c.w c.base o.len o.ty o.b l)) w

/-- A form whose B is a 32-bit count or control (R66). -/
def intVn (f : W64 → Nat → W64) (o : OpV2) (c : Ctx) (w : Wave) : Wave :=
  c.putV o.d o.ty.wide (fun l => f (laneRead c.w c.base o.a o.ty.wide l) (b32 c.w c.base o.len o.b l)) w

/-- A one-source form, with the width of its destination. -/
def intV1 (dwide : Bool) (f : W64 → W64) (o : OpV1) (c : Ctx) (w : Wave) : Wave :=
  c.putV o.d dwide (fun l => f (laneRead c.w c.base o.a o.ty.wide l)) w

/-- A carry form: the result, and the carry out into a predicate (R70). -/
def intCarry (f : W64 → W64 → Bool → W64 × Bool) (o : OpCarry) (c : Ctx) (w : Wave) : Wave :=
  let r := fun l => f (laneRead c.w c.base o.a o.ty.wide l) (rSrc c.w c.base o.ty.wide o.b l) (c.w.pget o.cin.toNat l)
  c.putP o.cout (fun l => (r l).2) (c.putV o.d o.ty.wide (fun l => (r l).1) w)

/-- ADD (R69). -/
def execAdd (o : OpV2) (s : State) : Out := runPlain (.add o) (intV2 (intAdd o.ty o.sat) o) s

/-- SUB (R69). -/
def execSub (o : OpV2) (s : State) : Out := runPlain (.sub o) (intV2 (intSub o.ty o.sat) o) s

/-- MUL (R69). -/
def execMul (o : OpV2) (s : State) : Out := runPlain (.mul o) (intV2 (intMul o.ty o.sat) o) s

/-- DIV: toward zero; all ones on a zero divisor (R71). -/
def execDiv (o : OpV2) (s : State) : Out := runPlain (.div o) (intV2 (intDiv o.ty o.sat) o) s

/-- MULH: the high half of the product (R69). -/
def execMulh (o : OpV2) (s : State) : Out := runPlain (.mulh o) (intV2 (intMulh o.ty) o) s

/-- REM: the dividend on a zero divisor (R71). -/
def execRem (o : OpV2) (s : State) : Out := runPlain (.rem o) (intV2 (intRem o.ty) o) s

/-- MIN (R72). -/
def execMin (o : OpV2) (s : State) : Out := runPlain (.min o) (intV2 (intMinOf o.ty) o) s

/-- MAX (R72). -/
def execMax (o : OpV2) (s : State) : Out := runPlain (.max o) (intV2 (intMaxOf o.ty) o) s

/-- AND (R73). -/
def execAnd (o : OpV2) (s : State) : Out := runPlain (.and o) (intV2 (intAnd o.ty) o) s

/-- OR (R73). -/
def execOr (o : OpV2) (s : State) : Out := runPlain (.or o) (intV2 (intOr o.ty) o) s

/-- XOR (R73). -/
def execXor (o : OpV2) (s : State) : Out := runPlain (.xor o) (intV2 (intXor o.ty) o) s

/-- ANDN: A AND NOT B (R73). -/
def execAndn (o : OpV2) (s : State) : Out := runPlain (.andn o) (intV2 (intAndn o.ty) o) s

/-- SHL (R73). -/
def execShl (o : OpV2) (s : State) : Out := runPlain (.shl o) (intVn (intShl o.ty o.sat) o) s

/-- SHR (R73). -/
def execShr (o : OpV2) (s : State) : Out := runPlain (.shr o) (intVn (intShr o.ty) o) s

/-- SAR (R73). -/
def execSar (o : OpV2) (s : State) : Out := runPlain (.sar o) (intVn (intSar o.ty) o) s

/-- ROT: left (R73). -/
def execRot (o : OpV2) (s : State) : Out := runPlain (.rot o) (intVn (intRot o.ty) o) s

/-- BFE (R75). -/
def execBfe (o : OpV2) (s : State) : Out := runPlain (.bfe o) (intVn (intBfe o.ty) o) s

/-- ADDC (R70). -/
def execAddc (o : OpCarry) (s : State) : Out := runPlain (.addc o) (intCarry (intAddc o.ty) o) s

/-- SUBB (R70). -/
def execSubb (o : OpCarry) (s : State) : Out := runPlain (.subb o) (intCarry (intSubb o.ty) o) s

/-- ABS (R72). -/
def execAbs (o : OpV1) (s : State) : Out := runPlain (.abs o) (intV1 o.ty.wide (intAbs o.ty o.sat) o) s

/-- NEG (R72). -/
def execNeg (o : OpV1) (s : State) : Out := runPlain (.neg o) (intV1 o.ty.wide (intNeg o.ty o.sat) o) s

/-- CLZ: a .b32 count in a single register (R66, R74). -/
def execClz (o : OpV1) (s : State) : Out := runPlain (.clz o) (intV1 false (fun a => BitVec.ofNat 64 (intClz o.ty a)) o) s

/-- POPC (R66, R74). -/
def execPopc (o : OpV1) (s : State) : Out := runPlain (.popc o) (intV1 false (fun a => BitVec.ofNat 64 (intPopc o.ty a)) o) s

/-- BREV (R74). -/
def execBrev (o : OpV1) (s : State) : Out := runPlain (.brev o) (intV1 o.ty.wide (intBrev o.ty) o) s

/-- MAD (R69). -/
def execMad (o : OpV3) (s : State) : Out :=
  runPlain (.mad o) (fun c w => c.putV o.d o.ty.wide (fun l =>
    intMad o.ty o.sat (laneRead c.w c.base o.a o.ty.wide l) (rSrc c.w c.base o.ty.wide o.b l)
      (laneRead c.w c.base o.c o.ty.wide l)) w) s

/-- MADW: 32-bit A and B, 64-bit C and D (R66, R69). -/
def execMadw (o : OpV3) (s : State) : Out :=
  runPlain (.madw o) (fun c w => c.putV o.d true (fun l =>
    intMadw o.ty o.sat (laneRead c.w c.base o.a false l) (rSrc c.w c.base false o.b l)
      (laneRead c.w c.base o.c true l)) w) s

/-- BFI: the control word is C (R76). -/
def execBfi (o : OpV3) (s : State) : Out :=
  runPlain (.bfi o) (fun c w => c.putV o.d o.ty.wide (fun l =>
    intBfi o.ty (laneRead c.w c.base o.a o.ty.wide l) (rSrc c.w c.base o.ty.wide o.b l)
      (low32 (laneRead c.w c.base o.c false l))) w) s

/-- LEA: A, C and D of the type, B a 32-bit index (R77). -/
def execLea (o : OpLea) (s : State) : Out :=
  runPlain (.lea o) (fun c w => c.putV o.d o.ty.wide (fun l =>
    intLea o.ty o.scale.toNat (laneRead c.w c.base o.a o.ty.wide l) (low32 (rSrc c.w c.base false o.b l))
      (laneRead c.w c.base o.c o.ty.wide l)) w) s

/-- SEL: A where the predicate holds, else B (R78). -/
def execSel (o : OpSel) (s : State) : Out :=
  runPlain (.sel o) (fun c w => c.putV o.d o.ty.wide (fun l =>
    intExtend o.ty (intBits o.ty (if c.w.pget o.c.toNat l then laneRead c.w c.base o.a o.ty.wide l
      else rSrc c.w c.base o.ty.wide o.b l))) w) s

/-- ISET (R79). -/
def execIset (o : OpIset) (s : State) : Out :=
  runPlain (.iset o) (fun c w => c.putP o.d (fun l =>
    intCond o.ty o.cond (laneRead c.w c.base o.a o.ty.wide l) (bInt c.w c.base o.len o.ty o.b l)) w) s

end Sys2Proof.Machine
end

