-- ==== Sys2Proof/Machine/Lanes.lean ====
section
/-! DEFINITION. Machine/Lanes.lean: the lane and predicate instructions 0x60 to 0x6E (R102 to R110). -/

namespace Sys2Proof.Machine

/-- MOV copies bits (R104). -/
def execMov (o : OpMov) (s : State) : Out :=
  runPlain (.mov o) (fun c w => c.putV o.d o.ty.wide (fun l => laneRead c.w c.base o.a o.ty.wide l) w) s

/-- The constant of MOVI (R22, R104). -/
def moviImm (o : OpMovi) : W64 :=
  match o.ty with
  | .int t => intImm o.len t o.imm
  | .f32 => BitVec.ofNat 64 (fImm o.len .f32 o.imm)

/-- MOVI (R104). -/
def execMovi (o : OpMovi) (s : State) : Out :=
  runPlain (.movi o) (fun c w => c.putV o.d o.ty.wide (fun _ => moviImm o) w) s

/-- PERM: A's pattern as if lane B[5:0] were reading (R105). -/
def execPerm (o : OpPerm) (s : State) : Out :=
  runPlain (.perm o) (fun c w => c.putV o.d o.ty.wide (fun l =>
    laneRead c.w c.base o.a o.ty.wide ((rSrc c.w c.base false o.b l).toNat % 64)) w) s

/-- BALLOT (R108). -/
def execBallot (o : OpBallot) (s : State) : Out :=
  runPlain (.ballot o) (fun c w => w.sset o.d.toNat (laneMask (c.act.filter (fun l => c.w.pget o.a.toNat l)))) s

/-- The truth value of VOTE (R108). -/
def voteOf (k : VoteKind) (ps : List Bool) : Bool :=
  match k with
  | .all => ps.all id
  | .any => ps.any id
  | .uni => ps.all id || !(ps.any id)

/-- VOTE (R108). -/
def execVote (o : OpVote) (s : State) : Out :=
  runPlain (.vote o) (fun c w => c.putP o.d (fun _ => voteOf o.kind (c.act.map (fun l => c.w.pget o.a.toNat l))) w) s

/-- The lane number of RDLANE and WRLANE: an immediate whole, else bits 5:0 (R106). -/
def laneNo (c : Ctx) (len : Len) (n : BSrc) : Nat := b32 c.w c.base len n c.low % 64

/-- R106: a vector lane number is uniform in bits 5:0. -/
def laneChk (c : Ctx) (len : Len) (n : BSrc) : Option Chk := c.nonuniform (fun l => b32 c.w c.base len n l % 64)

/-- RDLANE (R106). -/
def execRdlane (o : OpRdlane) (s : State) : Out :=
  runWave (.rdlane o) (fun c => laneChk c o.len o.n) (fun c w =>
    w.sset o.d.toNat (intExtend o.ty (intBits o.ty (laneRead c.w c.base o.a o.ty.wide (laneNo c o.len o.n))))) s

/-- WRLANE: one slice, whether or not its lane is active (R106). -/
def execWrlane (o : OpWrlane) (s : State) : Out :=
  runWave (.wrlane o) (fun c => laneChk c o.len o.n) (fun c w =>
    w.vset (c.base + o.d.toNat) o.ty.wide [laneNo c o.len o.n] (fun _ => c.w.sget o.a.toNat)) s

/-- BSEL (R107). -/
def execBsel (o : OpBsel) (s : State) : Out :=
  runPlain (.bsel o) (fun c w => c.putV o.d false (fun l =>
    (bselWord ((laneRead c.w c.base o.a false l).setWidth 32) ((rSrc c.w c.base false o.b l).setWidth 32)
      ((laneRead c.w c.base o.c false l).setWidth 32)).setWidth 64) w) s

/-- Combine of R109 over the values of some lanes. -/
def combine (op : CombOp) (ty : LaneTy) (vs : List W64) : W64 × FFlags :=
  match ty with
  | .int t => (vs.foldl (intCombine op t) (intIdentity op t), 0)
  | .f32 => let r := fCombine op (vs.map (fun v => v.toNat % 2 ^ 32)); (BitVec.ofNat 64 r.1, r.2)

/-- A combination for each active lane of the values of the active lanes that keep names. -/
def laneCombine (o : OpScan) (keep : Nat → Nat → Bool) (c : Ctx) (w : Wave) : Wave :=
  let r := fun l => combine o.op o.ty ((c.act.filter (fun k => keep k l)).map (fun k => laneRead c.w c.base o.a o.ty.wide k))
  (c.putV o.d o.ty.wide (fun l => (r l).1) w).orFlags (orFlags (c.act.map (fun l => (r l).2)))

/-- SCAN: the active lanes below, and the lane itself unless exclusive (R109). -/
def execScan (o : OpScan) (s : State) : Out :=
  runPlain (.scan o) (laneCombine o (fun k l => k < l || (k == l && !o.excl))) s

/-- REDUCE: every active lane (R109). -/
def execReduce (o : OpScan) (s : State) : Out := runPlain (.reduce o) (laneCombine o (fun _ _ => true)) s

/-- A predicate operation of two sources, each perhaps inverted (R110). -/
def predP2 (f : Bool → Bool → Bool) (o : OpP2) (c : Ctx) (w : Wave) : Wave :=
  c.putP o.d (fun l => f (c.w.pget o.a.toNat l != o.invA) (c.w.pget o.b.toNat l != o.invB)) w

/-- PAND (R110). -/
def execPand (o : OpP2) (s : State) : Out := runPlain (.pand o) (predP2 and o) s

/-- POR (R110). -/
def execPor (o : OpP2) (s : State) : Out := runPlain (.por o) (predP2 or o) s

/-- PXOR (R110). -/
def execPxor (o : OpP2) (s : State) : Out := runPlain (.pxor o) (predP2 xor o) s

/-- PNOT (R110). -/
def execPnot (o : OpP1) (s : State) : Out :=
  runPlain (.pnot o) (fun c w => c.putP o.d (fun l => !c.w.pget o.a.toNat l) w) s

/-- PMOV (R110). -/
def execPmov (o : OpP1) (s : State) : Out :=
  runPlain (.pmov o) (fun c w => c.putP o.d (fun l => c.w.pget o.a.toNat l) w) s

end Sys2Proof.Machine
end

