-- ==== Sys2Proof/Machine/Scalar.lean ====
section
/-! DEFINITION. Machine/Scalar.lean: the scalar instructions 0x30 to 0x3F (R81 to R85): once for the issue, on the low bits of their sources, the result extended to 64 bits. -/

namespace Sys2Proof.Machine

/-- sD := f(sA, B). -/
def scalarS2 (f : W64 → W64 → W64) (o : OpS2) (c : Ctx) (w : Wave) : Wave :=
  w.sset o.d.toNat (f (c.w.sget o.a.toNat) (sInt c.w o.len o.ty o.b))

/-- sD := f(sA, n), n a 32-bit count or control (R66). -/
def scalarSn (f : W64 → Nat → W64) (o : OpS2) (c : Ctx) (w : Wave) : Wave :=
  w.sset o.d.toNat (f (c.w.sget o.a.toNat) (s32 c.w o.len o.b))

/-- SADD (R82). -/
def execSadd (o : OpS2) (s : State) : Out := runPlain (.sadd o) (scalarS2 (intAdd o.ty o.sat) o) s

/-- SSUB (R82). -/
def execSsub (o : OpS2) (s : State) : Out := runPlain (.ssub o) (scalarS2 (intSub o.ty o.sat) o) s

/-- SMUL (R82). -/
def execSmul (o : OpS2) (s : State) : Out := runPlain (.smul o) (scalarS2 (intMul o.ty o.sat) o) s

/-- SAND (R82). -/
def execSand (o : OpS2) (s : State) : Out := runPlain (.sand o) (scalarS2 (intAnd o.ty) o) s

/-- SOR (R82). -/
def execSor (o : OpS2) (s : State) : Out := runPlain (.sor o) (scalarS2 (intOr o.ty) o) s

/-- SXOR (R82). -/
def execSxor (o : OpS2) (s : State) : Out := runPlain (.sxor o) (scalarS2 (intXor o.ty) o) s

/-- SMIN (R82). -/
def execSmin (o : OpS2) (s : State) : Out := runPlain (.smin o) (scalarS2 (intMinOf o.ty) o) s

/-- SMAX (R82). -/
def execSmax (o : OpS2) (s : State) : Out := runPlain (.smax o) (scalarS2 (intMaxOf o.ty) o) s

/-- SSHL (R82). -/
def execSshl (o : OpS2) (s : State) : Out := runPlain (.sshl o) (scalarSn (intShl o.ty o.sat) o) s

/-- SSHR (R82). -/
def execSshr (o : OpS2) (s : State) : Out := runPlain (.sshr o) (scalarSn (intShr o.ty) o) s

/-- SSAR (R82). -/
def execSsar (o : OpS2) (s : State) : Out := runPlain (.ssar o) (scalarSn (intSar o.ty) o) s

/-- SBFE (R82). -/
def execSbfe (o : OpS2) (s : State) : Out := runPlain (.sbfe o) (scalarSn (intBfe o.ty) o) s

/-- SSET: one truth value into the predicate of every active fibre (R85). -/
def execSset (o : OpSset) (s : State) : Out :=
  runPlain (.sset o) (fun c w => c.putP o.d (fun _ =>
    intCond o.ty o.cond (c.w.sget o.a.toNat) (sInt c.w o.len o.ty o.b)) w) s

/-- SLI (R83): X16 widened, or the 64 bits of X32 and IMM32. -/
def execSli (o : OpSli) (s : State) : Out :=
  runPlain (.sli o) (fun _ w => w.sset o.d.toNat (match o.len with
    | .w96 => intExtend o.ty (intBits o.ty (intImm .w96 o.ty (o.imm.setWidth 32)))
    | .w64 | .w128 => o.imm)) s

/-- SMOV (R84). -/
def execSmov (o : OpSmov) (s : State) : Out :=
  runPlain (.smov o) (fun c w => w.sset o.d.toNat (intExtend o.ty (intBits o.ty (c.w.sget o.a.toNat)))) s

/-- SLEA (R82). -/
def execSlea (o : OpSlea) (s : State) : Out :=
  runPlain (.slea o) (fun c w => w.sset o.d.toNat
    (intLea o.ty o.scale.toNat (c.w.sget o.a.toNat) (low32 (c.w.sget o.b.toNat)) (c.w.sget o.c.toNat))) s

end Sys2Proof.Machine
end

