-- ==== Sys2Proof/Machine/Dispatch.lean ====
section
/-! DEFINITION. Machine/Dispatch.lean: what each instruction and each event does: one arm per constructor. -/

namespace Sys2Proof.Machine

def exec (i : Instr) (s : State) : Host.Outcome State Fault Refusal :=
  match i with
  | .nop o => Sys2Proof.Machine.execNop o s
  | .bra o => Sys2Proof.Machine.execBra o s
  | .brx o => Sys2Proof.Machine.execBrx o s
  | .call o => Sys2Proof.Machine.execCall o s
  | .callx o => Sys2Proof.Machine.execCallx o s
  | .ret o => Sys2Proof.Machine.execRet o s
  | .fork o => Sys2Proof.Machine.execFork o s
  | .endF o => Sys2Proof.Machine.execEndF o s
  | .yield o => Sys2Proof.Machine.execYield o s
  | .region o => Sys2Proof.Machine.execRegion o s
  | .trap o => Sys2Proof.Machine.execTrap o s
  | .brk o => Sys2Proof.Machine.execBrk o s
  | .add o => Sys2Proof.Machine.execAdd o s
  | .sub o => Sys2Proof.Machine.execSub o s
  | .addc o => Sys2Proof.Machine.execAddc o s
  | .subb o => Sys2Proof.Machine.execSubb o s
  | .mul o => Sys2Proof.Machine.execMul o s
  | .mulh o => Sys2Proof.Machine.execMulh o s
  | .mad o => Sys2Proof.Machine.execMad o s
  | .madw o => Sys2Proof.Machine.execMadw o s
  | .div o => Sys2Proof.Machine.execDiv o s
  | .rem o => Sys2Proof.Machine.execRem o s
  | .abs o => Sys2Proof.Machine.execAbs o s
  | .neg o => Sys2Proof.Machine.execNeg o s
  | .min o => Sys2Proof.Machine.execMin o s
  | .max o => Sys2Proof.Machine.execMax o s
  | .and o => Sys2Proof.Machine.execAnd o s
  | .or o => Sys2Proof.Machine.execOr o s
  | .xor o => Sys2Proof.Machine.execXor o s
  | .andn o => Sys2Proof.Machine.execAndn o s
  | .shl o => Sys2Proof.Machine.execShl o s
  | .shr o => Sys2Proof.Machine.execShr o s
  | .sar o => Sys2Proof.Machine.execSar o s
  | .rot o => Sys2Proof.Machine.execRot o s
  | .clz o => Sys2Proof.Machine.execClz o s
  | .popc o => Sys2Proof.Machine.execPopc o s
  | .brev o => Sys2Proof.Machine.execBrev o s
  | .bfe o => Sys2Proof.Machine.execBfe o s
  | .bfi o => Sys2Proof.Machine.execBfi o s
  | .lea o => Sys2Proof.Machine.execLea o s
  | .sel o => Sys2Proof.Machine.execSel o s
  | .iset o => Sys2Proof.Machine.execIset o s
  | .sadd o => Sys2Proof.Machine.execSadd o s
  | .ssub o => Sys2Proof.Machine.execSsub o s
  | .smul o => Sys2Proof.Machine.execSmul o s
  | .sand o => Sys2Proof.Machine.execSand o s
  | .sor o => Sys2Proof.Machine.execSor o s
  | .sxor o => Sys2Proof.Machine.execSxor o s
  | .sshl o => Sys2Proof.Machine.execSshl o s
  | .sshr o => Sys2Proof.Machine.execSshr o s
  | .ssar o => Sys2Proof.Machine.execSsar o s
  | .smin o => Sys2Proof.Machine.execSmin o s
  | .smax o => Sys2Proof.Machine.execSmax o s
  | .sset o => Sys2Proof.Machine.execSset o s
  | .sli o => Sys2Proof.Machine.execSli o s
  | .smov o => Sys2Proof.Machine.execSmov o s
  | .sbfe o => Sys2Proof.Machine.execSbfe o s
  | .slea o => Sys2Proof.Machine.execSlea o s
  | .fadd o => Sys2Proof.Machine.execFadd o s
  | .fsub o => Sys2Proof.Machine.execFsub o s
  | .fmul o => Sys2Proof.Machine.execFmul o s
  | .fma o => Sys2Proof.Machine.execFma o s
  | .fmin o => Sys2Proof.Machine.execFmin o s
  | .fmax o => Sys2Proof.Machine.execFmax o s
  | .fset o => Sys2Proof.Machine.execFset o s
  | .fclass o => Sys2Proof.Machine.execFclass o s
  | .frnd o => Sys2Proof.Machine.execFrnd o s
  | .fscale o => Sys2Proof.Machine.execFscale o s
  | .frcp o => Sys2Proof.Machine.execFrcp o s
  | .fsqrt o => Sys2Proof.Machine.execFsqrt o s
  | .frsq o => Sys2Proof.Machine.execFrsq o s
  | .fexp2 o => Sys2Proof.Machine.execFexp2 o s
  | .flog2 o => Sys2Proof.Machine.execFlog2 o s
  | .fsinpi o => Sys2Proof.Machine.execFsinpi o s
  | .fcospi o => Sys2Proof.Machine.execFcospi o s
  | .fcvt o => Sys2Proof.Machine.execFcvt o s
  | .ftoi o => Sys2Proof.Machine.execFtoi o s
  | .itof o => Sys2Proof.Machine.execItof o s
  | .pkadd o => Sys2Proof.Machine.execPkadd o s
  | .pkmul o => Sys2Proof.Machine.execPkmul o s
  | .pkfma o => Sys2Proof.Machine.execPkfma o s
  | .fdot2 o => Sys2Proof.Machine.execFdot2 o s
  | .fdot4 o => Sys2Proof.Machine.execFdot4 o s
  | .mov o => Sys2Proof.Machine.execMov o s
  | .movi o => Sys2Proof.Machine.execMovi o s
  | .perm o => Sys2Proof.Machine.execPerm o s
  | .ballot o => Sys2Proof.Machine.execBallot o s
  | .vote o => Sys2Proof.Machine.execVote o s
  | .rdlane o => Sys2Proof.Machine.execRdlane o s
  | .wrlane o => Sys2Proof.Machine.execWrlane o s
  | .bsel o => Sys2Proof.Machine.execBsel o s
  | .scan o => Sys2Proof.Machine.execScan o s
  | .reduce o => Sys2Proof.Machine.execReduce o s
  | .pand o => Sys2Proof.Machine.execPand o s
  | .por o => Sys2Proof.Machine.execPor o s
  | .pxor o => Sys2Proof.Machine.execPxor o s
  | .pnot o => Sys2Proof.Machine.execPnot o s
  | .pmov o => Sys2Proof.Machine.execPmov o s
  | .ld o => Sys2Proof.Machine.execLd o s
  | .lds o => Sys2Proof.Machine.execLds o s
  | .ldu o => Sys2Proof.Machine.execLdu o s
  | .st o => Sys2Proof.Machine.execSt o s
  | .sts o => Sys2Proof.Machine.execSts o s
  | .stu o => Sys2Proof.Machine.execStu o s
  | .pref o => Sys2Proof.Machine.execPref o s
  | .atom o => Sys2Proof.Machine.execAtom o s
  | .red o => Sys2Proof.Machine.execRed o s
  | .atoms o => Sys2Proof.Machine.execAtoms o s
  | .fence o => Sys2Proof.Machine.execFence o s
  | .binit o => Sys2Proof.Machine.execBinit o s
  | .arrive o => Sys2Proof.Machine.execArrive o s
  | .expect o => Sys2Proof.Machine.execExpect o s
  | .wait o => Sys2Proof.Machine.execWait o s
  | .btest o => Sys2Proof.Machine.execBtest o s
  | .bphase o => Sys2Proof.Machine.execBphase o s
  | .cpy o => Sys2Proof.Machine.execCpy o s
  | .cpy2d o => Sys2Proof.Machine.execCpy2d o s
  | .gather o => Sys2Proof.Machine.execGather o s
  | .scatter o => Sys2Proof.Machine.execScatter o s
  | .qcpy o => Sys2Proof.Machine.execQcpy o s
  | .coll o => Sys2Proof.Machine.execColl o s
  | .rpush o => Sys2Proof.Machine.execRpush o s
  | .rfree o => Sys2Proof.Machine.execRfree o s
  | .mmodeOn o => Sys2Proof.Machine.execMmodeOn o s
  | .mmodeOff o => Sys2Proof.Machine.execMmodeOff o s
  | .mzero o => Sys2Proof.Machine.execMzero o s
  | .mma o => Sys2Proof.Machine.execMma o s
  | .mepi o => Sys2Proof.Machine.execMepi o s
  | .msts o => Sys2Proof.Machine.execMsts o s
  | .bequeath o => Sys2Proof.Machine.execBequeath o s
  | .claim o => Sys2Proof.Machine.execClaim o s
  | .estate o => Sys2Proof.Machine.execEstate o s
  | .estateDrop o => Sys2Proof.Machine.execEstateDrop o s
  | .migrate o => Sys2Proof.Machine.execMigrate o s
  | .launch o => Sys2Proof.Machine.execLaunch o s
  | .remit o => Sys2Proof.Machine.execRemit o s
  | .srd o => Sys2Proof.Machine.execSrd o s
  | .swr o => Sys2Proof.Machine.execSwr o s
  | .grow o => Sys2Proof.Machine.execGrow o s
  | .shrink o => Sys2Proof.Machine.execShrink o s
  | .growServe q => Sys2Proof.Machine.execGrowServe q s
  | .growDeadlockBreak q => Sys2Proof.Machine.execGrowDeadlockBreak q s
  | .missRetry wave pc => Sys2Proof.Machine.execMissRetry wave pc s
  | .loadDataReturn r => Sys2Proof.Machine.execLoadDataReturn r s
  | .accept r => Sys2Proof.Machine.execAccept r s
  | .reveal store wave => Sys2Proof.Machine.execReveal store wave s
  | .send store => Sys2Proof.Machine.execSend store s
  | .perform store => Sys2Proof.Machine.execPerform store s
  | .inval c => Sys2Proof.Machine.execInval c s
  | .fill line k => Sys2Proof.Machine.execFill line k s
  | .read r => Sys2Proof.Machine.execRead r s
  | .atomic r => Sys2Proof.Machine.execAtomic r s
  | .event c => Sys2Proof.Machine.execEvent c s
  | .engineRead req piece => Sys2Proof.Machine.execEngineRead req piece s
  | .engineLanding req piece => Sys2Proof.Machine.execEngineLanding req piece s
  | .ringFreeWaitMet req => Sys2Proof.Machine.execRingFreeWaitMet req s
  | .collStart req => Sys2Proof.Machine.execCollStart req s
  | .mmaLanding q => Sys2Proof.Machine.execMmaLanding q s
  | .gridOpLanding q => Sys2Proof.Machine.execGridOpLanding q s
  | .claimDelivery wave entry => Sys2Proof.Machine.execClaimDelivery wave entry s
  | .migrateGrant wave => Sys2Proof.Machine.execMigrateGrant wave s
  | .migrationLanding c => Sys2Proof.Machine.execMigrationLanding c s
  | .xlateRetryResend r => Sys2Proof.Machine.execXlateRetryResend r s
  | .launchPacket queue => Sys2Proof.Machine.execLaunchPacket queue s
  | .waitPacket queue => Sys2Proof.Machine.execWaitPacket queue s
  | .waitPacketReturn queue => Sys2Proof.Machine.execWaitPacketReturn queue s
  | .arrivePacket queue => Sys2Proof.Machine.execArrivePacket queue s
  | .binitPacket queue => Sys2Proof.Machine.execBinitPacket queue s
  | .seqopen queue => Sys2Proof.Machine.execSeqopen queue s
  | .seqclose queue => Sys2Proof.Machine.execSeqclose queue s
  | .seqcloseDrained world seq => Sys2Proof.Machine.execSeqcloseDrained world seq s
  | .seqcloseEnginesDone world seq => Sys2Proof.Machine.execSeqcloseEnginesDone world seq s
  | .seqcloseInvalDone world seq => Sys2Proof.Machine.execSeqcloseInvalDone world seq s
  | .sweep queue => Sys2Proof.Machine.execSweep queue s
  | .queueMap queue world part => Sys2Proof.Machine.execQueueMap queue world part s
  | .dependenceRelease launch => Sys2Proof.Machine.execDependenceRelease launch s
  | .leaseSetup launch => Sys2Proof.Machine.execLeaseSetup launch s
  | .groupPlacement launch => Sys2Proof.Machine.execGroupPlacement launch s
  | .timedStart launch => Sys2Proof.Machine.execTimedStart launch s
  | .priorityDiscard launch => Sys2Proof.Machine.execPriorityDiscard launch s
  | .discardRestart saved die core => Sys2Proof.Machine.execDiscardRestart saved die core s
  | .launchEnd launch => Sys2Proof.Machine.execLaunchEnd launch s
  | .nodeBatchTimer world node => Sys2Proof.Machine.execNodeBatchTimer world node s
  | .networkLaunchRequest world index source args => Sys2Proof.Machine.execNetworkLaunchRequest world index source args s
  | .launchTableWrite world index entry => Sys2Proof.Machine.execLaunchTableWrite world index entry s
  | .nodeTableWrite world node template z g t capacity => Sys2Proof.Machine.execNodeTableWrite world node template z g t capacity s
  | .capabilityMint world comp va capability => Sys2Proof.Machine.execCapabilityMint world comp va capability s
  | .worldCreate world manifest spaces => Sys2Proof.Machine.execWorldCreate world manifest spaces s
  | .worldDestroy world => Sys2Proof.Machine.execWorldDestroy world s
  | .powerCapWrite value => Sys2Proof.Machine.execPowerCapWrite value s
  | .partitionRegisterWrite value => Sys2Proof.Machine.execPartitionRegisterWrite value s
  | .configRegisterWrite reg value => Sys2Proof.Machine.execConfigRegisterWrite reg value s
  | .watchRangeWrite part range base ctl => Sys2Proof.Machine.execWatchRangeWrite part range base ctl s
  | .rampInterval part => Sys2Proof.Machine.execRampInterval part s
  | .droopStretch die => Sys2Proof.Machine.execDroopStretch die s
  | .persistentDroopStep part => Sys2Proof.Machine.execPersistentDroopStep part s
  | .droopRestore part => Sys2Proof.Machine.execDroopRestore part s
  | .thermalLimitStep part => Sys2Proof.Machine.execThermalLimitStep part s
  | .thermalRestore part => Sys2Proof.Machine.execThermalRestore part s
  | .emberCheck part => Sys2Proof.Machine.execEmberCheck part s
  | .hostThaw part => Sys2Proof.Machine.execHostThaw part s
  | .hostEndLaunch launch => Sys2Proof.Machine.execHostEndLaunch launch s
  | .bandwidthRefill part => Sys2Proof.Machine.execBandwidthRefill part s
  | .quantumExpiry part => Sys2Proof.Machine.execQuantumExpiry part s
  | .contextRestore part world => Sys2Proof.Machine.execContextRestore part world s
  | .invalidation space va bytes => Sys2Proof.Machine.execInvalidation space va bytes s
  | .invalidationComplete id => Sys2Proof.Machine.execInvalidationComplete id s
  | .pageMove space va frame => Sys2Proof.Machine.execPageMove space va frame s
  | .peerDownNotice peer => Sys2Proof.Machine.execPeerDownNotice peer s
  | .flitResend link => Sys2Proof.Machine.execFlitResend link s
  | .linkRetrain link => Sys2Proof.Machine.execLinkRetrain link s
  | .retrainComplete link ok => Sys2Proof.Machine.execRetrainComplete link ok s
  | .eccCorrected loc => Sys2Proof.Machine.execEccCorrected loc s
  | .eccUncorrectable loc => Sys2Proof.Machine.execEccUncorrectable loc s
  | .patrolScrub die stack => Sys2Proof.Machine.execPatrolScrub die stack s
  | .roundBoundary die => Sys2Proof.Machine.execRoundBoundary die s
  | .rick die => Sys2Proof.Machine.execRick die s
  | .sendLogFull src dst => Sys2Proof.Machine.execSendLogFull src dst s
  | .warmReset die => Sys2Proof.Machine.execWarmReset die s
  | .rejoin die => Sys2Proof.Machine.execRejoin die s
  | .lemmelContinue wave => Sys2Proof.Machine.execLemmelContinue wave s
  | .lemmelStep wave => Sys2Proof.Machine.execLemmelStep wave s
  | .lemmelEndLaunch wave => Sys2Proof.Machine.execLemmelEndLaunch wave s
  | .lemmelArmDiscard launch group wave pc pass split => Sys2Proof.Machine.execLemmelArmDiscard launch group wave pc pass split s
  | .lemmelArmReset die count group => Sys2Proof.Machine.execLemmelArmReset die count group s
  | .powerOn images => Sys2Proof.Machine.execPowerOn images s
  | .firmwareLoad image => Sys2Proof.Machine.execFirmwareLoad image s
  | .getVersion => Sys2Proof.Machine.execGetVersion s
  | .getCapabilities => Sys2Proof.Machine.execGetCapabilities s
  | .negotiateAlgorithms => Sys2Proof.Machine.execNegotiateAlgorithms s
  | .getDigests => Sys2Proof.Machine.execGetDigests s
  | .getCertificate => Sys2Proof.Machine.execGetCertificate s
  | .challenge nonce => Sys2Proof.Machine.execChallenge nonce s
  | .getMeasurements index nonce => Sys2Proof.Machine.execGetMeasurements index nonce s
  | .keyExchange share => Sys2Proof.Machine.execKeyExchange share s
  | .finish => Sys2Proof.Machine.execFinish s
  | .endSession => Sys2Proof.Machine.execEndSession s
  | .counterSnapshot world nonce => Sys2Proof.Machine.execCounterSnapshot world nonce s
  | .energyApportion die energy => Sys2Proof.Machine.execEnergyApportion die energy s
  | .ageUpdate die age eol => Sys2Proof.Machine.execAgeUpdate die age eol s
  | .illegalWordFetch fault step => Sys2Proof.Machine.execIllegalWordFetch fault step s
  | .queueUnmap queue => Sys2Proof.Machine.execQueueUnmap queue s
  | .mappingRequest world comp m => Sys2Proof.Machine.execMappingRequest world comp m s
  | .expanderStopsAnswering port => Sys2Proof.Machine.execExpanderStopsAnswering port s
  | .linkKeyReplace link => Sys2Proof.Machine.execLinkKeyReplace link s

end Sys2Proof.Machine
end

