-- ==== Sys2Proof/Machine/Fetch.lean ====
section
/-! DEFINITION. Machine/Fetch.lean: fetching an instruction word, steps 1 to 9 and 20 of R31 in the table's order (R10 to R12, R32, R33). -/

namespace Sys2Proof.Machine

/-- What a fetch gives. -/
inductive Fetched where
  | wait                                  -- the page is being moved, or its home die is held: it is fetched later (R283, R339)
  | hole                                  -- no memory at its physical address
  | fault (f : FaultName) (step len : Nat) -- len: how far past the word a step moves
  | word (i : Instr) (len : Nat)
deriving DecidableEq, Repr

def State.fetchPoison (s : State) (bs : List ByteAt) : Bool := bs.any (fun b => b.peer.isNone && s.mem.poisoned b.pa)

/-- The length of a word that gives none (log entry 78). -/
def State.noLength (s : State) : Nat := Config.pastWord s.own.stepNo

/-- A byte of the word lies in the launch's executable lease, and in no area that is closed to it. -/
def State.mayFetch (s : State) (l : Launch) (va : Nat) : Bool := va < 2 ^ 48 && l.leases va .exec && !s.closed l va

/-- Steps 2, 20 and 3 to 9, on the bytes from the PC to the end of its fetch block: the 4 bytes that hold LEN, and then the rest
of the word (log entry 97). -/
def State.fetchBlock (s : State) (l : Launch) (va : Nat) (bs : List ByteAt) : Fetched :=
  let leased := fun n => (List.range n).all (fun k => s.mayFetch l (va + k))
  if bs.any ByteAt.hole then .hole
  else if !leased 4 then .fault .lease 2 s.noLength
  else if s.fetchPoison (bs.take 4) then .fault .poison 20 s.noLength
  else
    let bytes := bs.map s.ownByte
    match Len.ofCode ((bytes.headD 0).setWidth 2) with
    | none => .fault .illegal 3 s.noLength
    | some len =>
      if !leased (min len.bytes bs.length) then .fault .lease 2 len.bytes
      else if s.fetchPoison (bs.take len.bytes) then .fault .poison 20 len.bytes
      else if bs.length < len.bytes then .fault .align 4 len.bytes
      else match decode bytes with
        | .error e => .fault .illegal e.step len.bytes
        | .ok (i, _) => .word i len.bytes

/-- What stops a fetch through a peer's page (R285, log entry 97). -/
def State.peerStops (s : State) (f : Leaf) (va : Nat) : Option FaultName :=
  if f.tier != 2 then none
  else if s.peerDown f.peer then some .remoteUnreachable
  else if Config.refusesFetch s.own.stepNo va then some .remoteRefused
  else none

/-- Steps 1 and 2, and then the block: the PC is aligned, and lies in the launch's lease and in an executable page. -/
def State.fetch (s : State) (l : Launch) (agent : Nat) (pc : W64) : Fetched :=
  let va := pc.toNat
  if va % 4 != 0 then .fault .align 1 s.noLength
  else if !s.mayFetch l va then .fault .lease 2 s.noLength
  else match s.xlate agent (s.space l.world l.comp) va with
    | .absent => .fault .lease 2 s.noLength
    | .held => .wait
    | .page f big _ =>
      if !f.x then .fault .lease 2 s.noLength
      else if f.tier != 2 && (s.die f.home).held then .wait
      else match s.peerStops f va with
        | some e => .fault e 0 s.noLength
        | none => s.fetchBlock l va ((List.range (32 - va % 32)).map (fun k => f.byteAt big (va + k)))

end Sys2Proof.Machine
end

