-- ==== Sys2Proof/Machine/Sched.lean ====
section
/-! DEFINITION. Machine/Sched.lean: choosing what issues (R54 to R60, R62, R304, R330), beginning an issue, and the model's own default order of events (log entry 1). -/

namespace Sys2Proof.Machine

/-! ## Waves that may issue -/

/-- The die pauses for a rick that is due, at a round boundary (R332). -/
def State.rickPause (s : State) (die : Nat) : Bool := s.repairEn die && s.atBoundary die && s.rickWanted die

def roundKey (q : QRef) : Nat := q.core * 4 + q.quarter

/-- R330: the quarter has made its 64 decisions of this round. -/
def State.roundOver (s : State) (q : QRef) : Bool :=
  match s.repair? q.die with
  | none => false
  | some r => s.deterministic q.die && 64 ≤ mapGet 0 r.issues (roundKey q)

def State.dieIssues (s : State) (q : QRef) : Bool :=
  !(s.die q.die).held && !s.resetDue q.die && !s.rickPause q.die && !s.roundOver q

/-- R338: the die takes its rick before a wave of a new group of a repairable launch issues. -/
def State.rickFirst (s : State) (w : Wave) : Bool :=
  (s.die w.loc.die).rickDue && s.repairEn w.loc.die && w.lastPair.isNone && s.repairs w.launch

/-- A wave that is resident, started, and held back by nothing. -/
def State.mayIssue (s : State) (w : Wave) : Bool :=
  w.transit.isNone && w.parked.isNone && w.started && !s.stopping w && !s.rickFirst w
    && (match s.launch? w.launch with
        | none => false
        | some l => !l.stopped && s.runs l.part l.world)

/-! ## Ready sets (R55, R58, R59, R62) -/

/-- Fibres of one pair of PC and window base, and the stall of the set where it stands at an instruction already issued. -/
structure FSet where
  pc    : W64
  base  : Nat
  lanes : List Nat
  stall : Option Stall
deriving DecidableEq, Repr

/-- Of a stalled set's lanes, those that stand where it stalled. -/
def Wave.standing (w : Wave) (x : Stall) : List Nat :=
  (maskLanes x.lanes).filter (fun l => w.fibres.any (fun f => f.lane == l && f.pc == x.pc && f.winbase == x.base))

/-- Adds a fibre to the set of its pair. -/
def joinSet (f : Fibre) : List FSet → List FSet
  | [] => [⟨f.pc, f.winbase, [f.lane], none⟩]
  | x :: xs => if x.pc == f.pc && x.base == f.winbase then { x with lanes := x.lanes ++ [f.lane] } :: xs else x :: joinSet f xs

/-- The issuing set of an access is not ready while a lane of it waits to be sent again (R238), or is about to raise POISON at the
access (R33): it goes no further from there. -/
def State.heldAt (s : State) (w : Wave) (e : Entry) : Bool :=
  e.accs.any (fun a => a.st == .retry) || (e.kind == .load && (s.poisonLane w e).isSome)

/-- The lanes of a wave whose sets an access holds so. -/
def State.heldLanes (s : State) (w : Wave) : List Nat := (w.entries.filter (s.heldAt w)).flatMap (fun e => maskLanes e.set_)

/-- The stalled sets of a wave, and its other fibres by their pairs, but for what its accesses hold. -/
def State.sets (s : State) (w : Wave) : List FSet :=
  let back := s.heldLanes w
  let held := (w.stalls.map (fun x => FSet.mk x.pc x.base (w.standing x) (some x))).filter (fun x => !x.lanes.isEmpty)
  let free := w.fibres.filter (fun f => !back.contains f.lane
    && !held.any (fun x => x.pc == f.pc && x.base == f.winbase && x.lanes.contains f.lane))
  held.filter (fun x => !x.lanes.any back.contains) ++ free.foldl (fun xs f => joinSet f xs) []

/-- What a stalled set waits for has come. -/
def State.stallReady (s : State) (w : Wave) (x : Stall) : Bool :=
  let before := w.stalls.takeWhile (fun y => y != x)
  let fenced := s.drained w x.upto && !before.any Stall.orders
  match x.kind with
  | .quiet => !w.unfinished x.upto
  | .drain => fenced
  | .finish => s.drained w w.nextEntry && w.entries.isEmpty && (s.gridOf w).isEmpty && !before.any Stall.issued
  | .grid => !s.gridReads w
  | .land => (s.gridOf w).isEmpty
  | .settle sc => !before.any Stall.orders && w.entries.all (fun e => x.upto ≤ e.id || e.stepped) && s.settledAll w.loc.die w.loc.core sc w.observed
  | .wait o _ _ blocked => s.objPoisoned o || (fenced && (!blocked || !w.pend.isEmpty))
  | .posted id => !w.entries.any (fun e => e.id == id)
  | .own o => !w.owes o && !w.acquires x.upto before && !s.eventStalled w o
  | .armed _ _ => !s.armedD.any (fun a => a.launch == w.launch && a.group == w.group && a.wave == w.index && a.hit.isSome)
  | .engine ready => ready
  | .grow _ _ | .migrate _ _ _ | .retry _ _ _ => false

/-- R59: the instructions that wait until the grid operations of a window base have landed: at base, one that names
some of v64 to v127 of grid. An MMA does not wait. -/
def namesHigh (i : Instr) (base grid : Nat) : Bool :=
  let u := usesOf i
  let high := fun r => grid + 64 ≤ base + r && base + r < grid + 128
  match i with
  | .mma _ => false
  | _ => (u.grid && base < grid + 64 && grid < base + 64) || u.vr.any (fun r => high r.1) || u.vw.any high

/-- The instructions that read or write v64 to v127 through the grid (R165). -/
def usesAcc (i : Instr) : Bool :=
  match i with
  | .mma _ | .mzero _ | .mepi _ | .msts _ => true
  | _ => false

/-- The register of the caller's window that a call writes: v0 of the callee (R114). -/
def calleeV0 (i : Instr) : Option Nat :=
  match i with
  | .call o => some o.frame.toNat
  | .callx o => some o.frame.toNat
  | _ => none

def readsClaim (i : Instr) : Bool :=
  match i with
  | .srd o => o.idx.toNat == 23
  | _ => (usesOf i).claim

/-- R58: nothing that the instruction reads or writes carries this mark. p15 holds nothing that could be waited for (R21). -/
def markClear (i : Instr) (base : Nat) (m : MarkOn) : Bool :=
  let u := usesOf i
  match m with
  | .vec g => !(u.vr.any (fun r => base + r.1 == g) || u.vw.any (fun r => base + r == g)
      || (usesAcc i && base + 64 ≤ g && g < base + 128) || (calleeV0 i).any (fun r => base + r == g))
  | .scalar n => !(u.sr.contains n || u.sw.contains n)
  | .pred p => p == 15 || !(u.pr.contains p || u.pw.contains p || (match i.guard? with
      | none => false
      | some g => g.p.toNat == p))
  | .claim => !readsClaim i
  | .grid b => !namesHigh i base b

/-- The marks of a stalled instruction that has issued and not retired: what it will write. An access has its entry's. -/
def Stall.marks (x : Stall) : List MarkOn :=
  if !x.issued || isAccess x.instr then []
  else
    let u := usesOf x.instr
    u.vw.map (fun r => .vec (x.base + r)) ++ u.sw.map .scalar ++ u.pw.map .pred ++ (if u.claim then [.claim] else [])

/-- R58: nothing that an instruction reads or writes carries a mark; a set presented again stands under its own. -/
def Wave.clear (w : Wave) (base : Nat) (i : Instr) (own : Option Stall) : Bool :=
  (w.marks.map (·.on) ++ (w.stalls.filter (fun x => own != some x)).flatMap Stall.marks).all (markClear i base)

/-- A set that may issue, with what its fetch gives. -/
structure Ready where
  fset : FSet
  what : Fetched
deriving DecidableEq, Repr

/-- A set may issue what it stands at: again the instruction that it has issued (R58), or else what its fetch gives. -/
def State.readySet (s : State) (l : Launch) (w : Wave) (x : FSet) : Option Ready :=
  let fetched := match s.fetch l w.agent x.pc with
    | .wait => none
    | .word i n => if w.clear x.base i x.stall then some ⟨x, .word i n⟩ else none
    | f => some ⟨x, f⟩
  match x.stall with
  | none => fetched
  | some y =>
    if !s.stallReady w y then none
    else if y.issued then some ⟨x, .word y.instr (instrLen y.instr)⟩
    else fetched

def State.readySets (s : State) (w : Wave) : List Ready :=
  match s.launch? w.launch with
  | none => []
  | some l => (s.sets w).filterMap (s.readySet l w)

/-! ## Choosing a set (R56) -/

/-- The least of some numbers. -/
def least (xs : List Nat) : Nat := xs.foldl min (xs.headD 0)

def Ready.pair (r : Ready) : W64 × Nat := (r.fset.pc, r.fset.base)

def Wave.ageOf (w : Wave) (lane : Nat) : Nat :=
  match w.fibre? lane with
  | none => 0
  | some f => f.age

def Wave.setAge (w : Wave) (r : Ready) : Nat := (r.fset.lanes.map w.ageOf).foldl max 0

/-- Of some sets, those at the lowest PC. -/
def atLowest (rs : List Ready) : List Ready :=
  let pc := least (rs.map (fun r => r.fset.pc.toNat))
  rs.filter (fun r => r.fset.pc.toNat == pc)

def atBase (b : Nat) (rs : List Ready) : Option Ready := rs.find? (fun r => r.fset.base == b)
def lowBase (rs : List Ready) : Nat := least (rs.map (fun r => r.fset.base))

/-- R56's choice. R57's bound holds of every run: a set that has waited for 64 × 64 issues is picked by its age whatever the streak
(DEDUCED, log entry 102). -/
def Wave.choose (w : Wave) (rs : List Ready) : Option Ready :=
  let other := rs.filter (fun r => w.lastPair != some r.pair)
  let age := (other.map w.setAge).foldl max 0
  if (64 ≤ w.streak || 4096 ≤ age) && !other.isEmpty then
    let at_ := atLowest (other.filter (fun r => r.fset.lanes.any (fun l => w.ageOf l == age)))
    atBase (lowBase (at_.filter (fun r => r.fset.lanes.any (fun l => w.ageOf l == age)))) at_
  else
    let at_ := atLowest rs
    match atBase w.runBase at_ with
    | some r => some r
    | none => atBase (lowBase at_) at_

/-- A set's first presentation of its instruction is counted (R243). -/
def Ready.countPc (r : Ready) (m : Sparse Nat) : Sparse Nat := mapSet 0 m r.fset.pc.toNat (mapGet 0 m r.fset.pc.toNat + 1)

/-- The counters of R56 after an issue to a set: a fibre's age counts the issues since it last issued, while ready. The streak starts
again at each change of pair. -/
def Wave.charge (w : Wave) (ready : List Ready) (r : Ready) : Wave :=
  let inSet := fun l => r.fset.lanes.contains l
  let isReady := fun l => ready.any (fun x => x.fset.lanes.contains l)
  { w with
    streak := if w.lastPair == some r.pair then w.streak + 1 else 1
    lastPair := some r.pair
    waited := 0
    yielded := false
    presented := if r.fset.stall.isSome then w.presented else r.countPc w.presented
    fibres := w.fibres.map (fun f : Fibre =>
      if inSet f.lane then { f with age := 0 } else if isReady f.lane then { f with age := f.age + 1 } else f) }

/-! ## Choosing a wave (R54, R60, R119) -/

/-- An eligible wave with its ready sets. -/
structure Elig where
  w     : Wave
  ready : List Ready
deriving DecidableEq, Repr

/-- R60: vector waves are not eligible while the grid holds an MMA. -/
def State.wired (s : State) (q : QRef) (w : Wave) : Bool :=
  w.matrix || (s.quarter q.die q.core q.quarter).grid.all (fun g => match g.instr with
    | .mma _ => false
    | _ => true)

def State.eligible (s : State) (q : QRef) : List Elig :=
  if !s.dieIssues q then []
  else ((s.waves.filter (fun w => w.qref == q && s.mayIssue w && s.wired q w)).map (fun w => ⟨w, s.readySets w⟩)).filter
    (fun e => !e.ready.isEmpty)

def State.wavePrio (s : State) (w : Wave) : Nat :=
  match s.launch? w.launch with
  | none => 0
  | some l => l.block.prio

/-- A wave's place in the turn after slot last: the landing slot follows slot 7. -/
def turnOf (last slot : Nat) : Nat := (slot + 17 - last) % 9

/-- Of some waves, the one for which a number is least, then the lower slot. -/
def leastBy (f : Elig → Nat) (es : List Elig) : Option Elig :=
  es.foldl (fun m e => match m with
    | none => some e
    | some x => if f e < f x || (f e = f x && e.w.loc.slot < x.w.loc.slot) then some e else some x) none

/-- Rules 2 and 3. -/
def State.byTurn (s : State) (last : Nat) (es : List Elig) : Option Elig :=
  let top := (es.map (fun e => s.wavePrio e.w)).foldl max 0
  leastBy (fun e => turnOf last e.w.loc.slot) (es.filter (fun e => s.wavePrio e.w == top))

/-- A wave that has yielded is passed over at its turn if another is eligible; the waves passed over are named. -/
def State.pass (s : State) (last : Nat) : Nat → List Elig → Option (Elig × List Nat)
  | 0, _ => none
  | n + 1, es => match s.byTurn last es with
    | none => none
    | some e =>
      if e.w.yielded && 1 < es.length then
        match s.pass last n (es.filter (fun x => x.w.uid != e.w.uid)) with
        | none => some (e, [])
        | some r => some (r.1, e.w.uid :: r.2)
      else some (e, [])

/-- Rule 4 first: after 256 issues of others, the wave that has waited longest. -/
def State.chooseWave (s : State) (last : Nat) (es : List Elig) : Option (Elig × List Nat) :=
  match leastBy (fun e => 2 ^ 64 - e.w.waited) (es.filter (fun e => 256 ≤ e.w.waited)) with
  | some e => some (e, [])
  | none => s.pass last 10 es

/-! ## A turn of a quarter -/

/-- What a quarter issues: the wave, its set, the waves passed over, the eligible ones. -/
structure Turn where
  q      : QRef
  elig   : List Elig
  e      : Elig
  r      : Ready
  passed : List Nat
deriving DecidableEq, Repr

def State.turn (s : State) (q : QRef) : Option Turn :=
  let es := s.eligible q
  match s.chooseWave (s.quarter q.die q.core q.quarter).lastSlot es with
  | none => none
  | some p => match p.1.w.choose p.1.ready with
    | none => none
    | some r => some ⟨q, es, p.1, r, p.2⟩

def Fetched.len (f : Fetched) : Nat :=
  match f with
  | .word _ n | .fault _ _ n => n
  | .wait | .hole => 0

/-- The issue that a turn begins. -/
def Turn.issue (t : Turn) : Issue where
  wave := t.e.w.uid
  pc := t.r.fset.pc
  base := t.r.fset.base
  set_ := laneMask t.r.fset.lanes
  len := t.r.what.len

/-- A wave of the quarter that does not issue: rule 4's count, from when it became eligible. -/
def Turn.others (t : Turn) (w : Wave) : Wave :=
  if w.qref == t.q then
    { w with
      waited := if t.elig.any (fun e => e.w.uid == w.uid) then w.waited + 1 else 0
      yielded := w.yielded && !t.passed.contains w.uid }
  else w

/-- An armed discard strikes at the set that presents its PC for the pass-th time (R243); when that set presents the PC once more, it
has gone past. -/
def State.noteHit (s : State) (t : Turn) : State :=
  let n := mapGet 0 (t.r.countPc t.e.w.presented) t.r.fset.pc.toNat
  let me := (t.r.fset.base, laneMask t.r.fset.lanes)
  let here := fun (a : ArmedDiscard) => a.launch == t.e.w.launch && a.group == t.e.w.group && a.wave == t.e.w.index
    && a.pc == t.r.fset.pc
  if t.r.fset.stall.isSome then s
  else { s with armedD := s.armedD.map (fun a =>
    if !here a then a
    else if a.hit.isNone && a.pass == n then { a with hit := some me }
    else if a.hit == some me then { a with past := true } else a) }

/-- The instruction that a stalled set presents again, where it has issued. -/
def FSet.again (x : FSet) : Option Instr :=
  match x.stall with
  | none => none
  | some y => if y.issued then some y.instr else none

/-- Where a turn's instruction is fetched from. -/
def State.fetchedFrom (s : State) (t : Turn) : Option (Nat × Nat × ByteAt) :=
  match s.launch? t.e.w.launch with
  | none => none
  | some l => match s.xlate t.e.w.agent (s.space l.world l.comp) t.r.fset.pc.toNat with
    | .page f big _ => some (l.world, t.e.w.loc.die, f.byteAt big t.r.fset.pc.toNat)
    | _ => none

/-- The quarter takes its turn: it is rewired to the wave's mode, and the counters of R54, R56 and R330 move on. A quarter has one
last-issued slot, which every issue moves, whatever its priority and the rule that picked it (DESIGN CHOICE, log entry 101). -/
def State.take (s : State) (t : Turn) : State :=
  let f := if t.r.fset.again.isNone then s.fetchedFrom t else none
  let s := s.noteHit t
  let s := s.onQuarter t.q.die t.q.core t.q.quarter (fun x => { x with matrix := t.e.w.matrix, lastSlot := t.e.w.loc.slot })
  let s := s.onRepair t.q.die (fun r =>
    { r with issues := mapSet 0 r.issues (roundKey t.q) (mapGet 0 r.issues (roundKey t.q) + 1) })
  { s with
    waves := s.waves.map (fun w => if w.uid == t.e.w.uid then w.charge t.e.ready t.r else t.others w)
    own := { s.own with cur := some t.issue, fetched := f, focus := t.q } }

/-- The issue itself. A set whose fetch waits is not ready, and no turn has it. -/
def State.runTurn (s : State) (t : Turn) : Out :=
  match t.r.what with
  | .word i _ => exec i (s.take t)
  | .fault f n _ => exec (.illegalWordFetch f n) (s.take t)
  | .hole => .fault .noMemory
  | .wait => .next s

/-! ## The default order of events (log entry 1) -/

def Channel.ref (c : Channel) : ChanRef := ⟨c.src, c.dst, c.org⟩

def accEvents (w : Wave) (e : Entry) (a : Acc) : List Instr :=
  let r : AccRef := ⟨w.uid, e.id, a.lane⟩
  match a.st, e.kind with
  | .waiting, .load => [.read r]
  | .waiting, .store => [.accept r]
  | .waiting, .atomic => [.atomic r]
  | .returned, _ => [.loadDataReturn r]
  | .retry, _ => [.xlateRetryResend r]
  | _, _ => []

def waveEvents (w : Wave) : List Instr :=
  w.entries.flatMap (fun e => match e.kind with
    | .claim => [.claimDelivery w.uid e.id]
    | _ => e.accs.flatMap (accEvents w e))
    ++ w.stalls.flatMap (fun x => match x.kind with
      | .retry _ _ _ | .engine false => [Instr.missRetry w.uid x.pc]
      | .migrate _ _ _ => [.migrateGrant w.uid]
      | .grow _ _ => [.growServe w.qref, .growDeadlockBreak w.qref]
      | _ => [])

def chanEvents (c : Channel) : List Instr :=
  match c.msgs with
  | .inval _ _ :: _ => [.inval c.ref]
  | .event _ _ _ :: _ => [.event c.ref]
  | .wave _ :: _ => [.migrationLanding c.ref]
  | .landing req piece :: _ => [.engineLanding req piece]
  | _ => []

def reqEvents (r : EngReq) : List Instr :=
  [.ringFreeWaitMet r.id, .collStart r.id] ++ r.pieces.flatMap (fun p => [.engineRead r.id p.id, .engineLanding r.id p.id])

def queueEvents (q : Queue) : List Instr :=
  [.launchPacket q.id, .waitPacket q.id, .waitPacketReturn q.id, .arrivePacket q.id, .binitPacket q.id, .seqopen q.id,
   .seqclose q.id, .sweep q.id]

def launchEvents (l : Launch) : List Instr :=
  [.dependenceRelease l.uid, .leaseSetup l.uid, .groupPlacement l.uid, .timedStart l.uid, .priorityDiscard l.uid,
   .launchEnd l.uid]

def quarterRef (k : Nat) : QRef := ⟨k / 144, k / 4 % 36, k % 4⟩

/-- The round of a die is over where no quarter of it can issue (R330). -/
def State.roundDone (s : State) (die : Nat) : Bool :=
  s.deterministic die && (s.waves.filter (fun w => w.loc.die == die)).all (fun w => (s.turn w.qref).isNone)

/-- Warm resets that fall now. -/
def State.resetEvents (s : State) : List Instr :=
  ((List.range 8).filter (fun d => s.resetDue d && s.atEdge d && !(s.die d).held)).map .warmReset

def dieEvents (s : State) (d : Nat) : List Instr :=
  (if (s.die d).held then [.rejoin d, .roundBoundary d] else [.rick d])
    ++ (if s.roundDone d then [.roundBoundary d] else [])

def partEvents (p : Part) : List Instr :=
  [.rampInterval p.id, .bandwidthRefill p.id, .persistentDroopStep p.id, .droopRestore p.id, .emberCheck p.id]

/-- Steps that earlier ones have made possible. -/
def State.dueEvents (s : State) : List Instr :=
  s.resetEvents ++ s.waves.flatMap waveEvents ++ s.ord.overlay.flatMap (fun e => [Instr.perform e.id, .send e.id])
    ++ s.ord.chans.flatMap chanEvents ++ s.reqs.flatMap reqEvents
    ++ s.quarters.flatMap (fun q => [Instr.mmaLanding (quarterRef q.1), .gridOpLanding (quarterRef q.1)])
    ++ s.queues.flatMap queueEvents
    ++ s.seqs.flatMap (fun q => [Instr.seqcloseDrained q.world q.num, .seqcloseEnginesDone q.world q.num, .seqcloseInvalDone q.world q.num])
    ++ s.invals.map (fun i => Instr.invalidationComplete i.id)
    ++ s.parts.map (fun p => Instr.quantumExpiry p.id) ++ s.contexts.map (fun c => Instr.contextRestore c.part c.world)
    ++ s.launches.flatMap launchEvents
    ++ s.saved.flatMap (fun g => (List.range 8).flatMap (fun d => (List.range 36).map (fun c => Instr.discardRestart g.id d c)))

/-- What the passing of time brings. -/
def State.timedEvents (s : State) : List Instr :=
  s.resetEvents ++ s.worlds.flatMap (fun w => w.nodes.map (fun n => Instr.nodeBatchTimer w.id n.id)) ++ s.parts.flatMap partEvents
    ++ (List.range 8).flatMap (dieEvents s)

/-- The first of some events that is enabled. -/
def State.first (s : State) : List Instr → Option Out
  | [] => none
  | e :: es => match exec e s with
    | .next t => some (.next t)
    | .fault f => some (.fault f)
    | .refused _ => s.first es

/-- The quarters with waves, those after the focus first. -/
def State.quartersInTurn (s : State) : List QRef :=
  let qs := unionNew [] (s.waves.map Wave.qref)
  (qs.dropWhile (· != s.own.focus)).drop 1 ++ qs.takeWhile (· != s.own.focus) ++ [s.own.focus]

def State.issues (s : State) : Option Out := (s.quartersInTurn.findSome? s.turn).map s.runTurn

/-- With nothing on the agenda: what is due, then an issue, then what time brings, which goes first at every fourth step. Where nothing
can happen, time passes. -/
def State.byDefault (s : State) : Out :=
  let due := fun _ : Unit => s.first s.dueEvents
  let timed := fun _ : Unit => s.first s.timedEvents
  let r := if s.own.stepNo % 4 = 3 then ((timed ()).orElse due).orElse (fun _ => s.issues)
    else ((due ()).orElse (fun _ => s.issues)).orElse timed
  r.getD (.next s)

/-! ## One cue, and the step around it -/

/-- A host puts a packet at the end of a mapped queue (R248). -/
def State.enqueue (s : State) (queue : Nat) (p : Packet) : Out :=
  match s.queue? queue with
  | none => .refused (.notEnabled "packet")
  | some _ => .next (s.onQueue queue (fun q => { q with packets := q.packets ++ [p] }))

/-- A partition in which no world runs is power-gated, or has its power again; one that is gated begins no slice (R314; DESIGN CHOICE, log
entry 98). -/
def State.gate (s : State) (part : Nat) (on : Bool) : Out :=
  runEvent "gate" ((s.part? part).any (fun p => p.gated != on && p.world.isNone)) (s.onPart part (fun p => { p with gated := on }))

def State.perform (s : State) (c : Cue) : Out :=
  match c with
  | .happen e => if e.raw.isSome then .refused .notAnEvent else exec e s
  | .ask who e => if e.raw.isSome then .refused .notAnEvent else exec e { s with own := { s.own with asked := who } }
  | .issue q => match s.turn q with
    | none => .refused (.notEnabled "issue")
    | some t => s.runTurn t
  | .packet queue p => s.enqueue queue p
  | .gate part on => s.gate part on
  | .bytes queue bs => match packetOf bs with
    | none => .refused (.notEnabled "packet")
    | some p => s.enqueue queue p

/-- What the ember watch keeps of the time that a step takes: it passes where nothing pauses the watch (R215, R217). -/
def State.watched (s : State) (elapsed : Nat) (p : Part) : Part :=
  let stopped := s.watchPaused p
  { p with
    paused := if stopped then p.paused + elapsed else p.paused
    occupied := if stopped || (s.residents p.id).isEmpty then none else some (p.occupied.getD s.pkg.tick) }

/-- Rule 4 of R54 counts from the moment at which a wave last became eligible: one that is not eligible now counts anew. -/
def State.countsOn (s : State) (w : Wave) : Wave :=
  if w.waited != 0 && !(s.eligible w.qref).any (fun e => e.w.uid == w.uid) then { w with waited := 0 } else w

/-- The elements of a list that nothing drops. -/
def keepSome {α : Type} (drops : Nat → Bool) (xs : List α) : List α := (xs.zipIdx.filter (fun x => !drops x.2)).map (·.1)

/-- What the step's instruction fetch moves, where no instruction cache answers it: its line (R306, R316; DESIGN CHOICE, log entry 125). -/
def State.fetchMoved (s : State) : State :=
  match s.own.fetched with
  | none => s
  | some (w, d, b) =>
    if Config.fetchMisses s.own.stepNo then (s.ownSpend d w (List.replicate 128 b)).countBytes w d (List.replicate 128 b) else s

/-- Grants that every quarter has come to read are counted (R227). -/
def State.noticed (s : State) : State :=
  (s.launches.filter (fun l => l.notices != 0)).foldl (fun s l => s.noticeNow l.uid) s

/-- The end of a step: no issue and no question is in progress, TLBs and caches have dropped what they drop (R219, R279), and %tick has moved on
(log entry 3). The waves that may not issue now wait anew (R54). -/
def State.tock (s : State) : State :=
  let n := s.own.stepNo
  let m := s.fetchMoved
  { s with
    own := { s.own with cur := none, fetched := none, stepNo := n + 1, asked := askedReset }
    worlds := m.worlds
    waves := s.waves.map s.countsOn
    mem := { s.mem with tlb := keepSome (Config.dropsTlb n) s.mem.tlb }
    ord := { s.ord with copies := keepSome (Config.dropsCopy n) s.ord.copies }
    parts := m.parts.map (s.watched (Config.elapsed n))
    pkg := { m.pkg with tick := s.pkg.tick + Config.elapsed n } }

def finish (o : Out) : Out :=
  match o with
  | .next s => .next s.tock.noticed
  | .fault f => .fault f
  | .refused r => .refused r

/-- The next cue, or what happens by default. -/
def State.advanceOne (s : State) : Out :=
  match s.own.agenda with
  | c :: cs => State.perform { s with own := { s.own with agenda := cs } } c
  | [] => s.byDefault

/-! ## A word placed where the next step fetches it (log entry 7) -/

/-- The page of a placed program: space 1, page 1, in die 0's HBM, readable, writable and executable, under key slot 1. -/
def slotLeaf : W128 := BitVec.ofNat 128 (1 + 2 + 4 + 8 + 2 ^ 8 + 1 * 2 ^ 16 + 1 * 2 ^ 32)
def slotVa : W64 := 0x10000

/-- A capability of compartment 0 and sequence 0 for the page, with every permission. -/
def slotCap : W128 := BitVec.ofNat 128 (0x10000 + 0x10000 * 2 ^ 48 + 7 * 2 ^ 90)

def slotBlock : Block where
  entry := slotVa
  gx := 1
  gy := 1
  gz := 1
  fibres := 64
  window := 128
  l1min := 0
  scratch := 1024
  coop := false
  roam := false
  repair := false
  matrix := false
  quadset := false
  early := false
  faultEnd := false
  prio := 0
  seq := 0
  bsbase := 0
  bssize := 0
  bclass := 0
  cclass := 0
  idbase := 0
  idstride := 0
  depobj := 0
  deptok := 0
  triggers := 0
  doneobj := 0
  notice := 0
  start := 0
  ratioreq := 0x10101010
  ranges := []
  node := 0
  caps := [slotCap]
  tagged := false
  args := []

def slotLaunch (uid : Nat) : Launch where
  uid := uid
  num := 1
  queue := 0
  world := 0
  comp := 0
  part := 0
  block := slotBlock
  st := .ending
  leased := true
  released := true
  measure := 0
  grant := some ⟨16, 16, 16, 16, 0⟩
  granted := 0
  next := 1
  dealt := 1
  live := 1
  placed := true
  paid := 0
  inherit_ := []
  stopped := false
  endFault := (0, 0, 0, 0, 0)
  order := 0
  born := 0
  seen := []
  node := none
  prefill := []
  frames := []
  left := []
  notices := 0

def slotWorld : World where
  id := 0
  prot := false
  comps := [⟨0, 1, 1⟩]
  gates := []
  counters := List.replicate 16 0
  manifest := 0
  log := []
  logd := 0
  entries := 0
  logTick := 0
  snapNo := 0
  table := []
  nodes := []
  used := []
  emarks := []
  stayed := [0]
  ctxKey := 1
  snapTick := 0
  destroying := false

/-- The machine with a one-group launch resident on die 0, core 0, quarter 0, whose page begins with a word, and with
that quarter's issue next. -/
def State.placeWord (s : State) (bytes : List Byte) : State :=
  let u := s.own.uid
  let l := slotLaunch u
  let w := Wave.pointed (bornWave (u + 1) l 0 0 ⟨0, 0, 0, 0⟩ true s.own.stepNo)
  let s : State := { s with
    own := { s.own with agenda := [.issue ⟨0, 0, 0⟩], uid := u + 2, cur := none }
    waves := w :: s.waves.filter (fun w => w.qref != ⟨0, 0, 0⟩)
    groups := newGroup u 0 0 0 1 u none [] :: s.groups
    launches := l :: s.launches
    worlds := slotWorld :: s.worlds.filter (fun w => w.id != 0)
    queues := ⟨0, 0, 0, [], [], false, false, none, [], 2⟩ :: s.queues.filter (fun q => q.id != 0)
    seqs := ⟨0, 0, 0, .open_, 1, 0, 0, none, none⟩ :: s.seqs.filter (fun q => q.world != 0)
    slots := mapSet 0 s.slots 1 2
    contexts := s.contexts.filter (fun c => c.part != 0)
    armedR := s.armedR.filter (fun a => a.die != 0)
    repair := s.repair.filter (fun r => r.die != 0)
    mem := { s.mem with
      tlb := []
      bytes := mapSetRun 0 s.mem.bytes 0x10000 bytes
      owner := mapSetRun 0 s.mem.owner 0x10000 (List.replicate 16 2)
      poison := mapSet false s.mem.poison (0x10000 / 32) false } }
  let s := s.onPart 0 (fun p => { p with
    quantum := mapSet 0 p.quantum 0 (BitVec.ofNat 64 (2 ^ 31 + 0xFFFF))
    slice := some 0
    world := some 0
    sliceAt := s.pkg.tick
    frozen := false
    stalled := [] })
  let s := s.onDie 0 (fun d => { d with held := false, rickDue := false })
  let s := s.onQuarter 0 0 0 (fun _ => quarterReset)
  (s.newRoot 1).putLeaf ⟨1, slotVa, false, slotLeaf⟩

end Sys2Proof.Machine
end

