-- ==== Sys2Proof/Machine/Step.lean ====
section
/-! DEFINITION. Machine/Step.lean: one step of the package: the next cue of the agenda, or what happens by default; then the tick moves on. -/

namespace Sys2Proof.Machine

/-- The step. -/
def step (s : State) : Out := finish s.advanceOne

/-- The instruction whose bits are w, with the bits above nbits zero, where the next step fetches it (log entry 7). -/
def State.withFetchWord (s : State) (nbits w : Nat) : State :=
  s.placeWord (wordBytes 16 (BitVec.ofNat 128 (w % 2 ^ nbits)))

end Sys2Proof.Machine
end

