-- ==== Sys2Proof/Safety.lean ====
section
/-! DEFINITION. Safety.lean: the terms of the claims: the canonical form of memory, what it means that an issue reaches its effect, and the frames that claims state. -/

namespace Sys2Proof.Machine

/-! ## Memory -/

/-- The canonical form of physical memory and of every map beside it: keys strictly rising, no entry equal to what an
unlisted key reads as. -/
def Memory.wf (m : MemSys) : Bool :=
  mapWf 0 m.bytes && mapWf 0 m.owner && mapWf false m.poison && mapWf false m.tags && mapWf 0 m.writer && mapWf 0 m.tables
    && mapWf 0 m.roots && mapWf 0 m.frames && mapWf false m.sram

/-- The byte stored at a physical address: the model's one read of memory. -/
def State.byteOf (s : State) (pa : Nat) : Byte := mapGet 0 s.mem.bytes pa

/-- Every byte of memory reads as before. -/
def SameBytes (s t : State) : Prop := ∀ pa, t.byteOf pa = s.byteOf pa

/-! ## An issue -/

/-- An instruction is being issued: a set presents it that has not passed its checks before, with the registers as they stand, and
no armed discard divides its lanes (R243); and it passes the checks that every word undergoes (R31 steps 10, 11, 21). c is its
context and s1 the state once the run has slid to its base. -/
def Opens (i : Instr) (s : State) (c : Ctx) (s1 : State) : Prop :=
  s.begin i = some (c, s1) ∧ s1.wave? c.w.uid = some c.w ∧ c.again = false ∧ c.split s1 = none
    ∧ firstCheck i c (s1.roaming c.w.launch) = none

/-- The same, with a lane active. -/
def Runs (i : Instr) (s : State) (c : Ctx) (s1 : State) : Prop := Opens i s c s1 ∧ c.act ≠ []

/-! ## Frames -/

/-- A fibre but for its PC, and but for its predicates too. -/
def Fibre.still (f : Fibre) : Fibre := { f with pc := 0 }
def Fibre.bare (f : Fibre) : Fibre := { f with pc := 0, preds := 0 }

/-- A partition but for what the ember watch keeps of activity; a world but for its counters; the package's links but for the flits
that they have carried. -/
def Part.still (p : Part) : Part := { p with activity := 0, paused := 0 }
def World.still (w : World) : World := { w with counters := [] }
def Link.still (l : Link) : Link := { l with counter := 0, key := 0, resends := 0 }
def Pkg.still (k : Pkg) : Pkg := { k with links := k.links.map Link.still, farsol := k.farsol.map Link.still }

def SameParts (s t : State) : Prop := t.parts.map Part.still = s.parts.map Part.still
def SameWorlds (s t : State) : Prop := t.worlds.map World.still = s.worlds.map World.still
def SamePkg (s t : State) : Prop := t.pkg.still = s.pkg.still

/-- Two states agree but for one wave, the counters of worlds and the partitions' marks of activity: every byte of memory,
every scratchpad and every other wave is as it was. -/
def SameBut (uid : Nat) (s t : State) : Prop :=
  SameBytes s t ∧ t.mem = s.mem ∧ t.ord = s.ord ∧ t.own = s.own ∧ t.groups = s.groups ∧ t.quarters = s.quarters
    ∧ t.objs = s.objs ∧ t.reqs = s.reqs ∧ t.colls = s.colls ∧ t.estates = s.estates ∧ t.holdings = s.holdings
    ∧ t.launches = s.launches ∧ t.queues = s.queues ∧ t.saved = s.saved ∧ t.seqs = s.seqs ∧ t.slots = s.slots
    ∧ t.armedD = s.armedD ∧ t.armedR = s.armedR ∧ t.invals = s.invals ∧ t.contexts = s.contexts ∧ t.msglog = s.msglog
    ∧ t.pkg = s.pkg ∧ t.repair = s.repair ∧ t.records = s.records ∧ SameParts s t ∧ SameWorlds s t
    ∧ ∀ u, u ≠ uid → t.wave? u = s.wave? u

/-- What no instruction of the arithmetic families touches in a wave: its window, run and records, its mode, its element
tags, its accesses and marks, what it has observed, its pending faults. -/
def Wave.SameRest (w v : Wave) : Prop :=
  v.winsize = w.winsize ∧ v.runBase = w.runBase ∧ v.matrix = w.matrix ∧ v.low = w.low ∧ v.high = w.high ∧ v.etags = w.etags
    ∧ v.entries = w.entries ∧ v.marks = w.marks ∧ v.pend = w.pend ∧ v.observed = w.observed ∧ v.loc = w.loc
    ∧ v.parked = w.parked

def Wave.SameVector (w v : Wave) : Prop := ∀ g l, v.slice g l = w.slice g l
def Wave.SameScalar (w v : Wave) : Prop := ∀ n, v.sget n = w.sget n
def Wave.SameFibres (w v : Wave) : Prop := v.fibres.map Fibre.still = w.fibres.map Fibre.still

/-- Every slice but those of some lanes of one register, or of a pair. -/
def Wave.SameOthers (w v : Wave) (log : Nat) (wide : Bool) (lanes : List Nat) : Prop :=
  ∀ g l, ¬((g = log ∨ (wide = true ∧ g = log + 1)) ∧ l ∈ lanes) → l < 64 → v.slice g l = w.slice g l

/-- A result as a register, or a pair, holds it. -/
def fits (wide : Bool) (x : W64) : W64 := if wide then x else (x.setWidth 32).setWidth 64

/-- The instruction completes: in every lane of a list the register, or pair, takes f's value, %fflags gains fl, and
nothing else changes but the PCs of the issuing set. -/
def WritesV (i : Instr) (s : State) (c : Ctx) (s1 : State) (d : BitVec 7) (wide : Bool) (lanes : List Nat) (f : Nat → W64)
    (fl : FFlags) : Prop :=
  ∃ t v, exec i s = .next t ∧ t.wave? c.w.uid = some v ∧ (∀ l ∈ lanes, v.vget (c.base + d.toNat) wide l = fits wide (f l))
    ∧ c.w.SameOthers v (c.base + d.toNat) wide lanes ∧ v.fflags = c.w.fflags ||| fl.setWidth 64 ∧ c.w.SameScalar v
    ∧ c.w.SameFibres v ∧ c.w.SameRest v ∧ SameBut c.w.uid s1 t

/-- The instruction completes: the scalar register takes x, and nothing else changes but the PCs. -/
def WritesS (i : Instr) (s : State) (c : Ctx) (s1 : State) (d : BitVec 6) (x : W64) : Prop :=
  ∃ t v, exec i s = .next t ∧ t.wave? c.w.uid = some v ∧ v.sget d.toNat = x ∧ (∀ n, n ≠ d.toNat → v.sget n = c.w.sget n)
    ∧ v.fflags = c.w.fflags ∧ c.w.SameVector v ∧ c.w.SameFibres v ∧ c.w.SameRest v ∧ SameBut c.w.uid s1 t

/-- The instruction completes: in every active lane the predicate takes f's value (p15 discards it, R21), %fflags gains
fl, and nothing else changes but the PCs. -/
def WritesP (i : Instr) (s : State) (c : Ctx) (s1 : State) (d : BitVec 4) (f : Nat → Bool) (fl : FFlags) : Prop :=
  ∃ t v, exec i s = .next t ∧ t.wave? c.w.uid = some v
    ∧ (∀ l ∈ c.act, v.pget d.toNat l = (d.toNat == 15 || f l))
    ∧ (∀ p l, p < 16 → ¬(p = d.toNat ∧ l ∈ c.act) → v.pget p l = c.w.pget p l)
    ∧ v.fibres.map Fibre.bare = c.w.fibres.map Fibre.bare ∧ v.fflags = c.w.fflags ||| fl.setWidth 64
    ∧ c.w.SameVector v ∧ c.w.SameScalar v ∧ c.w.SameRest v ∧ SameBut c.w.uid s1 t

/-- All of a wave but its fibres. -/
def Wave.SameRegs (w v : Wave) : Prop := w.SameVector v ∧ w.SameScalar v ∧ v.fflags = w.fflags ∧ w.SameRest v

/-- The wave began a new region: every fibre's region starts where it stands, and the checkpoint is the wave's own state
(R230, R231). -/
def Wave.NewRegion (v : Wave) : Prop := (∀ f ∈ v.fibres, f.region = f.pc) ∧ v.checkpoint = v.snapshot

/-- The PC of a fibre once the issuing set has passed the instruction. -/
def Ctx.past (c : Ctx) (f : Fibre) : W64 := if f.lane ∈ c.set_ then f.pc + BitVec.ofNat 64 c.len else f.pc

/-- The run holds a register, and has not let go of it since entry id was issued (R198). -/
def Wave.inRun (w : Wave) (id log : Nat) : Prop :=
  w.runBase ≤ log ∧ log < w.runBase + w.winsize ∧ w.dead.contains (id, log) = false

/-- A byte that no record of a wave's two stacks covers (R201, R202). -/
def State.OffStacks (s : State) (v : Wave) (pa : Nat) : Prop :=
  ∀ l, s.launch? v.launch = some l → ∀ r ∈ stackBytes v.low v.high l.block.bssize, ∀ k < r.2.length,
    ∀ f big e, s.xlate v.agent (s.space l.world l.comp) (l.area v + r.1 + k) = .page f big e →
      (f.byteAt big (l.area v + r.1 + k)).pa ≠ pa

/-- A byte that lies in no entry of the leaf tables that has changed (R275). -/
def State.OffTables (s t : State) (pa : Nat) : Prop :=
  ∀ a, mapGet 0 t.mem.tables a ≠ mapGet 0 s.mem.tables a → pa < a ∨ a + 16 ≤ pa

/-! ## The shape of the machine -/

/-- What every state of the package keeps: memory in canonical form, eight compute dies, fourteen links and sixteen Farsol ports,
eight measurement registers, a working cap that firmware may set (R320), a split, a boot stage and a session that exist, eight watch ranges
in each partition (R239), sixteen counters in each world (R316), two rick slots in each repair state (R332). -/
def State.shaped (s : State) : Prop :=
  Memory.wf s.mem = true ∧ s.pkg.dies.length = 8 ∧ s.pkg.links.length = 14 ∧ s.pkg.farsol.length = 16 ∧ s.pkg.mrs.length = 8 ∧ 1600 ≤ s.pkg.capw
    ∧ s.pkg.capw ≤ 3600 ∧ s.pkg.split < 4 ∧ s.pkg.bootStage ≤ 6 ∧ s.pkg.session ≤ 2 ∧ (∀ d ∈ s.pkg.dies, d.rickSlot < 2)
    ∧ (∀ p ∈ s.parts, p.watch.length = 8) ∧ (∀ w ∈ s.worlds, w.counters.length = 16) ∧ ∀ r ∈ s.repair, r.slots.length = 2

end Sys2Proof.Machine
end

