-- ==== Sys2Proof/Certificates/Slice0/Obligations.lean ====
section
/-! DEFINITION. Certificates/Slice0/Obligations.lean: the statements of this row. -/

open Sys2Proof Sys2Proof.Machine

/-! ## Vector integer instructions (R65 to R79) -/

/-- R66, R69, R72, R73, R75: ADD, SUB, MUL, MULH, MIN, MAX, AND, OR, XOR, ANDN, SHL, SHR, SAR, ROT and BFE complete:
each active lane of D takes the result on A and B, and nothing else changes. Without .sat, the sums, differences and products that ADD, SUB, MUL and MAD
store are the exact results modulo 2^w; with .sat they are the values of the type nearest to the exact results. -/
def Obligations.IntegerTwoSourceCompletes : Prop :=
  (∀ (o : OpV2) (s s1 : State) (c : Ctx),
    let a := fun l => laneRead c.w c.base o.a o.ty.wide l
    let b := fun l => bInt c.w c.base o.len o.ty o.b l
    let n := fun l => b32 c.w c.base o.len o.b l
    let runs := fun (i : Instr) (f : Nat → W64) => Runs i s c s1 → WritesV i s c s1 o.d o.ty.wide c.act f 0
    runs (.add o) (fun l => intAdd o.ty o.sat (a l) (b l)) ∧ runs (.sub o) (fun l => intSub o.ty o.sat (a l) (b l))
      ∧ runs (.mul o) (fun l => intMul o.ty o.sat (a l) (b l)) ∧ runs (.mulh o) (fun l => intMulh o.ty (a l) (b l))
      ∧ runs (.min o) (fun l => intMinOf o.ty (a l) (b l)) ∧ runs (.max o) (fun l => intMaxOf o.ty (a l) (b l))
      ∧ runs (.and o) (fun l => intAnd o.ty (a l) (b l)) ∧ runs (.or o) (fun l => intOr o.ty (a l) (b l))
      ∧ runs (.xor o) (fun l => intXor o.ty (a l) (b l)) ∧ runs (.andn o) (fun l => intAndn o.ty (a l) (b l))
      ∧ runs (.shl o) (fun l => intShl o.ty o.sat (a l) (n l)) ∧ runs (.shr o) (fun l => intShr o.ty (a l) (n l))
      ∧ runs (.sar o) (fun l => intSar o.ty (a l) (n l)) ∧ runs (.rot o) (fun l => intRot o.ty (a l) (n l))
      ∧ runs (.bfe o) (fun l => intBfe o.ty (a l) (n l)))
  ∧ (∀ (t : IntTy) (a b x : W64),
    let exact := fun (r : W64) (e : Int) => (intVal t r - e) % 2 ^ t.width = 0 ∧ intMin t ≤ intVal t r ∧ intVal t r ≤ intMax t
    let near := fun (r : W64) (e : Int) => intVal t r = max (intMin t) (min (intMax t) e)
    exact (intAdd t false a b) (intVal t a + intVal t b) ∧ near (intAdd t true a b) (intVal t a + intVal t b)
      ∧ exact (intSub t false a b) (intVal t a - intVal t b) ∧ near (intSub t true a b) (intVal t a - intVal t b)
      ∧ exact (intMul t false a b) (intVal t a * intVal t b) ∧ near (intMul t true a b) (intVal t a * intVal t b)
      ∧ exact (intMad t false a b x) (intVal t a * intVal t b + intVal t x)
      ∧ near (intMad t true a b x) (intVal t a * intVal t b + intVal t x))

/-- R69, R72, R76 to R78, R107: ABS, NEG, MAD, MADW, BFI, LEA, SEL and BSEL complete; so do ADDC and SUBB (R70), where D
takes the sum or difference with the carry in, and the carry out predicate the carry or borrow; nothing else changes. -/
def Obligations.IntegerOtherCompletes : Prop :=
  ∀ (s s1 : State) (c : Ctx),
    (∀ o : OpV1,
      let a := fun l => laneRead c.w c.base o.a o.ty.wide l
      (Runs (.abs o) s c s1 → WritesV (.abs o) s c s1 o.d o.ty.wide c.act (fun l => intAbs o.ty o.sat (a l)) 0)
        ∧ (Runs (.neg o) s c s1 → WritesV (.neg o) s c s1 o.d o.ty.wide c.act (fun l => intNeg o.ty o.sat (a l)) 0))
    ∧ (∀ o : OpV3,
      let a := fun wide l => laneRead c.w c.base o.a wide l
      let b := fun wide l => rSrc c.w c.base wide o.b l
      let x := fun wide l => laneRead c.w c.base o.c wide l
      (Runs (.mad o) s c s1 → WritesV (.mad o) s c s1 o.d o.ty.wide c.act
          (fun l => intMad o.ty o.sat (a o.ty.wide l) (b o.ty.wide l) (x o.ty.wide l)) 0)
        ∧ (Runs (.madw o) s c s1 → WritesV (.madw o) s c s1 o.d true c.act
          (fun l => intMadw o.ty o.sat (a false l) (b false l) (x true l)) 0)
        ∧ (Runs (.bfi o) s c s1 → WritesV (.bfi o) s c s1 o.d o.ty.wide c.act
          (fun l => intBfi o.ty (a o.ty.wide l) (b o.ty.wide l) (low32 (x false l))) 0))
    ∧ (∀ o : OpLea, Runs (.lea o) s c s1 → WritesV (.lea o) s c s1 o.d o.ty.wide c.act
        (fun l => intLea o.ty o.scale.toNat (laneRead c.w c.base o.a o.ty.wide l) (low32 (rSrc c.w c.base false o.b l))
          (laneRead c.w c.base o.c o.ty.wide l)) 0)
    ∧ (∀ o : OpSel, Runs (.sel o) s c s1 → WritesV (.sel o) s c s1 o.d o.ty.wide c.act
        (fun l => intExtend o.ty (intBits o.ty (if c.w.pget o.c.toNat l then laneRead c.w c.base o.a o.ty.wide l
          else rSrc c.w c.base o.ty.wide o.b l))) 0)
    ∧ (∀ o : OpBsel, Runs (.bsel o) s c s1 → WritesV (.bsel o) s c s1 o.d false c.act
        (fun l => (bselWord ((laneRead c.w c.base o.a false l).setWidth 32) ((rSrc c.w c.base false o.b l).setWidth 32)
          ((laneRead c.w c.base o.c false l).setWidth 32)).setWidth 64) 0)
    ∧ (∀ o : OpCarry,
      let a := fun l => laneRead c.w c.base o.a o.ty.wide l
      let b := fun l => rSrc c.w c.base o.ty.wide o.b l
      let k := fun l => c.w.pget o.cin.toNat l
      let runs := fun (i : Instr) (f : Nat → W64 × Bool) => Runs i s c s1 →
        ∃ t v, exec i s = .next t ∧ t.wave? c.w.uid = some v
          ∧ (∀ l ∈ c.act, v.vget (c.base + o.d.toNat) o.ty.wide l = fits o.ty.wide (f l).1
              ∧ v.pget o.cout.toNat l = (o.cout.toNat == 15 || (f l).2))
          ∧ c.w.SameOthers v (c.base + o.d.toNat) o.ty.wide c.act
          ∧ (∀ p l, p < 16 → ¬(p = o.cout.toNat ∧ l ∈ c.act) → v.pget p l = c.w.pget p l)
          ∧ v.fibres.map Fibre.bare = c.w.fibres.map Fibre.bare ∧ v.fflags = c.w.fflags ∧ c.w.SameScalar v ∧ c.w.SameRest v
          ∧ SameBut c.w.uid s1 t
      runs (.addc o) (fun l => intAddc o.ty (a l) (b l) (k l)) ∧ runs (.subb o) (fun l => intSubb o.ty (a l) (b l) (k l)))

/-- R79, R85, R92: ISET, SSET and FSET complete: the truth value goes into the predicate of every active lane. -/
def Obligations.CompareCompletes : Prop :=
  ∀ (s s1 : State) (c : Ctx),
    (∀ o : OpIset, Runs (.iset o) s c s1 → WritesP (.iset o) s c s1 o.d
        (fun l => intCond o.ty o.cond (laneRead c.w c.base o.a o.ty.wide l) (bInt c.w c.base o.len o.ty o.b l)) 0)
    ∧ (∀ o : OpSset, Runs (.sset o) s c s1 → WritesP (.sset o) s c s1 o.d
        (fun _ => intCond o.ty o.cond (c.w.sget o.a.toNat) (sInt c.w o.len o.ty o.b)) 0)
    ∧ (∀ o : OpFset,
        let r := fun l => fCond o.fmt o.cond (fA c o.fmt o.a l) (bFlt c.w c.base o.len o.fmt o.b l)
        Runs (.fset o) s c s1 → WritesP (.fset o) s c s1 o.d (fun l => (r l).1) (orFlags (c.act.map (fun l => (r l).2))))

/-- R71: DIV and REM complete, whatever their operands: the quotient rounded toward zero and the remainder that goes with it, which
takes the dividend's sign. By zero DIV gives all ones and REM the dividend; the one quotient that the type does not hold is its least value, or with
.sat its greatest, and the remainder 0. -/
def Obligations.DivisionIsTotal : Prop :=
  (∀ (o : OpV2) (s s1 : State) (c : Ctx),
    let a := fun l => laneRead c.w c.base o.a o.ty.wide l
    let b := fun l => bInt c.w c.base o.len o.ty o.b l
    (Runs (.div o) s c s1 → WritesV (.div o) s c s1 o.d o.ty.wide c.act (fun l => intDiv o.ty o.sat (a l) (b l)) 0)
      ∧ (Runs (.rem o) s c s1 → WritesV (.rem o) s c s1 o.d o.ty.wide c.act (fun l => intRem o.ty (a l) (b l)) 0))
  ∧ (∀ (t : IntTy) (sat : Bool) (a b : W64),
    let x := intVal t a
    let y := intVal t b
    let q := intVal t (intDiv t sat a b)
    let r := intVal t (intRem t a b)
    let corner := t.signed = true ∧ x = intMin t ∧ y = -1
    (y = 0 → intBits t (intDiv t sat a b) = 2 ^ t.width - 1 ∧ r = x)
      ∧ (corner → q = (if sat then intMax t else intMin t) ∧ r = 0)
      ∧ (y ≠ 0 → ¬corner → q = x.tdiv y ∧ r = x - q * y ∧ r.natAbs < y.natAbs ∧ 0 ≤ x * r))

/-- R74: CLZ, POPC and BREV complete. CLZ counts the zero bits above the highest one bit, and the whole width for zero; POPC counts the one bits;
both write one register. BREV moves bit k to bit w - 1 - k. -/
def Obligations.CountsAndReversal : Prop :=
  (∀ (o : OpV1) (s s1 : State) (c : Ctx),
    let a := fun l => laneRead c.w c.base o.a o.ty.wide l
    (Runs (.clz o) s c s1 → WritesV (.clz o) s c s1 o.d false c.act (fun l => BitVec.ofNat 64 (intClz o.ty (a l))) 0)
      ∧ (Runs (.popc o) s c s1 → WritesV (.popc o) s c s1 o.d false c.act (fun l => BitVec.ofNat 64 (intPopc o.ty (a l))) 0)
      ∧ (Runs (.brev o) s c s1 → WritesV (.brev o) s c s1 o.d o.ty.wide c.act (fun l => intBrev o.ty (a l)) 0))
  ∧ (∀ (t : IntTy) (a : W64),
    (∀ k, k < t.width → (intBits t (intBrev t a)).testBit k = (intBits t a).testBit (t.width - 1 - k))
      ∧ (intBits t a = 0 → intClz t a = t.width)
      ∧ (intBits t a ≠ 0 → intClz t a < t.width ∧ (intBits t a).testBit (t.width - 1 - intClz t a) = true)
      ∧ (∀ k, t.width - intClz t a ≤ k → (intBits t a).testBit k = false)
      ∧ intPopc t a = ((List.range t.width).filter (fun k => a.getLsbD k)).length)

/-! ## Scalar instructions (R81 to R84) -/

/-- R82 to R84: each scalar instruction completes: sD takes the result of the operation on the low bits of sA and B,
extended to 64 bits, once for the issue, and nothing else changes. -/
def Obligations.ScalarCompletes : Prop :=
  ∀ (s s1 : State) (c : Ctx),
    (∀ o : OpS2,
      let a := c.w.sget o.a.toNat
      let b := sInt c.w o.len o.ty o.b
      let n := s32 c.w o.len o.b
      let runs := fun (i : Instr) (x : W64) => Runs i s c s1 → WritesS i s c s1 o.d x
      runs (.sadd o) (intAdd o.ty o.sat a b) ∧ runs (.ssub o) (intSub o.ty o.sat a b) ∧ runs (.smul o) (intMul o.ty o.sat a b)
        ∧ runs (.sand o) (intAnd o.ty a b) ∧ runs (.sor o) (intOr o.ty a b) ∧ runs (.sxor o) (intXor o.ty a b)
        ∧ runs (.smin o) (intMinOf o.ty a b) ∧ runs (.smax o) (intMaxOf o.ty a b)
        ∧ runs (.sshl o) (intShl o.ty o.sat a n) ∧ runs (.sshr o) (intShr o.ty a n) ∧ runs (.ssar o) (intSar o.ty a n)
        ∧ runs (.sbfe o) (intBfe o.ty a n))
    ∧ (∀ o : OpSli, Runs (.sli o) s c s1 → WritesS (.sli o) s c s1 o.d (match o.len with
        | .w96 => intExtend o.ty (intBits o.ty (intImm .w96 o.ty (o.imm.setWidth 32)))
        | .w64 | .w128 => o.imm))
    ∧ (∀ o : OpSmov, Runs (.smov o) s c s1 → WritesS (.smov o) s c s1 o.d (intExtend o.ty (intBits o.ty (c.w.sget o.a.toNat))))
    ∧ (∀ o : OpSlea, Runs (.slea o) s c s1 → WritesS (.slea o) s c s1 o.d
        (intLea o.ty o.scale.toNat (c.w.sget o.a.toNat) (low32 (c.w.sget o.b.toNat)) (c.w.sget o.c.toNat)))

/-! ## Floating-point instructions (R86 to R100) -/

/-- R89 to R91, R99, R100: FADD, FSUB, FMUL, FMA, FSCALE, FMIN, FMAX, PKADD, PKMUL, PKFMA, FDOT2 and FDOT4 complete: each
active lane of D takes its result, %fflags gains the flags of every active lane, and nothing else changes. -/
def Obligations.FloatArithmeticCompletes : Prop :=
  ∀ (s s1 : State) (c : Ctx),
    let runs := fun (i : Instr) (d : BitVec 7) (f : Nat → FRes) => Runs i s c s1 →
      WritesV i s c s1 d false c.act (fun l => BitVec.ofNat 64 (f l).1) (orFlags (c.act.map (fun l => (f l).2)))
    (∀ o : OpF2,
      let a := fun l => fA c o.fmt o.a l
      let b := fun l => bFlt c.w c.base o.len o.fmt o.b l
      runs (.fadd o) o.d (fun l => fAdd o.fmt o.rm (a l) (b l)) ∧ runs (.fsub o) o.d (fun l => fSub o.fmt o.rm (a l) (b l))
        ∧ runs (.fmul o) o.d (fun l => fMul o.fmt o.rm (a l) (b l))
        ∧ runs (.fscale o) o.d (fun l => fScale o.fmt o.rm (a l) (bScale c.w c.base o.len o.b l)))
    ∧ (∀ o : OpFmm,
      let r := fun m l => fMinMax o.fmt m o.num (fA c o.fmt o.a l) (bFlt c.w c.base o.len o.fmt o.b l)
      runs (.fmin o) o.d (r false) ∧ runs (.fmax o) o.d (r true))
    ∧ (∀ o : OpF3,
      let dot := fun g n l => fDot g n o.rm (low32 (laneRead c.w c.base o.a false l)) (low32 (rSrc c.w c.base false o.b l))
        (low32 (laneRead c.w c.base o.c false l))
      runs (.fma o) o.d (fun l => fFma o.fmt o.rm (fA c o.fmt o.a l) (fBits o.fmt (rSrc c.w c.base false o.b l)) (fA c o.fmt o.c l))
        ∧ runs (.fdot2 o) o.d (dot .bf16 2) ∧ runs (.fdot4 o) o.d (dot .e4m3 4))
    ∧ (∀ o : OpPk2,
      let a := fun l => halves (low32 (laneRead c.w c.base o.a false l))
      let b := fun l => routed o.route (bPair c.w c.base o.len o.b l)
      runs (.pkadd o) o.d (fun l => joinHalves (fAdd o.fmt o.rm (a l).1 (b l).1) (fAdd o.fmt o.rm (a l).2 (b l).2))
        ∧ runs (.pkmul o) o.d (fun l => joinHalves (fMul o.fmt o.rm (a l).1 (b l).1) (fMul o.fmt o.rm (a l).2 (b l).2)))
    ∧ (∀ o : OpPk3,
      let a := fun l => halves (low32 (laneRead c.w c.base o.a false l))
      let b := fun l => routed o.route (low32 (rSrc c.w c.base false o.b l))
      let x := fun l => halves (low32 (laneRead c.w c.base o.c false l))
      runs (.pkfma o) o.d (fun l => joinHalves (fFma o.fmt o.rm (a l).1 (b l).1 (x l).1) (fFma o.fmt o.rm (a l).2 (b l).2 (x l).2)))

/-- R93 to R98: FRCP, FSQRT, FRSQ, FEXP2, FLOG2, FSINPI, FCOSPI, FRND, FCVT, ITOF, FTOI and FCLASS complete in the same
way; FTOI writes a register or a pair by its integer type, and FCLASS raises no flag. -/
def Obligations.FloatFunctionsComplete : Prop :=
  ∀ (s s1 : State) (c : Ctx),
    let runs := fun (i : Instr) (d : BitVec 7) (f : Nat → FRes) => Runs i s c s1 →
      WritesV i s c s1 d false c.act (fun l => BitVec.ofNat 64 (f l).1) (orFlags (c.act.map (fun l => (f l).2)))
    (∀ o : OpF1,
      let on := fun (f : Nat → FRes) l => f (fA c o.fmt o.a l)
      runs (.frcp o) o.d (on (fRcp o.fmt o.rm)) ∧ runs (.fsqrt o) o.d (on (fSqrt o.fmt o.rm))
        ∧ runs (.frsq o) o.d (on (fRsq o.fmt o.rm)) ∧ runs (.fexp2 o) o.d (on (fExp2 o.fmt o.rm))
        ∧ runs (.flog2 o) o.d (on (fLog2 o.fmt o.rm)) ∧ runs (.fsinpi o) o.d (on (fSinPi o.fmt o.rm))
        ∧ runs (.fcospi o) o.d (on (fCosPi o.fmt o.rm)))
    ∧ (∀ o : OpFrnd, runs (.frnd o) o.d (fun l => fRnd o.fmt o.rm o.exact (fA c o.fmt o.a l)))
    ∧ (∀ o : OpFcvt, runs (.fcvt o) o.d (fun l => fConvert o.fmt o.src o.rm (fA c o.src o.a l)))
    ∧ (∀ o : OpFint, runs (.itof o) o.d (fun l => fOfInt o.fmt o.rm (intVal o.ty (laneRead c.w c.base o.a o.ty.wide l))))
    ∧ (∀ o : OpFint,
      let r := fun l => fToInt (intMin o.ty) (intMax o.ty) o.fmt o.rm (fA c o.fmt o.a l)
      Runs (.ftoi o) s c s1 → WritesV (.ftoi o) s c s1 o.d o.ty.wide c.act (fun l => intWrap o.ty (r l).1)
        (orFlags (c.act.map (fun l => (r l).2))))
    ∧ (∀ o : OpFclass, Runs (.fclass o) s c s1 → WritesV (.fclass o) s c s1 o.d false c.act
        (fun l => BitVec.ofNat 64 (fClass o.fmt (fA c o.fmt o.a l))) 0)

/-! ## Lanes and predicates (R102 to R110) -/

/-- R104 to R106, R108, R109: MOV, MOVI, PERM, WRLANE, RDLANE, BALLOT, VOTE, SCAN and REDUCE complete. PERM reads A as its
lane B[5:0] would, WRLANE writes the slice of one lane, active or not, RDLANE and BALLOT write one scalar register. -/
def Obligations.LanesComplete : Prop :=
  ∀ (s s1 : State) (c : Ctx),
    (∀ o : OpMov, Runs (.mov o) s c s1 → WritesV (.mov o) s c s1 o.d o.ty.wide c.act (fun l => laneRead c.w c.base o.a o.ty.wide l) 0)
    ∧ (∀ o : OpMovi, Runs (.movi o) s c s1 → WritesV (.movi o) s c s1 o.d o.ty.wide c.act (fun _ => moviImm o) 0)
    ∧ (∀ o : OpPerm, Runs (.perm o) s c s1 → WritesV (.perm o) s c s1 o.d o.ty.wide c.act
        (fun l => laneRead c.w c.base o.a o.ty.wide ((rSrc c.w c.base false o.b l).toNat % 64)) 0)
    ∧ (∀ o : OpWrlane,
      let n := fun l => b32 c.w c.base o.len o.n l % 64
      Runs (.wrlane o) s c s1 → (∀ l ∈ c.act, n l = n c.low) →
        WritesV (.wrlane o) s c s1 o.d o.ty.wide [n c.low] (fun _ => c.w.sget o.a.toNat) 0)
    ∧ (∀ o : OpRdlane,
      let n := fun l => b32 c.w c.base o.len o.n l % 64
      Runs (.rdlane o) s c s1 → (∀ l ∈ c.act, n l = n c.low) → WritesS (.rdlane o) s c s1 o.d
        (intExtend o.ty (intBits o.ty (laneRead c.w c.base o.a o.ty.wide (n c.low)))))
    ∧ (∀ o : OpBallot, Runs (.ballot o) s c s1 →
        WritesS (.ballot o) s c s1 o.d (laneMask (c.act.filter (fun l => c.w.pget o.a.toNat l))))
    ∧ (∀ o : OpVote,
      let p := fun l => c.w.pget o.a.toNat l
      Runs (.vote o) s c s1 → WritesP (.vote o) s c s1 o.d (fun _ => match o.kind with
        | .all => c.act.all p
        | .any => c.act.any p
        | .uni => c.act.all (fun l => p l == p c.low)) 0)
    ∧ (∀ o : OpScan,
      let of := fun (keep : Nat → Bool) => combine o.op o.ty ((c.act.filter keep).map (fun k => laneRead c.w c.base o.a o.ty.wide k))
      let runs := fun (i : Instr) (r : Nat → W64 × FFlags) => Runs i s c s1 →
        WritesV i s c s1 o.d o.ty.wide c.act (fun l => (r l).1) (orFlags (c.act.map (fun l => (r l).2)))
      runs (.scan o) (fun l => of (fun k => k < l || (k == l && !o.excl))) ∧ runs (.reduce o) (fun _ => of (fun _ => true)))

/-- R110: the predicate operations complete, PAND, POR and PXOR with each source perhaps inverted: in each active lane pD takes the result on the predicates
as they were before, inactive fibres keep theirs, p15 reads true and discards the result. -/
def Obligations.PredicatesComplete : Prop :=
  ∀ (s s1 : State) (c : Ctx),
    (∀ o : OpP2,
      let a := fun l => c.w.pget o.a.toNat l != o.invA
      let b := fun l => c.w.pget o.b.toNat l != o.invB
      let runs := fun (i : Instr) (f : Nat → Bool) => Runs i s c s1 → WritesP i s c s1 o.d f 0
      runs (.pand o) (fun l => a l && b l) ∧ runs (.por o) (fun l => a l || b l) ∧ runs (.pxor o) (fun l => a l != b l))
    ∧ (∀ o : OpP1, (Runs (.pnot o) s c s1 → WritesP (.pnot o) s c s1 o.d (fun l => !c.w.pget o.a.toNat l) 0)
        ∧ (Runs (.pmov o) s c s1 → WritesP (.pmov o) s c s1 o.d (fun l => c.w.pget o.a.toNat l) 0))
    ∧ (∀ (w : Wave) l, w.pget 15 l = true)

/-! ## Control (R112 to R121) -/

/-- R113, R119, R120, R131: NOP, PREF, YIELD, REGION, BRA and BRX complete. The issuing set passes the instruction; a branch then sets
the PC of every active fibre to its target (from the branch itself, or the lane's pair or the scalar register); YIELD
gives up the wave's next turn; REGION begins a new region. Nothing else changes. -/
def Obligations.ControlCompletes : Prop :=
  ∀ (s s1 : State) (c : Ctx),
    let runs := fun (i : Instr) (new : Fibre → Fibre) (more : Wave → Prop) => Runs i s c s1 →
      ∃ t v, exec i s = .next t ∧ t.wave? c.w.uid = some v ∧ v.fibres = c.w.fibres.map new ∧ more v ∧ c.w.SameRegs v
        ∧ SameBut c.w.uid s1 t
    let goes := fun (target : Nat → W64) (f : Fibre) =>
      (if f.lane ∈ c.act then { f with pc := target f.lane } else { f with pc := c.past f } : Fibre)
    (∀ o, runs (.nop o) (fun f => { f with pc := c.past f }) (fun v => v.yielded = c.w.yielded))
    ∧ (∀ o, runs (.pref o) (fun f => { f with pc := c.past f }) (fun v => v.yielded = c.w.yielded))
    ∧ (∀ o, runs (.yield o) (fun f => { f with pc := c.past f }) (fun v => v.yielded = true))
    ∧ (∀ o, runs (.region o) (fun f => { f with pc := c.past f, region := c.past f }) (fun v => v.checkpoint = v.snapshot))
    ∧ (∀ o, runs (.bra o) (goes (fun _ => match o.len with
        | .w96 => c.pc + (o.off.setWidth 16).signExtend 64 * 4
        | .w64 | .w128 => c.pc + o.off.signExtend 64)) (fun _ => True))
    ∧ (∀ o, runs (.brx o) (goes (fun l => match o.tgt with
        | .vec r => c.w.slice (c.base + r.toNat + 1) l ++ c.w.slice (c.base + r.toNat) l
        | .scalar r => c.w.sget r.toNat)) (fun _ => True))

/-- R114, R115, R199: CALL, CALLX and RET complete. A call, where every active fibre has fewer than 16 frames and the backing store has room: each
active fibre gets a frame, its window base rises by it, its PC is the target, its new v0 holds the low half of the address after the call, and the run
stands at the new base; bytes outside the wave's two stacks of records are as before. A return, where each active fibre has a frame: the top frame
goes, the window base falls by it, and the PC is the upper half of the RET's own address above the low half that v0 holds; nothing else changes. Where the manual is silent the clause is
the model's choice, by log entries 26 and 37. -/
def Obligations.CallsAndReturnsComplete : Prop :=
  (∀ (i : Instr) (n : Nat) (target : Nat → W64) (s s1 : State) (c : Ctx),
      ((∃ o : OpCall, i = .call o ∧ n = o.frame.toNat ∧ target = fun _ => c.pc + o.off.signExtend 64)
        ∨ (∃ o : OpCallx, i = .callx o ∧ n = o.frame.toNat ∧ target = fun l => match o.tgt with
          | .vec r => c.w.slice (c.base + r.toNat + 1) l ++ c.w.slice (c.base + r.toNat) l
          | .scalar r => c.w.sget r.toNat)) →
      Runs i s c s1 → callChk n c s1 = none →
        ∃ t v, exec i s = .next t ∧ t.wave? c.w.uid = some v
          ∧ v.fibres = c.w.fibres.map (fun f => if f.lane ∈ c.act
              then { f with stack := n :: f.stack, winbase := f.winbase + n, pc := target f.lane } else { f with pc := c.past f })
          ∧ (∀ l ∈ c.act, v.slice (c.base + n) l = (c.pc + BitVec.ofNat 64 c.len).setWidth 32)
          ∧ v.runBase = c.base + n ∧ v.winsize = c.w.winsize ∧ v.matrix = c.w.matrix ∧ v.fflags = c.w.fflags
          ∧ c.w.SameScalar v ∧ (∀ pa, s1.OffStacks v pa → t.byteOf pa = s1.byteOf pa)
          ∧ t.groups = s1.groups ∧ t.objs = s1.objs ∧ t.records = s1.records ∧ ∀ u, u ≠ c.w.uid → t.wave? u = s1.wave? u)
  ∧ (∀ (o : OpBare) (s s1 : State) (c : Ctx), Runs (.ret o) s c s1 →
      (∀ l ∈ c.act, ∀ f, c.w.fibre? l = some f → f.stack ≠ []) →
        ∃ t v, exec (.ret o) s = .next t ∧ t.wave? c.w.uid = some v
          ∧ (∀ l f, c.w.fibre? l = some f → v.fibre? l = some (if l ∈ c.act
              then { f with stack := f.stack.tail, winbase := f.winbase - f.stack.headD 0,
                            pc := c.pc.extractLsb' 32 32 ++ c.w.slice c.base l }
              else { f with pc := c.past f }))
          ∧ (∀ l, c.w.fibre? l = none → v.fibre? l = none) ∧ c.w.SameRegs v ∧ SameBut c.w.uid s1 t)

/-- R115, R117, R118: FORK completes: each lane of the mask that has no fibre gets one, at the target, with the issue's window base, cleared predicates
and an empty stack; pD says whether every lane of the mask was free; a new region begins. END, and RET in a fibre with no frame, complete once every
earlier access of the wave is done and no imprecise fault is pending: the active fibres end, fibres of other lanes go on, and with the last fibre
the wave ends. No byte changes. -/
def Obligations.ForkAndEndComplete : Prop :=
  (∀ (o : OpFork) (s s1 : State) (c : Ctx), Runs (.fork o) s c s1 →
      let want := maskLanes (c.w.sget o.mask.toNat)
      let target := c.pc + o.off.signExtend 64
      let ok := decide (∀ l ∈ want, c.w.fibre? l = none)
      ∃ t v, exec (.fork o) s = .next t ∧ t.wave? c.w.uid = some v
        ∧ (∀ l ∈ want, c.w.fibre? l = none → v.fibre? l = some ⟨l, target, 0, c.base, [], 0, target, 0⟩)
        ∧ (∀ l, l ∉ want → c.w.fibre? l = none → v.fibre? l = none)
        ∧ (∀ l f, c.w.fibre? l = some f → ∃ p, v.fibre? l = some { f with pc := c.past f, region := c.past f, preds := p })
        ∧ (∀ l ∈ c.act, v.pget o.d.toNat l = (o.d.toNat == 15 || ok))
        ∧ (∀ p l, p < 16 → (c.w.fibre? l).isSome = true → ¬(p = o.d.toNat ∧ l ∈ c.act) → v.pget p l = c.w.pget p l)
        ∧ v.NewRegion ∧ c.w.SameRegs v ∧ SameBut c.w.uid s1 t)
  ∧ (∀ (i : Instr) (s s1 : State) (c : Ctx),
      ((∃ o, i = .endF o) ∨ (∃ o, i = .ret o ∧ ∀ l ∈ c.act, ∀ f, c.w.fibre? l = some f → f.stack = [])) →
      Runs i s c s1 → endBusy c s1 = false → c.w.pend = [] →
        ∃ t, exec i s = .next t ∧ SameBytes s1 t ∧ (∀ u, u ≠ c.w.uid → t.wave? u = s1.wave? u)
          ∧ ((∀ f ∈ c.w.fibres, f.lane ∈ c.act) → t.wave? c.w.uid = none)
          ∧ ((∃ f ∈ c.w.fibres, f.lane ∉ c.act) → ∃ v, t.wave? c.w.uid = some v ∧ c.w.SameRegs v
              ∧ ((∃ o, i = .endF o) → v.NewRegion)
              ∧ v.fibres.map (fun f => { f with region := 0 })
                = (c.w.fibres.filter (fun f => f.lane ∉ c.act)).map (fun f => { f with pc := c.past f, region := 0 })))

/-! ## Every instruction word, and exceptions (R15, R31, R32, R230, R238 to R241) -/

/-- R31: with an issue of a resident wave in progress, every instruction word answers a next state: a word never stops the
machine, whatever its operands. -/
def Obligations.WordsAlwaysAnswer : Prop :=
  ∀ (i : Instr) (s : State), i.raw.isSome = true → (s.begin i).isSome = true → ∃ t, exec i s = .next t

/-- R31, R32: of the checks that every issue undergoes, the first that fails raises its fault, whatever the instruction and
whether or not a lane is active (an instruction presented again has passed its checks): MODE at step 10, WINDOW_BOUND at step 11, POISON at step 21. -/
def Obligations.FirstFailingCheckFaults : Prop :=
  ∀ (i : Instr) (s s1 : State) (c : Ctx) (k : Chk), i.raw.isSome = true → s.begin i = some (c, s1) → c.again = false →
    firstCheck i c (s1.roaming c.w.launch) = some k →
      exec i s = .next (s1.precise c k)
        ∧ (modeBad i c.w.matrix (s1.roaming c.w.launch) = true → k.fault = .mode ∧ k.step = 10)
        ∧ (modeBad i c.w.matrix (s1.roaming c.w.launch) = false → windowBad i c.w = true → k.fault = .windowBound ∧ k.step = 11)
        ∧ (modeBad i c.w.matrix (s1.roaming c.w.launch) = false → windowBad i c.w = false → k.fault = .poison ∧ k.step = 21)

/-- R15: an issue in which no lane is active has no effect but to pass the instruction, and to end the region where the
instruction ends it. -/
def Obligations.IdleIssueOnlyPasses : Prop :=
  ∀ (i : Instr) (s s1 : State) (c : Ctx), i.raw.isSome = true → Opens i s c s1 → c.act = [] →
    ∃ t v, exec i s = .next t ∧ t.wave? c.w.uid = some v
      ∧ v.fibres.map (fun f => { f with region := 0 }) = c.w.fibres.map (fun f => { f with pc := c.past f, region := 0 })
      ∧ (endsRegion i = true → v.NewRegion) ∧ (endsRegion i = false → v.checkpoint = c.w.checkpoint)
      ∧ c.w.SameRegs v ∧ SameBut c.w.uid s1 t

/-- R238, R240, R241: a precise fault. While an earlier access of the wave is not complete, the set waits at the instruction (that it waits so, and
waits for no claim and no barrier event, is the model's choice). Then a record goes to the launch's queue, with the instruction's address as PC and as
SYNCPC, the active lanes, the step, the lane and the fault's code. Under the park action the wave then stands parked at
the instruction; under the end action the launch stops and keeps the fault for its end record. No register, fibre,
predicate or byte changes. Where the manual is silent the clause is
the model's choice, by log entries 76 and 81. -/
def Obligations.PreciseFaultParksOrEnds : Prop :=
  ∀ (s : State) (c : Ctx) (k : Chk) (l : Launch), s.wave? c.w.uid = some c.w → s.launch? c.w.launch = some l →
    (c.w.unfinished c.upto = true → s.precise c k = s.stall c .quiet) ∧
    (c.w.unfinished c.upto = false →
    let t := s.precise c k
    let v : Wave := c.w.unquiet c
    let r : FaultRec :=
      { tick := s.pkg.tick, loc := c.w.loc, wave := c.w.index, group := c.w.group, launch := l.num, addr := k.addr,
        active := laneMask c.act, syncpc := c.pc, pc := c.pc, cause := k.cause, step := k.step, lane := k.lane, cls := 0,
        code := faultCode k.fault }
    let trap := k.fault == .trap || k.fault == .brk
    t.records = s.records ++ [.fault l.queue r] ∧ SameBytes s t ∧ t.groups = s.groups ∧ t.objs = s.objs
      ∧ (∀ u, u ≠ c.w.uid → t.wave? u = s.wave? u)
      ∧ (l.block.faultEnd = false → t.launches = s.launches
          ∧ t.wave? c.w.uid = some { v with parked := some ⟨k.fault, c.pc, c.base, laneMask c.set_, c.len, trap, false⟩ })
      ∧ (l.block.faultEnd = true → (k.fault = .brk → s.pkg.lemmel.contains l.queue = false) → k.fault ≠ .watch → l.stopped = false →
          t.wave? c.w.uid = some v ∧ ∃ m, t.launch? c.w.launch = some m ∧ m.stopped = true
            ∧ m.endFault = (faultCode k.fault, k.step, k.addr, 0, 8)))

/-- R10, R27, R31, R121, R5, R285: the exceptions that an instruction or a fetch is there to take. TRAP and BRK raise their fault at step 19 with their code in ADDR; a
fetch that fails raises its fault in the issuing set at its PC, which ADDR holds for ALIGN and LEASE. A fetch from a peer that cannot be reached or refuses raises
an imprecise fault, and is itself the synchronisation point that delivers it: PC, SYNCPC and ADDR are the PC, and the wave parks. Where the manual is silent the clause is
the model's choice, by log entries 27 and 97. -/
def Obligations.ExceptionsTaken : Prop :=
  (∀ (o : OpCode) (s s1 : State) (c : Ctx),
    (Runs (.trap o) s c s1 → exec (.trap o) s
        = .next (s1.precise c { fault := .trap, step := 19, lane := c.low, addr := o.code.setWidth 64 }))
      ∧ (Runs (.brk o) s c s1 → exec (.brk o) s
        = .next (s1.precise c { fault := .brk, step := 19, lane := c.low, addr := o.code.setWidth 64 })))
  ∧ (∀ (f : FaultName) (n : Nat) (s : State) (q : Issue) (w : Wave), s.own.cur = some q → s.wave? q.wave = some w →
    let lanes := maskLanes q.set_
    (f ≠ .remoteUnreachable → f ≠ .remoteRefused →
      exec (.illegalWordFetch f n) s = .next (s.precise ⟨w, q.pc, q.base, lanes, lanes, q.len, .illegalWordFetch f n⟩
        { fault := f, step := n, lane := lanes.headD 0, addr := if f = .illegal then 0 else q.pc }))
    ∧ (∀ l, f = .remoteUnreachable ∨ f = .remoteRefused → w.pend = [] → s.launch? w.launch = some l → l.block.faultEnd = false →
      ∃ t v r, exec (.illegalWordFetch f n) s = .next t ∧ t.records = s.records ++ [.fault l.queue r] ∧ t.wave? q.wave = some v
        ∧ r.code = faultCode f ∧ r.cls = 1 ∧ r.step = 0 ∧ r.pc = q.pc ∧ r.syncpc = q.pc ∧ r.addr = q.pc ∧ r.launch = l.num
        ∧ v.parked = some ⟨f, q.pc, q.base, laneMask lanes, q.len, false, true⟩ ∧ v.pend = []
        ∧ w.SameVector v ∧ w.SameScalar v ∧ v.fibres = w.fibres ∧ SameBytes s t))

/-- R31, R33, R106, R126, R129, R146, R152, R164, R280: faults of the forms. A lane number of RDLANE or WRLANE that is not the same in every active lane raises NONUNIFORM at step 12 in the lowest
lane that differs, and so does MMODE.on in the first fibre whose window base is not the lowest fibre's; a GATHER whose handle the wave may not use raises CAP at step 13; a WAIT whose
token lies nine or more phases ahead raises PHASE_AHEAD at step 18; where some lane's access leaves the lease, the checks of a load, store or atomic (planChk) give LEASE at step 16 in
the lowest such lane, with the first byte that fails, and LD, ST, LDS, ATOM and RED raise it; a READ that meets poisoned data raises POISON at step 22 in the lowest such lane, and no register and no byte changes. Where the manual is silent the clause is
the model's choice, by log entries 11, 18, 38, 85, 87 and 111. -/
def Obligations.FormsThatFault : Prop :=
  (∀ (i : Instr) (len : Len) (b : BSrc) (s s1 : State) (c : Ctx) (l : Nat),
    ((∃ o : OpRdlane, i = .rdlane o ∧ len = o.len ∧ b = o.n) ∨ (∃ o : OpWrlane, i = .wrlane o ∧ len = o.len ∧ b = o.n)) →
    let n := fun k => b32 c.w c.base len b k % 64
    Runs i s c s1 → l ∈ c.act → n l ≠ n c.low → (∀ k ∈ c.act, k < l → n k = n c.low) →
      exec i s = .next (s1.precise c { fault := .nonuniform, step := 12, lane := l }))
  ∧ (∀ (o : OpBare) (s s1 : State) (c : Ctx) (f g : Fibre) (pre post : List Fibre), Runs (.mmodeOn o) s c s1 →
    c.w.fibres = g :: (pre ++ f :: post) → (∀ x ∈ pre, x.winbase = g.winbase) → f.winbase ≠ g.winbase →
      exec (.mmodeOn o) s = .next (s1.precise c { fault := .nonuniform, step := 12, lane := f.lane }))
  ∧ (∀ (o : OpEng) (s s1 : State) (c : Ctx) (l : Launch), Runs (.gather o) s c s1 → s1.launch? c.w.launch = some l →
    (gatherAsk o c).length ≠ 0 → s1.handle? c.w (gatherAsk o c).hnd = none →
      exec (.gather o) s = .next (s1.precise c { fault := .cap, step := 13, lane := c.low, addr := BitVec.ofNat 64 (gatherAsk o c).hnd.toNat }))
  ∧ (∀ (o : OpWait) (s s1 : State) (c : Ctx) (h : Handle) (r : ObjRef), Runs (.wait o) s c s1 →
    s1.handle? c.w (c.w.sget o.a.toNat) = some (h, r) → uniformB o.b o.len c = none → c.stall? = none → c.w.owes r = false →
    s1.objPoisoned r = false →
    9 ≤ s1.distance r (tokenOf o c) → exec (.wait o) s = .next (s1.precise c
        { fault := .phaseAhead, step := 18, lane := c.low, addr := c.w.sget o.a.toNat }))
  ∧ (∀ (ps : List (Nat × Plan)) (l va : Nat) (pre post : List (Nat × Plan)),
    ps = pre ++ (l, .error (.lease, va)) :: post → (∀ p ∈ pre, ∀ v, p.2 ≠ .error (.lease, v)) →
      planChk ps = some { fault := .lease, step := 16, lane := l, addr := BitVec.ofNat 64 va })
  ∧ (∀ (i : Instr) (ps : List (Nat × Plan)) (s s1 : State) (c : Ctx) (l va : Nat) (pre post : List (Nat × Plan)),
    let mem := fun (o : OpMem) f => planLanes s1 c.w c.act (eaGlobal c.w c.base o.len o.base o.off o.disp) f
    let atom := fun (base : ABase) (off : RSrc) f => planLanes s1 c.w c.act (fun l => aBase c.w c.base base l + rOff c.w c.base off l) f
    ((∃ o, i = .ld o ∧ ps = mem o (fun l => s1.planLoad l c.w.agent o.ty))
      ∨ (∃ o, i = .st o ∧ ps = mem o (fun l k ea => s1.planStore l c.w.agent o.ty k ea (dataBits o.ty (c.w.vget (c.base + o.d.toNat) o.ty.wide k))))
      ∨ (∃ o : OpMemS, i = .lds o ∧ ps = c.act.map (fun l => (l, planScratch (s1.scratchSize c.w) l
          (eaScratch c.w c.base o.len o.base o.off o.disp l) (o.ty.width / 8) 0 0)))
      ∨ (∃ o : OpAtom, i = .atom o ∧ ps = atom o.base o.off (fun l k ea => s1.planAtom l c.w.agent o.op o.wide k ea
          (atomMask o.wide (laneRead c.w c.base o.c o.wide k)) (atomMask o.wide (c.w.vget (c.base + o.cmp.toNat) o.wide k))))
      ∨ (∃ o : OpRed, i = .red o ∧ ps = atom o.base o.off (fun l k ea => s1.planAtom l c.w.agent o.op o.wide k ea
          (atomMask o.wide (laneRead c.w c.base o.c o.wide k)) 0))) →
    Runs i s c s1 → ps = pre ++ (l, .error (.lease, va)) :: post → (∀ p ∈ pre, ∀ v, p.2 ≠ .error (.lease, v)) →
      exec i s = .next (s1.precise c { fault := .lease, step := 16, lane := l, addr := BitVec.ofNat 64 va }))
  ∧ (∀ (s : State) (r : AccRef) (w : Wave) (e : Entry) (a : Acc) (n : Nat) (v : W64) (l : Launch), s.acc? r = some (w, e, a) →
    s.canRead r = true → s.asksNow r = true → (s.poisonOf w e a).isSome = true → s.poisonLane w e = some (n, v) →
    (∀ b ∈ a.at_ ++ a.scale.toList, b.hole = false) → s.launch? w.launch = some l → l.stopped = false → l.block.faultEnd = false →
      ∃ t x, exec (.read r) s = .next t
        ∧ t.records = s.records ++ [.fault l.queue (s.faultRec w .poison 0 22 n e.pc e.pc e.active v 0)]
        ∧ t.wave? w.uid = some x ∧ x.parked.isSome = true ∧ w.SameVector x ∧ w.SameScalar x ∧ SameBytes s t)

/-! ## Memory instructions (R124 to R135) and the ordering machine (R219 to R226) -/

/-- R124 to R133: LD, LDS, LDU, ST, STS, STU, ATOM, RED and ATOMS complete their issue where every lane's access passes the
lease and the page format, no lane touches a watched range, and miss-status entries are free (an STS or ATOMS also waits for
grid operations that read scratchpad operands, and the vector offset of LDU and STU is uniform). The wave's issue list gains
the accesses, computed as R125 says, with the scoreboard marks of the destination; no register, no predicate and no byte
changes. The issuing set of a load or a store passes. That of an atomic stands until its last lane is done (R136, R230): presented again
when no lane is left, it passes the instruction and ends its region. Where the manual is silent the clause is
the model's choice, by log entry 12. -/
def Obligations.MemoryIssueCompletes : Prop :=
  ∀ (s s1 : State) (c : Ctx),
    let issued := fun (i : Instr) (plan : List (Nat × Plan)) (e : List Acc → NewEntry) =>
      let accs := s1.markWatch i c (planAccs plan)
      Runs i s c s1 → (∀ p ∈ plan, ∃ a, p.2 = .ok a) → (∀ a ∈ accs, a.st ≠ .watched) →
        (accs.filter Acc.outstanding).length ≤ s1.missFree c.w.loc.die c.w.loc.core none →
        ∃ t v, exec i s = .next t ∧ t.wave? c.w.uid = some v ∧ v.entries = c.w.entries ++ [c.entry c.w.nextEntry (e accs)]
          ∧ v.marks = c.w.marks ++ (e accs).marks.map (fun m => ⟨m, c.w.nextEntry⟩) ∧ v.nextEntry = c.w.nextEntry + 1
          ∧ (retiresLate i = false → v.fibres = c.w.fibres.map (fun f => { f with pc := c.past f }))
          ∧ (retiresLate i = true → v.fibres = c.w.fibres ∧ ∃ x ∈ v.stalls, x.kind = .posted c.w.nextEntry ∧ c.owns x = true)
          ∧ c.w.SameVector v ∧ c.w.SameScalar v ∧ v.fflags = c.w.fflags ∧ SameBytes s1 t ∧ t.ord = s1.ord ∧ t.groups = s1.groups
          ∧ ∀ u, u ≠ c.w.uid → t.wave? u = s1.wave? u
    let mem := fun (o : OpMem) f => planLanes s1 c.w c.act (eaGlobal c.w c.base o.len o.base o.off o.disp) f
    let memU := fun (o : OpMemU) f => planLanes s1 c.w [c.low] (eaGlobal c.w c.base o.len (.scalar o.base) o.off o.disp) f
    let memS := fun (o : OpMemS) data => c.act.map (fun l => (l, planScratch (s1.scratchSize c.w) l
      (eaScratch c.w c.base o.len o.base o.off o.disp l) (o.ty.width / 8) (data l) 0))
    let vec := fun wide (d : BitVec 7) l => c.w.vget (c.base + d.toNat) wide l
    let dest := fun wide (d : BitVec 7) =>
      if wide then [MarkOn.vec (c.base + d.toNat), .vec (c.base + (d.toNat + 1))] else [.vec (c.base + d.toNat)]
    let atom := fun (base : ABase) (off : RSrc) f =>
      planLanes s1 c.w c.act (fun l => aBase c.w c.base base l + rOff c.w c.base off l) f
    (∀ o, issued (.ld o) (mem o (fun l => s1.planLoad l c.w.agent o.ty))
      (fun a => { instr := .ld o, kind := .load, acquire := o.ord.isSome, accs := a, marks := dest o.ty.wide o.d }))
    ∧ (∀ o, issued (.st o) (mem o (fun l k ea => s1.planStore l c.w.agent o.ty k ea (dataBits o.ty (vec o.ty.wide o.d k))))
      (fun a => { instr := .st o, kind := .store, release := o.ord, accs := a }))
    ∧ (∀ o, issued (.lds o) (memS o (fun _ => 0))
      (fun a => { instr := .lds o, kind := .load, acquire := o.ord.isSome, accs := a, marks := dest o.ty.wide o.d }))
    ∧ (∀ o, s1.gridReads c.w = false → issued (.sts o) (memS o (fun l => dataBits o.ty (vec o.ty.wide o.d l)))
      (fun a => { instr := .sts o, kind := .store, release := o.ord, accs := a }))
    ∧ (∀ o, uniformOff o c = none → issued (.ldu o) (memU o (fun l => s1.planLoad l c.w.agent o.ty))
      (fun a => { instr := .ldu o, kind := .load, acquire := o.ord.isSome, accs := a, marks := [.scalar o.d.toNat] }))
    ∧ (∀ o, uniformOff o c = none →
      issued (.stu o) (memU o (fun l k ea => s1.planStore l c.w.agent o.ty k ea (dataBits o.ty (c.w.sget o.d.toNat))))
      (fun a => { instr := .stu o, kind := .store, release := o.ord, accs := a }))
    ∧ (∀ o : OpAtom, issued (.atom o) (atom o.base o.off (fun l k ea => s1.planAtom l c.w.agent o.op o.wide k ea
        (atomMask o.wide (laneRead c.w c.base o.c o.wide k)) (atomMask o.wide (vec o.wide o.cmp k))))
      (fun a => { instr := .atom o, kind := .atomic, acquire := o.ord.isSome, release := o.ord, accs := a, marks := dest o.wide o.d }))
    ∧ (∀ o : OpRed, issued (.red o) (atom o.base o.off (fun l k ea => s1.planAtom l c.w.agent o.op o.wide k ea
        (atomMask o.wide (laneRead c.w c.base o.c o.wide k)) 0))
      (fun a => { instr := .red o, kind := .atomic, acquire := o.ord.isSome, release := o.ord, accs := a }))
    ∧ (∀ o : OpAtoms, s1.gridReads c.w = false → issued (.atoms o) (c.act.map (fun l => (l, planScratch (s1.scratchSize c.w) l
        (alignDown (atomBytes o.wide) ((c.w.sget o.base.toNat + rOff c.w c.base o.off l) &&& 0xFFFFFFFF)) (atomBytes o.wide)
        (atomMask o.wide (laneRead c.w c.base o.c o.wide l)) (atomMask o.wide (vec o.wide o.cmp l)))))
      (fun a => { instr := .atoms o, kind := .atomic, acquire := o.ord.isSome, release := o.ord, accs := a, marks := dest o.wide o.d }))
    ∧ (∀ i id, (∃ o, i = .atom o) ∨ (∃ o, i = .red o) ∨ (∃ o, i = .atoms o) → s.begin i = some (c, s1) → c.stall? = some (.posted id) →
      (∀ e ∈ c.w.entries, e.id ≠ id) → c.split s1 = none →
      ∃ t, exec i s = .next t ∧ SameBytes s1 t ∧ t.ord = s1.ord ∧ t.groups = s1.groups
        ∧ ∀ w, s1.wave? c.w.uid = some w → ∃ v, t.wave? c.w.uid = some v ∧ v.fibres = w.fibres.map (fun f => { f with pc := c.past f, region := c.past f })
          ∧ v.NewRegion ∧ v.entries = w.entries ∧ w.SameVector v ∧ w.SameScalar v)

/-- R219, R221, R127: READ of an aligned lane whose bytes lie in reachable dies of this package completes: the lane has what
the wave sees at its places (its own revealed store, a copy, or the home), in a scratchpad what the scratchpad holds.
LOAD_DATA_RETURN then writes the destination, where the run holds it, and no other register. Neither changes a byte. Where the manual is silent the clause is
the model's choice, by log entry 20. -/
def Obligations.LoadStepsComplete : Prop :=
  ∀ (s : State) (r : AccRef) (w : Wave) (e : Entry) (a : Acc), s.acc? r = some (w, e, a) →
    (a.scratch = false → a.whole = true → a.got = [] → a.at_ ≠ [] → s.canRead r = true → s.asksNow r = true →
      s.poisonOf w e a = none → (∀ b ∈ a.at_ ++ a.scale.toList, b.peer = none ∧ b.hole = false ∧ s.reachable w.loc.die b.home = true
        ∧ (s.die b.home).held = false) →
      ∃ t v f b, exec (.read r) s = .next t ∧ t.acc? r = some (v, f, b) ∧ b.st = .returned
        ∧ b.got = (a.at_ ++ a.scale.toList).map (fun x => (s.readByte w (a.at_ ++ a.scale.toList) x).val) ∧ w.SameVector v ∧ w.SameScalar v
        ∧ SameBytes s t ∧ ∀ u, u ≠ r.wave → t.wave? u = s.wave? u)
    ∧ (∀ g, a.scratch = true → a.whole = true → a.at_ = [] → a.scale = none → a.got = [] → s.canRead r = true → s.asksNow r = true →
      s.group? w.launch w.group = some g → (∀ o ∈ span a.ea.toNat a.nbytes, mapGet false g.spoison (o / 4) = false) →
      ∃ t v f b, exec (.read r) s = .next t ∧ t.acc? r = some (v, f, b) ∧ b.st = .returned
        ∧ b.got = (span a.ea.toNat a.nbytes).map (fun o => mapGet 0 g.scratch o) ∧ w.SameVector v ∧ w.SameScalar v
        ∧ SameBytes s t ∧ t.groups = s.groups)
    ∧ (s.canReturn r = true → s.returnsNow r = true → a.lane < 64 →
      let lands := fun t v (wide : Bool) (d : BitVec 7) x => (∀ k, k = d.toNat ∨ (wide = true ∧ k = d.toNat + 1) → w.inRun e.id (e.base + k)) →
        v.vget (e.base + d.toNat) wide a.lane = fits wide x ∧ w.SameOthers v (e.base + d.toNat) wide [a.lane] ∧ w.SameScalar v ∧ SameBytes s t
      ∃ t v, exec (.loadDataReturn r) s = .next t ∧ t.wave? r.wave = some v ∧ t.groups = s.groups
        ∧ (∀ o, e.instr = .ld o → lands t v o.ty.wide o.d (loadValue o.ty a))
        ∧ (∀ o, e.instr = .lds o → lands t v o.ty.wide o.d (loadValue o.ty a))
        ∧ (∀ o, e.instr = .atom o → lands t v o.wide o.d (BitVec.ofNat 64 (leNat a.got)))
        ∧ (∀ o, e.instr = .atoms o → lands t v o.wide o.d (BitVec.ofNat 64 (leNat a.got)))
        ∧ (∀ o, e.instr = .ldu o → v.sget o.d.toNat = loadValue o.ty a ∧ (∀ n, n ≠ o.d.toNat → v.sget n = w.sget n)
            ∧ w.SameVector v ∧ SameBytes s t))

/-- R219, R221, R130: the steps of a store before it is performed. ACCEPT of an aligned global lane completes: its core's overlay gains the store,
revealed to its own wave alone, and no byte at home changes; an aligned scratchpad lane writes its bytes at once, another its next byte (R126), and no other. REVEAL and SEND complete: a store is
revealed to one more wave of its core, or goes onto the channel to its home die; no byte changes. -/
def Obligations.StoreStepsComplete : Prop :=
  (∀ (s : State) (r : AccRef) (w : Wave) (e : Entry) (a : Acc), s.acc? r = some (w, e, a) → s.canAccept r = true →
      (a.scratch = false → a.whole = true →
        ∃ t ov, exec (.accept r) s = .next t ∧ t.ord.overlay = s.ord.overlay ++ [ov] ∧ ov.revealed = [w.uid]
          ∧ ov.cells = a.at_.zip (leBytes a.nbytes a.data) ∧ ov.sent = false ∧ SameBytes s t ∧ t.groups = s.groups)
      ∧ (∀ g, a.scratch = true → s.group? w.launch w.group = some g → a.ea.toNat + a.nbytes ≤ 2 ^ 64 →
        (∀ o ∈ span a.ea.toNat a.nbytes, mapGet false g.spoison (o / 4) = false) → a.got.length < a.nbytes →
        let now := fun k => k < a.nbytes ∧ (a.whole = true ∨ k = a.got.length)
        ∃ t h, exec (.accept r) s = .next t ∧ t.group? w.launch w.group = some h ∧ SameBytes s t
          ∧ (∀ k, now k → mapGet 0 h.scratch (a.ea.toNat + k) = BitVec.ofNat 8 (a.data / 2 ^ (8 * k)))
          ∧ (∀ o, (∀ k, now k → o ≠ a.ea.toNat + k) → mapGet 0 h.scratch o = mapGet 0 g.scratch o)))
  ∧ (∀ (s : State) (id : Nat) (e : OvEntry), s.ov? id = some e →
      (∀ u, s.canReveal id u = true → ∃ t, exec (.reveal id u) s = .next t
        ∧ t.ov? id = some { e with revealed := e.revealed ++ [u] } ∧ t.mem = s.mem ∧ t.waves = s.waves)
      ∧ (s.canSend id = true → e.home.2 = none → s.reachable e.die e.home.1 = true → ∃ t, exec (.send id) s = .next t
        ∧ t.ov? id = some { e with sent := true } ∧ t.mem = s.mem ∧ t.waves = s.waves
        ∧ ∃ ch ∈ t.ord.chans, ch.src = e.die ∧ ch.dst = e.home.1 ∧ Msg.store id ∈ ch.msgs))

/-- R221, R324, R326: PERFORM of a store that its home does not refuse and that covers no poisoned word in part completes:
the store's bytes read back at home as it brought them, every other byte of memory as before, and the overlay entry is
gone. -/
def Obligations.PerformWritesItsBytes : Prop :=
  ∀ (s : State) (id : Nat) (e : OvEntry), s.ov? id = some e → s.canPerform id = true → s.performsNow id = true →
    (∀ x ∈ e.cells, x.1.hole = false) → (∀ x ∈ e.cells, ∀ y ∈ e.cells, x.1.pa = y.1.pa → x.2 = y.2) →
    (e.home.1 = e.die ∨ ∀ x ∈ e.cells, s.frameOwned x.1 = true) → s.mem.halfPoisoned e.whole = false →
      ∃ t, exec (.perform id) s = .next t ∧ t.ov? id = none ∧ (∀ x ∈ e.cells, t.byteOf x.1.pa = x.2)
        ∧ (∀ pa, (∀ x ∈ e.cells, x.1.pa ≠ pa) → t.byteOf pa = s.byteOf pa)
        ∧ t.waves = s.waves ∧ t.groups = s.groups ∧ t.objs = s.objs

/-- R133, R134, R330: ATOMIC completes, on plain memory of a die that the wave reaches, and in a scratchpad: the location takes the operation's value on
what it held, every other byte is as before, and ATOM or ATOMS delivers the old value to its lane, where the run holds the register. On a deterministic
die the old value of memory waits in its lane for the next round boundary. Where the manual is silent the clause is
the model's choice, by log entries 20 and 58. -/
def Obligations.AtomicCompletes : Prop :=
  ∀ (s : State) (r : AccRef) (w : Wave) (e : Entry) (a : Acc), s.acc? r = some (w, e, a) → s.canAtomic r = true → s.asksNow r = true → a.lane < 64 →
    let held := fun (wide : Bool) (d : BitVec 7) => ∀ k, k = d.toNat ∨ (wide = true ∧ k = d.toNat + 1) → w.inRun e.id (e.base + k)
    let new := fun old => atomNew (atomOf e.instr).1 (atomOf e.instr).2.1 (leNat old) a.data a.cmp
    (∀ (b : ByteAt) (bs : List ByteAt), a.scratch = false → a.scale = none → a.at_ = b :: bs → a.at_.length = a.nbytes → (a.at_.map (·.pa)).Nodup →
      (∀ x ∈ a.at_, x.hole = false ∧ s.mem.poisoned x.pa = false) → b.peer = none → s.reachable w.loc.die b.home = true →
      (s.die b.home).held = false → (b.home = w.loc.die ∨ s.frameOwned b = true) →
      (∃ o, e.instr = .red o) ∨ (∃ o, e.instr = .atom o ∧ held o.wide o.d) →
        let old := a.at_.map s.homeByte
        ∃ t v, exec (.atomic r) s = .next t ∧ t.wave? r.wave = some v
          ∧ (∀ x ∈ a.at_.zipIdx, t.byteOf x.1.pa = BitVec.ofNat 8 (new old / 2 ^ (8 * x.2)))
          ∧ (∀ pa, (∀ x ∈ a.at_, x.pa ≠ pa) → t.byteOf pa = s.byteOf pa)
          ∧ (s.admits w.loc.die = true → ∀ o, e.instr = .atom o →
              v.vget (e.base + o.d.toNat) o.wide a.lane = fits o.wide (BitVec.ofNat 64 (leNat old)) ∧ w.SameOthers v (e.base + o.d.toNat) o.wide [a.lane])
          ∧ (s.admits w.loc.die = false → w.SameVector v ∧ ∃ f x, t.acc? r = some (v, f, x) ∧ x.st = .returned ∧ x.got = old)
          ∧ (∀ o, e.instr = .red o → w.SameVector v) ∧ w.SameScalar v)
    ∧ (∀ (g : Group) (o : OpAtoms), a.scratch = true → e.instr = .atoms o → held o.wide o.d → s.group? w.launch w.group = some g →
      (∀ b ∈ a.at_ ++ a.scale.toList, b.hole = false) → a.ea.toNat + a.nbytes ≤ 2 ^ 64 →
      (∀ x ∈ span a.ea.toNat a.nbytes, mapGet false g.spoison (x / 4) = false) →
        let old := (span a.ea.toNat a.nbytes).map (fun x => mapGet 0 g.scratch x)
        ∃ t v h, exec (.atomic r) s = .next t ∧ t.wave? r.wave = some v ∧ t.group? w.launch w.group = some h
          ∧ (∀ k, k < a.nbytes → mapGet 0 h.scratch (a.ea.toNat + k) = BitVec.ofNat 8 (new old / 2 ^ (8 * k)))
          ∧ (∀ x, (∀ k, k < a.nbytes → x ≠ a.ea.toNat + k) → mapGet 0 h.scratch x = mapGet 0 g.scratch x)
          ∧ v.vget (e.base + o.d.toNat) o.wide a.lane = fits o.wide (BitVec.ofNat 64 (leNat old))
          ∧ w.SameOthers v (e.base + o.d.toNat) o.wide [a.lane] ∧ w.SameScalar v ∧ SameBytes s t)

/-- R127, R128, R133, R44: the values that loads deliver and atomics write. A load delivers its bytes as a little-endian number, extended by its integer type (LDU too); the
element of a typed page as it is, where its format is the load's own, and converted to the load's format where it is not; of a block page the value m * 2^(E - 127 - (b - 1)) of
its two's complement mantissa m, exactly, a NaN where the exponent byte E is 255. Signed minima and maxima compare as two's complement numbers, and FADD is the sum of R89,
rounded to nearest. Where the manual is silent the clause is
the model's choice, by log entry 104. -/
def Obligations.MemoryValues : Prop :=
  (∀ (a : Acc),
      (∀ t, loadValue (.int t) a = intExtend t (leNat a.got))
      ∧ (∀ f, a.efmt = 0 → loadValue (.flt f) a = BitVec.ofNat 64 (leNat a.got))
      ∧ (∀ f g, fmtOfEfmt a.efmt = some g → loadValue (.flt f) a
          = BitVec.ofNat 64 (if g = f then leNat a.got else (fConvert f g .rne (leNat a.got)).1))
      ∧ (∀ f b x, blockBits a.efmt = some b → a.got.drop (4 * b) = [x] → loadValue (.flt f) a
          = BitVec.ofNat 64 (blockElem b x.toNat (mantOf b (leNat (a.got.take (4 * b))) (a.lane % 32)))))
  ∧ (∀ b bits k, 0 < b → (mantOf b bits k - (bits / 2 ^ (b * k) : Nat)) % 2 ^ b = 0 ∧ -2 ^ (b - 1) ≤ mantOf b bits k ∧ mantOf b bits k < 2 ^ (b - 1))
  ∧ (∀ (b e : Nat) (m : Int), 2 ≤ b → b ≤ 8 → -2 ^ (b - 1) ≤ m → m < 2 ^ (b - 1) →
      blockElem b 255 m = 0x7FC00000
      ∧ (e < 255 → ∃ neg n k, fDecode .f32 (blockElem b e m) = .fin neg n k ∧ 0 ≤ k + 149
          ∧ (if neg then -(n : Int) else n) * 2 ^ ((k + 149).toNat + b) = m * 2 ^ (e + 23)))
  ∧ (∀ (wide : Bool) (x c cmp : Nat),
      let n := if wide then 64 else 32
      let least := fun (a b : Nat) => if (BitVec.ofNat n a).toInt ≤ (BitVec.ofNat n b).toInt then a else b
      x < 2 ^ n → c < 2 ^ n →
        atomNew .add wide x c cmp = (x + c) % 2 ^ n ∧ atomNew .and wide x c cmp = x &&& c ∧ atomNew .or wide x c cmp = x ||| c
          ∧ atomNew .xor wide x c cmp = x ^^^ c ∧ atomNew .minU wide x c cmp = min x c ∧ atomNew .maxU wide x c cmp = max x c
          ∧ atomNew .minS wide x c cmp = least x c ∧ atomNew .maxS wide x c cmp = (if least x c = x then c else x)
          ∧ atomNew .fadd wide x c cmp = (fAdd .f32 .rne x c).1
          ∧ atomNew .exch wide x c cmp = c ∧ atomNew .cas wide x c cmp = (if x = cmp then c else x))

/-- R221, R142, R62, R238, R280: INVAL, FILL, EVENT, MISS_RETRY and XLATE_RETRY_RESEND complete. INVAL drops the line from the
die that it was sent to, FILL copies a line as its home holds it, EVENT takes its message's event to the object (of a core object it writes the 16 bytes in the
group's scratchpad and no other), MISS_RETRY sends the lowest lanes for which entries are free, and all of them at the 64th retry; a resent lane is translated
afresh, and one that writes to a page sealed since raises LEASE; no byte of memory changes. Where the manual is silent the clause is
the model's choice, by log entries 12, 52 and 124. -/
def Obligations.OrderingStepsComplete : Prop :=
  ∀ (s : State),
    (∀ ch line by_, s.headMsg? ch = some (.inval line by_) → s.admits ch.dst = true → (s.die ch.dst).held = false → ∃ t, exec (.inval ch) s = .next t ∧ t.mem = s.mem
      ∧ t.ord.copies = s.ord.copies.filter (fun x => !(copyDie x.place == ch.dst && x.line == line)) ∧ t.waves = s.waves)
    ∧ (∀ line k, s.canFill line k = true → ∃ t, exec (.fill line k) s = .next t ∧ t.mem = s.mem ∧ t.waves = s.waves
      ∧ ⟨k, line, s.ord.nextStamp - 1, s.lineNow line⟩ ∈ t.ord.copies
      ∧ ∀ x ∈ t.ord.copies, x.place = k → x.line = line → x.data = s.lineNow line)
    ∧ (∀ ch o op by_ b, s.headMsg? ch = some (.event o op by_) → s.canEvent ch = true → ch.src = ch.dst ∨ s.admits ch.dst = true →
      s.objPoisoned o = false → s.obj? o = some b →
      (∀ l g off, o = .core l g off → b.expB < 2 ^ 31 ∧ (∀ q p, by_ ≠ some (.piece q p)) ∧ (∀ x y, op = .binit x y → x < 2 ^ 16 ∧ y < 2 ^ 31)) →
      ∃ t, exec (.event ch) s = .next t ∧ t.obj? o = some (barEvent b op).1 ∧ t.mem = s.mem
        ∧ ((∀ l g off, o ≠ .core l g off) → (∀ q p, by_ ≠ some (.piece q p)) → t.groups = s.groups)
        ∧ (∀ l g off, o = .core l g off → ∃ gr h, s.group? l g = some gr ∧ t.group? l g = some h
            ∧ ∀ x, x < off ∨ off + 16 ≤ x → mapGet 0 h.scratch x = mapGet 0 gr.scratch x))
    ∧ (∀ u pc w x id n k e, s.wave? u = some w → s.canMissRetry u pc = true → w.retryAt pc = some (x, id, n, k) →
      w.entries.find? (fun e => e.id == id) = some e → ∃ t v, exec (.missRetry u pc) s = .next t ∧ t.wave? u = some v
        ∧ (∀ f, v.entries.find? (fun e => e.id == id) = some f →
            f.accs = sendMore ((s.splitAt w x.pc x.base x.lanes).getD 64)
              (if 64 ≤ n then 64 else s.missFree w.loc.die w.loc.core (some k)) e.accs)
        ∧ w.SameVector v ∧ w.SameScalar v ∧ t.mem = s.mem)
    ∧ (∀ r w e a b, s.acc? r = some (w, e, a) → s.canResend r = true → s.replan w e a = .ok b →
      ∃ t v f g, exec (.xlateRetryResend r) s = .next t ∧ t.acc? { r with lane := b.lane } = some (v, f, g) ∧ g = b ∧ t.mem = s.mem
        ∧ w.SameVector v ∧ w.SameScalar v)
    ∧ (∀ r w e a x, s.acc? r = some (w, e, a) → s.canResend r = true → s.replan w e a = .error x → e.sealedOut x.1 = true → w.pend = [] →
      ∃ t v, exec (.xlateRetryResend r) s = .next t ∧ t.wave? r.wave = some v ∧ v.pend.map (·.fault) = [.lease] ∧ t.mem = s.mem
        ∧ (e.kind = .store → w.SameVector v ∧ w.SameScalar v))

/-! ## FENCE and barriers (R135, R138 to R147, R223 to R226) -/

/-- R5, R135, R223, R224, R238: FENCE completes once the wave's earlier accesses are done, no imprecise fault is pending and, for a
releasing kind, what the wave has observed is settled at its scope. An acquiring kind then inherits what the releases carry that the wave's reads
returned. No register, predicate or byte changes. A synchronisation point with pending imprecise faults raises them all, and takes no effect: one record each
goes to the launch's queue, in order, and none is pending after it. Where the manual is silent the clause is
the model's choice, by log entry 103. -/
def Obligations.SynchronisationCompletes : Prop :=
  (∀ (o : OpFence) (s s1 : State) (c : Ctx), Runs (.fence o) s c s1 → fenceBusy c s1 = false → c.w.pend = [] →
      (o.kind = .acq ∨ s1.settledAll c.w.loc.die c.w.loc.core o.scope c.w.observed = true) →
        ∃ t v, exec (.fence o) s = .next t ∧ t.wave? c.w.uid = some v
          ∧ v.fibres = c.w.fibres.map (fun f => { f with pc := c.past f }) ∧ c.w.SameVector v ∧ c.w.SameScalar v
          ∧ v.fflags = c.w.fflags ∧ v.observed = (if o.kind = .rel then c.w.observed else (s1.acquireSeen c.w).observed)
          ∧ SameBut c.w.uid s1 t)
  ∧ (∀ (i : Instr) (s s1 : State) (c : Ctx) (p : PendFault) (ps : List PendFault) (l : Launch),
      ((∃ o, i = .fence o) ∨ (∃ o, i = .endF o ∧ endBusy c s1 = false)) → Runs i s c s1 → fenceBusy c s1 = false →
      c.w.pend = p :: ps → s1.launch? c.w.launch = some l → l.block.faultEnd = false →
        ∃ (t : State) (v : Wave) (rs : List FaultRec), exec i s = .next t ∧ t.wave? c.w.uid = some v ∧ v.pend = [] ∧ v.lost = []
          ∧ v.parked = some ⟨p.fault, c.pc, c.base, laneMask c.set_, c.len, false, true⟩ ∧ v.fibres = c.w.fibres
          ∧ t.records = s1.records ++ rs.map (fun r => Record.fault l.queue r)
          ∧ rs.map (fun r : FaultRec => (r.code, r.pc, r.syncpc, r.addr, r.cls))
            = (p :: ps).map (fun q => (faultCode q.fault, q.pc, c.pc, q.addr, 1)) ∧ SameBytes s1 t)

/-- R143 to R145: BINIT and EXPECT with a handle that the wave may use complete where no earlier access of the wave to a core object's bytes is outstanding and no earlier acquire has yet to take its step (R222), and so does ARRIVE once its wave's earlier
accesses are done and what it has observed is settled at the object's scope. A core object takes the event at once; an event
on another object goes onto the channel to the object's die, once the log of messages to it has room (R333); where no route serves that die the event is lost, and
the wave has a REMOTE_UNREACHABLE fault pending. A new region begins; no register changes, and no byte but the
16 of a core object in the group's scratchpad. The algebra of the events (R142): an arrival takes one from the pending arrivals, or marks an overflow where
none is pending; a landing takes bytes; EXPECT adds them, up to 2^31 - 1; BINIT sets both counts and phase 0. Where no arrival and no byte is then pending, the
phase moves on by one modulo 16 and the counts return to what is expected. Where the manual is silent the clause is
the model's choice, by log entry 122. -/
def Obligations.BarrierEventsComplete : Prop :=
  (∀ (i : Instr) (a : BitVec 6) (op : BarOp) (s s1 : State) (c : Ctx) (h : Handle) (r : ObjRef) (b : BarObj),
    ((∃ o : OpBinit, i = .binit o ∧ a = o.a ∧ op = binitOp o c.w ∧ c.acquiring = false)
      ∨ (∃ o : OpExpect, i = .expect o ∧ a = o.a ∧ op = .expect (b32 c.w c.base o.len o.b c.low) ∧ uniformB o.b o.len c = none
          ∧ c.acquiring = false)
      ∨ (∃ o : OpArrive, i = .arrive o ∧ a = o.a ∧ op = .arrive c.w.observed ∧ fenceBusy c s1 = false ∧ c.w.pend = []
          ∧ s1.gridReads c.w = false ∧ s1.settledAll c.w.loc.die c.w.loc.core h.scope c.w.observed = true)) →
    i.wf = true → Runs i s c s1 → s1.handle? c.w (c.w.sget a.toNat) = some (h, r) → s1.obj? r = some b → b.expB < 2 ^ 31 →
    s1.objPoisoned r = false → c.w.objPending r = false →
      (∀ la g off, r = .core la g off → ∃ t v, exec i s = .next t ∧ t.wave? c.w.uid = some v ∧ t.obj? r = some (barEvent b op).1
        ∧ c.w.SameVector v ∧ c.w.SameScalar v ∧ v.NewRegion ∧ SameBytes s1 t
        ∧ v.fibres.map (fun f => { f with region := 0 }) = c.w.fibres.map (fun f => { f with pc := c.past f, region := 0 })
        ∧ ∀ gr k, s1.group? la g = some gr → k < off ∨ off + 16 ≤ k →
            ∃ gr', t.group? la g = some gr' ∧ mapGet 0 gr'.scratch k = mapGet 0 gr.scratch k)
      ∧ (∀ sc hm ix, r = .net sc hm ix → s1.sendsStalled c.w.loc.die (objDie r) = false → ∃ t v, exec i s = .next t
        ∧ t.wave? c.w.uid = some v ∧ t.obj? r = some b
        ∧ c.w.SameVector v ∧ c.w.SameScalar v ∧ SameBytes s1 t ∧ t.groups = s1.groups
        ∧ (s1.reachable c.w.loc.die (objDie r) = true → ∃ ch ∈ t.ord.chans, ch.src = c.w.loc.die ∧ ch.dst = objDie r
            ∧ Msg.event r op (some (.wave c.w.uid c.w.nextEntry)) ∈ ch.msgs)
        ∧ (s1.reachable c.w.loc.die (objDie r) = false → c.w.pend = [] → v.pend.map (·.fault) = [.remoteUnreachable] ∧ t.ord.chans = s1.ord.chans)))
  ∧ (∀ (b : BarObj),
    let completed := fun (x : BarObj) => ({ x with
      lovf := x.ovf || decide (x.penB < 0), ovf := false, phase := (x.phase + 1) % 16, penA := x.expA, penB := x.expB } : BarObj)
    let after := fun (x : BarObj) => if x.penA = 0 ∧ x.penB ≤ 0 then (completed x, true) else (x, false)
    (∀ ids, 0 < b.penA → barEvent b (.arrive ids) = after { b with penA := b.penA - 1 })
    ∧ (∀ ids, b.penA = 0 → barEvent b (.arrive ids) = after { b with ovf := true })
    ∧ (∀ (n : Nat) ids, -2 ^ 31 ≤ b.penB - n → b.penB < 2 ^ 31 → barEvent b (.landing n ids) = after { b with penB := b.penB - n })
    ∧ (∀ n : Nat, b.penB + n ≤ 2 ^ 31 - 1 → barEvent b (.expect n) = after { b with penB := b.penB + n })
    ∧ (∀ n : Nat, 2 ^ 31 - 1 < b.penB + n → barEvent b (.expect n) = after { b with penB := 2 ^ 31 - 1, ovf := true })
    ∧ (∀ a n, barEvent b (.binit a n) = (⟨a, a, n, n, 0, false, false⟩, false)))

/-- R146, R147: WAIT, issued with the object's phase one to eight phases past the token, completes once the wave's earlier operations
are done, and what is pending has been raised: pD says whether more than one phase has passed. With the phase at the token it blocks; once woken, with
the phases that have completed since counted, it completes. BTEST and BPHASE complete where the wave's own earlier events on the object have
reached it and no earlier acquire has yet to take its step (R222): pD says whether one to eight phases have passed, sD takes the object's
snapshot. No register but the destination changes, and no byte. Where the manual is silent the clause is
the model's choice, by log entry 14. -/
def Obligations.BarrierReadsComplete : Prop :=
  ∀ (s s1 : State) (c : Ctx) (h : Handle) (r : ObjRef) (b : BarObj),
    let at_ := fun (a : BitVec 6) => s1.handle? c.w (c.w.sget a.toNat) = some (h, r) ∧ s1.obj? r = some b ∧ s1.objPoisoned r = false
    let pred := fun (i : Instr) (w : Wave) (d : BitVec 4) (x : Bool) => ∃ t v, exec i s = .next t ∧ t.wave? c.w.uid = some v
      ∧ (∀ l ∈ c.act, v.pget d.toNat l = (d.toNat == 15 || x))
      ∧ (∀ p l, p < 16 → ¬(p = d.toNat ∧ l ∈ c.act) → v.pget p l = w.pget p l)
      ∧ w.SameVector v ∧ w.SameScalar v ∧ SameBut c.w.uid s1 t
    let since := fun (o : OpWait) => (b.phase + 16 - b32 c.w c.base o.len o.b c.low % 16) % 16
    (∀ o : OpWait, Runs (.wait o) s c s1 → at_ o.a → uniformB o.b o.len c = none → c.w.owes r = false → fenceBusy c s1 = false →
      c.w.pend = [] →
      (1 ≤ since o → since o ≤ 8 → (b.lovf = true → since o ≠ 1) → pred (.wait o) c.w o.d (2 ≤ since o))
      ∧ (since o = 0 → ∃ t v, exec (.wait o) s = .next t ∧ t.wave? c.w.uid = some v ∧ v.fibres = c.w.fibres
          ∧ (∃ x ∈ v.stalls, c.owns x = true ∧ x.kind = .wait r (tokenOf o c) 0 true)
          ∧ c.w.SameVector v ∧ c.w.SameScalar v ∧ SameBut c.w.uid s1 t))
    ∧ (∀ (o : OpWait) (w : Wave) (k e : Nat), s.begin (.wait o) = some (c, s1) → s1.wave? c.w.uid = some w → c.act ≠ [] → c.split s1 = none →
      c.stall? = some (.wait r k e false) → at_ o.a → fenceBusy c s1 = false → c.w.pend = [] → 1 ≤ e → (b.lovf = true → e ≠ 1) →
        pred (.wait o) w o.d (2 ≤ e))
    ∧ (∀ o : OpWait, Runs (.btest o) s c s1 → at_ o.a → uniformB o.b o.len c = none → c.acquiring = false → c.w.owes r = false →
        pred (.btest o) c.w o.d (1 ≤ since o && since o ≤ 8))
    ∧ (∀ o : OpBphase, Runs (.bphase o) s c s1 → at_ o.a → c.acquiring = false → c.w.owes r = false →
        WritesS (.bphase o) s c s1 o.d (barSnapshot b))

/-! ## Engines and rings (R149 to R163, R212) -/

/-- R149 to R159: CPY, CPY2D, GATHER, SCATTER and QCPY complete where no check of R152 fails, their engines have room and no
MMA still reads scratchpad: one request joins the engines' requests, with the pieces of its transfer, counted on the object
of its handle. A copy of length 0 passes with no request. A gated copy takes a unit of its gate. A new region begins; no
register and no byte changes. Where the manual is silent the clause is
the model's choice, by log entry 74. -/
def Obligations.EngineIssueCompletes : Prop :=
  ∀ (s s1 : State) (c : Ctx) (l : Launch) (h : Handle) (ob : ObjRef), s1.launch? c.w.launch = some l →
    let accepts := fun (i : Instr) (a : EAsk) => Runs i s c s1 → s1.engChk c a = none → s1.gridReads c.w = false →
      (a.length = 0 → ∃ t v, exec i s = .next t ∧ t.wave? c.w.uid = some v ∧ v.NewRegion ∧ c.w.SameRegs v ∧ t.reqs = s1.reqs
        ∧ SameBytes s1 t)
      ∧ (a.length ≠ 0 → s1.handle? c.w a.hnd = some (h, ob) →
        s1.engRoom c.w.loc.die (s1.coresOf c.w (s1.targets c.w a.dsp a.mc)) = true →
        ∃ t v q, exec i s = .next t ∧ t.wave? c.w.uid = some v ∧ v.NewRegion ∧ c.w.SameRegs v ∧ t.reqs = s1.reqs ++ [q]
          ∧ q.wave = c.w.uid ∧ q.launch = c.w.launch ∧ q.group = c.w.group ∧ q.before = c.w.nextEntry ∧ q.started = true
          ∧ q.obj = ob ∧ q.pieces = s1.askPieces l c.w a ob ∧ SameBytes s1 t ∧ t.groups = s1.groups
          ∧ ∀ k wd g, a.gate = some k → s1.world? l.world = some wd → wd.gates[k]? = some g → g.limit ≠ 2 ^ 32 - 1 →
              ∃ wd' g', t.world? l.world = some wd' ∧ wd'.gates[k]? = some g' ∧ g'.remaining = g.remaining - 1)
    (∀ o, ((o.gate && o.bv) = true → c.nonuniform (gateNo o c) = none) → accepts (.cpy o) (cpyAsk o c))
      ∧ (∀ o, accepts (.cpy2d o) (cpy2dAsk o c)) ∧ (∀ o, accepts (.gather o) (gatherAsk o c))
      ∧ (∀ o, accepts (.scatter o) (scatterAsk o c)) ∧ (∀ o, accepts (.qcpy o) (qcpyAsk o c))

/-- R160 to R163: COLL, RPUSH and RFREE complete. COLL joins the collective of its quad set with its number; RPUSH becomes
a request that waits for its slot to be free, and moves HEAD and the slot's token on in the descriptor, changing no other
slot's token and no other byte of scratchpad; a push of length 0 passes with no request; RFREE is an arrival on its slot's free object. Where the manual is silent the clause is
the model's choice, by log entries 40 and 41. -/
def Obligations.RingsAndCollectivesComplete : Prop :=
  ∀ (s s1 : State) (c : Ctx) (g : Group) (h : Handle) (ob : ObjRef), s1.group? c.w.launch c.w.group = some g →
    s1.gridReads c.w = false →
      (∀ o, Runs (.coll o) s c s1 → orStep (s1.engChk c (collAsk o c)) (collMcChk o c s1) = none → s1.collRoom c.w = true →
          let n := mapGet 0 s1.colls (collKey c.w.launch c.w.group)
          ∃ t v q, exec (.coll o) s = .next t ∧ t.wave? c.w.uid = some v ∧ v.NewRegion ∧ c.w.SameRegs v
            ∧ t.reqs = s1.reqs ++ [q] ∧ q.started = false ∧ (s1.handle? c.w (c.w.sget o.hnd.toNat) = some (h, ob) → q.obj = ob)
            ∧ q.member = some (g.quadset.getD (2 ^ 32 + g.index), s1.physCore g.die g.core % 4, n)
            ∧ mapGet 0 t.colls (collKey c.w.launch c.w.group) = n + 1 ∧ SameBytes s1 t)
      ∧ (∀ o l,
        let r := s1.ring c.w (ringAt o.d c)
        Runs (.rpush o) s c s1 → ringPending o.d c = false → rpushChk o c s1 = none → (pushShape o c).1 ≠ 0 → s1.launch? c.w.launch = some l →
        s1.handle? c.w (rpushAsk o r c).hnd = some (h, ob) →
        s1.engRoom c.w.loc.die (s1.coresOf c.w [c.w.group]) = true → (∀ q ∈ s1.reqs, q.id ≠ s1.own.uid) →
          ∃ t v q g', exec (.rpush o) s = .next t ∧ t.wave? c.w.uid = some v ∧ v.NewRegion ∧ c.w.SameRegs v
            ∧ t.reqs = s1.reqs ++ [q] ∧ q.started = false ∧ q.obj = ob
            ∧ q.ring = some (.core c.w.launch c.w.group (r.free r.head), r.token)
            ∧ q.pieces = s1.askPieces l c.w (rpushAsk o r c) ob ∧ t.group? c.w.launch c.w.group = some g'
            ∧ mapGet 0 g'.scratch (r.at_ + 9) = BitVec.ofNat 8 ((r.head + 1) % r.nslot)
            ∧ (mapGet 0 g'.scratch (r.at_ + 16 + r.head / 2)).toNat / 16 ^ (r.head % 2) % 16 = (r.token + 1) % 16
            ∧ (mapGet 0 g'.scratch (r.at_ + 16 + r.head / 2)).toNat / 16 ^ (1 - r.head % 2) % 16
              = r.ftok / 2 ^ (8 * (r.head / 2)) / 16 ^ (1 - r.head % 2) % 16
            ∧ (∀ k, k ≠ r.at_ + 9 → k ≠ r.at_ + 16 + r.head / 2 → mapGet 0 g'.scratch k = mapGet 0 g.scratch k) ∧ SameBytes s1 t)
      ∧ (∀ o, Runs (.rpush o) s c s1 → ringPending o.d c = false → (pushShape o c).1 = 0 →
          ∃ t v, exec (.rpush o) s = .next t ∧ t.wave? c.w.uid = some v ∧ v.NewRegion ∧ c.w.SameRegs v ∧ t.reqs = s1.reqs ∧ SameBytes s1 t)
      ∧ (∀ o b,
        let off := (s1.ring c.w (ringAt o.a c)).free (rfreeSlot o c)
        Runs (.rfree o) s c s1 → ringPending o.a c = false → rfreeChk o c s1 = none → fenceBusy c s1 = false → c.w.pend = [] →
        s1.settledAll c.w.loc.die c.w.loc.core .core c.w.observed = true →
        s1.obj? (.core c.w.launch c.w.group off) = some b → b.expB < 2 ^ 31 →
        s1.objPoisoned (.core c.w.launch c.w.group off) = false →
          ∃ t v, exec (.rfree o) s = .next t ∧ t.wave? c.w.uid = some v ∧ v.NewRegion ∧ c.w.SameVector v ∧ c.w.SameScalar v
            ∧ t.obj? (.core c.w.launch c.w.group off) = some (barEvent b (.arrive c.w.observed)).1 ∧ SameBytes s1 t)

/-- R153, R155, R160, R162: ENGINE_READ, RING_FREE_WAIT_MET and COLL_START complete: the piece has the bytes of its sources as
they are now; a push whose slot has been freed, or whose free object is poisoned, starts; a collective whose four members have come starts, each member with
the pieces of its own destination. No byte changes. Where the manual is silent the clause is
the model's choice, by log entries 39 and 120. -/
def Obligations.EngineStepsComplete : Prop :=
  ∀ (s : State) (id : Nat) (q : EngReq), s.req? id = some q →
    (∀ k p rs, q.piece? k = some p → s.canEngineRead id k = true → s.engineAsksNow id k = true → s.readPiece q p = some rs →
      (∀ b ∈ State.engPlaces rs, b.hole = false) →
      ∃ t q' p', exec (.engineRead id k) s = .next t ∧ t.req? id = some q' ∧ q'.piece? k = some p'
        ∧ p'.data = some (readData p.src rs) ∧ q'.begun = true ∧ SameBytes s t ∧ t.groups = s.groups)
    ∧ (s.canRingMet id = true → ∃ t, exec (.ringFreeWaitMet id) s = .next t ∧ t.req? id = some { q with started := true }
        ∧ t.mem = s.mem ∧ t.waves = s.waves ∧ t.groups = s.groups)
    ∧ (∀ z ms, s.canCollStart id = true → s.members q = z :: ms → (∀ r ∈ s.reqs, collPieces z r (z :: ms) ≠ []) →
      ∃ t, exec (.collStart id) s = .next t ∧ t.mem = s.mem ∧ t.groups = s.groups
        ∧ t.reqs = s.reqs.map (fun r => if (z :: ms).any (fun m => m.id == r.id)
            then { r with started := true, pieces := collPieces z r (z :: ms) } else r))

/-- R153, R212, R219, R226: ENGINE_LANDING of a piece completes where its places lie in reachable dies of this package and none
refuses it. A piece for the memory of another die is first sent on the channel to it, and no byte changes. Otherwise, and at the head of that
channel, it lands: each destination byte in memory reads as the piece brought it, and every other byte of memory as before; each
destination byte in a scratchpad holds what the piece brought, where the landing's own barrier object does not cover it and the group has not ended. Where the manual is silent the clause is
the model's choice, by log entry 39. -/
def Obligations.LandingWritesItsBytes : Prop :=
  ∀ (s : State) (id k : Nat) (q : EngReq) (p : Piece) (cs : List ECell), s.req? id = some q → q.piece? k = some p →
    p.wid = none → s.landCells q p = some cs → s.canEngineLanding id k = true → p.dst.length = p.src.length →
    (∀ x ∈ cs, ∀ b, x.place = some b → b.hole = false ∧ b.peer = none ∧ s.cut q.die b = false ∧ s.refusedAt q.die b = false) →
    (∀ x ∈ cs, s.sealedDst q x.loc = false) →
    (∀ x ∈ cs, ∀ y ∈ cs, x.loc = y.loc ∨ (∃ b d, x.place = some b ∧ y.place = some d ∧ b.pa = d.pa) → x.val = y.val) →
      (∀ ch, s.landChan q p cs = some ch → p.sent = none → ∃ t, exec (.engineLanding id k) s = .next t ∧ SameBytes s t ∧ t.groups = s.groups
        ∧ t.waves = s.waves ∧ ∃ x ∈ t.ord.chans, x.src = ch.src ∧ x.dst = ch.dst ∧ Msg.landing id k ∈ x.msgs)
      ∧ (s.landChan q p cs = none ∨ p.sent.isSome = true →
        ∃ t, exec (.engineLanding id k) s = .next t ∧ (∀ x ∈ cs, ∀ b, x.place = some b → t.byteOf b.pa = x.val)
        ∧ (∀ pa, (∀ x ∈ cs, ∀ b, x.place = some b → b.pa ≠ pa) → t.byteOf pa = s.byteOf pa)
        ∧ (∀ x ∈ cs, ∀ la g off, x.loc = .scr la g off → (∀ o, p.obj = .core la g o → off < o ∨ o + 16 ≤ off) →
            (∀ gr, s.group? la g = some gr → gr.waves ≠ 0) → ∃ gr, t.group? la g = some gr ∧ mapGet 0 gr.scratch off = x.val))

/-! ## The matrix grid (R164 to R170) -/

/-- R164, R165, R168 to R170: the matrix words complete. MMODE.on, with every fibre at one window base, and MMODE.off, with
the wave's grid operations landed, set the mode and begin a new region. MZERO, MEPI and MSTS, with the wave's operations
landed, and MMA, with its operands staged, join the end of the quarter's grid and mark the accumulators. No register and no
byte changes. Where the manual is silent the clause is
the model's choice, by log entry 42. -/
def Obligations.MatrixWordsComplete : Prop :=
  ∀ (s s1 : State) (c : Ctx),
    let qof := fun (t : State) => t.quarter c.w.loc.die c.w.loc.core c.w.loc.quarter
    let goes := fun (i : Instr) (mode : Bool) => Runs i s c s1 → ∃ t v, exec i s = .next t ∧ t.wave? c.w.uid = some v
      ∧ v.matrix = mode ∧ v.NewRegion ∧ c.w.SameVector v ∧ c.w.SameScalar v ∧ v.fflags = c.w.fflags
      ∧ v.fibres.map (fun f => { f with region := 0 }) = c.w.fibres.map (fun f => { f with pc := c.past f, region := 0 })
      ∧ (c.w.matrix ≠ mode → (qof t).matrix = mode) ∧ SameBytes s1 t ∧ t.groups = s1.groups
    let enters := fun (i : Instr) (g : GridOp) => Runs i s c s1 → ∃ t v, exec i s = .next t ∧ t.wave? c.w.uid = some v
      ∧ (qof t).grid = (qof s1).grid ++ [g] ∧ v.marks = c.w.marks ++ [⟨.grid c.base, c.w.nextEntry⟩] ∧ c.w.SameVector v ∧ c.w.SameScalar v
      ∧ v.fibres.map (fun f => { f with region := 0 }) = c.w.fibres.map (fun f => { f with pc := c.past f, region := 0 })
      ∧ v.fflags = c.w.fflags ∧ SameBytes s1 t ∧ t.groups = s1.groups
    let landed := (s1.gridOf c.w).isEmpty = true
    (∀ o, (∀ f ∈ c.w.fibres, f.winbase = c.base) → goes (.mmodeOn o) true)
    ∧ (∀ o, landed → goes (.mmodeOff o) false)
    ∧ (∀ o, landed → enters (.mzero o) (blankGrid (.mzero o) c))
    ∧ (∀ o, landed → mepiChk o c s1 = none → enters (.mepi o) { blankGrid (.mepi o) c with params := mepiParams o c })
    ∧ (∀ o, landed → mstsChk o c s1 = none → enters (.msts o) { blankGrid (.msts o) c with params := mstsParams o c })
    ∧ (∀ o, mmaChk o c s1 = none → holdMma o c s1 = none →
      let st := stage (s1.group? c.w.launch c.w.group) c o.len o.fmt o.kappa.toNat
      let a := st o.a o.ea
      let b := st o.b o.eb
      let g : GridOp := { blankGrid (.mma o) c with rowsA := a.rows, rowsB := b.rows, expA := a.exps, expB := b.exps }
      enters (.mma o) { g with offsA := a.offs, offsB := b.offs, poisoned := (a.poison, b.poison), paddr := (a.bad ++ b.bad).headD 0 })

/-- R50, R51, R64, R165, R169, R170: grid operations land. MMA_LANDING of an operation whose operands nothing has changed since they were staged, and none of them
poisoned, with its accumulators in the run: lane j of v(64 + i) takes the dot product of row i of A and row j of B added to what it held, rounded once; %fflags gains the flags; the mark
goes; no other register and no byte changes. GRID_OP_LANDING of MZERO clears the accumulators and nothing else. That of MEPI or MSTS stores its
elements, in row-major order of row and column, where no scratchpad word is poisoned: where elements overlap, the later in that order stays. It changes no other
byte of scratchpad, no register and no byte of memory. Where the manual is silent the clause is
the model's choice, by log entry 15. -/
def Obligations.GridLandingsComplete : Prop :=
  (∀ (q : QRef) (s : State) (g : GridOp) (o : OpMma) (w : Wave), s.gridHead q = some g → g.instr = .mma o →
      (s.die q.die).held = false → s.wave? g.wave = some w → g.poisoned = ([], []) →
      g.rowsA.length = 64 → g.rowsB.length = 64 → (∀ i < 64, w.inRun g.entry (g.base + 64 + i)) →
      (∀ no, settleRows no (s.group? w.launch w.group) o.fmt.slice g.rowsA g.expA g.offsA = (g.rowsA, g.expA)) →
      (∀ no, settleRows no (s.group? w.launch w.group) o.fmt.slice g.rowsB g.expB g.offsB = (g.rowsB, g.expB)) →
        let row := fun (rows : List (List Nat)) i => elemsIn o.fmt (sliceNat (rows.getD i []))
        let r := fun i j => mmaResult o.fmt (row g.rowsA i) (row g.rowsB j) (g.expA.getD i 0) (g.expB.getD j 0) (w.accAt g.base i j)
        ∃ t v, exec (.mmaLanding q) s = .next t ∧ t.wave? g.wave = some v
          ∧ (∀ i j, i < 64 → j < 64 → v.slice (g.base + 64 + i) j = BitVec.ofNat 32 (r i j).1)
          ∧ (∀ n j, n < g.base + 64 ∨ g.base + 128 ≤ n → v.slice n j = w.slice n j) ∧ w.SameScalar v
          ∧ v.fflags = w.fflags ||| (orFlags ((List.range 64).flatMap (fun i => (List.range 64).map (fun j => (r i j).2)))).setWidth 64
          ∧ v.marks = w.marks.filter (fun m => m.entry != g.entry) ∧ SameBytes s t ∧ t.groups = s.groups
          ∧ (t.quarter q.die q.core q.quarter).grid = (s.quarter q.die q.core q.quarter).grid.tail)
  ∧ (∀ (q : QRef) (s : State) (g : GridOp) (w : Wave), s.gridHead q = some g → s.canGridOpLanding q = true →
      s.wave? g.wave = some w →
        (∀ o, g.instr = .mzero o → (∀ i < 64, w.inRun g.entry (g.base + 64 + i)) → ∃ t v, exec (.gridOpLanding q) s = .next t ∧ t.wave? g.wave = some v
          ∧ (∀ i j, i < 64 → j < 64 → v.slice (g.base + 64 + i) j = 0)
          ∧ (∀ n j, n < g.base + 64 ∨ g.base + 128 ≤ n → v.slice n j = w.slice n j) ∧ w.SameScalar v ∧ SameBytes s t ∧ t.groups = s.groups)
        ∧ (∀ gr xs, s.group? w.launch w.group = some gr →
          ((∃ o, g.instr = .mepi o ∧ xs = mepiStores o g gr w) ∨ (∃ o, g.instr = .msts o ∧ xs = mstsStores o g w)) →
          (∀ x ∈ xs, x.off + x.size ≤ 2 ^ 64) →
          (∀ k, mapGet false gr.spoison k = false) →
          ∃ t v gr', exec (.gridOpLanding q) s = .next t ∧ t.wave? g.wave = some v ∧ t.group? w.launch w.group = some gr'
            ∧ (∀ pre x post, xs = pre ++ x :: post → ∀ k < x.size, (∀ y ∈ post, x.off + k < y.off ∨ y.off + y.size ≤ x.off + k) →
                mapGet 0 gr'.scratch (x.off + k) = BitVec.ofNat 8 (x.bits / 2 ^ (8 * k)))
            ∧ (∀ k, (∀ x ∈ xs, k < x.off ∨ x.off + x.size ≤ k) → mapGet 0 gr'.scratch k = mapGet 0 gr.scratch k)
            ∧ w.SameVector v ∧ w.SameScalar v ∧ SameBytes s t))

/-! ## Estates (R174 to R179, R263 to R270, R349) -/

/-- R175, R179, R349: BEQUEATH and ESTATE complete, with no register and no scalar register changed. Where the launch has no bequest class, or roams, no lane bequeaths and pC is false in
every active lane. Where it has one, the core's directory has room, and no active lane has bequeathed or shares an identity
with an entry or with another, every active lane is recorded with the named registers, pC is true, and the registers take
the tag. No other register or predicate and no byte changes. ESTATE reports in D, in each active lane, on the estate of its identity, which stays
as it is; ESTATE.drop reports in the same way, where the identities differ, and a sealed estate that an active lane names is then no more. Where the manual is silent the clause is
the model's choice, by log entry 44. -/
def Obligations.BequestsComplete : Prop :=
  (∀ (o : OpBequeath) (s s1 : State) (c : Ctx), Runs (.bequeath o) s c s1 → ∃ t v, exec (.bequeath o) s = .next t
      ∧ t.wave? c.w.uid = some v ∧ c.w.SameVector v ∧ c.w.SameScalar v ∧ v.NewRegion ∧ t.groups = s1.groups)
  ∧ (∀ (o : OpBequeath) (s s1 : State) (c : Ctx) (l : Launch), Runs (.bequeath o) s c s1 → s1.launch? c.w.launch = some l →
      let ident := fun k => idOf c.w c.base o.id k
      let here := s1.directory c.w.loc.die c.w.loc.core
      let logs := ((List.range 8).filter (fun k => o.mask.getLsbD k)).map (fun k => c.base + o.a.toNat + k)
      let done := fun (t : State) (v : Wave) (ok : Bool) => exec (.bequeath o) s = .next t ∧ t.wave? c.w.uid = some v
        ∧ (∀ k ∈ c.act, v.pget o.c.toNat k = (o.c.toNat == 15 || ok))
        ∧ (∀ p k, p < 16 → ¬(p = o.c.toNat ∧ k ∈ c.act) → v.pget p k = c.w.pget p k)
        ∧ c.w.SameVector v ∧ c.w.SameScalar v ∧ v.NewRegion ∧ SameBytes s1 t
      (l.block.bclass = 0 ∨ l.block.roam = true → ∃ t v, done t v false ∧ t.estates = s1.estates ∧ v.etags = c.w.etags)
      ∧ (l.block.bclass ≠ 0 → l.block.roam = false → here.length + c.act.length ≤ 1024 →
          (∀ k ∈ c.act, ∀ e ∈ s1.estates, ¬(e.lane = k ∧ e.st = .recorded c.w.uid)) →
          (∀ k ∈ c.act, ∀ e ∈ here, ¬(e.launch = l.uid ∧ e.cls = l.block.bclass ∧ e.ident = ident k)) →
          (∀ j ∈ c.act, ∀ k ∈ c.act, j ≠ k → ident j ≠ ident k) →
          ∃ t v new, done t v true ∧ t.estates = s1.estates ++ new ∧ new.map (·.lane) = c.act
            ∧ (∀ e ∈ new, e.st = .recorded c.w.uid ∧ e.logs = logs ∧ e.ident = ident e.lane ∧ e.cls = l.block.bclass ∧ e.launch = l.uid
                ∧ e.tags = logs.map (fun _ => o.tag.code))
            ∧ (∀ g ∈ logs, v.etag g = o.tag.code) ∧ (∀ g, g ∉ logs → v.etag g = c.w.etag g)))
  ∧ (∀ (o : OpEstate) (s s1 : State) (c : Ctx) (l : Launch), s1.launch? c.w.launch = some l →
      let find := fun k => s1.findEstate l ((c.w.sget o.a.toNat).toNat % 2 ^ 16) (idOf c.w c.base o.id k)
      (Runs (.estate o) s c s1 → WritesV (.estate o) s c s1 o.d false c.act (fun k => (estateReport c.w (find k)).setWidth 64) 0)
      ∧ (Runs (.estateDrop o) s c s1 → ∃ t v, exec (.estateDrop o) s = .next t ∧ t.wave? c.w.uid = some v
          ∧ v.slice (c.base + o.d.toNat) c.low = estateReport c.w (find c.low)
          ∧ ((∀ j ∈ c.act, ∀ k ∈ c.act, j ≠ k → idOf c.w c.base o.id j ≠ idOf c.w c.base o.id k) →
              ∀ k ∈ c.act, v.slice (c.base + o.d.toNat) k = estateReport c.w (find k))
          ∧ c.w.SameOthers v (c.base + o.d.toNat) false c.act ∧ c.w.SameScalar v ∧ v.NewRegion
          ∧ (∀ k ∈ c.act, ∀ e, find k = some e → e.isSealed = true → e ∉ t.estates)
          ∧ ∀ e ∈ s1.estates, e ∉ t.estates → e.isSealed = true))

/-- R177, R178: CLAIM completes at issue: its answers join the issue list, with marks on what they will write; the identity
of each active lane is looked up under the class of sA, and where the active lanes' identities differ each answer says
none (8), one not sealed (16), or the registers of the sealed estate, which then is no more. CLAIM_DELIVERY writes each lane's answer: the registers that
it delivers, in the run, pC where it is exactly what was asked for, and %claim. No byte changes, and the entry leaves the issue list. Where the manual is silent the clause is
the model's choice, by log entries 43 and 123. -/
def Obligations.ClaimsComplete : Prop :=
  (∀ (o : OpClaim) (s s1 : State) (c : Ctx) (l : Launch), Runs (.claim o) s c s1 → s1.launch? c.w.launch = some l →
      let find := fun k => s1.findEstate l ((c.w.sget o.a.toNat).toNat % 2 ^ 16) (idOf c.w c.base o.id k)
      ∃ t v e, exec (.claim o) s = .next t ∧ t.wave? c.w.uid = some v ∧ v.entries = c.w.entries ++ [e]
        ∧ e.kind = .claim ∧ e.answers.map (·.lane) = c.act ∧ v.nextEntry = c.w.nextEntry + 1 ∧ v.NewRegion
        ∧ (∀ k < o.n.toNat, ⟨.vec (c.base + o.d.toNat + k), c.w.nextEntry⟩ ∈ v.marks) ∧ ⟨.claim, c.w.nextEntry⟩ ∈ v.marks
        ∧ c.w.SameVector v ∧ c.w.SameScalar v ∧ t.groups = s1.groups
        ∧ ((∀ j ∈ c.act, ∀ k ∈ c.act, j ≠ k → idOf c.w c.base o.id j ≠ idOf c.w c.base o.id k) → ∀ a ∈ e.answers,
            (find a.lane = none → a.st = 8 ∧ a.regs = [])
            ∧ (∀ x, find a.lane = some x → x.isSealed = false → a.st = 16 ∧ a.regs = [])
            ∧ (∀ x, find a.lane = some x → x.isSealed = true → x ∉ t.estates ∧ a.st.getLsbD 0 = true
                ∧ a.bcnt = x.regs.length ∧ a.st.getLsbD 1 = decide (o.n.toNat ≠ x.regs.length)
                ∧ a.regs.map (·.1) = (List.range o.n.toNat).map (fun k => x.regs.getD k 0))))
  ∧ (∀ (s : State) (u id : Nat) (w : Wave) (e : Entry) (o : OpClaim), s.claimAt u id = some (w, e, o) → s.canClaimDelivery u id = true →
      (e.answers.map (·.lane)).Nodup → (∀ a ∈ e.answers, a.lane < 64 ∧ (w.fibre? a.lane).isSome = true) →
      (∀ a ∈ e.answers, ∀ k < a.regs.length, w.inRun id (e.base + o.d.toNat + k)) →
      (∀ x ∈ w.low ++ w.high, x.log < w.runBase ∨ w.runBase + w.winsize ≤ x.log) →
        ∃ t v, exec (.claimDelivery u id) s = .next t ∧ t.wave? u = some v ∧ t.mem = s.mem
          ∧ (∀ a ∈ e.answers, (∀ k < a.regs.length, v.slice (e.base + o.d.toNat + k) a.lane = (a.regs.getD k (0, 0)).1)
              ∧ v.pget o.c.toNat a.lane = (o.c.toNat == 15 || a.st == 1)
              ∧ ∃ f, v.fibre? a.lane = some f ∧ f.claim = BitVec.ofNat 32 (a.st.toNat + a.bcnt * 2 ^ 12 + a.src * 2 ^ 16))
          ∧ (∀ n k, k < 64 → (∀ a ∈ e.answers, ¬(a.lane = k ∧ e.base + o.d.toNat ≤ n ∧ n < e.base + o.d.toNat + a.regs.length)) →
              v.slice n k = w.slice n k)
          ∧ v.entries = w.entries.filter (fun x => x.id != id) ∧ v.marks = w.marks.filter (fun m => m.entry != id) ∧ w.SameScalar v)

/-! ## The system words (R180 to R187) -/

/-- R180, R181: MIGRATE completes where its address has no other home die: pD is false, and the wave stays. MIGRATE_GRANT
completes: pD is true, the instruction is passed, and the wave is on its way to the slot that R181 names.
MIGRATION_LANDING seats it there, once the die has taken the rick that a repairable wave needs. No register and no byte changes. Where the manual is silent the clause is
the model's choice, by log entry 110. -/
def Obligations.MigrationCompletes : Prop :=
  (∀ (o : OpMigrate) (s s1 : State) (c : Ctx), Runs (.migrate o) s c s1 → migrateChk o c s1 = none →
    endBusy c s1 = false → c.w.pend = [] → s1.released c = true →
    s1.beingMoved c.w (migrateAddr o c c.low).toNat = false → s1.migrateTo o c = none →
      ∃ t v, exec (.migrate o) s = .next t ∧ t.wave? c.w.uid = some v ∧ (∀ l ∈ c.act, v.pget o.d.toNat l = (o.d.toNat == 15))
        ∧ (∀ p l, p < 16 → ¬(p = o.d.toNat ∧ l ∈ c.act) → v.pget p l = c.w.pget p l)
        ∧ c.w.SameVector v ∧ c.w.SameScalar v ∧ v.loc = c.w.loc ∧ v.NewRegion ∧ SameBut c.w.uid s1 t)
    ∧ (∀ (s : State) (u : Nat) (w : Wave) (c : Ctx) (o : OpMigrate) (l : Loc), s.grantFor u = some (w, c, o, l) →
      ∃ t v, exec (.migrateGrant u) s = .next t ∧ t.wave? u = some v ∧ v.transit = some l ∧ v.loc = w.loc ∧ l.slot = 8
        ∧ (∀ k ∈ c.act, v.pget o.d.toNat k = true)
        ∧ (∀ p k, p < 16 → ¬(p = o.d.toNat ∧ k ∈ c.act) → v.pget p k = w.pget p k)
        ∧ v.fibres.map (fun f => f.pc) = w.fibres.map c.past ∧ v.NewRegion ∧ w.SameVector v ∧ w.SameScalar v ∧ t.mem = s.mem
        ∧ t.groups = s.groups ∧ ∃ ch ∈ t.ord.chans, ch.src = w.loc.die ∧ ch.dst = l.die ∧ Msg.wave u ∈ ch.msgs)
    ∧ (∀ (s : State) (ch : ChanRef) (u : Nat) (w : Wave) (l : Loc), s.headMsg? ch = some (.wave u) → (s.die ch.dst).held = false →
      s.admits ch.dst = true → s.needsRick ch = false → s.wave? u = some w → w.transit = some l →
        ∃ t v, exec (.migrationLanding ch) s = .next t ∧ t.wave? u = some v ∧ v.loc = l ∧ v.transit = none ∧ v.fibres = w.fibres
          ∧ w.SameVector v ∧ w.SameScalar v ∧ t.mem = s.mem ∧ ∀ x, x ≠ u → t.wave? x = s.wave? x)

/-- R182, R183, R251: LAUNCH completes once its release has settled and its block can be read: pD says whether the queue's 64
device-side entries had room, and where they had, the block is the last of them. REMIT completes: pD is true in the active
lanes, in ascending order, for which the node's pool had room, and a record that fills no batch joins the node's. Where the manual is silent the clause is
the model's choice, by log entries 45 and 46. -/
def Obligations.LaunchAndRemitComplete : Prop :=
  ∀ (s s1 : State) (c : Ctx) (l : Launch), s1.launch? c.w.launch = some l → s1.released c = true →
    let done := fun (t : State) (i : Instr) (d : BitVec 4) (f : Nat → Bool) => ∃ v, exec i s = .next t
      ∧ t.wave? c.w.uid = some v ∧ (∀ k ∈ c.act, v.pget d.toNat k = (d.toNat == 15 || f k))
      ∧ (∀ p k, p < 16 → ¬(p = d.toNat ∧ k ∈ c.act) → v.pget p k = c.w.pget p k)
      ∧ c.w.SameVector v ∧ c.w.SameScalar v ∧ v.NewRegion ∧ SameBytes s1 t ∧ t.groups = s1.groups
    (∀ (o : OpLaunch) bs q, Runs (.launch o) s c s1 → launchChk o c s1 = none → s1.askedBlock o c l = some bs →
      s1.queue? l.queue = some q →
      ∃ t, done t (.launch o) o.d (fun _ => decide (q.device.length < 64))
        ∧ ∃ p, t.queue? l.queue = some p ∧ p.device = (if 64 ≤ q.device.length then q.device
            else q.device ++ [⟨s1.blockAt c.w.agent (s1.space l.world l.comp) (c.w.sget o.a.toNat).toNat bs, l.comp, reservedOk bs, c.w.observed⟩]))
    ∧ (∀ (o : OpRemit) n g, Runs (.remit o) s c s1 → remitChk o c s1 = none → s1.nodeOf c.w (c.w.sget o.a.toNat) = some (l, n) →
      s1.group? c.w.launch c.w.group = some g → n.records.length + c.act.length < n.g →
      let k := min c.act.length (n.capacity - n.pool)
      ∃ t, done t (.remit o) o.d (fun x => (c.act.take k).contains x)
        ∧ ∃ m, t.node? l.world n.id = some m ∧ m.waiting = n.waiting
          ∧ m.records = n.records ++ (List.range k).map (fun r => mapRun 0 g.scratch (remitAt o c n.z r) n.z))

/-- R184, R185: SRD completes, and D takes the special register's value, per lane, or the lowest active lane's in a scalar
register; where it reads %fflags, once the wave's grid operations have landed. On a die in deterministic issue a read of %tick or %ratio is listed too. SWR completes then too, and sets %fflags. The
values: the lane, the wave's and group's places, %tick, %fflags, the window, the sequence, world, compartment and claim. -/
def Obligations.SpecialRegistersComplete : Prop :=
  ∀ (s s1 : State) (c : Ctx),
    (∀ o : OpSrd, Runs (.srd o) s c s1 → (o.idx.toNat = 15 → (s1.gridOf c.w).isEmpty = true) →
      let sp := fun l => s1.special c o.idx.toNat (srdElem o c l) l
      let val := fun l => BitVec.ofNat 64 (if o.wide then sp l else sp l % 2 ^ 32)
      let listed := (o.idx.toNat = 12 ∨ o.idx.toNat = 13) ∧ s1.deterministic c.w.loc.die = true
      (¬listed → (∀ r, o.d = .vec r → WritesV (.srd o) s c s1 r o.wide c.act val 0)
          ∧ (∀ r, o.d = .scalar r → WritesS (.srd o) s c s1 r (val c.low)))
        ∧ (listed → ∃ t v, exec (.srd o) s = .next t ∧ t.wave? c.w.uid = some v ∧ SameBytes s1 t ∧ t.groups = s1.groups
          ∧ (∀ r, o.d = .vec r → ∀ l ∈ c.act, v.vget (c.base + r.toNat) o.wide l = fits o.wide (val l))
          ∧ (∀ r, o.d = .scalar r → v.sget r.toNat = val c.low)))
    ∧ (∀ o : OpSwr, Runs (.swr o) s c s1 → (s1.gridOf c.w).isEmpty = true →
      ∃ t v, exec (.swr o) s = .next t ∧ t.wave? c.w.uid = some v
        ∧ v.fflags = (c.w.setFlags (if o.wide then c.w.sget o.a.toNat else c.w.sget o.a.toNat &&& 0xFFFFFFFF)).fflags
        ∧ c.w.SameVector v ∧ c.w.SameScalar v ∧ c.w.SameFibres v ∧ c.w.SameRest v ∧ SameBut c.w.uid s1 t)
    ∧ (∀ (l : Launch) (f : Fibre) (k : Nat), s1.launch? c.w.launch = some l → c.w.fibre? k = some f →
      let is := fun idx x => s1.special c idx 0 k = x
      is 0 k ∧ is 1 (c.w.index * 64 + k) ∧ is 2 c.w.index ∧ is 3 c.w.group ∧ is 4 (c.w.group % l.block.gx)
        ∧ is 5 (c.w.group / l.block.gx % l.block.gy) ∧ is 6 (c.w.group / l.block.gx / l.block.gy) ∧ is 7 c.w.loc.core
        ∧ is 9 c.w.loc.die ∧ is 10 s1.pkg.pkg ∧ is 11 s1.pkg.pod.toNat ∧ (s1.deterministic c.w.loc.die = false → is 12 s1.pkg.tick) ∧ is 14 l.block.ratioreq.toNat
        ∧ is 15 c.w.fflags.toNat ∧ is 17 f.winbase ∧ is 18 c.w.winsize ∧ is 19 f.region.toNat ∧ is 20 l.block.seq
        ∧ is 21 l.world ∧ is 22 l.comp ∧ is 23 f.claim.toNat)

/-- R186, R187: GROW and SHRINK complete. GROW by a count that breaks the size rules, or a roaming launch's limit, sets pD
false; one that the quarter's free registers cover behind no other, makes the window larger and sets pD true, its new
registers reading 0. SHRINK by a multiple of 16 that leaves 32 registers makes the window smaller; another count changes
nothing. GROW_SERVE completes the oldest blocked GROW in the same way, and one that the size rules have come to bar meanwhile with pD false; GROW_DEADLOCK_BREAK,
with no sealed estate to evict, completes the youngest wave's oldest with pD false. Where the manual is silent the clause is
the model's choice, by log entry 47. -/
def Obligations.WindowSizeCompletes : Prop :=
  let grew := fun (w v : Wave) (n : Nat) => ∀ g l,
    v.slice g l = if w.runBase + w.winsize ≤ g ∧ g < w.runBase + w.winsize + n then 0 else w.slice g l
  (∀ (s s1 : State) (c : Ctx),
    let base := fun (v : Wave) => c.w.SameScalar v ∧ v.NewRegion ∧ v.runBase = c.w.runBase ∧ v.matrix = c.w.matrix
      ∧ v.fibres.map (fun f => f.pc) = c.w.fibres.map c.past
    (∀ o : OpGrow,
      let n := growCount o.b o.len c
      let done := fun (ok : Bool) => ∃ t v, exec (.grow o) s = .next t ∧ t.wave? c.w.uid = some v
        ∧ (∀ l ∈ c.act, v.pget o.d.toNat l = (o.d.toNat == 15 || ok))
        ∧ (∀ p l, p < 16 → ¬(p = o.d.toNat ∧ l ∈ c.act) → v.pget p l = c.w.pget p l)
        ∧ v.winsize = (if ok then c.w.winsize + n else c.w.winsize) ∧ base v ∧ grew c.w v (if ok then n else 0) ∧ SameBut c.w.uid s1 t
      Runs (.grow o) s c s1 → uniformB o.b o.len c = none →
        (s1.growOk c.w n = false → done false)
          ∧ (s1.growOk c.w n = true → s1.growNow c.w n = true → done true))
    ∧ (∀ o : OpShrink,
      let n := growCount o.b o.len c
      let ok := n % 16 = 0 ∧ n + 32 ≤ c.w.winsize
      Runs (.shrink o) s c s1 → uniformB o.b o.len c = none →
        ∃ t v, exec (.shrink o) s = .next t ∧ t.wave? c.w.uid = some v ∧ v.winsize = (if ok then c.w.winsize - n else c.w.winsize)
          ∧ base v ∧ (∀ g l, ¬ok ∨ g < c.w.runBase + (c.w.winsize - n) → v.slice g l = c.w.slice g l)
          ∧ (∀ p l, v.pget p l = c.w.pget p l) ∧ SameBut c.w.uid s1 t))
    ∧ (∀ (s : State) (q : QRef) (w : Wave) (x : Stall) (n k : Nat) (o : OpGrow), s.servable q = some (w, x, n, k) →
      s.wave? w.uid = some w → x.instr = .grow o →
        let m := if s.growOk w n then n else 0
        ∃ t v, exec (.growServe q) s = .next t ∧ t.wave? w.uid = some v ∧ v.winsize = w.winsize + m ∧ grew w v m
          ∧ w.SameScalar v ∧ t.mem = s.mem ∧ ∀ l ∈ (w.ctxAt x (.grow o)).act, v.pget o.d.toNat l = (o.d.toNat == 15 || s.growOk w n))
    ∧ (∀ (s : State) (q : QRef) (w u : Wave) (x : Stall) (n k : Nat) (o : OpGrow), s.canGrowBreak q = true →
      s.evictable (fun e => e.die == q.die && e.core == q.core && e.quarter == q.quarter) = [] →
      youngest (s.residentsAt q) = some w → oldestGrow ((s.growsAt q).filter (fun g => g.1.uid == w.uid)) = some (u, x, n, k) →
      s.wave? u.uid = some u → x.instr = .grow o →
        ∃ t v, exec (.growDeadlockBreak q) s = .next t ∧ t.wave? u.uid = some v ∧ v.winsize = u.winsize ∧ u.SameVector v
          ∧ u.SameScalar v ∧ t.mem = s.mem ∧ ∀ l ∈ (u.ctxAt x (.grow o)).act, v.pget o.d.toNat l = (o.d.toNat == 15))

/-! ## Queues, sequences, launches, nodes (R245 to R256, R280, R287 to R291) -/

/-- R246 to R249: the packets of a host queue complete. LAUNCH_PACKET takes the oldest device-side entry before a packet: the block becomes a launch
whose lease is to be set up, or is refused with a record of its code; a block that cannot be read is refused with code 1 (log entry 33). WAIT_PACKET blocks the thread, or halts the queue where its handle is no
object's, its token lies nine or more phases ahead, or the code is unknown; WAIT_PACKET_RETURN ends the wait. ARRIVE_PACKET and BINIT_PACKET are
events of their objects, or halt the queue. SWEEP releases the sealed estates of its key. Where the manual is silent the clause is
the model's choice, by log entry 50. -/
def Obligations.QueuePacketsComplete : Prop :=
  ∀ (s : State) (n : Nat) (q : Queue), s.queue? n = some q → q.halted = false → q.closing = none →
    let halts := fun (i : Instr) (r : Record) => exec i s = .next
      ({ s.onQueue n (fun q => { q with packets := q.packets.tail, halted := true }) with records := s.records ++ [r] })
    let popped := fun (t : State) => t.queue? n = some { q with packets := q.packets.tail }
    let takes := fun (p : Queue) (b : Block) (comp code : Nat) => ∃ t, exec (.launchPacket n) s = .next t ∧ SameBytes s t
      ∧ t.waves = s.waves ∧ t.queue? n = some { p with nextNum := q.nextNum + 1 }
      ∧ (code ≠ 0 → t.records = s.records ++ [.refusal n q.nextNum code] ∧ t.launches = s.launches)
      ∧ (code = 0 → t.records = s.records ∧ ∃ l, t.launches = s.launches ++ [l] ∧ l.block = b ∧ l.num = q.nextNum ∧ l.queue = n
          ∧ l.world = q.world ∧ l.comp = comp ∧ l.part = q.part ∧ l.st = .setup ∧ l.next = 0)
    (∀ e es, q.waiting = false → q.device = e :: es →
        takes { q with device := es } e.block e.comp (s.refusalCode q e.comp e.block e.wellFormed))
    ∧ (∀ va comp ps, q.waiting = false → q.device = [] → q.packets = .launch va comp :: ps →
      (∀ bs b u, s.hubBlock (threadAgent q.id) q.part q.world (s.space q.world comp) va.toNat = some (some (bs, b), u) →
        takes { q with packets := ps } b comp (s.refusalCode q comp b (reservedOk bs && va.toNat % 256 == 0)))
      ∧ (s.blockBytes (threadAgent q.id) (s.space q.world comp) va.toNat = none → takes { q with packets := ps } (blockOf [] false) comp 1))
    ∧ (∀ h k ps, q.waiting = false → q.device = [] → q.packets = .wait h k :: ps →
      (packetObj h = none → halts (.waitPacket n) (.halted n 2))
        ∧ (∀ o, packetObj h = some o → 9 ≤ s.phaseAhead o k → halts (.waitPacket n) (.phaseAhead n))
        ∧ (∀ o, packetObj h = some o → s.phaseAhead o k < 9 →
            exec (.waitPacket n) s = .next (s.onQueue n (fun q => { q with waiting := true }))))
    ∧ (∀ k ps, q.waiting = false → q.device = [] → q.packets = .other k :: ps → halts (.waitPacket n) (.halted n k))
    ∧ (∀ h k ps o, q.waiting = true → q.packets = .wait h k :: ps → packetObj h = some o → s.phaseAhead o k ≠ 0 →
      ∃ t, exec (.waitPacketReturn n) s = .next t ∧ t.queue? n = some { q with
          packets := ps, waiting := false, seen := unionNew q.seen (s.pastOf o (s.phaseAhead o k)) }
        ∧ t.mem = s.mem ∧ t.waves = s.waves ∧ t.launches = s.launches ∧ t.objs = s.objs)
    ∧ (∀ h ps, q.waiting = false → q.device = [] → q.packets = .arrive h :: ps →
      (packetObj h = none → halts (.arrivePacket n) (.halted n 3))
        ∧ (∀ o b, packetObj h = some o → s.settledAll 0 0 .pkg q.seen = true → s.hubReaches o = true → s.obj? o = some b →
          s.objPoisoned o = false → ∃ t, exec (.arrivePacket n) s = .next t ∧ t.obj? o = some (barEvent b (.arrive q.seen)).1
            ∧ popped t ∧ t.mem = s.mem ∧ t.groups = s.groups))
    ∧ (∀ h a b ps, q.waiting = false → q.device = [] → q.packets = .binit h a b :: ps →
      (handleOf h = none → halts (.binitPacket n) (.halted n 4))
        ∧ (∀ x, handleOf h = some x → x.scope ≠ .pkg ∨ x.index < 768 → halts (.binitPacket n) (.halted n 4))
        ∧ (∀ x o, handleOf h = some x → s.netObj? .pkg (x.index % 8) x.index = some o → ¬(o.byQueue = true ∧ o.owner = n) →
            halts (.binitPacket n) (.halted n 4))
        ∧ (∀ x, handleOf h = some x → x.scope = .pkg → 768 ≤ x.index →
          (∀ o, s.netObj? .pkg (x.index % 8) x.index = some o → o.byQueue = true ∧ o.owner = n ∧ o.poison = false) →
          a ≤ 65535 → b ≤ 2 ^ 31 - 1 → ∃ t o, exec (.binitPacket n) s = .next t
            ∧ t.netObj? .pkg (x.index % 8) x.index = some o ∧ o.obj = ⟨a, a, b, b, 0, false, false⟩ ∧ o.byQueue = true ∧ o.owner = n
            ∧ popped t ∧ t.mem = s.mem))
    ∧ (∀ m k ps, q.waiting = false → q.device = [] → q.packets = .sweep m k :: ps →
      ∃ t r, exec (.sweep n) s = .next t ∧ t.estates = s.estates.filter (fun e => !sweeps q.world m k e)
        ∧ (∀ c ∈ t.contexts, ∀ e ∈ c.estates, sweeps q.world m k e = false) ∧ popped t
        ∧ t.records = s.records ++ [.sweep n m k r] ∧ t.waves = s.waves)

/-- R287 to R291: the life of a sequence. SEQOPEN opens it under a fresh key in the lowest free slot, or is refused with a record. SEQCLOSE
drains it, and ends the launches of which no group has started; of one that is not open it retires with 0. SEQCLOSE_DRAINED, SEQCLOSE_ENGINES_DONE and
SEQCLOSE_INVAL_DONE take it to Retiring, Invalidating and Closed: its key is zeroed, no translation under it is left, lanes translated under it and not sent are cancelled, its sealed estates are released,
and its frames are no one's. Where the manual is silent the clause is
the model's choice, by log entry 31. -/
def Obligations.SequencesComplete : Prop :=
  ∀ (s : State) (n : Nat) (q : Queue), s.queue? n = some q → q.halted = false → q.closing = none → q.waiting = false → q.device = [] →
    let popped := fun (t : State) => t.queue? n = some { q with packets := q.packets.tail }
    (∀ comp num base size ps, q.packets = .seqopen comp num base size :: ps →
      (s.openSlot q comp num base.toNat size = none → ∃ t, exec (.seqopen n) s = .next t ∧ popped t ∧ t.seqs = s.seqs
        ∧ t.records = s.records ++ [.seqRefused n num])
      ∧ (∀ k, s.openSlot q comp num base.toNat size = some k → s.seq? q.world num = none → ∃ t, exec (.seqopen n) s = .next t ∧ popped t
        ∧ t.seq? q.world num = some ⟨q.world, num, comp, .open_, k, base, areaSize base.toNat size, none, none⟩ ∧ 0 < k ∧ k < 512
        ∧ mapGet 0 t.slots k = s.own.uid + 1 ∧ (∀ j, 0 < j → j < k → s.slotFree j = false)
        ∧ t.records = s.records ++ [.seqOpened n num k] ∧ t.mem = s.mem))
    ∧ (∀ comp num ps, q.packets = .seqclose comp num :: ps →
      (s.seqOpen q.world comp num = false → ∃ t, exec (.seqclose n) s = .next t ∧ popped t ∧ t.seqs = s.seqs
        ∧ t.records = s.records ++ [.seqClosed n num 0])
      ∧ (s.seqOpen q.world comp num = true → ∃ t z, exec (.seqclose n) s = .next t ∧ t.seq? q.world num = some z ∧ z.st = .draining
        ∧ z.closer = some n ∧ t.queue? n = some { q with closing := some num }
        ∧ ∀ l ∈ t.launches, l.world = q.world → l.block.seq = num → l.next = 0 → l.st = .ended))
    ∧ (∀ world num z, s.seq? world num = some z →
      (s.canDrained world num = true → ∃ t, exec (.seqcloseDrained world num) s = .next t
        ∧ t.seq? world num = some { z with st := .retiring } ∧ t.mem = s.mem ∧ t.launches = s.launches)
      ∧ (s.canEnginesDone world num = true → ∃ t y, exec (.seqcloseEnginesDone world num) s = .next t ∧ t.seq? world num = some y
        ∧ y.st = .invalidating ∧ y.slot = z.slot ∧ mapGet 0 t.slots z.slot = 0
        ∧ t.waves = s.waves.map (fun w => w.cancelled (fun b => b.under z.slot))
        ∧ ∀ e ∈ t.mem.tlb, ¬((leafOf e.leaf).kslot = z.slot ∧ (leafOf e.leaf).tier ≠ 2))
      ∧ (s.canInvalDone world num = true → (∀ w, s.world? world = some w → w.destroying = false) → ∃ t y, exec (.seqcloseInvalDone world num) s = .next t ∧ t.seq? world num = some y
        ∧ y.st = .closed ∧ (∀ e ∈ t.estates, ¬(e.world = world ∧ e.seq = num ∧ e.isSealed = true))
        ∧ (∀ f ∈ t.mem.frames, f.2 ≠ z.slot) ∧ t.waves = s.waves
        ∧ ∀ k, z.closer = some k → ∃ r, .seqClosed k num r ∈ t.records))

/-- R189, R191, R241, R250, R255, R262, R280: the life of a launch. DEPENDENCE_RELEASE lets it wait for placement; LEASE_SETUP holds its lease or ends
it with LEASE; GROUP_PLACEMENT makes a group resident, each fibre at the entry with cleared predicates, window base 0 and an empty stack, and of a quad set the next four groups or
those that are left, of a cooperative launch all that are left; TIMED_START lets its waves issue; HOST_END_LAUNCH stops it, and where it was the one launch that an ember watch has
found stalled, its frozen partition goes on, its activity counted from then; LAUNCH_END ends it with a record, and leaves nothing of it but the
estates that it has sealed and those that a CLAIM has on their way. Where the manual is silent the clause is
the model's choice, by log entries 62 and 84. -/
def Obligations.LaunchLifeCompletes : Prop :=
  ∀ (s : State) (u : Nat) (l : Launch), s.launch? u = some l →
    (∀ o d, s.depReady u = some (o, d) → ∃ t, exec (.dependenceRelease u) s = .next t ∧ t.launch? u = some { l with
        released := true, st := if l.st = .held then .waiting else l.st, inherit_ := unionNew l.inherit_ (s.pastOf o d) }
      ∧ t.mem = s.mem ∧ t.waves = s.waves)
    ∧ (s.canLease u = true → ∃ t m, exec (.leaseSetup u) s = .next t ∧ t.launch? u = some m
      ∧ ((m.leased = true ∧ m.st = (if l.released then .waiting else .held))
        ∨ (m.st = .ended ∧ m.leased = false ∧ ∃ st a c d, .endRec l.queue l.num 8 st a c d ∈ t.records)))
    ∧ (∀ t, l.block.coop = false → l.block.quadset = false → s.placement u = some t →
      exec (.groupPlacement u) s = .next t
        ∧ (∃ m, t.launch? u = some m ∧ m.next = l.next + 1 ∧ m.live = l.live + 1 ∧ m.grant.isSome = true)
        ∧ (∃ g ∈ t.groups, g.launch = u ∧ g.index = l.next ∧ g.waves = l.block.waves ∧ g.spoison = [])
        ∧ ∀ w ∈ t.waves, w ∉ s.waves → w.launch = u ∧ w.group = l.next ∧ w.winsize = l.block.window ∧ w.runBase = 0 ∧ w.vregs = []
            ∧ w.matrix = false ∧ w.fflags = 0 ∧ w.sregs = bornScalars l.block.args ∧ w.parked = none ∧ w.entries = []
            ∧ w.fibres = (List.range (min 64 (l.block.fibres - 64 * w.index))).map (bornFibre l.block.entry))
    ∧ (∀ t, l.block.coop = true ∨ l.block.quadset = true → s.placement u = some t →
      exec (.groupPlacement u) s = .next t ∧ ∃ m, t.launch? u = some m
        ∧ m.next = (if l.block.coop then l.block.groups else min (l.next + 4) l.block.groups)
        ∧ ∀ w ∈ t.waves, w ∉ s.waves → w.launch = u ∧ l.next ≤ w.group ∧ w.group < m.next ∧ w.winsize = l.block.window ∧ w.runBase = 0
            ∧ w.vregs = [] ∧ w.sregs = bornScalars l.block.args ∧ w.parked = none ∧ w.entries = []
            ∧ w.fibres = (List.range (min 64 (l.block.fibres - 64 * w.index))).map (bornFibre l.block.entry))
    ∧ (s.canTimed u = true → ∃ t, exec (.timedStart u) s = .next t ∧ (∀ w ∈ t.waves, w.launch = u → w.started = true)
      ∧ t.mem = s.mem ∧ t.launches = s.launches ∧ t.groups = s.groups)
    ∧ (l.st ≠ .ended → ∃ t, exec (.hostEndLaunch u) s = .next t ∧ t.launch? u = some (if l.stopped then l
        else { l with stopped := true, endFault := (0, 0, 0, 0, 8) }) ∧ t.mem = s.mem
      ∧ t.waves.map (fun w => { w with waited := 0 }) = s.waves.map (fun w => { w with waited := 0 })
      ∧ ∀ p ∈ s.parts, p.frozen = true → p.stalled = [u] → ∃ q ∈ t.parts, q.id = p.id ∧ q.frozen = false ∧ q.activity = s.pkg.tick)
    ∧ (s.canEnd u = true → ∃ t m, exec (.launchEnd u) s = .next t ∧ t.launch? u = some m ∧ m.st = .ended ∧ m.leased = false
      ∧ .endRec l.queue l.num l.endFault.1 l.endFault.2.1 l.endFault.2.2.1 l.endFault.2.2.2.1 l.endFault.2.2.2.2 ∈ t.records
      ∧ (∀ w ∈ t.waves, w.launch ≠ u) ∧ (∀ g ∈ t.groups, g.launch ≠ u) ∧ (∀ r ∈ t.reqs, r.launch ≠ u)
      ∧ (∀ o ∈ t.objs, o.byQueue = false → o.owner ≠ u) ∧ (∀ e ∈ t.estates, e.launch = u → e.isSealed = true ∨ ∃ v n, e.st = .transit v n)
      ∧ ∀ c ∈ t.contexts, ∀ e ∈ c.estates, e.launch = u → e.isSealed = true ∨ ∃ v n, e.st = .transit v n)

/-- R233, R234: PRIORITY_DISCARD and DISCARD_RESTART complete. A chosen group first stops issuing. Once nothing of it is on its way it leaves its core:
its waves are saved, with the PC of each fibre at its region's start where no atomic is half done. A restart makes each saved wave resident
again, as it was saved, on the core that is chosen; a MIGRATE that was to go to that very die is presented again there (log entry 96). Where the manual is silent the clause is
the model's choice, by log entry 57. -/
def Obligations.DiscardCompletes : Prop :=
  ∀ (s : State) (u : Nat),
    (∀ gs, s.stopped u = [] → s.mayBegin u = true → s.chosen u = some gs → ∃ t, exec (.priorityDiscard u) s = .next t ∧ t.waves = s.waves ∧ t.mem = s.mem
      ∧ ∀ g ∈ gs, ∀ h ∈ t.groups, h.launch = g.launch → h.index = g.index → h.stopping = true)
    ∧ (∀ g, s.stopped u = [g] → s.mayDiscard [g] = true → s.quadQuiet g = true → (s.wavesOf g).all s.quiet = true →
      (∀ w ∈ s.wavesOf g, s.wave? w.uid = some w ∧ ∀ x ∈ w.stalls, ∀ e, x.kind ≠ .posted e) →
      ∃ t v, exec (.priorityDiscard u) s = .next t ∧ t.mem = s.mem ∧ t.saved = s.saved ++ [v] ∧ v.group = { g with stopping := false }
        ∧ v.waves = (s.wavesOf g).map Wave.saved ∧ (∀ w ∈ s.wavesOf g, t.wave? w.uid = none) ∧ t.group? g.launch g.index = none
        ∧ ∀ w ∈ s.wavesOf g, w.asStands = false → w.saved.sregs = w.checkpoint.sregs ∧ w.saved.vregs = w.vregs
            ∧ w.saved.fibres.map (fun f => f.pc) = w.fibres.map (fun f => f.region))
    ∧ (∀ id die core t v l, s.restart id die core = some t → s.saved.find? (fun g => g.id == id) = some v →
      s.launch? v.group.launch = some l → l.block.coop = false → v.group.quadset = none →
      exec (.discardRestart id die core) s = .next t ∧ (∀ g ∈ t.saved, g.id ≠ id)
        ∧ (∃ g ∈ t.groups, g = { v.group with die := die, core := core, order := g.order })
        ∧ ∀ w ∈ v.waves, ∃ x ∈ t.waves, x = { w.arrivedAt die with loc := x.loc, waited := 0, since := x.since } ∧ x.loc.die = die ∧ x.loc.core = core)

/-- R246, R251 to R254, R350: QUEUE_MAP and QUEUE_UNMAP complete: a mapped queue is empty, and is its world's in its partition; an unmapped one is gone, and its objects
with it. NODE_TABLE_WRITE and LAUNCH_TABLE_WRITE set their entries, a node's that is out of its ranges being refused with a record of code 1.
NODE_BATCH_TIMER takes the records gathered. NETWORK_LAUNCH_REQUEST becomes a device-side entry, or is refused with a record and counted. Where the manual is silent the clause is
the model's choice, by log entries 45, 56 and 61. -/
def Obligations.NodesAndNetworkComplete : Prop :=
  (∀ (s : State) (n : Nat),
      (∀ world part, s.booted = true → s.queue? n = none → (s.world? world).isSome = true → (s.part? part).isSome = true →
        ∃ t q, exec (.queueMap n world part) s = .next t ∧ t.queue? n = some q ∧ q.world = world ∧ q.part = part ∧ q.packets = []
          ∧ q.device = [] ∧ q.halted = false ∧ (∀ m, m ≠ n → t.queue? m = s.queue? m) ∧ t.mem = s.mem ∧ t.objs = s.objs)
      ∧ (∀ q, s.queue? n = some q → q.closing = none → (∀ l ∈ s.launches, l.queue = n → l.st = .ended) →
        ∃ t, exec (.queueUnmap n) s = .next t ∧ t.queue? n = none ∧ (∀ o ∈ t.objs, ¬(o.byQueue = true ∧ o.owner = n))
          ∧ (∀ m, m ≠ n → t.queue? m = s.queue? m) ∧ t.mem = s.mem ∧ t.launches = s.launches))
  ∧ (∀ (s : State) (world : Nat) (w : World), s.world? world = some w →
      (∀ node bs z g t cap, s.booted = true → 1 ≤ node → node < 4096 →
        (256 ≤ bs.length → reservedOk bs = true → nodeOk (tableBlock bs) z g t = true → ∃ r n, exec (.nodeTableWrite world node bs z g t cap) s = .next r
          ∧ r.node? world node = some n ∧ n.template = tableBlock bs ∧ n.z = z ∧ n.g = g ∧ n.t = t ∧ n.capacity = cap ∧ r.mem = s.mem
          ∧ r.records = s.records ++ [.written 20 true])
        ∧ ((decide (256 ≤ bs.length) && reservedOk bs && nodeOk (tableBlock bs) z g t) = false →
          exec (.nodeTableWrite world node bs z g t cap) s = .next { s with records := s.records ++ [.nodeRefused world node 1] }))
      ∧ (∀ node n, s.timerDue world node = true → s.node? world node = some n → ∃ t m, exec (.nodeBatchTimer world node) s = .next t
        ∧ t.node? world node = some m ∧ m.records = n.records.drop n.g ∧ t.mem = s.mem ∧ t.waves = s.waves)
      ∧ (∀ index entry, s.booted = true → index < 256 → entry.length = 64 → ∃ t v, exec (.launchTableWrite world index entry) s = .next t
        ∧ t.world? world = some v ∧ mapGet [] v.table index = entry ∧ (∀ k, k ≠ index → mapGet [] v.table k = mapGet [] w.table k)
        ∧ t.mem = s.mem ∧ t.queues = s.queues)
      ∧ (∀ index source args u, 5 ≤ s.pkg.bootStage →
        (s.request world index source args = some (none, u) → ∃ t, exec (.networkLaunchRequest world index source args) s = .next t
          ∧ t.records = s.records ++ [.netRefused world index source] ∧ t.queues = s.queues ∧ SameBytes s t)
        ∧ (∀ k e q, s.request world index source args = some (some (k, e), u) → s.queue? k = some q → ∃ t,
          exec (.networkLaunchRequest world index source args) s = .next t ∧ t.queue? k = some { q with device := q.device ++ [e] }
            ∧ t.records = s.records ∧ SameBytes s t)))

/-! ## The host, the clocks, the slices (R215 to R217, R258, R259, R294 to R306, R320) -/

/-- R294 to R299, R302, R303, R239: writes through the host's physical function complete. WORLD_CREATE makes a world from a well-formed manifest, which
is measured; WORLD_DESTROY drains what is open, and removes the world when every sequence of it has closed; CAPABILITY_MINT tags a granule of a page that is not sealed; POWER_CAP_WRITE clamps the cap;
PARTITION_REGISTER_WRITE splits the package where nothing is resident, and keeps the saved estates; CONFIG_REGISTER_WRITE and WATCH_RANGE_WRITE set the defined bits. A write that
does not hold to its rules is refused with a record, and changes nothing else. Where the manual is silent the clause is
the model's choice, by log entry 61. -/
def Obligations.HostWritesComplete : Prop :=
  ∀ (s : State), s.booted = true →
    let refused := fun (i : Instr) (r : Nat) => exec i s = .next { s with records := s.records ++ [.written r false] }
    (∀ n bs spaces, n < 64 → s.world? n = none →
      ((manifestOk bs && s.spacesOk spaces (nComp bs)) = false → refused (.worldCreate n bs spaces) 21)
      ∧ (manifestOk bs = true → s.spacesOk spaces (nComp bs) = true → ∃ t w, exec (.worldCreate n bs spaces) s = .next t ∧ t.world? n = some w
        ∧ w.comps = (List.range (nComp bs)).map (compOf bs spaces) ∧ w.gates = (List.range (nGate bs)).map (gateOf bs)
        ∧ w.counters = List.replicate 16 0 ∧ w.manifest = Config.sha512 bs ∧ w.log = [Config.sha512 bs] ∧ w.entries = 1
        ∧ w.ctxKey = s.own.uid + 1
        ∧ SameBytes s t ∧ t.waves = s.waves))
    ∧ (∀ n w, s.world? n = some w → w.destroying = false →
      (s.openSeqs n = [] → s.worldIdle n = true → ∃ t, exec (.worldDestroy n) s = .next t ∧ t.world? n = none
        ∧ (∀ q ∈ t.queues, q.world ≠ n) ∧ (∀ q ∈ t.seqs, q.world ≠ n) ∧ (∀ l ∈ t.launches, l.world ≠ n) ∧ SameBytes s t)
      ∧ (s.openSeqs n = [] → s.worldIdle n = false →
        exec (.worldDestroy n) s = .next (s.onWorld n (fun w => { w with destroying := true })))
      ∧ (s.openSeqs n ≠ [] → ∃ t v, exec (.worldDestroy n) s = .next t ∧ t.worlds.map (·.id) = s.worlds.map (·.id)
        ∧ t.world? n = some v ∧ v.destroying = true ∧ ∀ q ∈ t.seqs, q.world = n → q.st ≠ .open_))
    ∧ (∀ n comp va cap, (s.world? n).isSome = true →
      (s.mintOk n cap = false → refused (.capabilityMint n comp va cap) 22)
      ∧ (∀ f big e, s.mintOk n cap = true → s.walk (s.space n comp) va.toNat = .page f big e → va.toNat % 16 = 0 → f.tier ≠ 2 →
        f.sealed = false → ∃ t, exec (.capabilityMint n comp va cap) s = .next t ∧ mapGet false t.mem.tags ((f.byteAt big va.toNat).pa / 16) = true
          ∧ t.waves = s.waves ∧ t.records = s.records)
      ∧ (∀ f big e, s.mintOk n cap = true → s.walk (s.space n comp) va.toNat = .page f big e →
        va.toNat % 16 ≠ 0 ∨ f.tier = 2 ∨ f.sealed = true → refused (.capabilityMint n comp va cap) 22))
    ∧ (∀ v, ∃ t, exec (.powerCapWrite v) s = .next t ∧ t.pkg.capw = max 1600 (min 3600 (v.extractLsb' 0 12).toNat) ∧ t.mem = s.mem
      ∧ t.pkg.tick = s.pkg.tick)
    ∧ (∀ v,
      (s.maySplit = false → refused (.partitionRegisterWrite v) 8)
      ∧ (s.maySplit = true → ∃ t, exec (.partitionRegisterWrite v) s = .next t ∧ t.pkg.split = (v.extractLsb' 0 2).toNat
        ∧ t.parts = splitParts (v.extractLsb' 0 2).toNat ∧ t.records = s.records ++ [.written 8 true] ∧ t.mem = s.mem
        ∧ ∀ c ∈ s.contexts, (s.world? c.world).isSome = true → ∀ e ∈ c.estates, e.die < 8 → ∃ d ∈ t.contexts, d.world = c.world ∧ e ∈ d.estates))
    ∧ (∀ r v,
      (s.part? (cfgPart r) = none ∨ 64 ≤ cfgIndex r → refused (.configRegisterWrite r v) (cfgId r))
      ∧ (∀ p, s.part? (cfgPart r) = some p → cfgIndex r < 64 → ∃ t, exec (.configRegisterWrite r v) s = .next t
        ∧ t.part? (cfgPart r) = some (p.config r (v &&& cfgBits r) s.pkg.tick) ∧ t.mem = s.mem ∧ t.waves = s.waves
        ∧ t.records = s.records ++ [.written (cfgId r) true]))
    ∧ (∀ n k base ctl,
      (base.toNat % 8 ≠ 0 ∨ (ctl.extractLsb' 32 32).toNat % 8 ≠ 0 ∨ 8 ≤ k → refused (.watchRangeWrite n k base ctl) 9)
      ∧ (∀ p, s.part? n = some p → k < 8 → p.watch.length = 8 → base.toNat % 8 = 0 → (ctl.extractLsb' 32 32).toNat % 8 = 0 →
        ∃ t q, exec (.watchRangeWrite n k base ctl) s = .next t ∧ t.part? n = some q ∧ q.watch[k]? = some (base, ctl &&& watchBits)
          ∧ (∀ j, j ≠ k → q.watch[j]? = p.watch[j]?) ∧ t.mem = s.mem ∧ t.waves = s.waves))

/-- R215 to R217, R258, R259, R303, R304, R306: a partition's own events complete. A ramp interval renews its budget; a stretch is counted; a droop or thermal step
lowers the working cap by one step and a restoration raises it; an ember check freezes the partition and sends a STALL record to the queue of
each launch with a wave there, a thaw lets it go; a refill gives every bucket its share, up to twice that. QUANTUM_EXPIRY: the next slice begins, and
where its world differs, or none is next, the outgoing world's waves leave the partition's dies into its saved context, under its context key. CONTEXT_RESTORE,
where the ramp allows the wakes (as it does where it is not enabled, or where there are none): the saved waves, their registers unpacked, and the groups, objects, requests and estates of
the context are back. Where the manual is silent the clause is
the model's choice, by log entries 23, 59, 65 and 91. -/
def Obligations.PartitionEventsComplete : Prop :=
  ((∀ (s : State) (n : Nat) (p : Part), s.part? n = some p →
      let to_ := fun (i : Instr) (ok : Part → Prop) => ∃ t q, exec i s = .next t ∧ t.part? n = some q ∧ ok q ∧ t.mem = s.mem
        ∧ t.waves.map (fun w => (w.fibres, w.sregs, w.vregs)) = s.waves.map (fun w => (w.fibres, w.sregs, w.vregs))
      (p.rampAt < s.pkg.tick / 1000 → to_ (.rampInterval n) (fun q => q.rampAt = s.pkg.tick / 1000
        ∧ q.used = p.used - rampStep p.ramp * (s.pkg.tick / 1000 - p.rampAt) + (if s.wakesAsked n = 0 then p.woken else 0)
        ∧ q.woken = (if s.wakesAsked n = 0 then 0
            else min (s.wakesAsked n) (p.woken + (rampStep p.ramp * (s.pkg.tick / 1000 - p.rampAt) - p.used)))))
      ∧ (s.canDroopStep n = true → to_ (.persistentDroopStep n) (fun q => q.droop = p.droop + 1 ∧ q.droopAt = (s.droopDue p).getD s.pkg.tick))
      ∧ (s.canDroopRestore n = true → to_ (.droopRestore n) (fun q => q.droop = p.droop - 1 ∧ q.droopBack = s.pkg.tick))
      ∧ (s.canThermalStep n = true → to_ (.thermalLimitStep n) (fun q => q.thermal = p.thermal + 1 ∧ q.thermAt = s.pkg.tick))
      ∧ (s.canThermalRestore n = true → to_ (.thermalRestore n) (fun q => q.thermal = p.thermal - 1 ∧ q.thermBack = s.pkg.tick))
      ∧ (s.canEmber n = true → to_ (.emberCheck n) (fun q => q.frozen = true))
      ∧ (s.canEmber n = true → ∃ t, exec (.emberCheck n) s = .next t ∧ ∀ l ∈ s.launches, (∃ w ∈ s.residents n, w.launch = l.uid) →
          ∃ r, .stall l.queue r p.emberAt p.activity (s.stallEntries l.uid n) ∈ t.records ∧ r.code = 32 ∧ r.cls = 3)
      ∧ (p.frozen = true → to_ (.hostThaw n) (fun q => q.frozen = false ∧ q.activity = s.pkg.tick))
      ∧ (∀ w x, p.share = [(w, x)] → (s.world? w).isSome = true → p.refillAt + 1 = periodOf s.pkg.tick → to_ (.bandwidthRefill n) (fun q => q.refillAt = p.refillAt + 1
        ∧ ∀ r, shareOf x r ≠ 0 → (q.bucket w).get r = min ((p.bucket w).get r + shareOf x r) (2 * shareOf x r)))
      ∧ (p.refillAt < periodOf s.pkg.tick → to_ (.bandwidthRefill n) (fun q => q.refillAt = periodOf s.pkg.tick)))
      ∧ (∀ (s : State) (d : Nat), d < 8 → s.pkg.dies.length = 8 → ∃ t, exec (.droopStretch d) s = .next t
        ∧ (t.die d).droopCnt = (s.die d).droopCnt + 1 ∧ t.parts = s.parts ∧ t.mem = s.mem ∧ t.waves = s.waves))
  ∧ (∀ (s : State) (n : Nat) (p : Part), s.part? n = some p →
      (∀ t, s.expiry n = some t → exec (.quantumExpiry n) s = .next t ∧ t.mem = s.mem
        ∧ (∃ q, t.part? n = some q ∧ (s.nextSlice p = none → q.world = none)
          ∧ ∀ i, s.nextSlice p = some i → q.slice = some i ∧ q.world = some (qWorld (p.entry i)) ∧ q.sliceAt = s.pkg.tick)
        ∧ ∀ out, p.world = some out → (s.nextSlice p).map (fun i => qWorld (p.entry i)) ≠ some out →
            (∀ w ∈ t.waves, s.outgoing n out w.loc.die w.launch = false) ∧ s.context n out ∈ t.contexts)
      ∧ (∀ world c, s.canRestore n world = true → s.context? n world = some c → rampEn p.ramp = false ∨ s.restoreWakes c = 0 →
        (s.restored n world).isSome = true)
      ∧ (∀ world c t, s.canRestore n world = true → s.context? n world = some c → s.restored n world = some t → exec (.contextRestore n world) s = .next t
        ∧ t.waves = s.waves ++ c.waves.map c.back ∧ t.groups = s.groups ++ c.groups ∧ t.objs = s.objs ++ c.objs ∧ t.reqs = s.reqs ++ c.reqs
        ∧ t.estates = s.estates ++ c.estates ∧ t.context? n world = none ∧ t.mem = s.mem))

/-! ## Pages, links, errors, repair (R275 to R286, R322 to R340) -/

/-- R275, R282 to R285: MAPPING_REQUEST writes the leaf that firmware grants, a valid one that it replaces being invalidated first, and one that it does not
grant changes nothing. INVALIDATION leaves no cached translation of its range, and cancels the lanes not sent that were translated through it; it is complete at
INVALIDATION_COMPLETE, once what had been translated has been performed. PAGE_MOVE copies the page and its scale frame, reading each byte under the page's key and writing it again under that key, and writes
the leaf anew.
PEER_DOWN_NOTICE leaves no valid leaf and no cached translation that names the peer. None changes another byte than those of the leaf tables. EXPANDER_STOPS_ANSWERING marks the port. Where the manual is silent the clause is
the model's choice, by log entries 30, 52, 53 and 54. -/
def Obligations.PagesComplete : Prop :=
  ∀ (s : State),
    (∀ world comp m, s.canMap world comp m = false → exec (.mappingRequest world comp m) s = .next s)
    ∧ (∀ world comp m, s.canMap world comp m = true → ∃ t, exec (.mappingRequest world comp m) s = .next t
      ∧ mapGet 0 t.mem.tables (s.makeLeaf m.space m.va.toNat m.big).1 = m.leaf
      ∧ (∀ pa, s.OffTables t pa → ¬((s.makeLeaf m.space m.va.toNat m.big).1 ≤ pa ∧ pa < (s.makeLeaf m.space m.va.toNat m.big).1 + 16) →
          t.byteOf pa = s.byteOf pa)
      ∧ t.waves = (if s.anyValid (s.mapSpan m) = true then s.waves.map (fun w => w.cancelled ((s.affected (s.mapSpan m)).hits (s.waveSpace w))) else s.waves)
      ∧ (s.anyValid (s.mapSpan m) = true → ∀ e ∈ t.mem.tlb, e.inRange (s.mapSpan m) = false))
    ∧ (∀ space va n, s.booted = true → ∃ t i, exec (.invalidation space va n) s = .next t ∧ t.invals = s.invals ++ [i]
      ∧ i.space = space ∧ i.va = va ∧ i.bytes = n ∧ (∀ e ∈ t.mem.tlb, e.inRange ⟨space, va.toNat, n⟩ = false) ∧ SameBytes s t
      ∧ t.waves = s.waves.map (fun w => w.cancelled ((s.affected ⟨space, va.toNat, n⟩).hits (s.waveSpace w))))
    ∧ (∀ id, (∃ i ∈ s.invals, i.id = id) → (∀ i ∈ s.invals, i.id = id → s.acknowledged i = true) → ∃ t, exec (.invalidationComplete id) s = .next t ∧ (∀ i ∈ t.invals, i.id ≠ id)
      ∧ (∀ i ∈ s.invals, i.id ≠ id → i ∈ t.invals) ∧ t.mem = s.mem ∧ t.waves = s.waves)
    ∧ (∀ space va frame sframe f big e, s.canMove space va.toNat frame sframe = true → s.walk space va.toNat = .page f big e →
      Memory.wf s.mem = true →
      let n := pageBytes big
      let k := f.scaleBytes big
      let a := (s.makeLeaf space (va.toNat / n * n) big).1
      let off := fun pa => pa < a ∨ a + 16 ≤ pa
      let read := fun pa => decrypt (s.keyGen f.kslot) pa (mapGet 0 s.mem.owner pa) (s.byteOf pa)
      ∃ t, exec (.pageMove space va ⟨frame, sframe⟩) s = .next t ∧ t.groups = s.groups ∧ mapGet 0 t.mem.tables a = reframe e frame sframe
        ∧ (∀ i < n, off (frame + i) → frame + i < sframe ∨ sframe + k ≤ frame + i → t.byteOf (frame + i) = read (f.frame + i)
            ∧ mapGet 0 t.mem.owner (frame + i) = s.keyGen f.kslot)
        ∧ (∀ i < k, off (sframe + i) → f.sframe + i < frame ∨ frame + n ≤ f.sframe + i → t.byteOf (sframe + i) = read (f.sframe + i)
            ∧ mapGet 0 t.mem.owner (sframe + i) = s.keyGen f.kslot)
        ∧ ∀ pa, off pa → pa < frame ∨ frame + n ≤ pa → pa < sframe ∨ sframe + k ≤ pa → t.byteOf pa = s.byteOf pa)
    ∧ (∀ peer, peer < 1024 → peer ≠ s.pkg.pkg → Memory.wf s.mem = true → ∃ t, exec (.peerDownNotice peer) s = .next t ∧ peer ∈ t.pkg.peersDown
      ∧ (∀ x, (x ∈ t.mem.tlb.map (fun e => e.leaf) ∨ ∃ a, x = mapGet 0 t.mem.tables a) →
          ¬(x.getLsbD 8 = true ∧ (leafOf x).v = true ∧ (leafOf x).tier = 2 ∧ (leafOf x).peer = peer))
      ∧ (∀ pa, s.OffTables t pa → t.byteOf pa = s.byteOf pa) ∧ t.waves = s.waves.map (fun w => w.cutOff peer))
    ∧ (∀ port, port < 8 → ∃ t, exec (.expanderStopsAnswering port) s = .next t ∧ port ∈ t.mem.expDown ∧ SameBytes s t ∧ t.waves = s.waves)

/-- R286, R322 to R328: FLIT_RESEND, LINK_RETRAIN, RETRAIN_COMPLETE and LINK_KEY_REPLACE change their link as the rules say, from stage 5 of boot on: three failed retrainings
in a row take it down, a flit that 16 resends have not brought over makes it retrain, and after a retraining the flits on their way cross it again under its new key. ECC_CORRECTED changes nothing but the fault log; ECC_UNCORRECTABLE marks the word of memory, of a cache or of an estate, or the register, and changes no byte;
PATROL_SCRUB changes no byte. -/
def Obligations.LinksAndErrorsComplete : Prop :=
  ∀ (s : State),
    let same := fun (t : State) => SameBytes s t ∧ t.waves = s.waves ∧ t.groups = s.groups
    (∀ n l, 5 ≤ s.pkg.bootStage → s.pkg.links[n]? = some l → l.retraining = false → l.down = false →
      (l.resends < 16 → ∃ t, exec (.flitResend n) s = .next t ∧ t.pkg.links[n]? = some { l.flit with resends := l.resends + 1 } ∧ same t)
      ∧ (16 ≤ l.resends → ∃ t, exec (.flitResend n) s = .next t ∧ t.pkg.links[n]? = some { l with retraining := true } ∧ same t)
      ∧ (∃ t, exec (.linkRetrain n) s = .next t ∧ t.pkg.links[n]? = some { l with retraining := true } ∧ same t)
      ∧ (∃ t, exec (.linkKeyReplace n) s = .next t ∧ t.pkg.links[n]? = some { l with key := l.key + 1, counter := 0 } ∧ same t))
    ∧ (∀ n l, 5 ≤ s.pkg.bootStage → s.pkg.links[n]? = some l → l.retraining = true → l.down = false →
      (∃ t m, exec (.retrainComplete n true) s = .next t ∧ same t ∧ t.pkg.links[n]? = some m
        ∧ m.retraining = false ∧ m.failures = 0 ∧ m.down = false ∧ m.resends = 0 ∧ l.key < m.key
        ∧ ((∀ c ∈ s.ord.chans, c.msgs = []) → m = { l with retraining := false, failures := 0, key := l.key + 1, counter := 0, resends := 0 }))
      ∧ (∃ t m, exec (.retrainComplete n false) s = .next t ∧ same t ∧ t.pkg.links[n]? = some m
        ∧ m = (if 2 ≤ l.failures then { l with retraining := false, failures := 3, down := true } else { l with failures := l.failures + 1 })))
    ∧ (∀ a, EccIs s a = true →
      (∃ t e, exec (.eccCorrected a) s = .next t ∧ same t ∧ e ∈ t.pkg.logs ∧ e.tick = s.pkg.tick ∧ e.die = (eccOf s a).1
        ∧ e.kind = (if (eccOf s a).2.1 = 0 then 1 else 2) ∧ e.addr = (eccOf s a).2.2.1)
      ∧ (∃ t, exec (.eccUncorrectable a) s = .next t ∧ SameBytes s t ∧ t.mem.tags = s.mem.tags
        ∧ (∀ k n off c, a = .copy k n off → ownL2 k n = false → c ∈ t.ord.copies → c.place = k → c.line = n → ∀ x ∈ c.data[off]?, x.poison = true)
        ∧ (∀ k n off, a = .copy k n off → ownL2 k n = true → mapGet false t.mem.sram ((n * 128 + off) / 4) = true)
        ∧ (∀ h k r, a = .estate h k r → (∀ u, (eccOf s a).2.2.2 = some u → s.repairs u = false) →
            ∀ x ∈ t.estates, x.holding = h → x.lane = k → x.inFile = true → r ∈ x.poison)
        ∧ (∀ pa, a = .memory pa → mapGet false t.mem.poison (eccKey pa) = true ∧ t.waves = s.waves)
        ∧ (∀ u r w l, a = .sreg u r → s.wave? u = some w → s.launch? w.launch = some l → l.block.repair = false →
            ∃ v, t.wave? u = some v ∧ r ∈ v.spoison ∧ w.SameScalar v ∧ w.SameVector v)
        ∧ (∀ u r k w l, a = .vreg u r k → s.wave? u = some w → s.launch? w.launch = some l → l.block.repair = false →
            ∃ v, t.wave? u = some v ∧ (r, k) ∈ v.vpoison ∧ w.SameScalar v ∧ w.SameVector v)))
    ∧ (∀ d k, d < 8 → k < 2 → (mapGet 0 s.pkg.scrubbed (2 * d + k) = 0 ∨ mapGet 0 s.pkg.scrubbed (2 * d + k) / dayTicks < s.pkg.tick / dayTicks) →
      ∃ t, exec (.patrolScrub d k) s = .next t ∧ mapGet 0 t.pkg.scrubbed (2 * d + k) = s.pkg.tick ∧ same t)

/-- R330 to R335, R339: RICK copies the state of the die into the slot whose turn it is, and empties its undo log, its admission record and its list of what it has sent. SEND_LOG_FULL stalls the
sender and makes a rick due. WARM_RESET at a boundary holds the die, stops the launches there that are not repairable and empties the die's caches; inside a round it is
ordered, and falls at the round's end. ROUND_BOUNDARY begins a new round with no issue counted, at which %tick is read anew; of a held die it replays one round of the admission
record: the round is taken off it, or, where a logged input is missing or a message sent again differs from the first, the repairable launches of the die end and the log says so.
REJOIN, with the record exhausted, ends the hold. Where the manual is silent the clause is
the model's choice, by log entries 21 and 108. -/
def Obligations.RepairCompletes : Prop :=
  ∀ (s : State) (d : Nat), s.pkg.dies.length = 8 → d < 8 →
    (s.canRick d = true → (s.die d).rickSlot < 2 → (∀ r, s.repair? d = some r → r.slots.length = 2) →
      ∃ t r, exec (.rick d) s = .next t ∧ t.repair? d = some r ∧ r.slots[(s.die d).rickSlot]? = some (some (s.snapDie d)) ∧ r.undo = []
        ∧ r.admitted = [] ∧ r.sends = [] ∧ (t.die d).lastRick = s.pkg.tick ∧ (t.die d).rickNo = s.own.stepNo + 1
        ∧ (t.die d).rickSlot = 1 - (s.die d).rickSlot ∧ (t.die d).rickDue = false ∧ t.mem = s.mem ∧ t.waves = s.waves ∧ t.groups = s.groups)
    ∧ (∀ src r, s.repair? d = some r → (∃ m ∈ s.msglog, m.src = src ∧ m.dst = d) → ∃ t v, exec (.sendLogFull src d) s = .next t
      ∧ t.repair? d = some v ∧ src ∈ v.stalled ∧ (t.die d).rickDue = true ∧ t.mem = s.mem ∧ t.waves = s.waves)
    ∧ ((s.die d).held = false → s.atEdge d = true → ∃ t, exec (.warmReset d) s = .next t ∧ (t.die d).held = true
      ∧ (∀ c ∈ t.ord.copies, copyDie c.place ≠ d)
      ∧ ∀ l ∈ s.launches, l.block.repair = false → l.st ≠ .ended → (∃ w ∈ s.waves, w.launch = l.uid ∧ w.loc.die = d ∧ w.transit = none) →
          ∀ m ∈ t.launches, m.uid = l.uid → m.stopped = true)
    ∧ ((s.die d).held = false → s.atEdge d = false → ∃ t, exec (.warmReset d) s = .next t ∧ t.resetDue d = true ∧ (t.die d).held = false
      ∧ t.mem = s.mem ∧ t.waves = s.waves ∧ t.launches = s.launches)
    ∧ (∀ r a rest, (s.die d).held = true → s.repair? d = some r → r.replay = a :: rest →
      (s.missingFrom d a = none → s.differs d a = none → ∃ t v, exec (.roundBoundary d) s = .next t ∧ t.repair? d = some v ∧ v.replay = rest
        ∧ (t.die d).held = true ∧ t.waves = s.waves ∧ t.launches = s.launches ∧ (rest ≠ [] → t.mem = s.mem))
      ∧ ((s.missingFrom d a).isSome = true ∨ (s.differs d a).isSome = true → ∃ t v, exec (.roundBoundary d) s = .next t
        ∧ t.repair? d = some v ∧ v.replay = [] ∧ (t.die d).held = true ∧ t.waves = s.waves ∧ t.mem = s.mem
        ∧ (∀ l ∈ s.repairedBy d, s.launch? l.uid = some l → l.stopped = false →
            ∃ m, t.launch? l.uid = some m ∧ m.stopped = true ∧ m.endFault = (33, 0, 0, 3, d))
        ∧ ∃ e ∈ t.pkg.logs, e.kind = 10 ∧ e.tick = s.pkg.tick ∧ (∀ src, s.missingFrom d a = some src → e.die = d ∧ e.src.die = src)
            ∧ ∀ m, s.missingFrom d a = none → s.differs d a = some m → e.die = m.dst ∧ e.src.die = m.src ∧ e.seq = m.seq))
    ∧ ((s.die d).held = true → s.replaying d = false → ∃ t, exec (.rejoin d) s = .next t ∧ (t.die d).held = false ∧ t.mem = s.mem
      ∧ t.waves.map (fun w => { w with waited := 0 }) = s.waves.map (fun w => { w with waited := 0 }))
    ∧ (s.canRound d = true → (s.die d).held = false → ∃ t, exec (.roundBoundary d) s = .next t ∧ (t.die d).round = (s.die d).round + 1
      ∧ ∀ r, t.repair? d = some r → r.issues = [] ∧ r.reads = [] ∧ r.tick = t.pkg.tick)

/-- R121, R241, R243, R340: lemmel's commands complete. A parked wave that is continued is parked no more: after TRAP or BRK the set that stood there
has passed the instruction, any other instruction is issued again. A stepped wave's set passes it in any case. LEMMEL_END_LAUNCH stops the launch with the
fault at which the wave stood. LEMMEL_ARM_DISCARD and LEMMEL_ARM_RESET are remembered. Where the manual is silent the clause is
the model's choice, by log entries 62 and 73. -/
def Obligations.LemmelCommandsComplete : Prop :=
  ∀ (s : State),
    (∀ (w : Wave) (p : Park), s.wave? w.uid = some w → w.parked = some p →
      let there := fun (f : Fibre) => f.lane ∈ maskLanes p.lanes ∧ f.pc = p.pc ∧ f.winbase = p.base
      let back := fun (i : Instr) (skip : Bool) => ∃ t v, exec i s = .next t ∧ t.wave? w.uid = some v ∧ v.parked = none
        ∧ v.fibres = w.fibres.map (fun f => if skip = true ∧ there f then { f with pc := f.pc + BitVec.ofNat 64 p.skip } else f)
        ∧ w.SameVector v ∧ w.SameScalar v ∧ SameBytes s t ∧ t.groups = s.groups ∧ ∀ u, u ≠ w.uid → t.wave? u = s.wave? u
      back (.lemmelContinue w.uid) p.after ∧ back (.lemmelStep w.uid) true
        ∧ (∀ l, s.launch? w.launch = some l → l.stopped = false → ∃ t m, exec (.lemmelEndLaunch w.uid) s = .next t
            ∧ t.launch? w.launch = some m ∧ m.stopped = true ∧ m.endFault.1 = faultCode p.fault ∧ t.mem = s.mem ∧ t.waves = s.waves))
    ∧ (∀ u g k pc pass split l, s.launch? u = some l → l.st ≠ .ended → pass ≠ 0 → ∃ t, exec (.lemmelArmDiscard u g k pc pass split) s = .next t
      ∧ t.armedD = s.armedD ++ [⟨u, g, k, pc, pass, split, none, false⟩] ∧ t.mem = s.mem ∧ t.waves = s.waves)
    ∧ (∀ d n g, d < 8 → n ≠ 0 → ∃ t, exec (.lemmelArmReset d n g) s = .next t ∧ t.armedR = s.armedR ++ [⟨d, n, g, 0, false, false⟩]
      ∧ t.mem = s.mem ∧ t.waves = s.waves)

/-! ## Boot, attestation, accounting (R310 to R321) -/

/-- R310, R311: POWER_ON completes. With six images that pass their checks, measured boot is complete, MR0 to MR5 hold the extends of the images'
digests, MR6 and MR7 are 0, the split and the power cap are those of the device configuration, the links are released, and nothing of the machine's earlier state
is left; the first image that fails its check stops the boot at its stage, with no register extended from there on, and before stage 5 no link released.
FIRMWARE_LOAD after boot extends MR6 with an image that passes, and refuses one that does not; after a failed boot an image for the stage that failed takes
its image's place, and the boot goes on from there. Where the manual is silent the clause is
the model's choice, by log entry 63. -/
def Obligations.BootCompletes : Prop :=
  ∀ (s : State),
    let ext := fun (i : Image) => Config.sha512 (digestBytes 0 ++ digestBytes (Config.sha512 i.bytes))
    (∀ (is : List Image) (c : Image), is[5]? = some c → (∀ k i, k < 6 → is[k]? = some i → i.stage = k + 1 ∧ imageOk i = true) →
      ∃ t, exec (.powerOn is) s = .next t ∧ t.booted = true ∧ t.pkg.mrs = (is.take 6).map ext ++ [0, 0] ∧ t.mem = memReset ∧ t.waves = []
        ∧ t.launches = [] ∧ t.worlds = [] ∧ t.pkg.capw = max 1600 (min 3600 (Config.imageCap c.bytes)) ∧ t.pkg.split = Config.imageSplit c.bytes % 4
        ∧ t.parts.length = 2 ^ t.pkg.split ∧ ∀ l ∈ t.pkg.links, l.retraining = false)
    ∧ (∀ (is : List Image) (n : Nat) (x : Image), n < 6 → is[n]? = some x → ¬(x.stage = n + 1 ∧ imageOk x = true) →
      (∀ k i, k < n → is[k]? = some i → i.stage = k + 1 ∧ imageOk i = true) →
      ∃ t, exec (.powerOn is) s = .next t ∧ t.booted = false ∧ t.pkg.bootFail = some (n + 1) ∧ t.pkg.bootStage = n
        ∧ t.pkg.mrs = (is.take n).map ext ++ List.replicate (8 - n) 0 ∧ t.pkg.capw = 3200 ∧ (n < 5 → ∀ l ∈ t.pkg.links, l.retraining = true))
    ∧ (∀ (i : Image) (m : BitVec 512), s.booted = true → s.pkg.mrs[6]? = some m →
      (imageOk i = false → exec (.firmwareLoad i) s = .next { s with records := s.records ++ [.written 23 false] })
      ∧ (imageOk i = true → ∃ t, exec (.firmwareLoad i) s = .next t
        ∧ t.pkg.mrs = s.pkg.mrs.set 6 (Config.sha512 (digestBytes m ++ digestBytes (Config.sha512 i.bytes))) ∧ t.mem = s.mem))
    ∧ (∀ i : Image, s.pkg.bootFail = some i.stage → s.pkg.bootStage + 1 = i.stage → i.stage ≤ 6 → i.stage ≤ s.pkg.flash.length →
      ∃ t, exec (.firmwareLoad i) s = .next t ∧ (imageOk i = true → i.stage ≤ t.pkg.bootStage)
        ∧ (imageOk i = false → t.pkg.bootStage = s.pkg.bootStage ∧ t.pkg.bootFail = some i.stage ∧ t.pkg.mrs = s.pkg.mrs))

/-- R312 to R319, R321: each SPDM request of a device whose boot code runs is answered with one response, and changes nothing but the session.
Who asks stands in the state (log entry 99); a request that names another certificate slot than 0 is invalid. COUNTER_SNAPSHOT answers with the sixteen counters under the next number, and a signature, at a later
%tick than the one before; ENERGY_APPORTION records the die's power, once a millisecond; AGE_UPDATE its age, once an hour. No register and no byte changes. Where the manual is silent the clause is
the model's choice, by log entry 66. -/
def Obligations.AttestationAndAccountingComplete : Prop :=
  (∀ (s : State), s.serves = true →
      let answers := fun (i : Instr) (r : Spdm) (session : Nat) => exec i s
        = .next { s with pkg := { s.pkg with session := session, responses := s.pkg.responses ++ [r] } }
      let now := s.pkg.session
      let chain := Config.sha512 Config.certificates
      let slot := s.own.asked.slot
      answers .getVersion (.version 0x13) now ∧ answers .getCapabilities (.capabilities true true true true true true) now
        ∧ answers .negotiateAlgorithms (.algorithms .ed25519 .sha512 .x25519 .aes256gcm) now
        ∧ answers .getDigests (.digests [(0, chain)]) now
        ∧ (slot = 0 → answers .getCertificate (.certificate Config.certificates) now
          ∧ (∀ n, answers (.challenge n) (.challenge chain n (Config.sign (digestBytes chain ++ leBytes 32 n.toNat))) now)
          ∧ (∀ k n, answers (.getMeasurements k n) (.measurement k (s.measurement k)
              (Config.sign (leBytes 32 n.toNat ++ leBytes 1 k ++ ((s.measurement k).map (·.2)).getD []))) now)
          ∧ ∀ x, answers (.keyExchange x)
              (.session (Config.keyShare x) (Config.sign (leBytes 32 x.toNat ++ leBytes 32 (Config.keyShare x).toNat))) 1)
        ∧ (slot ≠ 0 → answers .getCertificate .invalid now ∧ (∀ n, answers (.challenge n) .invalid now)
          ∧ (∀ k n, answers (.getMeasurements k n) .invalid now) ∧ ∀ x, answers (.keyExchange x) .invalid now)
        ∧ (now = 1 → answers .finish .finished 2) ∧ (now ≠ 1 → answers .finish .unexpected now)
        ∧ (now ≠ 0 → answers .endSession .ended 0) ∧ (now = 0 → answers .endSession .unexpected 0))
  ∧ (∀ (s : State),
      (∀ n w nonce, s.world? n = some w → s.canSnapshot n = true → ∃ t v b, exec (.counterSnapshot n nonce) s = .next t
        ∧ t.world? n = some v ∧ v.snapNo = w.snapNo + 1 ∧ v.snapTick = s.pkg.tick ∧ v.counters = w.counters
        ∧ t.pkg.responses = s.pkg.responses ++ [.snapshot b]
        ∧ b = snapBytes n (s.worldState n) (w.snapNo + 1) s.pkg.tick nonce w.counters ++ digestBytes (Config.sign
            (snapBytes n (s.worldState n) (w.snapNo + 1) s.pkg.tick nonce w.counters)) ∧ t.mem = s.mem ∧ t.waves = s.waves)
      ∧ (∀ d e, d < 8 → s.pkg.dies.length = 8 → (s.die d).energyAt / milliTicks < s.pkg.tick / milliTicks →
        ∃ t, exec (.energyApportion d e) s = .next t ∧ (t.die d).power = e % 2 ^ 14 ∧ (t.die d).energyAt = s.pkg.tick
          ∧ t.worlds.map (·.id) = s.worlds.map (·.id) ∧ t.mem = s.mem ∧ t.waves = s.waves)
      ∧ (∀ d age eol, d < 8 → s.pkg.dies.length = 8 → age ≤ 1000 → ((s.die d).ageTick = 0 ∨ (s.die d).ageTick + hourTicks ≤ s.pkg.tick) →
        ∃ t, exec (.ageUpdate d age eol) s = .next t ∧ (t.die d).age = age ∧ (t.die d).eolDays = min eol 65535 ∧ t.mem = s.mem ∧ t.waves = s.waves))

/-! ## The whole machine -/

/-- R10 to R29, R31: decoding and encoding agree, in both directions and on every bit. Bytes decode to i, with some bytes left over, exactly
where i is a well-formed instruction word and the bytes are its encoding followed by those left over. -/
def Obligations.DecodingInvertsEncoding : Prop :=
  ∀ (bs : List Byte) (i : Instr) (rest : List Byte),
    decode bs = .ok (i, rest) ↔ (i.raw.isSome = true ∧ i.wf = true ∧ bs = encodeBytes i ++ rest)

/-- R10 to R19, R30: words of the manual's worked encodings, byte by byte, decode to the instructions that they stand for; an OP that the map leaves
unassigned is refused, and so is LEN 00. -/
def Obligations.WorkedWordsDecode : Prop :=
  decode [0x41, 0x04, 0x82, 0x00, 0xC0, 0x00, 0x99, 0x00]
      = .ok (.add ⟨⟨1, false⟩, .w64, .i32, false, 4, ⟨2, .ident⟩, .vec ⟨3, .xor 8⟩⟩, [])
    ∧ decode [0x0E, 0x49, 0x43, 0x00, 0x80, 0x00, 0x40, 0x00, 0x83, 0xA0, 0x00, 0x00]
      = .ok (.fma ⟨⟨2, true⟩, .f32, .rz, 6, ⟨1, .ident⟩, .vec ⟨2, .ident⟩, ⟨3, .shd 1⟩⟩, [])
    ∧ decode [0x06, 0x4C, 0x00, 0x00, 0x00, 0x00, 0x00, 0x00, 0x00, 0x00, 0xFA, 0xFF] = .ok (.bra ⟨⟨3, true⟩, .w96, 0xFFFA⟩, [])
    ∧ decode [0xC7, 0xBD, 0x03, 0x0A, 0x00, 0x00, 0x80, 0x31, 0x00, 0x01, 0x00, 0x00, 0x00, 0x00, 0x00, 0x00]
      = .ok (.st ⟨⟨15, false⟩, .w128, .int .b32, some .pkg, .scalar 40, .absent, 0x100, 7⟩, [])
    ∧ decode [0x43, 0x3E, 0x00, 0x01, 0x00, 0x00, 0x00, 0x00, 0x00, 0x10, 0x00, 0x00, 0x01, 0x00, 0x00, 0x00]
      = .ok (.binit ⟨⟨15, false⟩, 4, .imm 1 4096⟩, [])
    ∧ decode [0xCA, 0x3E, 0x00, 0x02, 0x00, 0x04, 0x80, 0x01, 0x28, 0x00, 0x29, 0x00]
      = .ok (.mma ⟨⟨15, false⟩, .w96, .q4, .regs 8, .regs 16, 40, 41, 0⟩, [])
    ∧ decode [0x06, 0x3F, 0x03, 0x0A, 0x80, 0x02, 0x00, 0x00, 0x02, 0x00, 0x02, 0x02]
      = .ok (.claim ⟨⟨15, false⟩, 6, 40, .vec ⟨10, .ident⟩, 2, 2, .int .i32⟩, [])
    ∧ decode [0x41, 0x3F, 0x00, 0x00, 0x00, 0x00, 0x80, 0x01] = .ok (.srd ⟨⟨15, false⟩, false, .vec 0, 0, .absent⟩, [])
    ∧ decode [0x81, 0x3F, 0x00, 0x00, 0x00, 0x00, 0x00, 0x00] = .error .unassigned
    ∧ decode [0x00, 0x3C, 0x00, 0x00, 0x00, 0x00, 0x00, 0x00] = .error .lenZero

/-- R11, R31, R33, R54 to R56, R58: a step in which a quarter issues runs the instruction that its chosen set's PC holds. Where the next cue is the quarter's
issue, or nothing is on the agenda and nothing else is due, t is the turn that the quarter takes, and the bytes from the PC to the end of its
32-byte block, of an executable page of the launch's lease, decode to i: the step is exec of i once the turn is noted, with i's length as the issue's,
its set and PC. A set that stands at an instruction that it has issued performs that instruction again, whatever its PC holds by then. Then no issue is in
progress, the step's number and %tick have moved on, TLBs and caches may have dropped some of what they held, a wave that may not issue counts its wait anew, a notice
that has come due is posted, and no byte has changed. An event that is
the next cue is performed in the same way, for the one who asks where the cue says who does (log entry 99). Where the manual is silent the clause is
the model's choice, by log entries 1, 2, 3, 69, 97 and 99. -/
def Obligations.StepRunsTheDecodedInstruction : Prop :=
  (∀ (s s0 : State) (t : Turn),
    ((∃ q cs, s.own.agenda = .issue q :: cs ∧ s0 = { s with own := { s.own with agenda := cs } } ∧ s0.turn q = some t)
      ∨ (s.own.agenda = [] ∧ s0 = s ∧ s.first s.dueEvents = none ∧ (s.own.stepNo % 4 = 3 → s.first s.timedEvents = none)
        ∧ s.quartersInTurn.findSome? s.turn = some t)) →
    let pc := t.r.fset.pc
    let va := pc.toNat
    let u := s0.take t
    let runs := fun (i : Instr) => u.own.cur = some ⟨t.e.w.uid, pc, t.r.fset.base, laneMask t.r.fset.lanes, (encodeBytes i).length⟩
      ∧ u.mem = s.mem ∧ u.ord = s.ord ∧ u.groups = s.groups ∧ u.objs = s.objs ∧ step s = finish (exec i u)
    (∀ (l : Launch) (f : Leaf) (big : Bool) (e : W128) (i : Instr) (rest : List Byte), s0.launch? t.e.w.launch = some l →
      let bs := (List.range (32 - va % 32)).map (fun k => f.byteAt big (va + k))
      (∀ y, t.r.fset.stall = some y → y.issued = false) → va % 4 = 0 → (∀ k < (encodeBytes i).length, s0.mayFetch l (va + k) = true) →
      s0.xlate t.e.w.agent (s0.space l.world l.comp) va = .page f big e → f.x = true →
      (f.tier = 2 ∨ (s0.die f.home).held = false) → s0.peerStops f va = none → (∀ b ∈ bs, b.hole = false) →
      decode (bs.map s0.ownByte) = .ok (i, rest) → s0.fetchPoison (bs.take (encodeBytes i).length) = false → runs i)
    ∧ (∀ y, t.r.fset.stall = some y → y.issued = true → y.instr.raw.isSome = true → y.instr.wf = true → runs y.instr))
  ∧ (∀ (s : State) (i : Instr) (cs : List Cue), s.own.agenda = .happen i :: cs → i.raw = none →
      step s = finish (exec i { s with own := { s.own with agenda := cs } }))
  ∧ (∀ (s : State) (who : Asked) (i : Instr) (cs : List Cue), s.own.agenda = .ask who i :: cs → i.raw = none →
      step s = finish (exec i { s with own := { s.own with agenda := cs, asked := who } }))
  ∧ ∀ s : State, finish (.next s) = .next s.tock.noticed ∧ ((∀ l ∈ s.launches, l.notices = 0) → s.tock.noticed = s.tock)
      ∧ SameBytes s s.tock.noticed ∧ s.tock.own.cur = none ∧ s.tock.own.fetched = none ∧ s.tock.own.asked = askedReset
      ∧ s.tock.own.stepNo = s.own.stepNo + 1 ∧ s.tock.pkg.tick = s.pkg.tick + Config.elapsed s.own.stepNo
      ∧ s.tock.waves = s.waves.map s.countsOn ∧ (∀ w, s.countsOn w = w ∨ s.countsOn w = { w with waited := 0 })
      ∧ s.tock.groups = s.groups ∧ s.tock.mem.tlb.Sublist s.mem.tlb ∧ s.tock.ord.copies.Sublist s.ord.copies ∧ s.tock.own.agenda = s.own.agenda

/-- What the machine is, every step keeps: physical memory and the maps beside it stay in canonical form (keys strictly rising, no entry equal to what an
unlisted key reads as), the package keeps its eight compute dies, its fourteen links, its sixteen Farsol ports and its eight measurement registers, the working cap stays
within what R320 allows, the split, the boot stage and the session stay among the legal ones, each partition keeps its eight watch ranges, each world
its sixteen counters, each repair state its two rick slots. -/
def Obligations.StepKeepsTheShape : Prop :=
  ∀ (s t : State), s.shaped → step s = .next t → t.shaped

/-- R216, R239, R258, R281, R310, R320, R331: what reset leaves. The machine has its shape; no stage of measured boot has run, and its measurement
registers are 0; nothing is resident, mapped, open or queued; memory lists nothing; the working cap is 3,200 W; the one
partition's ramp, ember, prefetch and rick registers hold their reset values, and its watch ranges are 0. Where the manual is silent the clause is
the model's choice, by log entries 4 and 5. -/
def Obligations.ResetLeaves : Prop :=
  let s := State.reset
  s.shaped ∧ s.booted = false ∧ s.pkg.bootStage = 0 ∧ s.pkg.mrs = List.replicate 8 0 ∧ s.pkg.capw = 3200 ∧ s.pkg.tick = 0
    ∧ s.waves = [] ∧ s.groups = [] ∧ s.launches = [] ∧ s.queues = [] ∧ s.worlds = [] ∧ s.seqs = [] ∧ s.reqs = [] ∧ s.estates = []
    ∧ s.objs = [] ∧ (∀ pa, s.byteOf pa = 0) ∧ s.records = []
    ∧ ∃ p, s.parts = [p] ∧ p.id = 0 ∧ p.ramp = 0x80000040 ∧ p.ember = 0x800003E8 ∧ p.prefetch = 0x80080004 ∧ p.rick = 0x80002710
      ∧ p.watch = List.replicate 8 (0, 0) ∧ p.slice = none ∧ p.world = none ∧ p.frozen = false

/-- R200: the spill engine's packing. A register takes the first format that fits its 64 slices (1 uniform, 2 affine, 3 and 4 the sign extensions of 8 and of 16
bits, 0 any), with a payload of 4, 8, 64, 128 or 256 bytes, and a reload restores every bit. -/
def Obligations.PackingRestoresEveryBit : Prop :=
  ∀ (r : Row), r.length = 64 →
    let x := fun i => r.getD i 0
    let uniform := ∀ i < 64, x i = x 0
    let affine := ∃ b d : W32, d ≠ 0 ∧ ∀ i < 64, x i = b + BitVec.ofNat 32 i * d
    let narrow := fun n => ∀ i < 64, x i = ((x i).setWidth n).signExtend 32
    let is := fun k n => (packRow r).1 = k ∧ (packRow r).2.length = n
    (uniform → is 1 4) ∧ (¬uniform → affine → is 2 8) ∧ (¬uniform → ¬affine → narrow 8 → is 3 64)
      ∧ (¬uniform → ¬affine → ¬narrow 8 → narrow 16 → is 4 128) ∧ (¬uniform → ¬affine → ¬narrow 8 → ¬narrow 16 → is 0 256)
      ∧ unpackRow (packRow r).1 (packRow r).2 = r
end

