-- ==== Sys2Proof/Machine/GotisText.lean ====
section
/-! DEFINITION. GotisText.lean: the text of the assembler gotis: tokens and lines (R341), operands (R342) and constant expressions (R343). -/

namespace Sys2Proof.Gotis

open Sys2Proof.Machine

/-! ## Diagnostics (R348) -/

/-- The codes of R348. -/
inductive Code where
  | a01 | a02 | a03 | a04 | a05 | a06 | a07 | a08 | a09 | a10 | a11
deriving DecidableEq, Repr

/-- R348: A09, A10 and A11 are warnings. -/
def Code.isError : Code → Bool
  | .a01 | .a02 | .a03 | .a04 | .a05 | .a06 | .a07 | .a08 => true
  | .a09 | .a10 | .a11 => false

/-! ## Tokens (R341) -/

/-- A decimal literal with a point or an exponent, digits * 10^exp, or a named value (R343). -/
inductive FLit where
  | dec (digits : Nat) (exp : Int)
  | inf
  | nan
deriving DecidableEq, Repr

/-- A token: a name (a mnemonic with its modifiers, a register and a directive among them), an integer, a decimal
literal, a shift operator, a guard or a single character. -/
inductive Tok where
  | word (cs : List Char)
  | int (n : Nat)
  | flt (l : FLit)
  | shl
  | shr
  | guard (neg : Bool) (cs : List Char)
  | sym (c : Char)
deriving DecidableEq, Repr

def isBlank (c : Char) : Bool := c == ' ' || c == '\t' || c == '\r'

def isLetter (c : Char) : Bool :=
  (97 ≤ c.toNat && c.toNat ≤ 122) || (65 ≤ c.toNat && c.toNat ≤ 90) || c.toNat == 95

def isDec (c : Char) : Bool := 48 ≤ c.toNat && c.toNat ≤ 57

/-- What continues a name (R341). -/
def isNameChar (c : Char) : Bool := isLetter c || isDec c || c == '.'

/-- The value of a digit, up to 15. -/
def digitOf (c : Char) : Nat :=
  if isDec c then c.toNat - 48
  else if 97 ≤ c.toNat && c.toNat ≤ 102 then c.toNat - 87
  else if 65 ≤ c.toNat && c.toNat ≤ 70 then c.toNat - 55
  else 99

/-- Digits of a base with optional underscores between them (R343): the value and the number of digits; none where a
character is no digit of the base, or where there is no digit. -/
def digitsOf (base : Nat) (cs : List Char) : Option (Nat × Nat) :=
  let ds := cs.filter (fun c => c != '_')
  if ds.isEmpty || ds.any (fun c => base ≤ digitOf c) then none
  else some (ds.foldl (fun n c => base * n + digitOf c) 0, ds.length)

/-- A decimal literal without its exponent: digits and the places after the point. -/
def pointed (cs : List Char) : Option (Nat × Nat) :=
  let w := cs.takeWhile (fun c => c != '.')
  match w, cs.drop w.length with
  | w, [] | w, [_] => (digitsOf 10 w).map (fun d => (d.1, 0))
  | [], _ :: frac => digitsOf 10 frac
  | w, _ :: frac => do
    let i ← digitsOf 10 w
    let f ← digitsOf 10 frac
    return (i.1 * 10 ^ f.2 + f.1, f.2)

/-- The letter of an exponent; case matters only in names (R341). -/
def isExp (c : Char) : Bool := c == 'e' || c == 'E'

/-- A number (R343): hexadecimal, binary or decimal, or a literal with a point or an exponent. -/
def numberOf (cs : List Char) : Option Tok :=
  match cs with
  | '0' :: 'x' :: ds | '0' :: 'X' :: ds => (digitsOf 16 ds).map (fun d => .int d.1)
  | '0' :: 'b' :: ds | '0' :: 'B' :: ds => (digitsOf 2 ds).map (fun d => .int d.1)
  | _ =>
    let m := cs.takeWhile (fun c => !isExp c)
    match cs.drop m.length with
    | [] =>
      if m.contains '.' then (pointed m).map (fun p => .flt (.dec p.1 (-(p.2 : Int))))
      else (digitsOf 10 m).map (fun d => .int d.1)
    | _ :: ex => do
      let p ← pointed m
      let e ← match ex with
        | '-' :: ds => (digitsOf 10 ds).map (fun d => -(d.1 : Int))
        | '+' :: ds => (digitsOf 10 ds).map (fun d => (d.1 : Int))
        | ds => (digitsOf 10 ds).map (fun d => (d.1 : Int))
      return .flt (.dec p.1 (e - p.2))

/-- The characters of the number at the head: a sign belongs to it after an exponent mark of a decimal number. -/
def numberChars (cs : List Char) : List Char :=
  let m := cs.takeWhile isNameChar
  let rest := cs.drop m.length
  if m.getLast?.any isExp && m.take 2 != ['0', 'x'] && m.take 2 != ['0', 'X'] then
    match rest with
    | '-' :: ds => m ++ '-' :: ds.takeWhile isNameChar
    | '+' :: ds => m ++ '+' :: ds.takeWhile isNameChar
    | _ => m
  else m

def isSymbol (c : Char) : Bool :=
  ['+', '-', '*', '/', '%', '&', '|', '^', '~', '(', ')', '[', ']', ',', ':', '!', '='].contains c

/-- The tokens of a line, without its comment; none where a character begins no token. The fuel is the line's length. -/
def lexLine : Nat → List Char → Option (List Tok)
  | 0, _ => some []
  | n + 1, cs =>
    match cs with
    | [] => some []
    | ';' :: _ => some []
    | '<' :: '<' :: rest => (lexLine n rest).map (.shl :: ·)
    | '>' :: '>' :: rest => (lexLine n rest).map (.shr :: ·)
    | '?' :: '!' :: rest =>
      let m := rest.takeWhile isNameChar
      (lexLine n (rest.drop m.length)).map (.guard true m :: ·)
    | '?' :: rest =>
      let m := rest.takeWhile isNameChar
      (lexLine n (rest.drop m.length)).map (.guard false m :: ·)
    | c :: rest =>
      if isBlank c then lexLine n rest
      else if isDec c || (c == '.' && rest.head?.any isDec) then
        let m := numberChars cs
        (numberOf m).bind (fun t => (lexLine n (cs.drop m.length)).map (t :: ·))
      else if isLetter c || c == '.' then
        let m := c :: rest.takeWhile isNameChar
        (lexLine n (cs.drop m.length)).map (.word m :: ·)
      else if isSymbol c then (lexLine n rest).map (.sym c :: ·)
      else none

/-- Splits at a character. -/
def splitChar (c : Char) : List Char → List (List Char)
  | [] => [[]]
  | x :: xs =>
    if x == c then [] :: splitChar c xs
    else match splitChar c xs with
      | [] => [[x]]
      | y :: ys => (x :: y) :: ys

/-- The operands of a line: its tokens split at the commas outside brackets. -/
def splitOps (ts : List Tok) : List (List Tok) :=
  match ts with
  | [] => []
  | _ =>
    let r := ts.foldr (init := ((0 : Int), [([] : List Tok)])) (fun t (acc : Int × List (List Tok)) =>
      let d := acc.1
      let push := match acc.2 with
        | [] => [[t]]
        | x :: xs => (t :: x) :: xs
      match t with
      | .sym ')' | .sym ']' => (d + 1, push)
      | .sym '(' | .sym '[' => (d - 1, push)
      | .sym ',' => if d == 0 then (d, [] :: acc.2) else (d, push)
      | .sym _ | .word _ | .int _ | .flt _ | .guard _ _ | .shl | .shr => (d, push))
    r.2

/-- A line's parts (R341): the words of the head are the mnemonic and its modifiers, or a directive's name. -/
structure Line where
  label : Option (List Char)
  guard : Option (Bool × List Char)
  head  : List Char
  ops   : List (List Tok)
deriving DecidableEq, Repr

/-- R341: label, guard, and a mnemonic or directive with its operands, each optional. -/
def lineOf (ts : List Tok) : Except Code Line :=
  let (label, ts) := match ts with
    | .word l :: .sym ':' :: rest => (some l, rest)
    | _ => (none, ts)
  let (guard, ts) := match ts with
    | .guard neg p :: rest => (some (neg, p), rest)
    | _ => (none, ts)
  match ts with
  | [] => if guard.isSome then .error .a01 else .ok ⟨label, none, [], []⟩
  | .word h :: rest => .ok ⟨label, guard, h, splitOps rest⟩
  | _ => .error .a01

/-! ## Registers (R341, R342) -/

inductive RegClass where
  | v | s | p | cap
deriving DecidableEq, Repr

/-- How many registers a class has (R341). -/
def RegClass.count : RegClass → Nat
  | .v => 128
  | .s => 64
  | .p => 16
  | .cap => 8

/-- A register's number: decimal digits without a leading zero. -/
def regNum (cs : List Char) : Option Nat :=
  if cs.all isDec && (cs.length == 1 || cs.head? != some '0') then (digitsOf 10 cs).map Prod.fst else none

/-- A name of a register's shape, its number of any size. -/
def regOf (cs : List Char) : Option (RegClass × Nat) :=
  match cs with
  | 'v' :: ds => (regNum ds).map (fun n => (.v, n))
  | 's' :: ds => (regNum ds).map (fun n => (.s, n))
  | 'p' :: ds => (regNum ds).map (fun n => (.p, n))
  | 'c' :: 'a' :: 'p' :: ds => (regNum ds).map (fun n => (.cap, n))
  | _ => none

/-- A word of the tables, compared as text. -/
def isWord (cs : List Char) (s : String) : Bool := String.ofList cs == s

/-- The entry of a table of words. -/
def lookup {α : Type} (t : List (String × α)) (cs : List Char) : Option α :=
  (t.find? (fun e => e.1 == String.ofList cs)).map Prod.snd

/-! ## Constant expressions (R343) -/

inductive BinOp where
  | or | xor | and | shl | shr | add | sub | mul | div | mod
deriving DecidableEq, Repr

/-- Precedence, in the rising order of R343. -/
def BinOp.level : BinOp → Nat
  | .or => 0
  | .xor => 1
  | .and => 2
  | .shl | .shr => 3
  | .add | .sub => 4
  | .mul | .div | .mod => 5

def binOf : Tok → Option BinOp
  | .sym '|' => some .or
  | .sym '^' => some .xor
  | .sym '&' => some .and
  | .shl => some .shl
  | .shr => some .shr
  | .sym '+' => some .add
  | .sym '-' => some .sub
  | .sym '*' => some .mul
  | .sym '/' => some .div
  | .sym '%' => some .mod
  | _ => none

/-- A constant expression. The handle functions of R343 take one argument, or two at die and pod scope. -/
inductive Expr where
  | num (n : Int)
  | name (cs : List Char)
  | neg (e : Expr)
  | not (e : Expr)
  | bin (op : BinOp) (a b : Expr)
  | handle (sc : Scope) (home index : Expr)
deriving DecidableEq, Repr

def handleFns : List (String × Scope) :=
  [("handle.core", .core), ("handle.quad", .quad), ("handle.die", .die), ("handle.pkg", .pkg), ("handle.pod", .pod)]

/-- Scopes whose handle names a home as well (R138). -/
def homed : Scope → Bool
  | .die | .pod => true
  | .core | .quad | .pkg => false

/-- Parses an expression whose operators have at least the level given; left is what already stands to its left. The
fuel bounds the tokens. -/
def exprFrom : Nat → Option Expr → Nat → List Tok → Option (Expr × List Tok)
  | 0, _, _, _ => none
  | n + 1, none, lvl, ts =>
    match ts with
    | .sym '-' :: r => do
      let (e, r) ← exprFrom n none 6 r
      exprFrom n (some (.neg e)) lvl r
    | .sym '~' :: r => do
      let (e, r) ← exprFrom n none 6 r
      exprFrom n (some (.not e)) lvl r
    | .sym '(' :: r => do
      let (e, r) ← exprFrom n none 0 r
      match r with
      | .sym ')' :: r => exprFrom n (some e) lvl r
      | _ => none
    | .int k :: r => exprFrom n (some (.num k)) lvl r
    | .word f :: .sym '(' :: r => do
      let sc ← lookup handleFns f
      let (a, r) ← exprFrom n none 0 r
      let (h, i, r) ← match homed sc, r with
        | true, .sym ',' :: r => do
          let (i, r) ← exprFrom n none 0 r
          pure (a, i, r)
        | true, _ => none
        | false, r => some (.num 0, a, r)
      match r with
      | .sym ')' :: r => exprFrom n (some (.handle sc h i)) lvl r
      | _ => none
    | .word cs :: r => exprFrom n (some (.name cs)) lvl r
    | _ => none
  | n + 1, some l, lvl, ts =>
    match ts with
    | [] => some (l, [])
    | t :: r =>
      match binOf t with
      | some op =>
        if lvl ≤ op.level then do
          let (e, r) ← exprFrom n none (op.level + 1) r
          exprFrom n (some (.bin op l e)) lvl r
        else some (l, ts)
      | none => some (l, ts)

/-- All the tokens as one expression. -/
def exprOf (ts : List Tok) : Option Expr :=
  match exprFrom (2 * ts.length + 2) none 0 ts with
  | some (e, []) => some e
  | _ => none

/-- Puts the .equ names' expressions in their places. -/
def Expr.subst (eqs : List (List Char × Expr)) : Expr → Expr
  | .num n => .num n
  | .name cs => ((eqs.find? (fun q => q.1 == cs)).map Prod.snd).getD (.name cs)
  | .neg e => .neg (e.subst eqs)
  | .not e => .not (e.subst eqs)
  | .bin op a b => .bin op (a.subst eqs) (b.subst eqs)
  | .handle sc h i => .handle sc (h.subst eqs) (i.subst eqs)

/-- A value (R343): an integer, an address in a section, or one that is not yet placed. -/
inductive Val where
  | int (n : Int)
  | loc (code : Bool) (off : Int)
  | unplaced
deriving DecidableEq, Repr

/-- The handle of R138, where its arguments are in range. -/
def handleOf (sc : Scope) (home i : Int) : Except Code Int :=
  let r := match sc with
    | .core => if 0 ≤ i && i % 16 == 0 && i / 16 < 16777216 then some (256 * (i / 16)) else none
    | .quad => if 0 ≤ i && i ≤ 63 then some (256 * i) else none
    | .die => if 0 ≤ i && i ≤ 255 && 0 ≤ home && home ≤ 7 then some (home * 2 ^ 51 + 256 * i) else none
    | .pkg => if 0 ≤ i && i ≤ 1023 then some (256 * i) else none
    | .pod => if 0 ≤ i && i ≤ 255 && 0 ≤ home && home ≤ 1023 then some (home * 2 ^ 54 + 256 * i) else none
  match r with
  | some h => .ok (h + sc.code.toNat)
  | none => .error .a04

/-- R343: / truncates toward zero and % takes the dividend's sign; division by zero is an error. A negative shift count
is one too (DEDUCED, log entry 107). -/
def BinOp.apply (op : BinOp) (a b : Int) : Except Code Int :=
  match op with
  | .or => .ok (Int.lor a b)
  | .xor => .ok (Int.xor a b)
  | .and => .ok (Int.land a b)
  | .shl => if b < 0 then .error .a04 else .ok (a * 2 ^ b.toNat)
  | .shr => if b < 0 then .error .a04 else .ok (a >>> b.toNat)
  | .add => .ok (a + b)
  | .sub => .ok (a - b)
  | .mul => .ok (a * b)
  | .div => if b = 0 then .error .a04 else .ok (Int.tdiv a b)
  | .mod => if b = 0 then .error .a04 else .ok (Int.tmod a b)

/-- The integer that an operation needs; a label there is A06 (R343). -/
def Val.asInt : Val → Except Code (Option Int)
  | .int n => .ok (some n)
  | .unplaced => .ok none
  | .loc _ _ => .error .a06

def intOp (f : Int → Int → Except Code Int) (a b : Val) : Except Code Val := do
  match ← a.asInt, ← b.asInt with
  | some x, some y => return .int (← f x y)
  | _, _ => return .unplaced

/-- R343: the exact value. A label stands in it as the difference of two labels of one section, or moved by a constant. -/
def Expr.eval (names : List Char → Option Val) : Expr → Except Code Val
  | .num n => .ok (.int n)
  | .name cs => match names cs with
    | some v => .ok v
    | none => .error .a06
  | .neg e => do intOp (fun _ y => .ok (-y)) (.int 0) (← e.eval names)
  | .not e => do intOp (fun _ y => .ok (-y - 1)) (.int 0) (← e.eval names)
  | .handle sc h i => do intOp (handleOf sc) (← h.eval names) (← i.eval names)
  | .bin op a b => do
    let x ← a.eval names
    let y ← b.eval names
    match op, x, y with
    | .add, .loc c o, .int k => return .loc c (o + k)
    | .sub, .loc c o, .int k => return .loc c (o - k)
    | .sub, .loc c o, .loc d p => if c == d then return .int (o - p) else throw .a06
    | .add, .loc _ _, .unplaced | .sub, .loc _ _, .unplaced | .sub, .unplaced, .loc _ _ => return .unplaced
    | op, x, y => intOp op.apply x y

/-! ## Floating literals (R343) -/

/-- A literal's bits in a format, rounded to nearest-even; none where it lies outside the format. A quotient is taken to
so many binary places that what is left beside it can only break ties. -/
def FLit.bits (f : FFmt) (neg : Bool) : FLit → Option Nat
  | .nan => if neg then none else some f.cnan
  | .inf => if f == .e4m3 then none else some (fSigned f neg f.infBits)
  | .dec m e =>
    let r :=
      if 0 ≤ e then fRound f .rne neg (m * 10 ^ e.toNat) 0 false
      else
        let d := 10 ^ (-e).toNat
        let k := bitLen d + 200
        fRound f .rne neg (m * 2 ^ k / d) (-(k : Int)) (m * 2 ^ k % d != 0)
    if r.2 &&& flagOF == 0 then some r.1 else none

/-! ## Operands (R342) -/

/-- A memory operand: its base, the registers added to it and its constant. -/
structure MemArg where
  base : RegClass × Nat
  offs : List (RegClass × Nat × LanePat)
  disp : Option Expr
deriving DecidableEq, Repr

inductive Opnd where
  | vec (n : Nat) (pat : LanePat)
  | scalar (n : Nat)
  | pred (inv : Bool) (n : Nat)
  | special (idx : Nat)
  | hole
  | mem (m : MemArg)
  | pair (a b : Expr)
  | expr (e : Expr)
  | flt (neg : Bool) (l : FLit)
  | mc (e : Expr)
  | gate (r : RegClass × Nat)
  | kappa (e : Expr)
deriving DecidableEq, Repr

/-- R184's names. -/
def specials : List (String × Nat) :=
  [("laneid", 0), ("fibre", 1), ("wave", 2), ("group", 3), ("gx", 4), ("gy", 5), ("gz", 6), ("core", 7), ("quad", 8),
   ("die", 9), ("pkg", 10), ("pod", 11), ("tick", 12), ("ratio", 13), ("ratioreq", 14), ("fflags", 15), ("mode", 16),
   ("winbase", 17), ("winsize", 18), ("region", 19), ("seq", 20), ("world", 21), ("compartment", 22), ("claim", 23),
   ("harvest", 24), ("ltop", 25), ("estates", 26)]

/-- A lane-pattern suffix (R23); an illegal N is A02 (R348). -/
def patOf (cs : List Char) : Except Code LanePat :=
  let k := cs.takeWhile isLetter
  match regNum (cs.drop k.length) with
  | none => .error .a02
  | some n =>
    if 64 ≤ n then .error .a02
    else if isWord k "rot" then .ok (.rot (BitVec.ofNat 6 n))
    else if isWord k "bc" then .ok (.bc (BitVec.ofNat 6 n))
    else if isWord k "xor" then .ok (.xor (BitVec.ofNat 6 n))
    else if isWord k "mir" then if 1 ≤ n && n ≤ 6 then .ok (.mir (BitVec.ofNat 3 n)) else .error .a02
    else if isWord k "shd" then .ok (.shd (BitVec.ofNat 6 n))
    else if isWord k "shu" then .ok (.shu (BitVec.ofNat 6 n))
    else .error .a02

/-- The names an operand may use: the kernel's arguments, each a scalar register (R345), and the .equ constants. -/
structure Names where
  args : List (List Char × Nat)
  eqs  : List (List Char × Expr)
deriving DecidableEq, Repr

/-- A word as a register: of a register's shape, or an argument's name. -/
def Names.reg (ns : Names) (cs : List Char) : Option (RegClass × Nat) :=
  match ns.args.find? (fun a => a.1 == cs) with
  | some a => some (.s, a.2)
  | none => regOf cs

/-- A register in range (A03). -/
def regIn (r : RegClass × Nat) : Except Code (RegClass × Nat) :=
  if r.2 < r.1.count then .ok r else .error .a03

def Names.expr (ns : Names) (ts : List Tok) : Except Code Expr :=
  match exprOf ts with
  | some e => .ok (e.subst ns.eqs)
  | none => .error .a02

/-- The registers added in a memory operand, each with its pattern, and what follows them. The fuel is its length. -/
def Names.addends (ns : Names) : Nat → List Tok → Except Code (List (RegClass × Nat × LanePat) × List Tok)
  | 0, ts => .ok ([], ts)
  | n + 1, ts =>
    match ts with
    | .sym '+' :: .word o :: more =>
      match ns.reg o with
      | none => .ok ([], ts)
      | some q => do
        let q ← regIn q
        let (pat, more) ← match more with
          | .sym '~' :: .word sfx :: more => if q.1 == .v then do pure (← patOf sfx, more) else throw .a02
          | _ => pure (LanePat.ident, more)
        let (qs, rest) ← ns.addends n more
        return ((q.1, q.2, pat) :: qs, rest)
    | _ => .ok ([], ts)

/-- What stands in the brackets of a memory operand (R137, R172). -/
def Names.memArg (ns : Names) (ts : List Tok) : Except Code MemArg := do
  match ts with
  | .word b :: rest =>
    match ns.reg b with
    | none => throw .a02
    | some r =>
      let base ← regIn r
      let (offs, rest) ← ns.addends rest.length rest
      let disp ← match rest with
        | [] => pure none
        | .sym '+' :: _ | .sym '-' :: _ => do pure (some (← ns.expr (.int 0 :: rest)))
        | _ => throw .a02
      return ⟨base, offs, disp⟩
  | _ => throw .a02

/-- One operand (R342). -/
def Names.opnd (ns : Names) (ts : List Tok) : Except Code Opnd := do
  match ts with
  | [.word ['_']] => return .hole
  | [.flt l] => return .flt false l
  | [.sym '-', .flt l] => return .flt true l
  | [.sym '!', .word w] => match ns.reg w with
    | some (.p, n) => if n < 16 then return .pred true n else throw .a03
    | _ => throw .a02
  | [.sym '%', .word w] => match lookup specials w with
    | some i => return .special i
    | none => throw .a02
  | .sym '[' :: rest =>
    match rest.getLast? with
    | some (.sym ']') => return .mem (← ns.memArg rest.dropLast)
    | _ => throw .a02
  | [.word w] =>
    match ns.reg w with
    | some r =>
      let r ← regIn r
      match r.1 with
      | .v => return .vec r.2 .ident
      | .s => return .scalar r.2
      | .p => return .pred false r.2
      | .cap => throw .a02
    | none =>
      if isWord w "inf" then return .flt false .inf
      else if isWord w "nan" then return .flt false .nan
      else return .expr (← ns.expr ts)
  | [.sym '-', .word w] => if isWord w "inf" then return .flt true .inf else return .expr (← ns.expr ts)
  | [.word w, .sym '~', .word sfx] =>
    match ns.reg w with
    | some (.v, n) =>
      let r ← regIn (.v, n)
      return .vec r.2 (← patOf sfx)
    | _ => throw .a02
  | .word w :: .sym '(' :: rest =>
    if isWord w "mc" && rest.getLast? == some (.sym ')') then return .mc (← ns.expr rest.dropLast)
    else if isWord w "gate" then
      match rest with
      | [.word g, .sym ')'] => match ns.reg g with
        | some r => return .gate (← regIn r)
        | none => throw .a02
      | _ => throw .a02
    else return .expr (← ns.expr ts)
  | .word ['k'] :: .sym '=' :: rest => return .kappa (← ns.expr rest)
  | _ =>
    let a := ts.takeWhile (fun t => t != .sym ':')
    match ts.drop a.length with
    | [] => return .expr (← ns.expr ts)
    | _ :: b => return .pair (← ns.expr a) (← ns.expr b)

end Sys2Proof.Gotis
end

