-- ==== Sys2Proof/Machine/GotisForms.lean ====
section
/-! DEFINITION. GotisForms.lean: what each mnemonic of the assembler gotis is written with and the word it names (R80, R83, R85, R99, R101, R111, R122, R128, R137, R148, R172, R188), and the choice of its length (R344). -/

namespace Sys2Proof.Gotis

open Sys2Proof.Machine

/-! ## The fields a form is filled in from -/

/-- What an instruction's operands are read in: the length tried, the word's own address, its guard and the values of the
names. -/
structure Ctx where
  len   : Len
  pc    : Int
  g     : Guard
  names : List Char → Option Val

abbrev R := Except Code

/-- A constant operand's value; a name not yet placed counts as 0, the shortest (R344). -/
def Ctx.int (c : Ctx) (e : Expr) : R Int := do
  return ((← (← e.eval c.names).asInt)).getD 0

/-- A constant of so many bits, unsigned. -/
def Ctx.nat (c : Ctx) (bits : Nat) (e : Expr) : R Nat := do
  let n ← c.int e
  if 0 ≤ n && n < 2 ^ bits then return n.toNat else throw .a04

/-- The distance to a target in code (R343); one not yet placed is assumed near (R344). -/
def Ctx.target (c : Ctx) (o : Opnd) : R Int := do
  match o with
  | .expr e => match ← e.eval c.names with
    | .loc true off => return off - c.pc
    | .unplaced => return 0
    | .loc false _ => throw .a06
    | .int _ => throw .a02
  | _ => throw .a02

/-- A branch offset of 128-bit words: 32 signed bits of bytes (R113). -/
def far (d : Int) : R (BitVec 32) :=
  if -2147483648 ≤ d && d < 2147483648 then .ok (BitVec.ofInt 32 d) else .error .a04

/-- A value as an integer immediate of a type (R22): the value taken at the type's width, by its sign for .i types, in the
field of the length. A value from -2^(w-1) to 2^w - 1 names w bits (DEDUCED, log entry 107). -/
def intImm (ty : IntTy) (len : Len) (n : Int) : R (BitVec 32) :=
  let w := ty.width
  if n < -(2 ^ (w - 1)) || 2 ^ w ≤ n then .error .a04
  else
    let u := n % 2 ^ w
    let v := if ty.signed && 2 ^ (w - 1) ≤ u then u - 2 ^ w else u
    let fits (b : Nat) : Bool := if ty.signed then -(2 ^ (b - 1)) ≤ v && v < 2 ^ (b - 1) else v < 2 ^ b
    match len with
    | .w64 => .error .a04
    | .w96 => if fits 16 then .ok (BitVec.ofNat 32 (v % 65536).toNat) else .error .a04
    | .w128 => if fits 32 then .ok (BitVec.ofInt 32 v) else .error .a04

/-- A floating operand's bits: a literal converted to the format, or a constant that gives the bits. -/
def Ctx.fltBits (c : Ctx) (f : FFmt) (o : Opnd) : R Nat := do
  match o with
  | .flt neg l => match l.bits f neg with
    | some b => return b
    | none => throw .a04
  | .expr e => c.nat f.width e
  | _ => throw .a02

/-- A floating immediate (R22). -/
def fltImm (f : FFmt) (len : Len) (bits : Nat) : R (BitVec 32) :=
  match len with
  | .w64 => .error .a04
  | .w96 =>
    if f == .f32 then
      if bits % 65536 == 0 then .ok (BitVec.ofNat 32 (bits / 65536)) else .error .a04
    else .ok (BitVec.ofNat 32 bits)
  | .w128 => .ok (BitVec.ofNat 32 bits)

abbrev ImmOf := Opnd → R (BitVec 32)

/-- An integer immediate of a type. -/
def Ctx.immTy (c : Ctx) (ty : IntTy) : ImmOf
  | .expr e => do intImm ty c.len (← c.int e)
  | _ => throw .a02

/-- R80: the control of BFE may be written pos:len, eight bits each. -/
def Ctx.immPair (c : Ctx) : ImmOf
  | .pair a b => do intImm .b32 c.len ((← c.nat 8 b) * 256 + (← c.nat 8 a))
  | o => c.immTy .b32 o

/-- A count of 32 bits; of BFE and SBFE alone, a pair too. -/
def Ctx.immCount (c : Ctx) (pair : Bool) : ImmOf := if pair then c.immPair else c.immTy .b32

def Ctx.immFlt (c : Ctx) (f : FFmt) : ImmOf := fun o => do fltImm f c.len (← c.fltBits f o)

/-- R99: an integer constant names the pair of halves, a literal one element for both. -/
def Ctx.immPk (c : Ctx) (f : FFmt) : ImmOf
  | .expr e => do
    let b ← intImm .b32 .w128 (← c.int e)
    match c.len with
    | .w64 => throw .a04
    | .w96 => if b.toNat / 65536 == b.toNat % 65536 then return BitVec.ofNat 32 (b.toNat % 65536) else throw .a04
    | .w128 => return b
  | o => do
    let b ← c.fltBits f o
    if c.len == .w96 then return BitVec.ofNat 32 b else throw .a04

/-- An immediate that the entry limits by itself, in the field of the length. -/
def Ctx.immRaw (c : Ctx) : ImmOf
  | .expr e => do
    match c.len with
    | .w64 => throw .a04
    | .w96 => return BitVec.ofNat 32 (← c.nat 16 e)
    | .w128 => return BitVec.ofNat 32 (← c.nat 32 e)
  | _ => throw .a02

/-- No immediate. -/
def noImm : ImmOf := fun _ => .error .a02

/-- A vector register, even where it names a pair (A03). -/
def vreg (wide : Bool) (n : Nat) : R (BitVec 7) := if wide && n % 2 == 1 then .error .a03 else .ok (BitVec.ofNat 7 n)

/-- A vector register written without a suffix. -/
def vD (wide : Bool) : Opnd → R (BitVec 7)
  | .vec n .ident => vreg wide n
  | _ => .error .a02

def vS (wide : Bool) : Opnd → R VSrc
  | .vec n p => do return ⟨← vreg wide n, p⟩
  | _ => .error .a02

def sReg : Opnd → R (BitVec 6)
  | .scalar n => .ok (BitVec.ofNat 6 n)
  | _ => .error .a02

def pReg : Opnd → R (BitVec 4)
  | .pred false n => .ok (BitVec.ofNat 4 n)
  | _ => .error .a02

def pInv : Opnd → R (Bool × BitVec 4)
  | .pred i n => .ok (i, BitVec.ofNat 4 n)
  | _ => .error .a02

def bSrc (wide : Bool) (imm : ImmOf) : Opnd → R BSrc
  | .vec n p => do return .vec ⟨← vreg wide n, p⟩
  | .scalar n => .ok (.scalar (BitVec.ofNat 6 n))
  | o => do return .imm (← imm o)

/-- A B source read without a lane pattern (R30). -/
def bPlain (imm : ImmOf) : Opnd → R BSrc
  | .vec n .ident => .ok (.vec ⟨BitVec.ofNat 7 n, .ident⟩)
  | .vec _ _ => .error .a02
  | o => bSrc false imm o

def rSrc (wide : Bool) : Opnd → R RSrc
  | .vec n p => do return .vec ⟨← vreg wide n, p⟩
  | .scalar n => .ok (.scalar (BitVec.ofNat 6 n))
  | _ => .error .a02

def sSrc (imm : ImmOf) : Opnd → R SSrc
  | .scalar n => .ok (.reg (BitVec.ofNat 6 n))
  | o => do return .imm (← imm o)

def idSrc : Opnd → R IdSrc
  | .vec n p => do return .vec ⟨← vreg true n, p⟩
  | .scalar n => .ok (.scalar (BitVec.ofNat 6 n))
  | _ => .error .a02

def tgtOf : Opnd → R Target
  | .vec n .ident => do return .vec (← vreg true n)
  | .scalar n => .ok (.scalar (BitVec.ofNat 6 n))
  | _ => .error .a02

/-! ## Modifiers -/

abbrev Mods := List (List Char)

def intTys : List (String × IntTy) :=
  [("i8", .i8), ("i16", .i16), ("i32", .i32), ("i64", .i64), ("b8", .b8), ("b16", .b16), ("b32", .b32), ("b64", .b64)]

def fFmts : List (String × FFmt) := [("f32", .f32), ("f16", .f16), ("bf16", .bf16), ("e4m3", .e4m3), ("e5m2", .e5m2)]

def rms : List (String × Rm) := [("rz", .rz), ("rd", .rd), ("ru", .ru)]

def conds : List (String × Cond) :=
  [("eq", .eq), ("ne", .ne), ("lt", .lt), ("le", .le), ("gt", .gt), ("ge", .ge), ("tst", .tst)]

def fConds : List (String × FCond) :=
  [("eq", .eq), ("ne", .ne), ("lt", .lt), ("le", .le), ("gt", .gt), ("ge", .ge), ("un", .un), ("num", .num)]

def scales : List (String × Nat) :=
  [("x1", 0), ("x2", 1), ("x4", 2), ("x8", 3), ("x16", 4), ("x32", 5), ("x64", 6), ("x128", 7)]

def routes : List (String × Route) := [("sw", .sw), ("bl", .bl), ("bh", .bh)]

def combs : List (String × CombOp) :=
  [("add", .add), ("min", .min), ("max", .max), ("and", .and), ("or", .or), ("xor", .xor)]

def votes : List (String × VoteKind) := [("all", .all), ("any", .any), ("uni", .uni)]

def scopes : List (String × Scope) :=
  [("core", .core), ("quad", .quad), ("die", .die), ("pkg", .pkg), ("pod", .pod)]

def fences : List (String × FenceKind) := [("acq", .acq), ("rel", .rel), ("acqrel", .acqrel)]

def mFmts : List (String × MFmt) :=
  [("bf16", .bf16), ("f16", .f16), ("e4m3", .e4m3), ("e5m2", .e5m2), ("q2", .q2), ("q3", .q3), ("q4", .q4), ("q5", .q5),
   ("q6", .q6), ("q7", .q7), ("q8", .q8)]

/-- The kinds of R169; its none, ReLU and clamp are written none, relu and clamp (DEDUCED, log entry 107). -/
def epiKinds : List (String × EpiKind) := [("none", .plain), ("relu", .relu), ("clamp", .clamp)]

def epiOuts : List (String × EpiOut) :=
  [("f32", .f32), ("bf16", .bf16), ("f16", .f16), ("e4m3", .e4m3), ("e5m2", .e5m2), ("i8", .i8)]

def spaces : List (String × Space) := [("g", .global), ("s", .scratch), ("c", .cap)]

def rots : List (String × Nat) :=
  [("rot0", 0), ("rot1", 1), ("rot2", 2), ("rot3", 3), ("rot4", 4), ("rot5", 5), ("rot6", 6), ("rot7", 7)]

def blocks : List (String × Nat) := [("q2", 0), ("q3", 1), ("q4", 2), ("q5", 3), ("q6", 4), ("q7", 5), ("q8", 6)]

def qSrcs : List (String × Nat) := [("f32", 0), ("bf16", 1), ("f16", 2), ("q", 3)]

/-- A modifier that must stand next. -/
def need {α : Type} (t : List (String × α)) : Mods → R (α × Mods)
  | [] => .error .a01
  | m :: ms => match lookup t m with
    | some x => .ok (x, ms)
    | none => .error .a01

/-- A modifier that may stand next. -/
def may {α : Type} (t : List (String × α)) (ms : Mods) : Option α × Mods :=
  match ms with
  | [] => (none, [])
  | m :: rest => match lookup t m with
    | some x => (some x, rest)
    | none => (none, ms)

def flag (s : String) (ms : Mods) : Bool × Mods := ((may [(s, ())] ms).1.isSome, (may [(s, ())] ms).2)

/-- No modifier is left. -/
def done (ms : Mods) : R Unit := if ms.isEmpty then .ok () else .error .a01

/-- type[.sat] -/
def tySat (ms : Mods) : R (IntTy × Bool) := do
  let (ty, ms) ← need intTys ms
  let (sat, ms) := flag "sat" ms
  done ms
  return (ty, sat)

/-- type -/
def tyOnly (ms : Mods) : R IntTy := do
  let (ty, ms) ← need intTys ms
  done ms
  return ty

/-- fmt[.rm] -/
def fmtRm (ms : Mods) : R (FFmt × Rm) := do
  let (f, ms) ← need fFmts ms
  let (rm, ms) := may rms ms
  done ms
  return (f, rm.getD .rne)

/-- type of SCAN, REDUCE and MOVI. -/
def laneTy (ms : Mods) : R (LaneTy × Mods) := do
  match may [("f32", ())] ms with
  | (some _, ms) => return (.f32, ms)
  | (none, ms) =>
    let (t, ms) ← need intTys ms
    return (.int t, ms)

def memTy (ms : Mods) : R MemTy := do
  match may intTys ms with
  | (some t, ms) => do done ms; return .int t
  | (none, ms) => do
    let (f, ms) ← need fFmts ms
    done ms
    return .flt f

/-- [.word.scope] -/
def ordOpt (s : String) (ms : Mods) : R (Ord × Mods) := do
  match flag s ms with
  | (true, ms) => do
    let (sc, ms) ← need scopes ms
    return (some sc, ms)
  | (false, ms) => return (none, ms)

/-- op.type of the atomics (R137): the operation and whether it is 64 bits wide. -/
def atomOpTy (ms : Mods) : R (AtomOp × Bool) := do
  match ms with
  | [o, t] =>
    match lookup [("add", 0), ("and", 1), ("or", 2), ("xor", 3), ("exch", 4), ("cas", 5), ("min", 6), ("max", 7)] o with
    | none => throw .a01
    | some k =>
      if k == 0 && isWord t "f32" then return (.fadd, false)
      else match lookup intTys t with
        | none => throw .a01
        | some ty =>
          if ty.width < 32 then throw .a01
          else
            let w := ty.wide
            match k with
            | 6 => return (if ty.signed then .minS else .minU, w)
            | 7 => return (if ty.signed then .maxS else .maxU, w)
            | _ =>
              if ty.signed then throw .a01
              else match k with
                | 0 => return (.add, w)
                | 1 => return (.and, w)
                | 2 => return (.or, w)
                | 3 => return (.xor, w)
                | 4 => return (.exch, w)
                | _ => return (.cas, w)
  | _ => throw .a01

/-! ## Memory operands (R137, R172) -/

/-- The base: a scalar register, or the even register of a vector pair. -/
def aBase : RegClass × Nat → R ABase
  | (.s, n) => .ok (.scalar (BitVec.ofNat 6 n))
  | (.v, n) => if n % 2 == 1 then .error .a03 else .ok (.pair (BitVec.ofNat 6 (n / 2)))
  | _ => .error .a02

def sBase : RegClass × Nat → R (BitVec 6)
  | (.s, n) => .ok (BitVec.ofNat 6 n)
  | _ => .error .a02

def aOff : List (RegClass × Nat × LanePat) → R AOff
  | [] => .ok .absent
  | [(.v, n, p)] => .ok (.vec ⟨BitVec.ofNat 7 n, p⟩)
  | [(.s, n, _)] => .ok (.scalar (BitVec.ofNat 6 n))
  | _ => .error .a02

def rOff : List (RegClass × Nat × LanePat) → R RSrc
  | [(.v, n, p)] => .ok (.vec ⟨BitVec.ofNat 7 n, p⟩)
  | [(.s, n, _)] => .ok (.scalar (BitVec.ofNat 6 n))
  | _ => .error .a02

/-- R137: 64 bits without a constant, 128 with one, a signed 32-bit value. -/
def Ctx.disp (c : Ctx) (m : MemArg) : R (Len × BitVec 32) := do
  match m.disp with
  | none => return (.w64, 0)
  | some e => return (.w128, ← far (← c.int e))

def memOf : Opnd → R MemArg
  | .mem m => .ok m
  | _ => .error .a02

/-- [sN] alone. -/
def plainAt (o : Opnd) : R (BitVec 6) := do
  match o with
  | .mem ⟨(.s, n), [], none⟩ => return BitVec.ofNat 6 n
  | _ => throw .a02

/-- An engine address in a space (R172): [sN], or [capK + sN] in the capability space. -/
def engAt (sp : Space) (o : Opnd) : R (BitVec 6 × BitVec 3) := do
  match sp, o with
  | .cap, .mem ⟨(.cap, k), [(.s, n, _)], none⟩ => return (BitVec.ofNat 6 n, BitVec.ofNat 3 k)
  | .cap, _ => throw .a02
  | _, o => return (← plainAt o, 0)

/-- An engine address with a vector index (R172): [... + vI]. -/
def engIdx (sp : Space) (o : Opnd) : R (BitVec 6 × BitVec 3 × BitVec 7) := do
  match sp, o with
  | .cap, .mem ⟨(.cap, k), [(.s, n, _), (.v, i, .ident)], none⟩ =>
    return (BitVec.ofNat 6 n, BitVec.ofNat 3 k, BitVec.ofNat 7 i)
  | .cap, _ => throw .a02
  | _, .mem ⟨(.s, n), [(.v, i, .ident)], none⟩ => return (BitVec.ofNat 6 n, 0, BitVec.ofNat 7 i)
  | _, _ => throw .a02

/-- The space letters XY, source then destination. -/
def spacesXY (ms : Mods) : R (Space × Space) := do
  match ms with
  | [[x, y]] => match lookup spaces [x], lookup spaces [y] with
    | some s, some d => return (s, d)
    | _, _ => throw .a01
  | _ => throw .a01

/-- The trailing options of an engine form: the multicast mask, and the gate's register where the form admits one. -/
def Ctx.engOpts (c : Ctx) (gateOk : Bool) : List Opnd → R (BitVec 4 × Option (RegClass × Nat))
  | [] => .ok (0, none)
  | [.mc e] => do return (BitVec.ofNat 4 (← c.nat 4 e), none)
  | [.gate r] => if gateOk then .ok (0, some r) else .error .a02
  | [.mc e, .gate r] => do if gateOk then return (BitVec.ofNat 4 (← c.nat 4 e), some r) else throw .a02
  | _ => .error .a02

/-- An engine word with nothing but its guard. -/
def engBlank (g : Guard) : OpEng :=
  ⟨g, .global, .global, 0, false, 0, 0, 0, 0, 0, false, 0, 0, 0, 0, 0⟩

/-! ## The forms -/

/-- The shapes in which gotis writes instructions, each with the instruction that it builds. -/
inductive Form where
  | nop
  | bare (mk : OpBare → Instr)
  | onOff
  | bra
  | brx
  | call
  | callx
  | fork
  | code (mk : OpCode → Instr)
  | v2 (mk : OpV2 → Instr)
  | v2Count (mk : OpV2 → Instr) (pair : Bool)
  | carry (mk : OpCarry → Instr)
  | v3 (mk : OpV3 → Instr) (wide : IntTy → Bool × Bool × Bool × Bool)
  | lea
  | sel
  | v1 (mk : OpV1 → Instr) (wideD : Bool)
  | iset
  | s2 (mk : OpS2 → Instr)
  | s2Count (mk : OpS2 → Instr) (pair : Bool)
  | sset
  | sli
  | smov
  | slea
  | f2 (mk : OpF2 → Instr)
  | fscale
  | fmm (mk : OpFmm → Instr)
  | fset
  | f3 (mk : OpF3 → Instr)
  | pk2 (mk : OpPk2 → Instr)
  | pk3
  | fclass
  | frnd
  | f1 (mk : OpF1 → Instr)
  | fcvt
  | ftoi
  | itof
  | mov
  | movi
  | perm
  | ballot
  | vote
  | rdlane
  | wrlane
  | bsel
  | scan
  | reduce
  | p2 (mk : OpP2 → Instr)
  | p1 (mk : OpP1 → Instr)
  | ldV (mk : OpMem → Instr)
  | stV (mk : OpMem → Instr)
  | ldS (mk : OpMemS → Instr)
  | stS (mk : OpMemS → Instr)
  | ldU
  | stU
  | pref
  | atom
  | atoms
  | red
  | fence
  | binit
  | arrive
  | expect
  | wait (mk : OpWait → Instr)
  | bphase
  | cpy
  | cpy2d
  | gather
  | scatter
  | qcpy
  | coll
  | rpush
  | rfree
  | mma
  | mepi
  | msts
  | bequeath
  | claim
  | estate
  | migrate
  | launch
  | remit
  | srd
  | swr
  | grow
  | shrink

/-- Opcodes 0x00 to 0x0B (R122). -/
def formsControl : List (String × Form) :=
  [("nop", .nop), ("bra", .bra), ("brx", .brx), ("call", .call), ("callx", .callx), ("ret", .bare .ret),
   ("fork", .fork), ("end", .bare .endF), ("yield", .bare .yield), ("region", .bare .region),
   ("trap", .code .trap), ("brk", .code .brk)]

/-- Opcodes 0x10 to 0x1F (R80). -/
def formsInt : List (String × Form) :=
  [("add", .v2 .add), ("sub", .v2 .sub), ("addc", .carry .addc), ("subb", .carry .subb), ("mul", .v2 .mul),
   ("mulh", .v2 .mulh), ("mad", .v3 .mad (fun t => (t.wide, t.wide, t.wide, t.wide))),
   ("madw", .v3 .madw (fun _ => (true, false, false, true))), ("div", .v2 .div), ("rem", .v2 .rem),
   ("abs", .v1 .abs true), ("neg", .v1 .neg true), ("min", .v2 .min), ("max", .v2 .max), ("and", .v2 .and),
   ("or", .v2 .or)]

/-- Opcodes 0x20 to 0x2D (R80). -/
def formsInt2 : List (String × Form) :=
  [("xor", .v2 .xor), ("andn", .v2 .andn), ("shl", .v2Count .shl false), ("shr", .v2Count .shr false), ("sar", .v2Count .sar false),
   ("rot", .v2Count .rot false), ("clz", .v1 .clz false), ("popc", .v1 .popc false), ("brev", .v1 .brev true),
   ("bfe", .v2Count .bfe true), ("bfi", .v3 .bfi (fun t => (t.wide, t.wide, t.wide, false))), ("lea", .lea), ("sel", .sel),
   ("iset", .iset)]

/-- Opcodes 0x30 to 0x3F (R85). -/
def formsScalar : List (String × Form) :=
  [("sadd", .s2 .sadd), ("ssub", .s2 .ssub), ("smul", .s2 .smul), ("sand", .s2 .sand), ("sor", .s2 .sor),
   ("sxor", .s2 .sxor), ("sshl", .s2Count .sshl false), ("sshr", .s2Count .sshr false), ("ssar", .s2Count .ssar false),
   ("smin", .s2 .smin), ("smax", .s2 .smax), ("sset", .sset), ("sli", .sli), ("smov", .smov),
   ("sbfe", .s2Count .sbfe true), ("slea", .slea)]

/-- Opcodes 0x40 to 0x4F (R101). -/
def formsFlt : List (String × Form) :=
  [("fadd", .f2 .fadd), ("fsub", .f2 .fsub), ("fmul", .f2 .fmul), ("fma", .f3 .fma), ("fmin", .fmm .fmin),
   ("fmax", .fmm .fmax), ("fset", .fset), ("fclass", .fclass), ("frnd", .frnd), ("fscale", .fscale),
   ("frcp", .f1 .frcp), ("fsqrt", .f1 .fsqrt), ("frsq", .f1 .frsq), ("fexp2", .f1 .fexp2), ("flog2", .f1 .flog2),
   ("fsinpi", .f1 .fsinpi)]

/-- Opcodes 0x50 to 0x58 (R101). -/
def formsFlt2 : List (String × Form) :=
  [("fcospi", .f1 .fcospi), ("fcvt", .fcvt), ("ftoi", .ftoi), ("itof", .itof), ("pkadd", .pk2 .pkadd),
   ("pkmul", .pk2 .pkmul), ("pkfma", .pk3), ("fdot2", .f3 .fdot2), ("fdot4", .f3 .fdot4)]

/-- Opcodes 0x60 to 0x6E (R111). -/
def formsLane : List (String × Form) :=
  [("mov", .mov), ("movi", .movi), ("perm", .perm), ("ballot", .ballot), ("vote", .vote), ("rdlane", .rdlane),
   ("wrlane", .wrlane), ("bsel", .bsel), ("scan", .scan), ("reduce", .reduce), ("pand", .p2 .pand), ("por", .p2 .por),
   ("pxor", .p2 .pxor), ("pnot", .p1 .pnot), ("pmov", .p1 .pmov)]

/-- Opcodes 0x70 to 0x95 (R137, R148). -/
def formsMem : List (String × Form) :=
  [("ld", .ldV .ld), ("st", .stV .st), ("lds", .ldS .lds), ("sts", .stS .sts), ("ldu", .ldU), ("stu", .stU),
   ("pref", .pref), ("atom", .atom), ("red", .red), ("atoms", .atoms), ("fence", .fence), ("binit", .binit),
   ("arrive", .arrive), ("expect", .expect), ("wait", .wait .wait), ("btest", .wait .btest), ("bphase", .bphase)]

/-- Opcodes 0xA0 to 0xB4 (R172). -/
def formsEng : List (String × Form) :=
  [("cpy", .cpy), ("cpy2d", .cpy2d), ("gather", .gather), ("scatter", .scatter), ("qcpy", .qcpy), ("coll", .coll),
   ("rpush", .rpush), ("rfree", .rfree), ("mmode", .onOff), ("mzero", .bare .mzero), ("mma", .mma), ("mepi", .mepi),
   ("msts", .msts)]

/-- Opcodes 0xC0 to 0xD3 (R188). -/
def formsSys : List (String × Form) :=
  [("bequeath", .bequeath), ("claim", .claim), ("estate", .estate), ("migrate", .migrate), ("launch", .launch),
   ("remit", .remit), ("srd", .srd), ("swr", .swr), ("grow", .grow), ("shrink", .shrink)]

/-- Every mnemonic with its form. -/
def forms : List (String × Form) :=
  formsControl ++ formsInt ++ formsInt2 ++ formsScalar ++ formsFlt ++
    formsFlt2 ++ formsLane ++ formsMem ++ formsEng ++ formsSys

/-- A scratchpad operand [sN] or a register of MMA; the pair's even register, and a slice within v0 to v63 (A03). -/
def mSrc (f : MFmt) : Opnd → R MSrc
  | .vec n .ident => if n + f.slice ≤ 64 then .ok (.regs (BitVec.ofNat 7 n)) else .error .a03
  | o => do
    let s ← plainAt o
    if s.toNat % 2 == 1 then throw .a03 else return .desc s

/-- An exponent position of MMA (R172): the register written there, the default where it holds _ or is omitted, and 0
for an operand without one. Gives the register and whether it is the default. -/
def mExp (f : MFmt) (m : MSrc) (o : Opnd) : R (BitVec 7 × Bool) := do
  match m, f.block, o with
  | .regs r, some b, .hole =>
    if r.toNat + b < 64 then return (BitVec.ofNat 7 (r.toNat + b), true) else throw .a03
  | .regs r, some b, .vec e .ident =>
    if e < 64 then return (BitVec.ofNat 7 e, e == r.toNat + b) else throw .a03
  | .regs _, none, .hole | .desc _, _, .hole => return (0, true)
  | _, _, _ => throw .a02

/-- R172: MMA's 96-bit form is chosen where an exponent register is not the default or the K-step is not 0. -/
def Ctx.mma (c : Ctx) (f : MFmt) (a b : MSrc) (ea eb : Opnd) (k : Option Expr) : R Instr := do
  let x ← mExp f a ea
  let y ← mExp f b eb
  let kappa ← match k with
    | none => pure 0
    | some e => c.nat 9 e
  if kappa != 0 && (match a, b with | .regs _, .regs _ => true | _, _ => false) then throw .a04
  if x.2 && y.2 && kappa == 0 then return .mma ⟨c.g, .w64, f, a, b, 0, 0, 0⟩
  else return .mma ⟨c.g, .w96, f, a, b, x.1, y.1, BitVec.ofNat 9 kappa⟩

/-- The address operand of a load or store, in either order of the operands. -/
def Ctx.memV (c : Ctx) (ms : Mods) (word : String) (d a : Opnd) : R OpMem := do
  let (ord, ms) ← ordOpt word ms
  let ty ← memTy ms
  let m ← memOf a
  let (len, disp) ← c.disp m
  return ⟨c.g, len, ty, ord, ← aBase m.base, ← aOff m.offs, disp, ← vD ty.wide d⟩

def Ctx.memS (c : Ctx) (ms : Mods) (word : String) (d a : Opnd) : R OpMemS := do
  let (ord, ms) ← ordOpt word ms
  let ty ← memTy ms
  let m ← memOf a
  let (len, disp) ← c.disp m
  return ⟨c.g, len, ty, ord, ← sBase m.base, ← aOff m.offs, disp, ← vD ty.wide d⟩

def Ctx.memU (c : Ctx) (ms : Mods) (word : String) (d a : Opnd) : R OpMemU := do
  let (ord, ms) ← ordOpt word ms
  let ty ← memTy ms
  let m ← memOf a
  let (len, disp) ← c.disp m
  return ⟨c.g, len, ty, ord, ← sBase m.base, ← aOff m.offs, disp, ← sReg d⟩

/-- R128: ld.raw.bN is a spelling of ld.bN. -/
def dropRaw (ms : Mods) : Mods :=
  match ms with
  | [r, t] => if isWord r "raw" && t.head? == some 'b' && (lookup intTys t).isSome then [t] else ms
  | _ => ms

/-- The operands of ATOM and ATOMS (R137): destination, address, the comparand of cas, and the value. -/
def atomOps (op : AtomOp) (wide : Bool) (ops : List Opnd) : R (BitVec 7 × MemArg × BitVec 7 × VSrc) := do
  match op == .cas, ops with
  | true, [d, m, k, v] => return (← vD wide d, ← memOf m, ← vD wide k, ← vS wide v)
  | false, [d, m, v] => return (← vD wide d, ← memOf m, 0, ← vS wide v)
  | _, _ => throw .a02

/-- A memory operand without a constant. -/
def noDisp (m : MemArg) : R Unit := if m.disp.isNone then .ok () else .error .a02

def Ctx.wNop (c : Ctx) (ms : Mods) (ops : List Opnd) : R Instr := do
  match ops with
  | [] => match ms with
    | [] => return .nop ⟨c.g, .w64⟩
    | [m] => if isWord m "w96" then return .nop ⟨c.g, .w96⟩ else throw .a01
    | _ => throw .a01
  | _ => throw .a02

def Ctx.wBare (c : Ctx) (mk : OpBare → Instr) (ms : Mods) (ops : List Opnd) : R Instr := do
  match ops with
  | [] => do done ms; return mk ⟨c.g⟩
  | _ => throw .a02

def Ctx.wOnOff (c : Ctx) (ms : Mods) (ops : List Opnd) : R Instr := do
  match ops with
  | [] => do
    let (on, ms) ← need [("on", true), ("off", false)] ms
    done ms
    return if on then .mmodeOn ⟨c.g⟩ else .mmodeOff ⟨c.g⟩
  | _ => throw .a02

def Ctx.wBra (c : Ctx) (ms : Mods) (ops : List Opnd) : R Instr := do
  match ops with
  | [t] => do
    done ms
    let d ← c.target t
    match c.len with
    | .w64 => throw .a04
    | .w96 =>
      if d % 4 == 0 && -131072 ≤ d && d ≤ 131068 then return .bra ⟨c.g, .w96, BitVec.ofNat 32 ((d / 4) % 65536).toNat⟩
      else throw .a04
    | .w128 => return .bra ⟨c.g, .w128, ← far d⟩
  | _ => throw .a02

def Ctx.wBrx (c : Ctx) (ms : Mods) (ops : List Opnd) : R Instr := do
  match ops with
  | [t] => do done ms; return .brx ⟨c.g, ← tgtOf t⟩
  | _ => throw .a02

def Ctx.wCall (c : Ctx) (ms : Mods) (ops : List Opnd) : R Instr := do
  match ops with
  | [.expr n, t] => do done ms; return .call ⟨c.g, ← far (← c.target t), BitVec.ofNat 7 (← c.nat 7 n)⟩
  | _ => throw .a02

def Ctx.wCallx (c : Ctx) (ms : Mods) (ops : List Opnd) : R Instr := do
  match ops with
  | [.expr n, t] => do done ms; return .callx ⟨c.g, ← tgtOf t, BitVec.ofNat 7 (← c.nat 7 n)⟩
  | _ => throw .a02

def Ctx.wFork (c : Ctx) (ms : Mods) (ops : List Opnd) : R Instr := do
  match ops with
  | [d, m, t] => do done ms; return .fork ⟨c.g, ← pReg d, ← sReg m, ← far (← c.target t)⟩
  | _ => throw .a02

def Ctx.wCode (c : Ctx) (mk : OpCode → Instr) (ms : Mods) (ops : List Opnd) : R Instr := do
  match ops with
  | [.expr e] => do done ms; return mk ⟨c.g, BitVec.ofNat 16 (← c.nat 16 e)⟩
  | _ => throw .a02

def Ctx.wV2 (c : Ctx) (mk : OpV2 → Instr) (ms : Mods) (ops : List Opnd) : R Instr := do
  match ops with
  | [d, a, b] => do
    let (ty, sat) ← tySat ms
    return mk ⟨c.g, c.len, ty, sat, ← vD ty.wide d, ← vS ty.wide a, ← bSrc ty.wide (c.immTy ty) b⟩
  | _ => throw .a02

def Ctx.wV2Count (c : Ctx) (mk : OpV2 → Instr) (pair : Bool) (ms : Mods) (ops : List Opnd) : R Instr := do
  match ops with
  | [d, a, b] => do
    let (ty, sat) ← tySat ms
    return mk ⟨c.g, c.len, ty, sat, ← vD ty.wide d, ← vS ty.wide a, ← bSrc false (c.immCount pair) b⟩
  | _ => throw .a02

def Ctx.wCarry (c : Ctx) (mk : OpCarry → Instr) (ms : Mods) (ops : List Opnd) : R Instr := do
  match ops with
  | [d, po, a, b, pi] => do
    let ty ← tyOnly ms
    return mk ⟨c.g, ty, ← vD ty.wide d, ← vS ty.wide a, ← rSrc ty.wide b, ← pReg pi, ← pReg po⟩
  | _ => throw .a02

def Ctx.wV3 (c : Ctx) (mk : OpV3 → Instr) (wide : IntTy → Bool × Bool × Bool × Bool) (ms : Mods) (ops : List Opnd) : R Instr := do
  match ops with
  | [d, a, b, x] => do
    let (ty, sat) ← tySat ms
    let (wd, wa, wb, wc) := wide ty
    return mk ⟨c.g, ty, sat, ← vD wd d, ← vS wa a, ← rSrc wb b, ← vS wc x⟩
  | _ => throw .a02

def Ctx.wLea (c : Ctx) (ms : Mods) (ops : List Opnd) : R Instr := do
  match ops with
  | [d, a, b, x] => do
    let (k, ms) ← need scales ms
    let ty ← tyOnly ms
    return .lea ⟨c.g, ty, BitVec.ofNat 3 k, ← vD ty.wide d, ← vS ty.wide a, ← rSrc false b, ← vS ty.wide x⟩
  | _ => throw .a02

def Ctx.wSel (c : Ctx) (ms : Mods) (ops : List Opnd) : R Instr := do
  match ops with
  | [d, a, b, p] => do
    let ty ← tyOnly ms
    return .sel ⟨c.g, ty, ← vD ty.wide d, ← vS ty.wide a, ← rSrc ty.wide b, ← pReg p⟩
  | _ => throw .a02

def Ctx.wV1 (c : Ctx) (mk : OpV1 → Instr) (wideD : Bool) (ms : Mods) (ops : List Opnd) : R Instr := do
  match ops with
  | [d, a] => do
    let (ty, sat) ← tySat ms
    return mk ⟨c.g, ty, sat, ← vD (wideD && ty.wide) d, ← vS ty.wide a⟩
  | _ => throw .a02

def Ctx.wIset (c : Ctx) (ms : Mods) (ops : List Opnd) : R Instr := do
  match ops with
  | [d, a, b] => do
    let (k, ms) ← need conds ms
    let ty ← tyOnly ms
    return .iset ⟨c.g, c.len, ty, k, ← pReg d, ← vS ty.wide a, ← bSrc ty.wide (c.immTy ty) b⟩
  | _ => throw .a02

def Ctx.wS2 (c : Ctx) (mk : OpS2 → Instr) (ms : Mods) (ops : List Opnd) : R Instr := do
  match ops with
  | [d, a, b] => do
    let (ty, sat) ← tySat ms
    return mk ⟨c.g, c.len, ty, sat, ← sReg d, ← sReg a, ← sSrc (c.immTy ty) b⟩
  | _ => throw .a02

def Ctx.wS2Count (c : Ctx) (mk : OpS2 → Instr) (pair : Bool) (ms : Mods) (ops : List Opnd) : R Instr := do
  match ops with
  | [d, a, b] => do
    let (ty, sat) ← tySat ms
    return mk ⟨c.g, c.len, ty, sat, ← sReg d, ← sReg a, ← sSrc (c.immCount pair) b⟩
  | _ => throw .a02

def Ctx.wSset (c : Ctx) (ms : Mods) (ops : List Opnd) : R Instr := do
  match ops with
  | [d, a, b] => do
    let (k, ms) ← need conds ms
    let ty ← tyOnly ms
    return .sset ⟨c.g, c.len, ty, k, ← pReg d, ← sReg a, ← sSrc (c.immTy ty) b⟩
  | _ => throw .a02

def Ctx.wSli (c : Ctx) (ms : Mods) (ops : List Opnd) : R Instr := do
  match ops with
  | [d, .expr e] => do
    let ty ← if ms.isEmpty then pure IntTy.b64 else tyOnly ms
    let n ← c.int e
    match c.len with
    | .w64 => throw .a04
    | .w96 => do
      let x ← intImm ty .w96 n
      return .sli ⟨c.g, .w96, ty, ← sReg d, x.setWidth 64⟩
    | .w128 =>
      let w := ty.width
      if n < -(2 ^ (w - 1)) || 2 ^ w ≤ n || w < 32 then throw .a04
      else
        let u := BitVec.ofInt w n
        let x := if ty.signed then u.signExtend 64 else u.setWidth 64
        return .sli ⟨c.g, .w128, if ty.signed then .i64 else .b64, ← sReg d, x⟩
  | _ => throw .a02

def Ctx.wSmov (c : Ctx) (ms : Mods) (ops : List Opnd) : R Instr := do
  match ops with
  | [d, a] => do return .smov ⟨c.g, ← tyOnly ms, ← sReg d, ← sReg a⟩
  | _ => throw .a02

def Ctx.wSlea (c : Ctx) (ms : Mods) (ops : List Opnd) : R Instr := do
  match ops with
  | [d, a, b, x] => do
    let (k, ms) ← need scales ms
    return .slea ⟨c.g, ← tyOnly ms, BitVec.ofNat 3 k, ← sReg d, ← sReg a, ← sReg b, ← sReg x⟩
  | _ => throw .a02

def Ctx.wF2 (c : Ctx) (mk : OpF2 → Instr) (ms : Mods) (ops : List Opnd) : R Instr := do
  match ops with
  | [d, a, b] => do
    let (fm, rm) ← fmtRm ms
    return mk ⟨c.g, c.len, fm, rm, ← vD false d, ← vS false a, ← bSrc false (c.immFlt fm) b⟩
  | _ => throw .a02

def Ctx.wFscale (c : Ctx) (ms : Mods) (ops : List Opnd) : R Instr := do
  match ops with
  | [d, a, b] => do
    let (fm, rm) ← fmtRm ms
    return .fscale ⟨c.g, c.len, fm, rm, ← vD false d, ← vS false a, ← bSrc false (c.immTy .i32) b⟩
  | _ => throw .a02

def Ctx.wFmm (c : Ctx) (mk : OpFmm → Instr) (ms : Mods) (ops : List Opnd) : R Instr := do
  match ops with
  | [d, a, b] => do
    let (num, ms) := flag "num" ms
    let (fm, ms) ← need fFmts ms
    done ms
    return mk ⟨c.g, c.len, fm, num, ← vD false d, ← vS false a, ← bSrc false (c.immFlt fm) b⟩
  | _ => throw .a02

def Ctx.wFset (c : Ctx) (ms : Mods) (ops : List Opnd) : R Instr := do
  match ops with
  | [d, a, b] => do
    let (k, ms) ← need fConds ms
    let (fm, ms) ← need fFmts ms
    done ms
    return .fset ⟨c.g, c.len, fm, k, ← pReg d, ← vS false a, ← bSrc false (c.immFlt fm) b⟩
  | _ => throw .a02

def Ctx.wF3 (c : Ctx) (mk : OpF3 → Instr) (ms : Mods) (ops : List Opnd) : R Instr := do
  match ops with
  | [d, a, b, x] => do
    let (fm, rm) ← fmtRm ms
    return mk ⟨c.g, fm, rm, ← vD false d, ← vS false a, ← rSrc false b, ← vS false x⟩
  | _ => throw .a02

def Ctx.wPk2 (c : Ctx) (mk : OpPk2 → Instr) (ms : Mods) (ops : List Opnd) : R Instr := do
  match ops with
  | [d, a, b] => do
    let (rt, ms) := may routes ms
    let (fm, rm) ← fmtRm ms
    return mk ⟨c.g, c.len, fm, rm, rt.getD .straight, ← vD false d, ← vS false a, ← bSrc false (c.immPk fm) b⟩
  | _ => throw .a02

def Ctx.wPk3 (c : Ctx) (ms : Mods) (ops : List Opnd) : R Instr := do
  match ops with
  | [d, a, b, x] => do
    let (rt, ms) := may routes ms
    let (fm, rm) ← fmtRm ms
    return .pkfma ⟨c.g, fm, rm, rt.getD .straight, ← vD false d, ← vS false a, ← rSrc false b, ← vS false x⟩
  | _ => throw .a02

def Ctx.wFclass (c : Ctx) (ms : Mods) (ops : List Opnd) : R Instr := do
  match ops with
  | [d, a] => do
    let (fm, ms) ← need fFmts ms
    done ms
    return .fclass ⟨c.g, fm, ← vD false d, ← vS false a⟩
  | _ => throw .a02

def Ctx.wFrnd (c : Ctx) (ms : Mods) (ops : List Opnd) : R Instr := do
  match ops with
  | [d, a] => do
    let (ex, ms) := flag "x" ms
    let (fm, rm) ← fmtRm ms
    return .frnd ⟨c.g, fm, rm, ex, ← vD false d, ← vS false a⟩
  | _ => throw .a02

def Ctx.wF1 (c : Ctx) (mk : OpF1 → Instr) (ms : Mods) (ops : List Opnd) : R Instr := do
  match ops with
  | [d, a] => do
    let (fm, rm) ← fmtRm ms
    return mk ⟨c.g, fm, rm, ← vD false d, ← vS false a⟩
  | _ => throw .a02

def Ctx.wFcvt (c : Ctx) (ms : Mods) (ops : List Opnd) : R Instr := do
  match ops with
  | [d, a] => do
    let (dst, ms) ← need fFmts ms
    let (src, rm) ← fmtRm ms
    return .fcvt ⟨c.g, dst, src, rm, ← vD false d, ← vS false a⟩
  | _ => throw .a02

def Ctx.wFtoi (c : Ctx) (ms : Mods) (ops : List Opnd) : R Instr := do
  match ops with
  | [d, a] => do
    let (ty, ms) ← need intTys ms
    let (fm, rm) ← fmtRm ms
    return .ftoi ⟨c.g, fm, ty, rm, ← vD ty.wide d, ← vS false a⟩
  | _ => throw .a02

def Ctx.wItof (c : Ctx) (ms : Mods) (ops : List Opnd) : R Instr := do
  match ops with
  | [d, a] => do
    let (fm, ms) ← need fFmts ms
    let (ty, ms) ← need intTys ms
    let (rm, ms) := may rms ms
    done ms
    return .itof ⟨c.g, fm, ty, rm.getD .rne, ← vD false d, ← vS ty.wide a⟩
  | _ => throw .a02

def Ctx.wMov (c : Ctx) (ms : Mods) (ops : List Opnd) : R Instr := do
  match ops with
  | [d, a] => do
    let ty ← tyOnly ms
    return .mov ⟨c.g, ty, ← vD ty.wide d, ← vS ty.wide a⟩
  | _ => throw .a02

def Ctx.wMovi (c : Ctx) (ms : Mods) (ops : List Opnd) : R Instr := do
  match ops with
  | [d, x] => do
    let (ty, ms) ← if ms.isEmpty then pure (LaneTy.int .b32, []) else laneTy ms
    done ms
    let imm ← match ty with
      | .int t => c.immTy t x
      | .f32 => c.immFlt .f32 x
    return .movi ⟨c.g, c.len, ty, ← vD ty.wide d, imm⟩
  | _ => throw .a02

def Ctx.wPerm (c : Ctx) (ms : Mods) (ops : List Opnd) : R Instr := do
  match ops with
  | [d, a, b] => do
    let ty ← tyOnly ms
    return .perm ⟨c.g, ty, ← vD ty.wide d, ← vS ty.wide a, ← rSrc false b⟩
  | _ => throw .a02

def Ctx.wBallot (c : Ctx) (ms : Mods) (ops : List Opnd) : R Instr := do
  match ops with
  | [d, a] => do done ms; return .ballot ⟨c.g, ← sReg d, ← pReg a⟩
  | _ => throw .a02

def Ctx.wVote (c : Ctx) (ms : Mods) (ops : List Opnd) : R Instr := do
  match ops with
  | [d, a] => do
    let (k, ms) ← need votes ms
    done ms
    return .vote ⟨c.g, k, ← pReg d, ← pReg a⟩
  | _ => throw .a02

def Ctx.wRdlane (c : Ctx) (ms : Mods) (ops : List Opnd) : R Instr := do
  match ops with
  | [d, a, n] => do
    let ty ← tyOnly ms
    return .rdlane ⟨c.g, c.len, ty, ← sReg d, ← vS ty.wide a, ← bPlain c.immRaw n⟩
  | _ => throw .a02

def Ctx.wWrlane (c : Ctx) (ms : Mods) (ops : List Opnd) : R Instr := do
  match ops with
  | [d, a, n] => do
    let ty ← tyOnly ms
    return .wrlane ⟨c.g, c.len, ty, ← vD ty.wide d, ← sReg a, ← bPlain c.immRaw n⟩
  | _ => throw .a02

def Ctx.wBsel (c : Ctx) (ms : Mods) (ops : List Opnd) : R Instr := do
  match ops with
  | [d, a, b, x] => do done ms; return .bsel ⟨c.g, ← vD false d, ← vS false a, ← rSrc false b, ← vS false x⟩
  | _ => throw .a02

def Ctx.wScan (c : Ctx) (ms : Mods) (ops : List Opnd) : R Instr := do
  match ops with
  | [d, a] => do
    let (ex, ms) := flag "excl" ms
    let (op, ms) ← need combs ms
    let (ty, ms) ← laneTy ms
    done ms
    return .scan ⟨c.g, op, ty, ex, ← vD ty.wide d, ← vS ty.wide a⟩
  | _ => throw .a02

def Ctx.wReduce (c : Ctx) (ms : Mods) (ops : List Opnd) : R Instr := do
  match ops with
  | [d, a] => do
    let (op, ms) ← need combs ms
    let (ty, ms) ← laneTy ms
    done ms
    return .reduce ⟨c.g, op, ty, false, ← vD ty.wide d, ← vS ty.wide a⟩
  | _ => throw .a02

def Ctx.wP2 (c : Ctx) (mk : OpP2 → Instr) (ms : Mods) (ops : List Opnd) : R Instr := do
  match ops with
  | [d, a, b] => do
    done ms
    let x ← pInv a
    let y ← pInv b
    return mk ⟨c.g, x.1, y.1, ← pReg d, x.2, y.2⟩
  | _ => throw .a02

def Ctx.wP1 (c : Ctx) (mk : OpP1 → Instr) (ms : Mods) (ops : List Opnd) : R Instr := do
  match ops with
  | [d, a] => do done ms; return mk ⟨c.g, ← pReg d, ← pReg a⟩
  | _ => throw .a02

def Ctx.wLdV (c : Ctx) (mk : OpMem → Instr) (ms : Mods) (ops : List Opnd) : R Instr := do
  match ops with
  | [d, a] => do return mk (← c.memV (dropRaw ms) "acq" d a)
  | _ => throw .a02

def Ctx.wStV (c : Ctx) (mk : OpMem → Instr) (ms : Mods) (ops : List Opnd) : R Instr := do
  match ops with
  | [a, d] => do return mk (← c.memV ms "rel" d a)
  | _ => throw .a02

def Ctx.wLdS (c : Ctx) (mk : OpMemS → Instr) (ms : Mods) (ops : List Opnd) : R Instr := do
  match ops with
  | [d, a] => do return mk (← c.memS ms "acq" d a)
  | _ => throw .a02

def Ctx.wStS (c : Ctx) (mk : OpMemS → Instr) (ms : Mods) (ops : List Opnd) : R Instr := do
  match ops with
  | [a, d] => do return mk (← c.memS ms "rel" d a)
  | _ => throw .a02

def Ctx.wLdU (c : Ctx) (ms : Mods) (ops : List Opnd) : R Instr := do
  match ops with
  | [d, a] => do return .ldu (← c.memU ms "acq" d a)
  | _ => throw .a02

def Ctx.wStU (c : Ctx) (ms : Mods) (ops : List Opnd) : R Instr := do
  match ops with
  | [a, d] => do return .stu (← c.memU ms "rel" d a)
  | _ => throw .a02

def Ctx.wPref (c : Ctx) (ms : Mods) (ops : List Opnd) : R Instr := do
  match ops with
  | [a] => do
    let (l2, ms) ← need [("l1", false), ("l2", true)] ms
    done ms
    let m ← memOf a
    let (len, disp) ← c.disp m
    return .pref ⟨c.g, len, l2, ← aBase m.base, ← aOff m.offs, disp⟩
  | _ => throw .a02

def Ctx.wAtom (c : Ctx) (ms : Mods) (ops : List Opnd) : R Instr := do
  let (ord, ms) ← ordOpt "acqrel" ms
  let (op, w) ← atomOpTy ms
  let (d, m, k, v) ← atomOps op w ops
  noDisp m
  return .atom ⟨c.g, op, w, ord, ← aBase m.base, ← rOff m.offs, d, v, k⟩

def Ctx.wAtoms (c : Ctx) (ms : Mods) (ops : List Opnd) : R Instr := do
  let (ord, ms) ← ordOpt "acqrel" ms
  let (op, w) ← atomOpTy ms
  let (d, m, k, v) ← atomOps op w ops
  noDisp m
  return .atoms ⟨c.g, op, w, ord, ← sBase m.base, ← rOff m.offs, d, v, k⟩

def Ctx.wRed (c : Ctx) (ms : Mods) (ops : List Opnd) : R Instr := do
  match ops with
  | [a, x] => do
    let (ord, ms) ← ordOpt "acqrel" ms
    let (op, w) ← atomOpTy ms
    let m ← memOf a
    noDisp m
    return .red ⟨c.g, op, w, ord, ← aBase m.base, ← rOff m.offs, ← vS w x⟩
  | _ => throw .a02

def Ctx.wFence (c : Ctx) (ms : Mods) (ops : List Opnd) : R Instr := do
  match ops with
  | [] => do
    let (k, ms) ← need fences ms
    let (sc, ms) ← need scopes ms
    done ms
    return .fence ⟨c.g, k, sc⟩
  | _ => throw .a02

def Ctx.wBinit (c : Ctx) (ms : Mods) (ops : List Opnd) : R Instr := do
  match ops with
  | [a, .expr n, .expr b] => do
    done ms
    return .binit ⟨c.g, ← sReg a, .imm (BitVec.ofNat 16 (← c.nat 16 n)) (BitVec.ofNat 32 (← c.nat 31 b))⟩
  | [a, n, b] => do done ms; return .binit ⟨c.g, ← sReg a, .regs (← sReg n) (← sReg b)⟩
  | _ => throw .a02

def Ctx.wArrive (c : Ctx) (ms : Mods) (ops : List Opnd) : R Instr := do
  match ops with
  | [a] => do done ms; return .arrive ⟨c.g, ← sReg a⟩
  | _ => throw .a02

def Ctx.wExpect (c : Ctx) (ms : Mods) (ops : List Opnd) : R Instr := do
  match ops with
  | [a, b] => do done ms; return .expect ⟨c.g, c.len, ← sReg a, ← bPlain (c.immTy .b32) b⟩
  | _ => throw .a02

def Ctx.wWait (c : Ctx) (mk : OpWait → Instr) (ms : Mods) (ops : List Opnd) : R Instr := do
  match ops with
  | [d, a, b] => do done ms; return mk ⟨c.g, c.len, ← pReg d, ← sReg a, ← bPlain c.immRaw b⟩
  | _ => throw .a02

def Ctx.wBphase (c : Ctx) (ms : Mods) (ops : List Opnd) : R Instr := do
  match ops with
  | [d, a] => do done ms; return .bphase ⟨c.g, ← sReg d, ← sReg a⟩
  | _ => throw .a02

def Ctx.wCpy (c : Ctx) (ms : Mods) (ops : List Opnd) : R Instr := do
  match ops with
  | d :: a :: .expr n :: h :: opts => do
    let (ssp, dsp) ← spacesXY ms
    let (dr, dk) ← engAt dsp d
    let (sr, sk) ← engAt ssp a
    let (mc, gate) ← c.engOpts true opts
    let e := { engBlank c.g with
      ssp := ssp, dsp := dsp, d := dr, a := sr, scap := sk, dcap := dk, hnd := ← sReg h, mc := mc,
      imm := BitVec.ofNat 32 (← c.nat 31 n) }
    match gate with
    | none => return .cpy e
    | some (.s, n) => return .cpy { e with gate := true, b := BitVec.ofNat 7 n }
    | some (.v, n) => return .cpy { e with gate := true, bv := true, b := BitVec.ofNat 7 n }
    | some _ => throw .a02
  | _ => throw .a02

def Ctx.wCpy2d (c : Ctx) (ms : Mods) (ops : List Opnd) : R Instr := do
  match ops with
  | d :: a :: .pair r n :: p :: h :: opts => do
    let (rot, ms) := may rots ms
    let (ssp, dsp) ← spacesXY ms
    let (dr, dk) ← engAt dsp d
    let (sr, sk) ← engAt ssp a
    let (mc, _) ← c.engOpts false opts
    let rows ← c.int r
    if rows < 1 || 4096 < rows then throw .a04
    return .cpy2d { engBlank c.g with
      ssp := ssp, dsp := dsp, var := BitVec.ofNat 3 (rot.getD 0), d := dr, a := sr, scap := sk, dcap := dk,
      b := (← sReg p).setWidth 7, hnd := ← sReg h, mc := mc,
      imm := BitVec.ofNat 32 ((rows.toNat - 1) * 1048576 + (← c.nat 20 n)) }
  | _ => throw .a02

def Ctx.wGather (c : Ctx) (ms : Mods) (ops : List Opnd) : R Instr := do
  match ops with
  | [d, a, .expr n, h] => do
    let (ssp, dsp) ← spacesXY ms
    let (dr, dk) ← engAt dsp d
    let (sr, sk, ix) ← engIdx ssp a
    return .gather { engBlank c.g with
      ssp := ssp, dsp := dsp, d := dr, a := sr, scap := sk, dcap := dk, b := ix, bv := true, hnd := ← sReg h,
      imm := BitVec.ofNat 32 (← c.nat 32 n) }
  | _ => throw .a02

def Ctx.wScatter (c : Ctx) (ms : Mods) (ops : List Opnd) : R Instr := do
  match ops with
  | [d, a, .expr n, h] => do
    let (ssp, dsp) ← spacesXY ms
    let (dr, dk, ix) ← engIdx dsp d
    let (sr, sk) ← engAt ssp a
    return .scatter { engBlank c.g with
      ssp := ssp, dsp := dsp, d := dr, a := sr, scap := sk, dcap := dk, b := ix, bv := true, hnd := ← sReg h,
      imm := BitVec.ofNat 32 (← c.nat 32 n) }
  | _ => throw .a02

def Ctx.wQcpy (c : Ctx) (ms : Mods) (ops : List Opnd) : R Instr := do
  match ops with
  | [d, a, .pair r n, p, h] => do
    let (v, ms) := may [("dual", 1), ("trans", 2)] ms
    let (qb, ms) ← need blocks ms
    let (src, ms) ← need qSrcs ms
    let (ssp, dsp) ← spacesXY ms
    let (dr, dk) ← engAt dsp d
    let (sr, sk) ← engAt ssp a
    return .qcpy { engBlank c.g with
      ssp := ssp, dsp := dsp, var := BitVec.ofNat 3 (v.getD 0), d := dr, a := sr, scap := sk, dcap := dk,
      b := (← sReg p).setWidth 7, hnd := ← sReg h, qb := BitVec.ofNat 3 qb, qsrc := BitVec.ofNat 2 src,
      imm := BitVec.ofNat 32 ((← c.nat 16 r) * 65536 + (← c.nat 16 n)) }
  | _ => throw .a02

def Ctx.wColl (c : Ctx) (ms : Mods) (ops : List Opnd) : R Instr := do
  match ops with
  | [d, a, .expr n, t, h, .mc m] => do
    let v ← match ms with
      | [o] => match lookup [("bcast", 3), ("gather", 4)] o with
        | some v => pure v
        | none => throw .a01
      | [o, ty] => match lookup [("add", 0), ("max", 1), ("min", 2)] o with
        | some v => if isWord ty "f32" then pure v else throw .a01
        | none => throw .a01
      | _ => throw .a01
    return .coll { engBlank c.g with
      ssp := .scratch, dsp := .scratch, var := BitVec.ofNat 3 v, d := ← plainAt d, a := ← plainAt a,
      b := (← sReg t).setWidth 7, hnd := ← sReg h, mc := BitVec.ofNat 4 (← c.nat 4 m),
      imm := BitVec.ofNat 32 (← c.nat 32 n) }
  | _ => throw .a02

def Ctx.wRpush (c : Ctx) (ms : Mods) (ops : List Opnd) : R Instr := do
  let (two, ms) := flag "2d" ms
  let (rot, ms) := if two then may rots ms else (none, ms)
  let (sp, ms) := may spaces ms
  done ms
  let sp := sp.getD .global
  match two, ops with
  | false, [r, a, l] => do
    let (sr, sk) ← engAt sp a
    return .rpush ⟨c.g, ← plainAt r, sr, ← sReg l, 0, false, 0, sp, sk⟩
  | true, [r, a, l, p] => do
    let (sr, sk) ← engAt sp a
    return .rpush ⟨c.g, ← plainAt r, sr, ← sReg l, ← sReg p, true, BitVec.ofNat 3 (rot.getD 0), sp, sk⟩
  | _, _ => throw .a02

def Ctx.wRfree (c : Ctx) (ms : Mods) (ops : List Opnd) : R Instr := do
  match ops with
  | [r, x] => do done ms; return .rfree ⟨c.g, ← sReg r, ← sReg x⟩
  | _ => throw .a02

def Ctx.wMma (c : Ctx) (ms : Mods) (ops : List Opnd) : R Instr := do
  match ops with
  | a :: b :: rest => do
    let (fm, ms) ← need mFmts ms
    done ms
    let x ← mSrc fm a
    let y ← mSrc fm b
    match rest with
    | [] => c.mma fm x y .hole .hole none
    | [.kappa k] => c.mma fm x y .hole .hole (some k)
    | [ea, eb] => c.mma fm x y ea eb none
    | [ea, eb, .kappa k] => c.mma fm x y ea eb (some k)
    | _ => throw .a02
  | _ => throw .a02

def Ctx.wMepi (c : Ctx) (ms : Mods) (ops : List Opnd) : R Instr := do
  match ops with
  | o :: p :: rest => do
    let (k, ms) ← need epiKinds ms
    let (out, ms) ← need epiOuts ms
    done ms
    let ob ← plainAt o
    let pb ← plainAt p
    match k, rest with
    | .clamp, [lo, hi] =>
      return .mepi ⟨c.g, out, k, pb, ob, BitVec.ofNat 32 (← c.fltBits .f32 lo), BitVec.ofNat 32 (← c.fltBits .f32 hi)⟩
    | .plain, [] | .relu, [] => return .mepi ⟨c.g, out, k, pb, ob, 0, 0⟩
    | _, _ => throw .a02
  | _ => throw .a02

def Ctx.wMsts (c : Ctx) (ms : Mods) (ops : List Opnd) : R Instr := do
  match ops with
  | [a, b, x, .pair r n] => do
    let (t, ms) := flag "t" ms
    let (fm, rm) ← fmtRm ms
    return .msts ⟨c.g, fm, rm, ← plainAt a, ← sReg b, ← sReg x, BitVec.ofNat 6 (← c.nat 6 r), BitVec.ofNat 7 (← c.nat 7 n), t⟩
  | _ => throw .a02

def Ctx.wBequeath (c : Ctx) (ms : Mods) (ops : List Opnd) : R Instr := do
  match ops with
  | [p, a, .expr m, b] => do
    let tag ← memTy ms
    let a ← vD false a
    let mask := BitVec.ofNat 8 (← c.nat 8 m)
    if 128 < a.toNat + maskTop mask then throw .a03
    return .bequeath ⟨c.g, a, ← idSrc b, ← pReg p, mask, tag⟩
  | _ => throw .a02

def Ctx.wClaim (c : Ctx) (ms : Mods) (ops : List Opnd) : R Instr := do
  match ops with
  | [p, d, .expr n, a, b] => do
    let tag ← memTy ms
    let d ← vD false d
    let k ← c.nat 4 n
    if 128 < d.toNat + k then throw .a03
    return .claim ⟨c.g, d, ← sReg a, ← idSrc b, ← pReg p, BitVec.ofNat 4 k, tag⟩
  | _ => throw .a02

def Ctx.wEstate (c : Ctx) (ms : Mods) (ops : List Opnd) : R Instr := do
  match ops with
  | [d, a, b] => do
    let (drop, ms) := flag "drop" ms
    done ms
    let o : OpEstate := ⟨c.g, ← vD false d, ← sReg a, ← idSrc b⟩
    return if drop then .estateDrop o else .estate o
  | _ => throw .a02

def Ctx.wMigrate (c : Ctx) (ms : Mods) (ops : List Opnd) : R Instr := do
  match ops with
  | [p, a] => do
    done ms
    let t ← match a with
      | .scalar n => pure (ABase.scalar (BitVec.ofNat 6 n))
      | .vec n .ident => aBase (.v, n)
      | _ => throw .a02
    return .migrate ⟨c.g, ← pReg p, t⟩
  | _ => throw .a02

def Ctx.wLaunch (c : Ctx) (ms : Mods) (ops : List Opnd) : R Instr := do
  match ops with
  | [p, a] => do done ms; return .launch ⟨c.g, ← pReg p, ← sReg a⟩
  | _ => throw .a02

def Ctx.wRemit (c : Ctx) (ms : Mods) (ops : List Opnd) : R Instr := do
  match ops with
  | [p, a, b] => do done ms; return .remit ⟨c.g, ← pReg p, ← sReg a, ← sReg b⟩
  | _ => throw .a02

def Ctx.wSrd (c : Ctx) (ms : Mods) (ops : List Opnd) : R Instr := do
  match ops with
  | d :: .special i :: rest => do
    let (wide, ms) ← need [("b32", false), ("b64", true)] ms
    done ms
    let dst ← match d with
      | .scalar n => pure (SrdDst.scalar (BitVec.ofNat 6 n))
      | d => do pure (SrdDst.vec (← vD wide d))
    let elem ← match i == 25, rest with
      | false, [] => pure AOff.absent
      | true, [.vec n p] => pure (AOff.vec ⟨BitVec.ofNat 7 n, p⟩)
      | true, [.scalar n] => pure (AOff.scalar (BitVec.ofNat 6 n))
      | _, _ => throw .a02
    return .srd ⟨c.g, wide, dst, BitVec.ofNat 7 i, elem⟩
  | _ => throw .a02

def Ctx.wSwr (c : Ctx) (ms : Mods) (ops : List Opnd) : R Instr := do
  match ops with
  | [.special i, a] => do
    let (wide, ms) ← need [("b32", false), ("b64", true)] ms
    done ms
    if i == 15 then return .swr ⟨c.g, wide, ← sReg a⟩ else throw .a02
  | _ => throw .a02

def Ctx.wGrow (c : Ctx) (ms : Mods) (ops : List Opnd) : R Instr := do
  match ops with
  | [p, b] => do done ms; return .grow ⟨c.g, c.len, ← pReg p, ← bPlain c.immRaw b⟩
  | _ => throw .a02

def Ctx.wShrink (c : Ctx) (ms : Mods) (ops : List Opnd) : R Instr := do
  match ops with
  | [b] => do done ms; return .shrink ⟨c.g, c.len, ← bPlain c.immRaw b⟩
  | _ => throw .a02

/-- One instruction of the form with the modifiers and operands (R80, R101, R111, R122, R137, R148, R172, R188), at the
length that the context tries. A04 says that this length cannot carry them. -/
def Form.build (f : Form) (c : Ctx) (ms : Mods) (ops : List Opnd) : R Instr :=
  match f with
  | .nop => c.wNop ms ops
  | .bare mk => c.wBare mk ms ops
  | .onOff => c.wOnOff ms ops
  | .bra => c.wBra ms ops
  | .brx => c.wBrx ms ops
  | .call => c.wCall ms ops
  | .callx => c.wCallx ms ops
  | .fork => c.wFork ms ops
  | .code mk => c.wCode mk ms ops
  | .v2 mk => c.wV2 mk ms ops
  | .v2Count mk pair => c.wV2Count mk pair ms ops
  | .carry mk => c.wCarry mk ms ops
  | .v3 mk wide => c.wV3 mk wide ms ops
  | .lea => c.wLea ms ops
  | .sel => c.wSel ms ops
  | .v1 mk wideD => c.wV1 mk wideD ms ops
  | .iset => c.wIset ms ops
  | .s2 mk => c.wS2 mk ms ops
  | .s2Count mk pair => c.wS2Count mk pair ms ops
  | .sset => c.wSset ms ops
  | .sli => c.wSli ms ops
  | .smov => c.wSmov ms ops
  | .slea => c.wSlea ms ops
  | .f2 mk => c.wF2 mk ms ops
  | .fscale => c.wFscale ms ops
  | .fmm mk => c.wFmm mk ms ops
  | .fset => c.wFset ms ops
  | .f3 mk => c.wF3 mk ms ops
  | .pk2 mk => c.wPk2 mk ms ops
  | .pk3 => c.wPk3 ms ops
  | .fclass => c.wFclass ms ops
  | .frnd => c.wFrnd ms ops
  | .f1 mk => c.wF1 mk ms ops
  | .fcvt => c.wFcvt ms ops
  | .ftoi => c.wFtoi ms ops
  | .itof => c.wItof ms ops
  | .mov => c.wMov ms ops
  | .movi => c.wMovi ms ops
  | .perm => c.wPerm ms ops
  | .ballot => c.wBallot ms ops
  | .vote => c.wVote ms ops
  | .rdlane => c.wRdlane ms ops
  | .wrlane => c.wWrlane ms ops
  | .bsel => c.wBsel ms ops
  | .scan => c.wScan ms ops
  | .reduce => c.wReduce ms ops
  | .p2 mk => c.wP2 mk ms ops
  | .p1 mk => c.wP1 mk ms ops
  | .ldV mk => c.wLdV mk ms ops
  | .stV mk => c.wStV mk ms ops
  | .ldS mk => c.wLdS mk ms ops
  | .stS mk => c.wStS mk ms ops
  | .ldU => c.wLdU ms ops
  | .stU => c.wStU ms ops
  | .pref => c.wPref ms ops
  | .atom => c.wAtom ms ops
  | .atoms => c.wAtoms ms ops
  | .red => c.wRed ms ops
  | .fence => c.wFence ms ops
  | .binit => c.wBinit ms ops
  | .arrive => c.wArrive ms ops
  | .expect => c.wExpect ms ops
  | .wait mk => c.wWait mk ms ops
  | .bphase => c.wBphase ms ops
  | .cpy => c.wCpy ms ops
  | .cpy2d => c.wCpy2d ms ops
  | .gather => c.wGather ms ops
  | .scatter => c.wScatter ms ops
  | .qcpy => c.wQcpy ms ops
  | .coll => c.wColl ms ops
  | .rpush => c.wRpush ms ops
  | .rfree => c.wRfree ms ops
  | .mma => c.wMma ms ops
  | .mepi => c.wMepi ms ops
  | .msts => c.wMsts ms ops
  | .bequeath => c.wBequeath ms ops
  | .claim => c.wClaim ms ops
  | .estate => c.wEstate ms ops
  | .migrate => c.wMigrate ms ops
  | .launch => c.wLaunch ms ops
  | .remit => c.wRemit ms ops
  | .srd => c.wSrd ms ops
  | .swr => c.wSwr ms ops
  | .grow => c.wGrow ms ops
  | .shrink => c.wShrink ms ops

/-! ## The length (R344) -/

/-- The length of an instruction word. -/
def lenOf (i : Instr) : Option Len := i.raw.map (fun r => r.len)

/-- The instruction is one of this length, which its opcode has (R30). -/
def hasLen (i : Instr) (len : Len) : Bool :=
  match i.raw with
  | some r => r.len == len && lenListed r.op.toNat len
  | none => false

/-- What a length gives: the instruction, where the length carries it and the word is one that the manual has. -/
def tryLen (build : Len → R Instr) (len : Len) : R Instr := do
  let i ← build len
  if !hasLen i len then throw .a04
  else if !i.fnOk then throw .a01
  else if !i.fieldsOk then throw .a04
  else return i

/-- The first of the lengths that carries the instruction. Where none does, A01 says that the entry has no such form at the
longest length tried. -/
def firstLen (build : Len → R Instr) : List Len → R Instr
  | [] => .error .a04
  | l :: ls => match tryLen build l with
    | .ok i => .ok i
    | .error .a04 => firstLen build ls
    | .error .a01 => match firstLen build ls with
      | .ok i => .ok i
      | .error _ => .error .a01
    | .error e => .error e

/-- R344: the lengths from a given one on, shortest first. -/
def lensFrom : Len → List Len
  | .w64 => [.w64, .w96, .w128]
  | .w96 => [.w96, .w128]
  | .w128 => [.w128]

end Sys2Proof.Gotis
end

