-- ==== Sys2Proof/Machine/Gotis.lean ====
section
/-! DEFINITION. Gotis.lean: the assembler gotis: directives (R345), layout (R344, R346, R347), the arguments of a kernel (R7), diagnostics and the object (R348). -/

namespace Sys2Proof.Gotis

open Sys2Proof.Machine

/-! ## Statements -/

/-- What a kernel record holds (R345). -/
structure Kernel where
  name    : List Char
  entry   : Nat := 0
  window  : Nat := 0
  scratch : Nat := 0
  bssize  : Nat := 0
  argqw   : Nat := 0
  bclass  : Nat := 0
  cclass  : Nat := 0
deriving DecidableEq, Repr

/-- The numeric directives of a kernel. -/
inductive Attr where
  | window | scratch | backing
deriving DecidableEq, Repr

/-- The elements of data (R345). -/
inductive Elem where
  | int (bytes : Nat)
  | flt (f : FFmt)
deriving DecidableEq, Repr

/-- What a line asks for, its names resolved but for labels. -/
inductive Kind where
  | empty
  | word (g : Guard) (form : Form) (ms : Mods) (ops : List Opnd)
  | kernel (name : List Char)
  | endKernel
  | attr (a : Attr) (e : Expr)
  | estate (b c : Expr)
  | args (n : Nat)
  | place (code : Bool)
  | data (el : Elem) (vals : List Opnd)
  | zero (e : Expr)
  | align (e : Expr)
  | equ (e : Expr)

structure Item where
  line  : Nat
  label : Option (List Char)
  kind  : Kind

/-- A diagnostic (R348). -/
structure Diag where
  file : String
  line : Nat
  code : Code
deriving DecidableEq, Repr

/-! ## Reading the lines -/

/-- R341: the names that no label, constant or argument may have. -/
def isReserved (cs : List Char) : Bool :=
  cs == ['_'] || (lookup forms cs).isSome ||
    (match regOf cs with
      | some r => r.2 < r.1.count
      | none => false)

/-- What the lines read so far have named. -/
structure Scan where
  labels  : List (List Char)
  eqs     : List (List Char × Expr)
  args    : List (List Char × Nat)
  kernels : List (List Char)
  items   : List Item
  diags   : List (Nat × Code)

def Scan.names (s : Scan) : Names := ⟨s.args, s.eqs⟩

/-- R341: a name begins with a letter or an underscore. -/
def isName (cs : List Char) : Bool :=
  match cs with
  | [] => false
  | c :: _ => isLetter c

/-- R341: a new name is one, is not reserved and not yet taken. -/
def Scan.fresh (s : Scan) (cs : List Char) : Bool :=
  isName cs && !isReserved cs && !s.labels.contains cs && !(s.eqs.any (fun q => q.1 == cs)) && !(s.args.any (fun a => a.1 == cs))

/-- A guard (R342). -/
def guardOf (ns : Names) : Option (Bool × List Char) → R Guard
  | none => .ok ⟨15, false⟩
  | some (neg, w) => match ns.reg w with
    | some (.p, n) =>
      if 16 ≤ n then .error .a03 else if n == 15 && neg then .error .a05 else .ok ⟨BitVec.ofNat 4 n, neg⟩
    | _ => .error .a02

def allOk {α β : Type} (f : α → R β) : List α → R (List β)
  | [] => .ok []
  | x :: xs => do return (← f x) :: (← allOk f xs)

/-- The types of arguments (R345). -/
def argTys : List (String × Unit) :=
  intTys.map (fun t => (t.1, ())) ++ [("f16", ()), ("bf16", ()), ("f32", ())]

/-- One argument: its name. -/
def argOf : List Tok → R (List Char)
  | [.word n, .sym ':', .word t] => if (lookup argTys t).isSome then .ok n else .error .a07
  | _ => .error .a07

/-- The directives that hold data. -/
def elems : List (String × Elem) :=
  [(".b8", .int 1), (".b16", .int 2), (".b32", .int 4), (".b64", .int 8), (".f16", .flt .f16), (".bf16", .flt .bf16),
   (".f32", .flt .f32)]

/-- The other directives, by number. -/
def directives : List (String × Nat) :=
  [(".kernel", 0), (".endkernel", 1), (".window", 2), (".scratch", 3), (".args", 4), (".estate", 5), (".backing", 6),
   (".text", 7), (".data", 8), (".zero", 9), (".align", 10), (".equ", 11)]

/-- Operands of a directive that are constant expressions. -/
def exprs (ns : Names) (ops : List (List Tok)) : R (List Expr) :=
  allOk (fun ts => match ns.expr ts with
    | .ok e => .ok e
    | .error _ => .error .a07) ops

/-- The arguments that a directive adds (R7): argument k of the kernel is s(32 + k); none where a name is not free. -/
def addArgs (s : Scan) : List (List Char) → R (List (List Char × Nat))
  | [] => .ok s.args
  | n :: ns =>
    if !s.fresh n then .error .a06
    else if 32 ≤ s.args.length then .error .a07
    else addArgs { s with args := s.args ++ [(n, 32 + s.args.length)] } ns

/-- A directive read (R345): what it names, and what it asks for. -/
def Scan.directive (s : Scan) (l : Line) : R (Scan × Kind) := do
  if l.guard.isSome then throw .a07
  match lookup elems l.head with
  | some el => do
    let vs ← allOk s.names.opnd l.ops
    if vs.isEmpty then throw .a07
    return (s, .data el vs)
  | none =>
    match lookup directives l.head, l.ops with
    | some 0, [[.word n]] =>
      if !isName n || s.kernels.contains n then throw .a06
      else return ({ s with kernels := s.kernels ++ [n], args := [] }, .kernel n)
    | some 1, [] => return ({ s with args := [] }, .endKernel)
    | some 4, a :: as => do
      let ns ← allOk argOf (a :: as)
      let args ← addArgs s ns
      return ({ s with args := args }, .args ns.length)
    | some 7, [] => return (s, .place true)
    | some 8, [] => return (s, .place false)
    | some 11, [[.word n], ts] => do
      if !s.fresh n then throw .a06
      match s.names.expr ts with
      | .error _ => throw .a07
      | .ok e => return ({ s with eqs := s.eqs ++ [(n, e)] }, .equ e)
    | some k, ops => do
      match k, ← exprs s.names ops with
      | 2, [e] => return (s, .attr .window e)
      | 3, [e] => return (s, .attr .scratch e)
      | 6, [e] => return (s, .attr .backing e)
      | 5, [b, c] => return (s, .estate b c)
      | 9, [e] => return (s, .zero e)
      | 10, [e] => return (s, .align e)
      | _, _ => throw .a07
    | none, _ => throw .a07

/-- An instruction read: its guard, its form and its operands. -/
def Scan.instr (s : Scan) (l : Line) : R Kind := do
  let g ← guardOf s.names l.guard
  match splitChar '.' l.head with
  | [] => throw .a01
  | m :: ms => match lookup forms m with
    | none => throw .a01
    | some f => return .word g f ms (← allOk s.names.opnd l.ops)

/-- One source line. A line with an error still binds its label. -/
def Scan.line (s : Scan) (no : Nat) (text : List Char) : Scan :=
  match lexLine text.length text with
  | none => { s with diags := s.diags ++ [(no, .a02)] }
  | some ts =>
    match lineOf ts with
    | .error e => { s with diags := s.diags ++ [(no, e)] }
    | .ok l =>
      let (s, label) : Scan × Option (List Char) := match l.label with
        | none => (s, none)
        | some n =>
          if s.fresh n then ({ s with labels := s.labels ++ [n] }, some n)
          else ({ s with diags := s.diags ++ [(no, .a06)] }, none)
      let r : R (Scan × Kind) :=
        match l.head with
        | [] => .ok (s, .empty)
        | '.' :: _ => s.directive l
        | _ => (s.instr l).map (fun k => (s, k))
      match r with
      | .ok (s, k) => { s with items := s.items ++ [⟨no, label, k⟩] }
      | .error e => { s with diags := s.diags ++ [(no, e)], items := s.items ++ [⟨no, label, .empty⟩] }

def scanAll (s : Scan) (no : Nat) : List (List Char) → Scan
  | [] => s
  | l :: ls => scanAll (s.line no l) (no + 1) ls

/-! ## Layout (R344, R346, R347) -/

/-- NOPs that fill the room of a block (R346): one of 96 bits where the room is 4 more than a multiple of 8. -/
def nops (room : Nat) : List Byte :=
  let nop (len : Len) : List Byte := encodeBytes (.nop ⟨⟨15, false⟩, len⟩)
  if room % 8 == 4 then nop .w96 ++ (List.replicate ((room - 12) / 8) (nop .w64)).flatten
  else (List.replicate (room / 8) (nop .w64)).flatten

/-- Where a word of a length is placed (R346): at the offset, or at the next block where it would cross the block or leave 4
bytes of it. -/
def placeAt (o len : Nat) : Nat :=
  let room := 32 - o % 32
  if room < len || room - len == 4 then o + room else o

/-- The kernel being laid out: its record, whether its window was given, and what warnings may name of it. -/
structure Open where
  krec   : Kernel
  line   : Nat
  hasWin : Bool
  words  : List (Nat × Instr)

/-- What a pass over the items has laid out. -/
structure Walk where
  inCode  : Bool
  code    : List Byte
  data    : List Byte
  kern    : Option Open
  kernels : List Kernel
  labels  : List (List Char × Val)
  lens    : List Len
  diags   : List (Nat × Code)

def Walk.here (w : Walk) : Val := .loc w.inCode (if w.inCode then w.code.length else w.data.length)

def Walk.bind (w : Walk) (label : Option (List Char)) : Walk :=
  match label with
  | none => w
  | some n => { w with labels := w.labels ++ [(n, w.here)] }

def Walk.say (w : Walk) (no : Nat) (c : Code) : Walk := { w with diags := w.diags ++ [(no, c)] }

/-- Fills the code up to an offset, block by block (R346, R347). -/
def Walk.fillTo (w : Walk) (o : Nat) : Walk :=
  let room := (32 - w.code.length % 32) % 32
  let w := { w with code := w.code ++ nops room }
  { w with code := w.code ++ nops (o - w.code.length) }

/-- The value of a directive's operand in a range; an A06 of its names stands, everything else beyond is A07. -/
def constIn (names : List Char → Option Val) (e : Expr) (ok : Int → Bool) : R Nat :=
  match e.eval names with
  | .ok (.int n) => if ok n then .ok n.toNat else .error .a07
  | .ok .unplaced => .ok 0
  | .ok (.loc _ _) => .error .a06
  | .error .a06 => .error .a06
  | .error _ => .error .a07

/-- Little-endian bytes. -/
def leBytes (n : Nat) : Nat → List Byte
  | 0 => []
  | k + 1 => BitVec.ofNat 8 n :: leBytes (n / 256) k

/-- A value of data (R345): an integer that fits, or a number converted to nearest-even. -/
def elemBytes (names : List Char → Option Val) (el : Elem) (o : Opnd) : R (List Byte) := do
  let c : Ctx := ⟨.w128, 0, ⟨15, false⟩, names⟩
  match el, o with
  | .int k, .expr e => do
    let n ← c.int e
    if n < -(2 ^ (8 * k - 1)) || 2 ^ (8 * k) ≤ n then throw .a04
    return leBytes (n % 2 ^ (8 * k)).toNat k
  | .flt f, .expr e => do
    let n ← c.int e
    let r := fRound f .rne (n < 0) n.natAbs 0 false
    if r.2 &&& flagOF == 0 then return leBytes r.1 (f.width / 8) else throw .a04
  | .flt f, .flt neg l => match l.bits f neg with
    | some b => return leBytes b (f.width / 8)
    | none => throw .a04
  | _, _ => throw .a02

/-- Whether an instruction calls (A11). -/
def isCall : Instr → Bool
  | .call _ | .callx _ => true
  | _ => false

def isMmodeOn : Instr → Bool
  | .mmodeOn _ => true
  | _ => false

/-- The warnings of a closed kernel (R348). -/
def warnings (k : Open) : List (Nat × Code) :=
  k.words.flatMap (fun x =>
    (if k.hasWin && (usesOf x.2).past k.krec.window then [(x.1, .a09)] else []) ++
    (if k.hasWin && isMmodeOn x.2 && k.krec.window < 128 then [(x.1, .a10)] else []) ++
    (if isCall x.2 && k.krec.bssize == 0 then [(x.1, .a11)] else []))

/-- R345: the limits of a kernel's numeric directives. -/
def Attr.ok (a : Attr) (n : Int) : Bool :=
  match a with
  | .window => 32 ≤ n && n ≤ 128 && n % 16 == 0
  | .scratch => 0 ≤ n && n ≤ 720896 && n % 16 == 0
  | .backing => 0 ≤ n && n < 4294967296 && n % 256 == 0

/-- Sets a field of the open kernel; outside a kernel a directive of kernels is out of place (A07). -/
def Walk.inKernel (w : Walk) (no : Nat) (f : Open → R Open) : Walk :=
  match w.kern with
  | none => w.say no .a07
  | some k => match f k with
    | .ok k => { w with kern := some k }
    | .error e => w.say no e

def isPow2 (n : Nat) : Bool := [4, 8, 16, 32, 64, 128, 256, 512, 1024, 2048, 4096].contains n

/-- One item. prev holds the labels of the pass before, known every label of the source, floor the least length of the
item's word. -/
def Walk.item (prev : List (List Char × Val)) (known : List (List Char)) (w : Walk) (it : Item) (floor : Len) : Walk :=
  let names (cs : List Char) : Option Val :=
    match (w.labels ++ prev).find? (fun l => l.1 == cs) with
    | some l => some l.2
    | none => if known.contains cs then some .unplaced else none
  let w' := { w with lens := w.lens ++ [floor] }
  match it.kind with
  | .empty => w'.bind it.label
  | .word g form ms ops =>
    let o := w.code.length
    let build (len : Len) : R Instr := form.build ⟨len, placeAt o len.bytes, g, names⟩ ms ops
    match firstLen build (lensFrom floor) with
    | .error e => (w'.bind it.label).say it.line e
    | .ok i =>
      let len := (lenOf i).getD floor
      match w.kern, w.inCode with
      | some k, true =>
        let p := placeAt o len.bytes
        let w := { w with
          code := w.code ++ nops (p - o), lens := w.lens ++ [len],
          kern := some { k with words := k.words ++ [(it.line, i)] } }
        let w := w.bind it.label
        { w with code := w.code ++ encodeBytes i }
      | _, _ => (w'.bind it.label).say it.line .a08
  | .kernel n =>
    match w.kern with
    | some _ => (w'.bind it.label).say it.line .a07
    | none =>
      let w := { w'.fillTo 0 with inCode := true }
      { w.bind it.label with kern := some ⟨{ name := n, entry := w.code.length }, it.line, false, []⟩ }
  | .endKernel =>
    match w.kern with
    | none => (w'.bind it.label).say it.line .a07
    | some k =>
      let w := { w'.bind it.label with kern := none, diags := w'.diags ++ warnings k }
      if k.hasWin then { w with kernels := w.kernels ++ [k.krec] } else w.say it.line .a08
  | .attr a e =>
    (w'.bind it.label).inKernel it.line (fun k => do
      let n ← constIn names e a.ok
      match a with
      | .window => if k.hasWin then throw .a07 else return { k with krec := { k.krec with window := n }, hasWin := true }
      | .scratch => return { k with krec := { k.krec with scratch := n } }
      | .backing => return { k with krec := { k.krec with bssize := n } })
  | .estate b c =>
    (w'.bind it.label).inKernel it.line (fun k => do
      let x ← constIn names b (fun n => 0 ≤ n && n ≤ 65535)
      let y ← constIn names c (fun n => 0 ≤ n && n ≤ 65535)
      return { k with krec := { k.krec with bclass := x, cclass := y } })
  | .args n =>
    (w'.bind it.label).inKernel it.line (fun k => .ok { k with krec := { k.krec with argqw := k.krec.argqw + n } })
  | .place c => { w'.bind it.label with inCode := c }
  | .data el vals =>
    if w.inCode then (w'.bind it.label).say it.line .a07
    else match allOk (elemBytes names el) vals with
      | .error e => (w'.bind it.label).say it.line e
      | .ok bs => { w'.bind it.label with data := w.data ++ bs.flatten }
  | .zero e =>
    if w.inCode then (w'.bind it.label).say it.line .a07
    else match constIn names e (fun n => 0 ≤ n) with
      | .error e => (w'.bind it.label).say it.line e
      | .ok n => { w'.bind it.label with data := w.data ++ List.replicate n 0 }
  | .align e =>
    match constIn names e (fun n => isPow2 n.toNat && (!w.inCode || 32 ≤ n)) with
    | .error e => (w'.bind it.label).say it.line e
    | .ok n =>
      if n == 0 then w'.bind it.label
      else if w.inCode then (w'.fillTo ((w.code.length + n - 1) / n * n)).bind it.label
      else { w' with data := w.data ++ List.replicate ((n - w.data.length % n) % n) 0 }.bind it.label
  | .equ e =>
    match e.eval names with
    | .ok (.loc _ _) => (w'.bind it.label).say it.line .a06
    | .ok _ => w'.bind it.label
    | .error e => (w'.bind it.label).say it.line e

def walkAll (prev : List (List Char × Val)) (known : List (List Char)) (w : Walk) : List Item → List Len → Walk
  | [], _ => w
  | it :: its, floors =>
    walkAll prev known (w.item prev known it (floors.head?.getD .w64)) its (floors.drop 1)

def Walk.start : Walk := ⟨true, [], [], none, [], [], [], []⟩

/-- R344: layout is repeated until no form changes; a form only ever lengthens. -/
def settle (items : List Item) (known : List (List Char)) : Nat → List (List Char × Val) → List Len → Walk
  | 0, prev, floors => walkAll prev known .start items floors
  | n + 1, prev, floors =>
    let w := walkAll prev known .start items floors
    if w.labels == prev && w.lens == floors then w else settle items known n w.labels w.lens

/-! ## The object (R348) -/

structure Object where
  code    : List Byte
  data    : List Byte
  kernels : List Kernel
deriving DecidableEq, Repr

structure Output where
  diags  : List Diag
  object : Option Object
deriving DecidableEq, Repr

/-- The diagnostics in the order of their lines. -/
def byLine : List (Nat × Code) → List (Nat × Code)
  | [] => []
  | d :: ds =>
    let rest := byLine ds
    rest.takeWhile (fun e => e.1 < d.1) ++ d :: rest.dropWhile (fun e => e.1 < d.1)

/-- Assembles one source file. R348: every diagnostic is reported, and an object is written only where none is an error. -/
def assemble (file : String) (text : List Char) : Output :=
  let s := scanAll ⟨[], [], [], [], [], []⟩ 1 (splitChar '\n' text)
  let w := settle s.items s.labels (3 * s.items.length + 3) [] (s.items.map (fun _ => Len.w64))
  let unclosed := match w.kern with
    | some k => [(k.line, Code.a07)]
    | none => []
  let ds := byLine (s.diags ++ w.diags ++ unclosed)
  { diags := ds.map (fun d => ⟨file, d.1, d.2⟩),
    object := if ds.any (fun d => d.2.isError) then none else some ⟨w.code, w.data, w.kernels⟩ }

end Sys2Proof.Gotis
end

