-- ==== Sys2Proof/Laws/Gotis.lean ====
section
/-! SUPPORT. Laws/Gotis.lean: what the layout of the assembler gives (R346). -/

namespace Sys2Proof.Gotis

/-- R346: a placed word starts at or after the offset, lies in one block, and leaves no hole of 4 bytes in it. -/
theorem placeAt_fits (o len : Nat) (h : len ≤ 16) :
    o ≤ placeAt o len ∧ placeAt o len % 32 + len ≤ 32 ∧ 32 - placeAt o len % 32 - len ≠ 4 := by
  simp only [placeAt, Bool.or_eq_true, decide_eq_true_eq, beq_iff_eq]
  split <;> omega

/-- The fill before a placed word is empty, or reaches the end of the block. -/
theorem placeAt_eq (o len : Nat) : placeAt o len = o ∨ placeAt o len = o + (32 - o % 32) := by
  simp only [placeAt]
  split <;> simp

end Sys2Proof.Gotis
end

