-- ==== Sys2Proof/Laws/Sparse.lean ====
section
/-! SUPPORT. Laws/Sparse.lean: reading after writing a sparse map, and that every operation keeps the canonical form. -/

namespace Sys2Proof.Machine

section
variable {α : Type} {d v : α} {m : Sparse α} {i j k : Nat}

theorem mapGet_del_same : mapGet d (mapDel m k) k = d := by
  induction m with
  | nil => rfl
  | cons e m ih =>
    unfold mapDel at *
    by_cases h : e.1 = k
    · simpa [h] using ih
    · simp only [List.filter_cons, bne_iff_ne, ne_eq, h, not_false_eq_true, ↓reduceIte, mapGet]
      rw [if_neg (fun x => h x.symm)]; exact ih

theorem mapGet_del_other (h : j ≠ k) : mapGet d (mapDel m k) j = mapGet d m j := by
  induction m with
  | nil => rfl
  | cons e m ih =>
    unfold mapDel at *
    by_cases hk : e.1 = k
    · simp only [List.filter_cons, bne_iff_ne, ne_eq, hk, not_true_eq_false, ↓reduceIte, mapGet]
      rw [if_neg h]; exact ih
    · simp only [List.filter_cons, bne_iff_ne, ne_eq, hk, not_false_eq_true, ↓reduceIte, mapGet, ih]

theorem mapGet_ins (h : mapGet d m k = d) (h' : ∀ e ∈ m, e.1 ≠ k) : mapGet d (mapIns m k v) j = if j = k then v else mapGet d m j := by
  induction m with
  | nil => simp [mapIns, mapGet]
  | cons e m ih =>
    have he : e.1 ≠ k := h' e (List.mem_cons_self ..)
    simp only [mapGet] at h
    rw [if_neg (fun x => he x.symm)] at h
    simp only [mapIns]
    split
    · simp only [mapGet]
    · simp only [mapGet, ih h (fun x hx => h' x (List.mem_cons_of_mem _ hx))]
      by_cases hj : j = k
      · subst hj; simp [Ne.symm he]
      · simp [hj]

theorem del_keys : ∀ e ∈ mapDel m k, e.1 ≠ k := by
  intro e he
  simp only [mapDel, List.mem_filter, bne_iff_ne, ne_eq] at he
  exact he.2

theorem mapGet_put : mapGet d (mapPut m k v) j = if j = k then v else mapGet d m j := by
  unfold mapPut
  rw [mapGet_ins mapGet_del_same del_keys]
  by_cases h : j = k
  · simp [h]
  · simp only [h, if_false]; exact mapGet_del_other h

variable [DecidableEq α]

/-- A read after a write: the value written at its key, what was there at every other. -/
theorem mapGet_set : mapGet d (mapSet d m k v) j = if j = k then v else mapGet d m j := by
  unfold mapSet
  split
  · subst_vars
    by_cases h : j = k
    · subst h; simp [mapGet_del_same]
    · simp only [h, if_false]; exact mapGet_del_other h
  · exact mapGet_put

theorem mapGet_set_same : mapGet d (mapSet d m k v) k = v := by simp [mapGet_set]
theorem mapGet_set_other (h : j ≠ k) : mapGet d (mapSet d m k v) j = mapGet d m j := by simp [mapGet_set, h]

omit [DecidableEq α] in
theorem mapAbove_mono (h : mapAbove k m = true) (hj : j ≤ k) : mapAbove j m = true := by
  cases m with
  | nil => rfl
  | cons e m => simp only [mapAbove, decide_eq_true_eq] at *; omega

theorem mapAbove_filter (p : Nat × α → Bool) (h : mapAbove k m = true) (w : mapWf d m = true) :
    mapAbove k (m.filter p) = true := by
  induction m with
  | nil => rfl
  | cons e m ih =>
    simp only [mapWf, Bool.and_eq_true] at w
    simp only [List.filter_cons]
    split
    · exact h
    · simp only [mapAbove, decide_eq_true_eq] at h
      exact ih (mapAbove_mono w.1.2 (by omega)) w.2

theorem mapWf_filter (p : Nat × α → Bool) (w : mapWf d m = true) : mapWf d (m.filter p) = true := by
  induction m with
  | nil => rfl
  | cons e m ih =>
    simp only [mapWf, Bool.and_eq_true] at w
    simp only [List.filter_cons]
    split
    · simp only [mapWf, Bool.and_eq_true]; exact ⟨⟨w.1.1, mapAbove_filter p w.1.2 w.2⟩, ih w.2⟩
    · exact ih w.2

theorem mapWf_ins (w : mapWf d m = true) (hv : v ≠ d) (hk : ∀ e ∈ m, e.1 ≠ k) :
    mapWf d (mapIns m k v) = true ∧ ∀ j, j < k → mapAbove j m = true → mapAbove j (mapIns m k v) = true := by
  induction m with
  | nil => simp only [mapIns, mapWf, mapAbove, Bool.and_true, bne_iff_ne, decide_eq_true_eq]; exact ⟨hv, fun j h _ => h⟩
  | cons e m ih =>
    obtain ⟨i, x⟩ := e
    have w' := w
    simp only [mapWf, Bool.and_eq_true, bne_iff_ne] at w
    have hi : i ≠ k := hk (i, x) (List.mem_cons_self ..)
    obtain ⟨h1, h2⟩ := ih w.2 (fun e he => hk e (List.mem_cons_of_mem _ he))
    simp only [mapIns]
    split
    · rename_i h
      refine ⟨?_, fun j hj _ => by simpa only [mapAbove, decide_eq_true_eq] using hj⟩
      show (v != d && mapAbove k ((i, x) :: m) && mapWf d ((i, x) :: m)) = true
      rw [w', bne_iff_ne.2 hv]
      simpa only [mapAbove, Bool.and_true, Bool.true_and, decide_eq_true_eq] using h
    · refine ⟨?_, fun j _ h => by simpa only [mapAbove] using h⟩
      simp only [mapWf, Bool.and_eq_true, bne_iff_ne]
      exact ⟨⟨w.1.1, h2 i (by omega) w.1.2⟩, h1⟩

/-- Every write keeps the canonical form. -/
theorem mapWf_set (w : mapWf d m = true) : mapWf d (mapSet d m k v) = true := by
  unfold mapSet; split
  · exact mapWf_filter _ w
  · exact (mapWf_ins (mapWf_filter _ w) ‹_› del_keys).1

theorem mapWf_setRun (vs : List α) (w : mapWf d m = true) : mapWf d (mapSetRun d m k vs) = true := by
  induction vs generalizing m k with
  | nil => exact w
  | cons v vs ih => exact ih (mapWf_set w)

theorem mapWf_foldSet {β : Type} (xs : List β) (key : β → Nat) (val : β → α) (w : mapWf d m = true) :
    mapWf d (xs.foldl (fun m x => mapSet d m (key x) (val x)) m) = true := by
  induction xs generalizing m with
  | nil => exact w
  | cons x xs ih => exact ih (mapWf_set w)

end

end Sys2Proof.Machine
end

