-- ==== Sys2Proof/Laws/State.lean ====
section
/-! SUPPORT. Laws/State.lean: what each named update of the state leaves alone, field by field, and what it reads back as. -/

namespace Sys2Proof.Machine

@[simp] theorem setWave_frame (s : State) (w : Wave) :
    (s.setWave w).own = s.own ∧ (s.setWave w).mem = s.mem ∧ (s.setWave w).ord = s.ord ∧
    (s.setWave w).groups = s.groups ∧ (s.setWave w).quarters = s.quarters ∧ (s.setWave w).objs = s.objs ∧
    (s.setWave w).reqs = s.reqs ∧ (s.setWave w).colls = s.colls ∧ (s.setWave w).estates = s.estates ∧
    (s.setWave w).holdings = s.holdings ∧ (s.setWave w).launches = s.launches ∧ (s.setWave w).queues = s.queues ∧
    (s.setWave w).saved = s.saved ∧ (s.setWave w).armedD = s.armedD ∧ (s.setWave w).armedR = s.armedR ∧
    (s.setWave w).worlds = s.worlds ∧ (s.setWave w).seqs = s.seqs ∧ (s.setWave w).slots = s.slots ∧
    (s.setWave w).invals = s.invals ∧ (s.setWave w).parts = s.parts ∧ (s.setWave w).contexts = s.contexts ∧
    (s.setWave w).pkg = s.pkg ∧ (s.setWave w).repair = s.repair ∧ (s.setWave w).msglog = s.msglog ∧
    (s.setWave w).records = s.records :=
  ⟨rfl, rfl, rfl, rfl, rfl, rfl, rfl, rfl, rfl, rfl, rfl, rfl, rfl, rfl, rfl, rfl, rfl, rfl, rfl, rfl, rfl, rfl, rfl, rfl, rfl⟩

@[simp] theorem onWave_frame (s : State) (u : Nat) (f : Wave → Wave) :
    (s.onWave u f).own = s.own ∧ (s.onWave u f).mem = s.mem ∧ (s.onWave u f).ord = s.ord ∧
    (s.onWave u f).groups = s.groups ∧ (s.onWave u f).quarters = s.quarters ∧ (s.onWave u f).objs = s.objs ∧
    (s.onWave u f).reqs = s.reqs ∧ (s.onWave u f).colls = s.colls ∧ (s.onWave u f).estates = s.estates ∧
    (s.onWave u f).holdings = s.holdings ∧ (s.onWave u f).launches = s.launches ∧ (s.onWave u f).queues = s.queues ∧
    (s.onWave u f).saved = s.saved ∧ (s.onWave u f).armedD = s.armedD ∧ (s.onWave u f).armedR = s.armedR ∧
    (s.onWave u f).worlds = s.worlds ∧ (s.onWave u f).seqs = s.seqs ∧ (s.onWave u f).slots = s.slots ∧
    (s.onWave u f).invals = s.invals ∧ (s.onWave u f).parts = s.parts ∧ (s.onWave u f).contexts = s.contexts ∧
    (s.onWave u f).pkg = s.pkg ∧ (s.onWave u f).repair = s.repair ∧ (s.onWave u f).msglog = s.msglog ∧
    (s.onWave u f).records = s.records :=
  ⟨rfl, rfl, rfl, rfl, rfl, rfl, rfl, rfl, rfl, rfl, rfl, rfl, rfl, rfl, rfl, rfl, rfl, rfl, rfl, rfl, rfl, rfl, rfl, rfl, rfl⟩

@[simp] theorem dropWave_frame (s : State) (u : Nat) :
    (s.dropWave u).own = s.own ∧ (s.dropWave u).mem = s.mem ∧ (s.dropWave u).ord = s.ord ∧
    (s.dropWave u).groups = s.groups ∧ (s.dropWave u).quarters = s.quarters ∧ (s.dropWave u).objs = s.objs ∧
    (s.dropWave u).reqs = s.reqs ∧ (s.dropWave u).colls = s.colls ∧ (s.dropWave u).estates = s.estates ∧
    (s.dropWave u).holdings = s.holdings ∧ (s.dropWave u).launches = s.launches ∧ (s.dropWave u).queues = s.queues ∧
    (s.dropWave u).saved = s.saved ∧ (s.dropWave u).armedD = s.armedD ∧ (s.dropWave u).armedR = s.armedR ∧
    (s.dropWave u).worlds = s.worlds ∧ (s.dropWave u).seqs = s.seqs ∧ (s.dropWave u).slots = s.slots ∧
    (s.dropWave u).invals = s.invals ∧ (s.dropWave u).parts = s.parts ∧ (s.dropWave u).contexts = s.contexts ∧
    (s.dropWave u).pkg = s.pkg ∧ (s.dropWave u).repair = s.repair ∧ (s.dropWave u).msglog = s.msglog ∧
    (s.dropWave u).records = s.records :=
  ⟨rfl, rfl, rfl, rfl, rfl, rfl, rfl, rfl, rfl, rfl, rfl, rfl, rfl, rfl, rfl, rfl, rfl, rfl, rfl, rfl, rfl, rfl, rfl, rfl, rfl⟩

@[simp] theorem onGroup_frame (s : State) (l g : Nat) (f : Group → Group) :
    (s.onGroup l g f).own = s.own ∧ (s.onGroup l g f).mem = s.mem ∧ (s.onGroup l g f).ord = s.ord ∧
    (s.onGroup l g f).waves = s.waves ∧ (s.onGroup l g f).quarters = s.quarters ∧ (s.onGroup l g f).objs = s.objs ∧
    (s.onGroup l g f).reqs = s.reqs ∧ (s.onGroup l g f).colls = s.colls ∧ (s.onGroup l g f).estates = s.estates ∧
    (s.onGroup l g f).holdings = s.holdings ∧ (s.onGroup l g f).launches = s.launches ∧
    (s.onGroup l g f).queues = s.queues ∧ (s.onGroup l g f).saved = s.saved ∧ (s.onGroup l g f).armedD = s.armedD ∧
    (s.onGroup l g f).armedR = s.armedR ∧ (s.onGroup l g f).worlds = s.worlds ∧ (s.onGroup l g f).seqs = s.seqs ∧
    (s.onGroup l g f).slots = s.slots ∧ (s.onGroup l g f).invals = s.invals ∧ (s.onGroup l g f).parts = s.parts ∧
    (s.onGroup l g f).contexts = s.contexts ∧ (s.onGroup l g f).pkg = s.pkg ∧ (s.onGroup l g f).repair = s.repair ∧
    (s.onGroup l g f).msglog = s.msglog ∧ (s.onGroup l g f).records = s.records :=
  ⟨rfl, rfl, rfl, rfl, rfl, rfl, rfl, rfl, rfl, rfl, rfl, rfl, rfl, rfl, rfl, rfl, rfl, rfl, rfl, rfl, rfl, rfl, rfl, rfl, rfl⟩

@[simp] theorem onLaunch_frame (s : State) (u : Nat) (f : Launch → Launch) :
    (s.onLaunch u f).own = s.own ∧ (s.onLaunch u f).mem = s.mem ∧ (s.onLaunch u f).ord = s.ord ∧
    (s.onLaunch u f).waves = s.waves ∧ (s.onLaunch u f).groups = s.groups ∧ (s.onLaunch u f).quarters = s.quarters ∧
    (s.onLaunch u f).objs = s.objs ∧ (s.onLaunch u f).reqs = s.reqs ∧ (s.onLaunch u f).colls = s.colls ∧
    (s.onLaunch u f).estates = s.estates ∧ (s.onLaunch u f).holdings = s.holdings ∧
    (s.onLaunch u f).queues = s.queues ∧ (s.onLaunch u f).saved = s.saved ∧ (s.onLaunch u f).armedD = s.armedD ∧
    (s.onLaunch u f).armedR = s.armedR ∧ (s.onLaunch u f).worlds = s.worlds ∧ (s.onLaunch u f).seqs = s.seqs ∧
    (s.onLaunch u f).slots = s.slots ∧ (s.onLaunch u f).invals = s.invals ∧ (s.onLaunch u f).parts = s.parts ∧
    (s.onLaunch u f).contexts = s.contexts ∧ (s.onLaunch u f).pkg = s.pkg ∧ (s.onLaunch u f).repair = s.repair ∧
    (s.onLaunch u f).msglog = s.msglog ∧ (s.onLaunch u f).records = s.records :=
  ⟨rfl, rfl, rfl, rfl, rfl, rfl, rfl, rfl, rfl, rfl, rfl, rfl, rfl, rfl, rfl, rfl, rfl, rfl, rfl, rfl, rfl, rfl, rfl, rfl, rfl⟩

@[simp] theorem onQueue_frame (s : State) (q : Nat) (f : Queue → Queue) :
    (s.onQueue q f).own = s.own ∧ (s.onQueue q f).mem = s.mem ∧ (s.onQueue q f).ord = s.ord ∧
    (s.onQueue q f).waves = s.waves ∧ (s.onQueue q f).groups = s.groups ∧ (s.onQueue q f).quarters = s.quarters ∧
    (s.onQueue q f).objs = s.objs ∧ (s.onQueue q f).reqs = s.reqs ∧ (s.onQueue q f).colls = s.colls ∧
    (s.onQueue q f).estates = s.estates ∧ (s.onQueue q f).holdings = s.holdings ∧
    (s.onQueue q f).launches = s.launches ∧ (s.onQueue q f).saved = s.saved ∧ (s.onQueue q f).armedD = s.armedD ∧
    (s.onQueue q f).armedR = s.armedR ∧ (s.onQueue q f).worlds = s.worlds ∧ (s.onQueue q f).seqs = s.seqs ∧
    (s.onQueue q f).slots = s.slots ∧ (s.onQueue q f).invals = s.invals ∧ (s.onQueue q f).parts = s.parts ∧
    (s.onQueue q f).contexts = s.contexts ∧ (s.onQueue q f).pkg = s.pkg ∧ (s.onQueue q f).repair = s.repair ∧
    (s.onQueue q f).msglog = s.msglog ∧ (s.onQueue q f).records = s.records :=
  ⟨rfl, rfl, rfl, rfl, rfl, rfl, rfl, rfl, rfl, rfl, rfl, rfl, rfl, rfl, rfl, rfl, rfl, rfl, rfl, rfl, rfl, rfl, rfl, rfl, rfl⟩

@[simp] theorem onWorld_frame (s : State) (i : Nat) (f : World → World) :
    (s.onWorld i f).own = s.own ∧ (s.onWorld i f).mem = s.mem ∧ (s.onWorld i f).ord = s.ord ∧
    (s.onWorld i f).waves = s.waves ∧ (s.onWorld i f).groups = s.groups ∧ (s.onWorld i f).quarters = s.quarters ∧
    (s.onWorld i f).objs = s.objs ∧ (s.onWorld i f).reqs = s.reqs ∧ (s.onWorld i f).colls = s.colls ∧
    (s.onWorld i f).estates = s.estates ∧ (s.onWorld i f).holdings = s.holdings ∧
    (s.onWorld i f).launches = s.launches ∧ (s.onWorld i f).queues = s.queues ∧ (s.onWorld i f).saved = s.saved ∧
    (s.onWorld i f).armedD = s.armedD ∧ (s.onWorld i f).armedR = s.armedR ∧ (s.onWorld i f).seqs = s.seqs ∧
    (s.onWorld i f).slots = s.slots ∧ (s.onWorld i f).invals = s.invals ∧ (s.onWorld i f).parts = s.parts ∧
    (s.onWorld i f).contexts = s.contexts ∧ (s.onWorld i f).pkg = s.pkg ∧ (s.onWorld i f).repair = s.repair ∧
    (s.onWorld i f).msglog = s.msglog ∧ (s.onWorld i f).records = s.records :=
  ⟨rfl, rfl, rfl, rfl, rfl, rfl, rfl, rfl, rfl, rfl, rfl, rfl, rfl, rfl, rfl, rfl, rfl, rfl, rfl, rfl, rfl, rfl, rfl, rfl, rfl⟩

@[simp] theorem onSeq_frame (s : State) (w n : Nat) (f : Seq → Seq) :
    (s.onSeq w n f).own = s.own ∧ (s.onSeq w n f).mem = s.mem ∧ (s.onSeq w n f).ord = s.ord ∧
    (s.onSeq w n f).waves = s.waves ∧ (s.onSeq w n f).groups = s.groups ∧ (s.onSeq w n f).quarters = s.quarters ∧
    (s.onSeq w n f).objs = s.objs ∧ (s.onSeq w n f).reqs = s.reqs ∧ (s.onSeq w n f).colls = s.colls ∧
    (s.onSeq w n f).estates = s.estates ∧ (s.onSeq w n f).holdings = s.holdings ∧
    (s.onSeq w n f).launches = s.launches ∧ (s.onSeq w n f).queues = s.queues ∧ (s.onSeq w n f).saved = s.saved ∧
    (s.onSeq w n f).armedD = s.armedD ∧ (s.onSeq w n f).armedR = s.armedR ∧ (s.onSeq w n f).worlds = s.worlds ∧
    (s.onSeq w n f).slots = s.slots ∧ (s.onSeq w n f).invals = s.invals ∧ (s.onSeq w n f).parts = s.parts ∧
    (s.onSeq w n f).contexts = s.contexts ∧ (s.onSeq w n f).pkg = s.pkg ∧ (s.onSeq w n f).repair = s.repair ∧
    (s.onSeq w n f).msglog = s.msglog ∧ (s.onSeq w n f).records = s.records :=
  ⟨rfl, rfl, rfl, rfl, rfl, rfl, rfl, rfl, rfl, rfl, rfl, rfl, rfl, rfl, rfl, rfl, rfl, rfl, rfl, rfl, rfl, rfl, rfl, rfl, rfl⟩

@[simp] theorem onPart_frame (s : State) (p : Nat) (f : Part → Part) :
    (s.onPart p f).own = s.own ∧ (s.onPart p f).mem = s.mem ∧ (s.onPart p f).ord = s.ord ∧
    (s.onPart p f).waves = s.waves ∧ (s.onPart p f).groups = s.groups ∧ (s.onPart p f).quarters = s.quarters ∧
    (s.onPart p f).objs = s.objs ∧ (s.onPart p f).reqs = s.reqs ∧ (s.onPart p f).colls = s.colls ∧
    (s.onPart p f).estates = s.estates ∧ (s.onPart p f).holdings = s.holdings ∧
    (s.onPart p f).launches = s.launches ∧ (s.onPart p f).queues = s.queues ∧ (s.onPart p f).saved = s.saved ∧
    (s.onPart p f).armedD = s.armedD ∧ (s.onPart p f).armedR = s.armedR ∧ (s.onPart p f).worlds = s.worlds ∧
    (s.onPart p f).seqs = s.seqs ∧ (s.onPart p f).slots = s.slots ∧ (s.onPart p f).invals = s.invals ∧
    (s.onPart p f).contexts = s.contexts ∧ (s.onPart p f).pkg = s.pkg ∧ (s.onPart p f).repair = s.repair ∧
    (s.onPart p f).msglog = s.msglog ∧ (s.onPart p f).records = s.records :=
  ⟨rfl, rfl, rfl, rfl, rfl, rfl, rfl, rfl, rfl, rfl, rfl, rfl, rfl, rfl, rfl, rfl, rfl, rfl, rfl, rfl, rfl, rfl, rfl, rfl, rfl⟩

@[simp] theorem onDie_frame (s : State) (d : Nat) (f : Die → Die) :
    (s.onDie d f).own = s.own ∧ (s.onDie d f).mem = s.mem ∧ (s.onDie d f).ord = s.ord ∧
    (s.onDie d f).waves = s.waves ∧ (s.onDie d f).groups = s.groups ∧ (s.onDie d f).quarters = s.quarters ∧
    (s.onDie d f).objs = s.objs ∧ (s.onDie d f).reqs = s.reqs ∧ (s.onDie d f).colls = s.colls ∧
    (s.onDie d f).estates = s.estates ∧ (s.onDie d f).holdings = s.holdings ∧ (s.onDie d f).launches = s.launches ∧
    (s.onDie d f).queues = s.queues ∧ (s.onDie d f).saved = s.saved ∧ (s.onDie d f).armedD = s.armedD ∧
    (s.onDie d f).armedR = s.armedR ∧ (s.onDie d f).worlds = s.worlds ∧ (s.onDie d f).seqs = s.seqs ∧
    (s.onDie d f).slots = s.slots ∧ (s.onDie d f).invals = s.invals ∧ (s.onDie d f).parts = s.parts ∧
    (s.onDie d f).contexts = s.contexts ∧ (s.onDie d f).repair = s.repair ∧ (s.onDie d f).msglog = s.msglog ∧
    (s.onDie d f).records = s.records :=
  ⟨rfl, rfl, rfl, rfl, rfl, rfl, rfl, rfl, rfl, rfl, rfl, rfl, rfl, rfl, rfl, rfl, rfl, rfl, rfl, rfl, rfl, rfl, rfl, rfl, rfl⟩

@[simp] theorem onQuarter_frame (s : State) (d c q : Nat) (f : Quarter → Quarter) :
    (s.onQuarter d c q f).own = s.own ∧ (s.onQuarter d c q f).mem = s.mem ∧ (s.onQuarter d c q f).ord = s.ord ∧
    (s.onQuarter d c q f).waves = s.waves ∧ (s.onQuarter d c q f).groups = s.groups ∧
    (s.onQuarter d c q f).objs = s.objs ∧ (s.onQuarter d c q f).reqs = s.reqs ∧
    (s.onQuarter d c q f).colls = s.colls ∧ (s.onQuarter d c q f).estates = s.estates ∧
    (s.onQuarter d c q f).holdings = s.holdings ∧ (s.onQuarter d c q f).launches = s.launches ∧
    (s.onQuarter d c q f).queues = s.queues ∧ (s.onQuarter d c q f).saved = s.saved ∧
    (s.onQuarter d c q f).armedD = s.armedD ∧ (s.onQuarter d c q f).armedR = s.armedR ∧
    (s.onQuarter d c q f).worlds = s.worlds ∧ (s.onQuarter d c q f).seqs = s.seqs ∧
    (s.onQuarter d c q f).slots = s.slots ∧ (s.onQuarter d c q f).invals = s.invals ∧
    (s.onQuarter d c q f).parts = s.parts ∧ (s.onQuarter d c q f).contexts = s.contexts ∧
    (s.onQuarter d c q f).pkg = s.pkg ∧ (s.onQuarter d c q f).repair = s.repair ∧
    (s.onQuarter d c q f).msglog = s.msglog ∧ (s.onQuarter d c q f).records = s.records :=
  ⟨rfl, rfl, rfl, rfl, rfl, rfl, rfl, rfl, rfl, rfl, rfl, rfl, rfl, rfl, rfl, rfl, rfl, rfl, rfl, rfl, rfl, rfl, rfl, rfl, rfl⟩

@[simp] theorem onReq_frame (s : State) (i : Nat) (f : EngReq → EngReq) :
    (s.onReq i f).own = s.own ∧ (s.onReq i f).mem = s.mem ∧ (s.onReq i f).ord = s.ord ∧
    (s.onReq i f).waves = s.waves ∧ (s.onReq i f).groups = s.groups ∧ (s.onReq i f).quarters = s.quarters ∧
    (s.onReq i f).objs = s.objs ∧ (s.onReq i f).colls = s.colls ∧ (s.onReq i f).estates = s.estates ∧
    (s.onReq i f).holdings = s.holdings ∧ (s.onReq i f).launches = s.launches ∧ (s.onReq i f).queues = s.queues ∧
    (s.onReq i f).saved = s.saved ∧ (s.onReq i f).armedD = s.armedD ∧ (s.onReq i f).armedR = s.armedR ∧
    (s.onReq i f).worlds = s.worlds ∧ (s.onReq i f).seqs = s.seqs ∧ (s.onReq i f).slots = s.slots ∧
    (s.onReq i f).invals = s.invals ∧ (s.onReq i f).parts = s.parts ∧ (s.onReq i f).contexts = s.contexts ∧
    (s.onReq i f).pkg = s.pkg ∧ (s.onReq i f).repair = s.repair ∧ (s.onReq i f).msglog = s.msglog ∧
    (s.onReq i f).records = s.records :=
  ⟨rfl, rfl, rfl, rfl, rfl, rfl, rfl, rfl, rfl, rfl, rfl, rfl, rfl, rfl, rfl, rfl, rfl, rfl, rfl, rfl, rfl, rfl, rfl, rfl, rfl⟩

@[simp] theorem onRepair_frame (s : State) (d : Nat) (f : Repair → Repair) :
    (s.onRepair d f).own = s.own ∧ (s.onRepair d f).mem = s.mem ∧ (s.onRepair d f).ord = s.ord ∧
    (s.onRepair d f).waves = s.waves ∧ (s.onRepair d f).groups = s.groups ∧ (s.onRepair d f).quarters = s.quarters ∧
    (s.onRepair d f).objs = s.objs ∧ (s.onRepair d f).reqs = s.reqs ∧ (s.onRepair d f).colls = s.colls ∧
    (s.onRepair d f).estates = s.estates ∧ (s.onRepair d f).holdings = s.holdings ∧
    (s.onRepair d f).launches = s.launches ∧ (s.onRepair d f).queues = s.queues ∧ (s.onRepair d f).saved = s.saved ∧
    (s.onRepair d f).armedD = s.armedD ∧ (s.onRepair d f).armedR = s.armedR ∧ (s.onRepair d f).worlds = s.worlds ∧
    (s.onRepair d f).seqs = s.seqs ∧ (s.onRepair d f).slots = s.slots ∧ (s.onRepair d f).invals = s.invals ∧
    (s.onRepair d f).parts = s.parts ∧ (s.onRepair d f).contexts = s.contexts ∧ (s.onRepair d f).pkg = s.pkg ∧
    (s.onRepair d f).msglog = s.msglog ∧ (s.onRepair d f).records = s.records :=
  ⟨rfl, rfl, rfl, rfl, rfl, rfl, rfl, rfl, rfl, rfl, rfl, rfl, rfl, rfl, rfl, rfl, rfl, rfl, rfl, rfl, rfl, rfl, rfl, rfl, rfl⟩

@[simp] theorem fresh_frame (s : State) :
    (s.fresh.2).mem = s.mem ∧ (s.fresh.2).ord = s.ord ∧ (s.fresh.2).waves = s.waves ∧ (s.fresh.2).groups = s.groups ∧
    (s.fresh.2).quarters = s.quarters ∧ (s.fresh.2).objs = s.objs ∧ (s.fresh.2).reqs = s.reqs ∧
    (s.fresh.2).colls = s.colls ∧ (s.fresh.2).estates = s.estates ∧ (s.fresh.2).holdings = s.holdings ∧
    (s.fresh.2).launches = s.launches ∧ (s.fresh.2).queues = s.queues ∧ (s.fresh.2).saved = s.saved ∧
    (s.fresh.2).armedD = s.armedD ∧ (s.fresh.2).armedR = s.armedR ∧ (s.fresh.2).worlds = s.worlds ∧
    (s.fresh.2).seqs = s.seqs ∧ (s.fresh.2).slots = s.slots ∧ (s.fresh.2).invals = s.invals ∧
    (s.fresh.2).parts = s.parts ∧ (s.fresh.2).contexts = s.contexts ∧ (s.fresh.2).pkg = s.pkg ∧
    (s.fresh.2).repair = s.repair ∧ (s.fresh.2).msglog = s.msglog ∧ (s.fresh.2).records = s.records :=
  ⟨rfl, rfl, rfl, rfl, rfl, rfl, rfl, rfl, rfl, rfl, rfl, rfl, rfl, rfl, rfl, rfl, rfl, rfl, rfl, rfl, rfl, rfl, rfl, rfl, rfl⟩

@[simp] theorem freeNo_frame (s : State) :
    (s.freeNo.2).mem = s.mem ∧ (s.freeNo.2).ord = s.ord ∧ (s.freeNo.2).waves = s.waves ∧
    (s.freeNo.2).groups = s.groups ∧ (s.freeNo.2).quarters = s.quarters ∧ (s.freeNo.2).objs = s.objs ∧
    (s.freeNo.2).reqs = s.reqs ∧ (s.freeNo.2).colls = s.colls ∧ (s.freeNo.2).estates = s.estates ∧
    (s.freeNo.2).holdings = s.holdings ∧ (s.freeNo.2).launches = s.launches ∧ (s.freeNo.2).queues = s.queues ∧
    (s.freeNo.2).saved = s.saved ∧ (s.freeNo.2).armedD = s.armedD ∧ (s.freeNo.2).armedR = s.armedR ∧
    (s.freeNo.2).worlds = s.worlds ∧ (s.freeNo.2).seqs = s.seqs ∧ (s.freeNo.2).slots = s.slots ∧
    (s.freeNo.2).invals = s.invals ∧ (s.freeNo.2).parts = s.parts ∧ (s.freeNo.2).contexts = s.contexts ∧
    (s.freeNo.2).pkg = s.pkg ∧ (s.freeNo.2).repair = s.repair ∧ (s.freeNo.2).msglog = s.msglog ∧
    (s.freeNo.2).records = s.records :=
  ⟨rfl, rfl, rfl, rfl, rfl, rfl, rfl, rfl, rfl, rfl, rfl, rfl, rfl, rfl, rfl, rfl, rfl, rfl, rfl, rfl, rfl, rfl, rfl, rfl, rfl⟩

@[simp] theorem firing_frame (s : State) (p : Nat) :
    (s.firing p).own = s.own ∧ (s.firing p).mem = s.mem ∧ (s.firing p).ord = s.ord ∧ (s.firing p).waves = s.waves ∧
    (s.firing p).groups = s.groups ∧ (s.firing p).quarters = s.quarters ∧ (s.firing p).objs = s.objs ∧
    (s.firing p).reqs = s.reqs ∧ (s.firing p).colls = s.colls ∧ (s.firing p).estates = s.estates ∧
    (s.firing p).holdings = s.holdings ∧ (s.firing p).launches = s.launches ∧ (s.firing p).queues = s.queues ∧
    (s.firing p).saved = s.saved ∧ (s.firing p).armedD = s.armedD ∧ (s.firing p).armedR = s.armedR ∧
    (s.firing p).worlds = s.worlds ∧ (s.firing p).seqs = s.seqs ∧ (s.firing p).slots = s.slots ∧
    (s.firing p).invals = s.invals ∧ (s.firing p).contexts = s.contexts ∧ (s.firing p).pkg = s.pkg ∧
    (s.firing p).repair = s.repair ∧ (s.firing p).msglog = s.msglog ∧ (s.firing p).records = s.records :=
  ⟨rfl, rfl, rfl, rfl, rfl, rfl, rfl, rfl, rfl, rfl, rfl, rfl, rfl, rfl, rfl, rfl, rfl, rfl, rfl, rfl, rfl, rfl, rfl, rfl, rfl⟩

@[simp] theorem count_frame (s : State) (w n k : Nat) :
    (s.count w n k).own = s.own ∧ (s.count w n k).mem = s.mem ∧ (s.count w n k).ord = s.ord ∧
    (s.count w n k).waves = s.waves ∧ (s.count w n k).groups = s.groups ∧ (s.count w n k).quarters = s.quarters ∧
    (s.count w n k).objs = s.objs ∧ (s.count w n k).reqs = s.reqs ∧ (s.count w n k).colls = s.colls ∧
    (s.count w n k).estates = s.estates ∧ (s.count w n k).holdings = s.holdings ∧
    (s.count w n k).launches = s.launches ∧ (s.count w n k).queues = s.queues ∧ (s.count w n k).saved = s.saved ∧
    (s.count w n k).armedD = s.armedD ∧ (s.count w n k).armedR = s.armedR ∧ (s.count w n k).seqs = s.seqs ∧
    (s.count w n k).slots = s.slots ∧ (s.count w n k).invals = s.invals ∧ (s.count w n k).parts = s.parts ∧
    (s.count w n k).contexts = s.contexts ∧ (s.count w n k).pkg = s.pkg ∧ (s.count w n k).repair = s.repair ∧
    (s.count w n k).msglog = s.msglog ∧ (s.count w n k).records = s.records := by
  unfold State.count; split <;> simp

@[simp] theorem countL_frame (s : State) (l n k : Nat) :
    (s.countL l n k).own = s.own ∧ (s.countL l n k).mem = s.mem ∧ (s.countL l n k).ord = s.ord ∧
    (s.countL l n k).waves = s.waves ∧ (s.countL l n k).groups = s.groups ∧ (s.countL l n k).quarters = s.quarters ∧
    (s.countL l n k).objs = s.objs ∧ (s.countL l n k).reqs = s.reqs ∧ (s.countL l n k).colls = s.colls ∧
    (s.countL l n k).estates = s.estates ∧ (s.countL l n k).holdings = s.holdings ∧
    (s.countL l n k).launches = s.launches ∧ (s.countL l n k).queues = s.queues ∧ (s.countL l n k).saved = s.saved ∧
    (s.countL l n k).armedD = s.armedD ∧ (s.countL l n k).armedR = s.armedR ∧ (s.countL l n k).seqs = s.seqs ∧
    (s.countL l n k).slots = s.slots ∧ (s.countL l n k).invals = s.invals ∧ (s.countL l n k).parts = s.parts ∧
    (s.countL l n k).contexts = s.contexts ∧ (s.countL l n k).pkg = s.pkg ∧ (s.countL l n k).repair = s.repair ∧
    (s.countL l n k).msglog = s.msglog ∧ (s.countL l n k).records = s.records := by
  unfold State.countL; split <;> simp

@[simp] theorem deliver_frame (s : State) (l : Nat) (r : FaultRec) :
    (s.deliver l r).own = s.own ∧ (s.deliver l r).mem = s.mem ∧ (s.deliver l r).ord = s.ord ∧
    (s.deliver l r).waves = s.waves ∧ (s.deliver l r).groups = s.groups ∧ (s.deliver l r).quarters = s.quarters ∧
    (s.deliver l r).objs = s.objs ∧ (s.deliver l r).reqs = s.reqs ∧ (s.deliver l r).colls = s.colls ∧
    (s.deliver l r).estates = s.estates ∧ (s.deliver l r).holdings = s.holdings ∧
    (s.deliver l r).launches = s.launches ∧ (s.deliver l r).queues = s.queues ∧ (s.deliver l r).saved = s.saved ∧
    (s.deliver l r).armedD = s.armedD ∧ (s.deliver l r).armedR = s.armedR ∧ (s.deliver l r).seqs = s.seqs ∧
    (s.deliver l r).slots = s.slots ∧ (s.deliver l r).invals = s.invals ∧ (s.deliver l r).parts = s.parts ∧
    (s.deliver l r).contexts = s.contexts ∧ (s.deliver l r).pkg = s.pkg ∧ (s.deliver l r).repair = s.repair ∧
    (s.deliver l r).msglog = s.msglog := by
  unfold State.deliver; split <;> simp

@[simp] theorem endLaunch_frame (s : State) (l a b : Nat) (c : W64) (d e : Nat) :
    (s.endLaunch l a b c d e).own = s.own ∧ (s.endLaunch l a b c d e).mem = s.mem ∧
    (s.endLaunch l a b c d e).ord = s.ord ∧ (s.endLaunch l a b c d e).waves = s.waves ∧
    (s.endLaunch l a b c d e).groups = s.groups ∧ (s.endLaunch l a b c d e).quarters = s.quarters ∧
    (s.endLaunch l a b c d e).objs = s.objs ∧ (s.endLaunch l a b c d e).reqs = s.reqs ∧
    (s.endLaunch l a b c d e).colls = s.colls ∧ (s.endLaunch l a b c d e).estates = s.estates ∧
    (s.endLaunch l a b c d e).holdings = s.holdings ∧ (s.endLaunch l a b c d e).queues = s.queues ∧
    (s.endLaunch l a b c d e).saved = s.saved ∧ (s.endLaunch l a b c d e).armedD = s.armedD ∧
    (s.endLaunch l a b c d e).armedR = s.armedR ∧ (s.endLaunch l a b c d e).worlds = s.worlds ∧
    (s.endLaunch l a b c d e).seqs = s.seqs ∧ (s.endLaunch l a b c d e).slots = s.slots ∧
    (s.endLaunch l a b c d e).invals = s.invals ∧ (s.endLaunch l a b c d e).parts = s.parts ∧
    (s.endLaunch l a b c d e).contexts = s.contexts ∧ (s.endLaunch l a b c d e).pkg = s.pkg ∧
    (s.endLaunch l a b c d e).repair = s.repair ∧ (s.endLaunch l a b c d e).msglog = s.msglog ∧
    (s.endLaunch l a b c d e).records = s.records := by
  simp [State.endLaunch]

@[simp] theorem takeFault_frame (s : State) (w : Wave) (p : Park) (r : FaultRec) :
    (s.takeFault w p r).own = s.own ∧ (s.takeFault w p r).mem = s.mem ∧ (s.takeFault w p r).ord = s.ord ∧
    (s.takeFault w p r).groups = s.groups ∧ (s.takeFault w p r).quarters = s.quarters ∧
    (s.takeFault w p r).objs = s.objs ∧ (s.takeFault w p r).reqs = s.reqs ∧ (s.takeFault w p r).colls = s.colls ∧
    (s.takeFault w p r).estates = s.estates ∧ (s.takeFault w p r).holdings = s.holdings ∧
    (s.takeFault w p r).queues = s.queues ∧ (s.takeFault w p r).saved = s.saved ∧
    (s.takeFault w p r).armedD = s.armedD ∧ (s.takeFault w p r).armedR = s.armedR ∧
    (s.takeFault w p r).worlds = s.worlds ∧ (s.takeFault w p r).seqs = s.seqs ∧ (s.takeFault w p r).slots = s.slots ∧
    (s.takeFault w p r).invals = s.invals ∧ (s.takeFault w p r).parts = s.parts ∧
    (s.takeFault w p r).contexts = s.contexts ∧ (s.takeFault w p r).pkg = s.pkg ∧
    (s.takeFault w p r).repair = s.repair ∧ (s.takeFault w p r).msglog = s.msglog ∧
    (s.takeFault w p r).records = s.records := by
  unfold State.takeFault; split <;> simp

@[simp] theorem precise_frame (s : State) (c : Ctx) (k : Chk) :
    (s.precise c k).own = s.own ∧ (s.precise c k).mem = s.mem ∧ (s.precise c k).ord = s.ord ∧
    (s.precise c k).groups = s.groups ∧ (s.precise c k).quarters = s.quarters ∧ (s.precise c k).objs = s.objs ∧
    (s.precise c k).reqs = s.reqs ∧ (s.precise c k).colls = s.colls ∧ (s.precise c k).estates = s.estates ∧
    (s.precise c k).holdings = s.holdings ∧ (s.precise c k).queues = s.queues ∧ (s.precise c k).saved = s.saved ∧
    (s.precise c k).armedD = s.armedD ∧ (s.precise c k).armedR = s.armedR ∧ (s.precise c k).seqs = s.seqs ∧
    (s.precise c k).slots = s.slots ∧ (s.precise c k).invals = s.invals ∧ (s.precise c k).parts = s.parts ∧
    (s.precise c k).contexts = s.contexts ∧ (s.precise c k).pkg = s.pkg ∧ (s.precise c k).repair = s.repair ∧
    (s.precise c k).msglog = s.msglog := by
  unfold State.precise; split <;> simp [State.stall]

@[simp] theorem stall_frame (s : State) (c : Ctx) (k : StallKind) :
    (s.stall c k).own = s.own ∧ (s.stall c k).mem = s.mem ∧ (s.stall c k).ord = s.ord ∧
    (s.stall c k).groups = s.groups ∧ (s.stall c k).quarters = s.quarters ∧ (s.stall c k).objs = s.objs ∧
    (s.stall c k).reqs = s.reqs ∧ (s.stall c k).colls = s.colls ∧ (s.stall c k).estates = s.estates ∧
    (s.stall c k).holdings = s.holdings ∧ (s.stall c k).launches = s.launches ∧ (s.stall c k).queues = s.queues ∧
    (s.stall c k).saved = s.saved ∧ (s.stall c k).armedD = s.armedD ∧ (s.stall c k).armedR = s.armedR ∧
    (s.stall c k).worlds = s.worlds ∧ (s.stall c k).seqs = s.seqs ∧ (s.stall c k).slots = s.slots ∧
    (s.stall c k).invals = s.invals ∧ (s.stall c k).parts = s.parts ∧ (s.stall c k).contexts = s.contexts ∧
    (s.stall c k).pkg = s.pkg ∧ (s.stall c k).repair = s.repair ∧ (s.stall c k).msglog = s.msglog ∧
    (s.stall c k).records = s.records := by
  simp [State.stall]

@[simp] theorem advance_frame (s : State) (c : Ctx) :
    (s.advance c).own = s.own ∧ (s.advance c).mem = s.mem ∧ (s.advance c).ord = s.ord ∧
    (s.advance c).groups = s.groups ∧ (s.advance c).quarters = s.quarters ∧ (s.advance c).objs = s.objs ∧
    (s.advance c).reqs = s.reqs ∧ (s.advance c).colls = s.colls ∧ (s.advance c).estates = s.estates ∧
    (s.advance c).holdings = s.holdings ∧ (s.advance c).launches = s.launches ∧ (s.advance c).queues = s.queues ∧
    (s.advance c).saved = s.saved ∧ (s.advance c).armedD = s.armedD ∧ (s.advance c).armedR = s.armedR ∧
    (s.advance c).worlds = s.worlds ∧ (s.advance c).seqs = s.seqs ∧ (s.advance c).slots = s.slots ∧
    (s.advance c).invals = s.invals ∧ (s.advance c).parts = s.parts ∧ (s.advance c).contexts = s.contexts ∧
    (s.advance c).pkg = s.pkg ∧ (s.advance c).repair = s.repair ∧ (s.advance c).msglog = s.msglog ∧
    (s.advance c).records = s.records := by
  simp [State.advance]

@[simp] theorem retire_frame (s : State) (i : Instr) (c : Ctx) :
    (s.retire i c).own = s.own ∧ (s.retire i c).mem = s.mem ∧ (s.retire i c).ord = s.ord ∧
    (s.retire i c).groups = s.groups ∧ (s.retire i c).quarters = s.quarters ∧ (s.retire i c).objs = s.objs ∧
    (s.retire i c).reqs = s.reqs ∧ (s.retire i c).colls = s.colls ∧ (s.retire i c).estates = s.estates ∧
    (s.retire i c).holdings = s.holdings ∧ (s.retire i c).launches = s.launches ∧ (s.retire i c).queues = s.queues ∧
    (s.retire i c).saved = s.saved ∧ (s.retire i c).armedD = s.armedD ∧ (s.retire i c).armedR = s.armedR ∧
    (s.retire i c).seqs = s.seqs ∧ (s.retire i c).slots = s.slots ∧ (s.retire i c).invals = s.invals ∧
    (s.retire i c).contexts = s.contexts ∧ (s.retire i c).pkg = s.pkg ∧ (s.retire i c).repair = s.repair ∧
    (s.retire i c).msglog = s.msglog ∧ (s.retire i c).records = s.records := by
  unfold State.retire; dsimp only; split <;> simp

@[simp] theorem tock_frame (s : State) :
    (s.tock).groups = s.groups ∧ (s.tock).quarters = s.quarters ∧ (s.tock).objs = s.objs ∧ (s.tock).reqs = s.reqs ∧
    (s.tock).colls = s.colls ∧ (s.tock).estates = s.estates ∧ (s.tock).holdings = s.holdings ∧
    (s.tock).launches = s.launches ∧ (s.tock).queues = s.queues ∧ (s.tock).saved = s.saved ∧
    (s.tock).armedD = s.armedD ∧ (s.tock).armedR = s.armedR ∧ (s.tock).seqs = s.seqs ∧ (s.tock).slots = s.slots ∧
    (s.tock).invals = s.invals ∧ (s.tock).contexts = s.contexts ∧ (s.tock).repair = s.repair ∧
    (s.tock).msglog = s.msglog ∧ (s.tock).records = s.records :=
  ⟨rfl, rfl, rfl, rfl, rfl, rfl, rfl, rfl, rfl, rfl, rfl, rfl, rfl, rfl, rfl, rfl, rfl, rfl, rfl⟩

theorem tock_waves (s : State) : (s.tock).waves = s.waves.map s.countsOn := rfl

@[simp] theorem cross_frame (s : State) (a b : Nat) :
    (s.cross a b).own = s.own ∧ (s.cross a b).mem = s.mem ∧ (s.cross a b).ord = s.ord ∧ (s.cross a b).waves = s.waves ∧
    (s.cross a b).groups = s.groups ∧ (s.cross a b).quarters = s.quarters ∧ (s.cross a b).objs = s.objs ∧
    (s.cross a b).reqs = s.reqs ∧ (s.cross a b).colls = s.colls ∧ (s.cross a b).estates = s.estates ∧
    (s.cross a b).holdings = s.holdings ∧ (s.cross a b).launches = s.launches ∧ (s.cross a b).queues = s.queues ∧
    (s.cross a b).saved = s.saved ∧ (s.cross a b).armedD = s.armedD ∧ (s.cross a b).armedR = s.armedR ∧
    (s.cross a b).worlds = s.worlds ∧ (s.cross a b).seqs = s.seqs ∧ (s.cross a b).slots = s.slots ∧
    (s.cross a b).invals = s.invals ∧ (s.cross a b).parts = s.parts ∧ (s.cross a b).contexts = s.contexts ∧
    (s.cross a b).repair = s.repair ∧ (s.cross a b).msglog = s.msglog ∧ (s.cross a b).records = s.records :=
  ⟨rfl, rfl, rfl, rfl, rfl, rfl, rfl, rfl, rfl, rfl, rfl, rfl, rfl, rfl, rfl, rfl, rfl, rfl, rfl, rfl, rfl, rfl, rfl, rfl, rfl⟩

@[simp] theorem crossPeer_frame (s : State) (p : Nat) :
    (s.crossPeer p).own = s.own ∧ (s.crossPeer p).mem = s.mem ∧ (s.crossPeer p).ord = s.ord ∧
    (s.crossPeer p).waves = s.waves ∧ (s.crossPeer p).groups = s.groups ∧ (s.crossPeer p).quarters = s.quarters ∧
    (s.crossPeer p).objs = s.objs ∧ (s.crossPeer p).reqs = s.reqs ∧ (s.crossPeer p).colls = s.colls ∧
    (s.crossPeer p).estates = s.estates ∧ (s.crossPeer p).holdings = s.holdings ∧ (s.crossPeer p).launches = s.launches ∧
    (s.crossPeer p).queues = s.queues ∧ (s.crossPeer p).saved = s.saved ∧ (s.crossPeer p).armedD = s.armedD ∧
    (s.crossPeer p).armedR = s.armedR ∧ (s.crossPeer p).worlds = s.worlds ∧ (s.crossPeer p).seqs = s.seqs ∧
    (s.crossPeer p).slots = s.slots ∧ (s.crossPeer p).invals = s.invals ∧ (s.crossPeer p).parts = s.parts ∧
    (s.crossPeer p).contexts = s.contexts ∧ (s.crossPeer p).repair = s.repair ∧ (s.crossPeer p).msglog = s.msglog ∧
    (s.crossPeer p).records = s.records :=
  ⟨rfl, rfl, rfl, rfl, rfl, rfl, rfl, rfl, rfl, rfl, rfl, rfl, rfl, rfl, rfl, rfl, rfl, rfl, rfl, rfl, rfl, rfl, rfl, rfl, rfl⟩

@[simp] theorem flit_frame (s : State) (c : ChanRef) (m : Msg) :
    (s.flit c m).own = s.own ∧ (s.flit c m).mem = s.mem ∧ (s.flit c m).ord = s.ord ∧ (s.flit c m).waves = s.waves ∧
    (s.flit c m).groups = s.groups ∧ (s.flit c m).quarters = s.quarters ∧ (s.flit c m).objs = s.objs ∧
    (s.flit c m).reqs = s.reqs ∧ (s.flit c m).colls = s.colls ∧ (s.flit c m).estates = s.estates ∧
    (s.flit c m).holdings = s.holdings ∧ (s.flit c m).launches = s.launches ∧ (s.flit c m).queues = s.queues ∧
    (s.flit c m).saved = s.saved ∧ (s.flit c m).armedD = s.armedD ∧ (s.flit c m).armedR = s.armedR ∧
    (s.flit c m).worlds = s.worlds ∧ (s.flit c m).seqs = s.seqs ∧ (s.flit c m).slots = s.slots ∧
    (s.flit c m).invals = s.invals ∧ (s.flit c m).contexts = s.contexts ∧ (s.flit c m).pkg = s.pkg ∧
    (s.flit c m).repair = s.repair ∧ (s.flit c m).msglog = s.msglog ∧ (s.flit c m).records = s.records := by
  unfold State.flit; split
  · simp
  · split <;> simp

@[simp] theorem popMsg_frame (s : State) (c : ChanRef) :
    (s.popMsg c).own = s.own ∧ (s.popMsg c).mem = s.mem ∧ (s.popMsg c).waves = s.waves ∧
    (s.popMsg c).groups = s.groups ∧ (s.popMsg c).quarters = s.quarters ∧ (s.popMsg c).objs = s.objs ∧
    (s.popMsg c).reqs = s.reqs ∧ (s.popMsg c).colls = s.colls ∧ (s.popMsg c).estates = s.estates ∧
    (s.popMsg c).holdings = s.holdings ∧ (s.popMsg c).launches = s.launches ∧ (s.popMsg c).queues = s.queues ∧
    (s.popMsg c).saved = s.saved ∧ (s.popMsg c).armedD = s.armedD ∧ (s.popMsg c).armedR = s.armedR ∧
    (s.popMsg c).worlds = s.worlds ∧ (s.popMsg c).seqs = s.seqs ∧ (s.popMsg c).slots = s.slots ∧
    (s.popMsg c).invals = s.invals ∧ (s.popMsg c).contexts = s.contexts ∧ (s.popMsg c).repair = s.repair ∧
    (s.popMsg c).msglog = s.msglog ∧ (s.popMsg c).records = s.records := by
  unfold State.popMsg; dsimp only; split <;> simp [State.acked, State.onLinks]

@[simp] theorem logMsg_frame (s : State) (r : ChanRef) (n : Nat) (m : Logged) (b : Bool) :
    (s.logMsg r n m b).own = s.own ∧ (s.logMsg r n m b).mem = s.mem ∧ (s.logMsg r n m b).ord = s.ord ∧
    (s.logMsg r n m b).waves = s.waves ∧ (s.logMsg r n m b).groups = s.groups ∧
    (s.logMsg r n m b).quarters = s.quarters ∧ (s.logMsg r n m b).objs = s.objs ∧ (s.logMsg r n m b).reqs = s.reqs ∧
    (s.logMsg r n m b).colls = s.colls ∧ (s.logMsg r n m b).estates = s.estates ∧
    (s.logMsg r n m b).holdings = s.holdings ∧ (s.logMsg r n m b).launches = s.launches ∧
    (s.logMsg r n m b).queues = s.queues ∧ (s.logMsg r n m b).saved = s.saved ∧
    (s.logMsg r n m b).armedD = s.armedD ∧ (s.logMsg r n m b).armedR = s.armedR ∧
    (s.logMsg r n m b).worlds = s.worlds ∧ (s.logMsg r n m b).seqs = s.seqs ∧ (s.logMsg r n m b).slots = s.slots ∧
    (s.logMsg r n m b).invals = s.invals ∧ (s.logMsg r n m b).parts = s.parts ∧
    (s.logMsg r n m b).contexts = s.contexts ∧ (s.logMsg r n m b).pkg = s.pkg ∧ (s.logMsg r n m b).records = s.records := by
  unfold State.logMsg; split <;> simp

@[simp] theorem post_frame (s : State) (c : ChanRef) (m : Msg) (b : Bool) :
    (s.post c m b).own = s.own ∧ (s.post c m b).mem = s.mem ∧ (s.post c m b).waves = s.waves ∧
    (s.post c m b).groups = s.groups ∧ (s.post c m b).quarters = s.quarters ∧ (s.post c m b).objs = s.objs ∧
    (s.post c m b).reqs = s.reqs ∧ (s.post c m b).colls = s.colls ∧ (s.post c m b).estates = s.estates ∧
    (s.post c m b).holdings = s.holdings ∧ (s.post c m b).launches = s.launches ∧ (s.post c m b).queues = s.queues ∧
    (s.post c m b).saved = s.saved ∧ (s.post c m b).armedD = s.armedD ∧ (s.post c m b).armedR = s.armedR ∧
    (s.post c m b).worlds = s.worlds ∧ (s.post c m b).seqs = s.seqs ∧ (s.post c m b).slots = s.slots ∧
    (s.post c m b).invals = s.invals ∧ (s.post c m b).contexts = s.contexts ∧ (s.post c m b).records = s.records := by
  unfold State.post; simp

@[simp] theorem sendNow_frame (s : State) (a d : Nat) (m : Logged) (b : Bool) :
    (s.sendNow a d m b).own = s.own ∧ (s.sendNow a d m b).mem = s.mem ∧ (s.sendNow a d m b).waves = s.waves ∧
    (s.sendNow a d m b).groups = s.groups ∧ (s.sendNow a d m b).quarters = s.quarters ∧
    (s.sendNow a d m b).objs = s.objs ∧ (s.sendNow a d m b).reqs = s.reqs ∧ (s.sendNow a d m b).colls = s.colls ∧
    (s.sendNow a d m b).estates = s.estates ∧ (s.sendNow a d m b).holdings = s.holdings ∧
    (s.sendNow a d m b).launches = s.launches ∧ (s.sendNow a d m b).queues = s.queues ∧
    (s.sendNow a d m b).saved = s.saved ∧ (s.sendNow a d m b).armedD = s.armedD ∧
    (s.sendNow a d m b).armedR = s.armedR ∧ (s.sendNow a d m b).worlds = s.worlds ∧
    (s.sendNow a d m b).seqs = s.seqs ∧ (s.sendNow a d m b).slots = s.slots ∧ (s.sendNow a d m b).invals = s.invals ∧
    (s.sendNow a d m b).parts = s.parts ∧ (s.sendNow a d m b).contexts = s.contexts ∧
    (s.sendNow a d m b).pkg = s.pkg ∧ (s.sendNow a d m b).records = s.records := by
  unfold State.sendNow; dsimp only; split <;> simp

@[simp] theorem newWrite_frame (s : State) (a : List Nat) (c : Option (List Nat)) :
    ((s.newWrite a c).2).own = s.own ∧ ((s.newWrite a c).2).mem = s.mem ∧ ((s.newWrite a c).2).waves = s.waves ∧
    ((s.newWrite a c).2).groups = s.groups ∧ ((s.newWrite a c).2).quarters = s.quarters ∧
    ((s.newWrite a c).2).objs = s.objs ∧ ((s.newWrite a c).2).reqs = s.reqs ∧ ((s.newWrite a c).2).colls = s.colls ∧
    ((s.newWrite a c).2).estates = s.estates ∧ ((s.newWrite a c).2).holdings = s.holdings ∧
    ((s.newWrite a c).2).launches = s.launches ∧ ((s.newWrite a c).2).queues = s.queues ∧
    ((s.newWrite a c).2).saved = s.saved ∧ ((s.newWrite a c).2).armedD = s.armedD ∧
    ((s.newWrite a c).2).armedR = s.armedR ∧ ((s.newWrite a c).2).worlds = s.worlds ∧
    ((s.newWrite a c).2).seqs = s.seqs ∧ ((s.newWrite a c).2).slots = s.slots ∧
    ((s.newWrite a c).2).invals = s.invals ∧ ((s.newWrite a c).2).parts = s.parts ∧
    ((s.newWrite a c).2).contexts = s.contexts ∧ ((s.newWrite a c).2).pkg = s.pkg ∧
    ((s.newWrite a c).2).repair = s.repair ∧ ((s.newWrite a c).2).msglog = s.msglog ∧
    ((s.newWrite a c).2).records = s.records :=
  ⟨rfl, rfl, rfl, rfl, rfl, rfl, rfl, rfl, rfl, rfl, rfl, rfl, rfl, rfl, rfl, rfl, rfl, rfl, rfl, rfl, rfl, rfl, rfl, rfl, rfl⟩

@[simp] theorem dropCopies_frame (s : State) (p : Copy → Bool) :
    (s.dropCopies p).own = s.own ∧ (s.dropCopies p).mem = s.mem ∧ (s.dropCopies p).waves = s.waves ∧
    (s.dropCopies p).groups = s.groups ∧ (s.dropCopies p).quarters = s.quarters ∧ (s.dropCopies p).objs = s.objs ∧
    (s.dropCopies p).reqs = s.reqs ∧ (s.dropCopies p).colls = s.colls ∧ (s.dropCopies p).estates = s.estates ∧
    (s.dropCopies p).holdings = s.holdings ∧ (s.dropCopies p).launches = s.launches ∧
    (s.dropCopies p).queues = s.queues ∧ (s.dropCopies p).saved = s.saved ∧ (s.dropCopies p).armedD = s.armedD ∧
    (s.dropCopies p).armedR = s.armedR ∧ (s.dropCopies p).worlds = s.worlds ∧ (s.dropCopies p).seqs = s.seqs ∧
    (s.dropCopies p).slots = s.slots ∧ (s.dropCopies p).invals = s.invals ∧ (s.dropCopies p).parts = s.parts ∧
    (s.dropCopies p).contexts = s.contexts ∧ (s.dropCopies p).pkg = s.pkg ∧ (s.dropCopies p).repair = s.repair ∧
    (s.dropCopies p).msglog = s.msglog ∧ (s.dropCopies p).records = s.records :=
  ⟨rfl, rfl, rfl, rfl, rfl, rfl, rfl, rfl, rfl, rfl, rfl, rfl, rfl, rfl, rfl, rfl, rfl, rfl, rfl, rfl, rfl, rfl, rfl, rfl, rfl⟩

@[simp] theorem undoNote_frame (s : State) (h : Nat × Nat) :
    (s.undoNote h).own = s.own ∧ (s.undoNote h).mem = s.mem ∧ (s.undoNote h).ord = s.ord ∧
    (s.undoNote h).waves = s.waves ∧ (s.undoNote h).groups = s.groups ∧ (s.undoNote h).quarters = s.quarters ∧
    (s.undoNote h).objs = s.objs ∧ (s.undoNote h).reqs = s.reqs ∧ (s.undoNote h).colls = s.colls ∧
    (s.undoNote h).estates = s.estates ∧ (s.undoNote h).holdings = s.holdings ∧
    (s.undoNote h).launches = s.launches ∧ (s.undoNote h).queues = s.queues ∧ (s.undoNote h).saved = s.saved ∧
    (s.undoNote h).armedD = s.armedD ∧ (s.undoNote h).armedR = s.armedR ∧ (s.undoNote h).worlds = s.worlds ∧
    (s.undoNote h).seqs = s.seqs ∧ (s.undoNote h).slots = s.slots ∧ (s.undoNote h).invals = s.invals ∧
    (s.undoNote h).parts = s.parts ∧ (s.undoNote h).contexts = s.contexts ∧ (s.undoNote h).pkg = s.pkg ∧
    (s.undoNote h).msglog = s.msglog ∧ (s.undoNote h).records = s.records := by
  unfold State.undoNote; split
  · simp
  · split <;> simp

@[simp] theorem redoNote_frame (s : State) (n : Nat) (x : ByteAt × Byte) :
    (s.redoNote n x).own = s.own ∧ (s.redoNote n x).mem = s.mem ∧ (s.redoNote n x).ord = s.ord ∧
    (s.redoNote n x).waves = s.waves ∧ (s.redoNote n x).groups = s.groups ∧ (s.redoNote n x).quarters = s.quarters ∧
    (s.redoNote n x).objs = s.objs ∧ (s.redoNote n x).reqs = s.reqs ∧ (s.redoNote n x).colls = s.colls ∧
    (s.redoNote n x).estates = s.estates ∧ (s.redoNote n x).holdings = s.holdings ∧
    (s.redoNote n x).launches = s.launches ∧ (s.redoNote n x).queues = s.queues ∧ (s.redoNote n x).saved = s.saved ∧
    (s.redoNote n x).armedD = s.armedD ∧ (s.redoNote n x).armedR = s.armedR ∧ (s.redoNote n x).worlds = s.worlds ∧
    (s.redoNote n x).seqs = s.seqs ∧ (s.redoNote n x).slots = s.slots ∧ (s.redoNote n x).invals = s.invals ∧
    (s.redoNote n x).parts = s.parts ∧ (s.redoNote n x).contexts = s.contexts ∧ (s.redoNote n x).pkg = s.pkg ∧
    (s.redoNote n x).msglog = s.msglog ∧ (s.redoNote n x).records = s.records := by
  simp [State.redoNote]

end Sys2Proof.Machine
end

