-- ==== Sys2Proof/Laws/Memory.lean ====
section
/-! SUPPORT. Laws/Memory.lean: what a write at home does (R221 PERFORM), byte by byte, and that every memory operation keeps the canonical form. -/

namespace Sys2Proof.Machine

/-- What no step of a fold changes, the fold does not change. -/
theorem foldl_keep {σ β γ : Type} (g : σ → γ) (f : σ → β → σ) (h : ∀ s x, g (f s x) = g s) (xs : List β) (s : σ) :
    g (xs.foldl f s) = g s := by
  induction xs generalizing s with
  | nil => rfl
  | cons x xs ih => rw [List.foldl_cons, ih, h]

/-- What every step of a fold keeps, the fold keeps. -/
theorem foldl_inv {σ β : Type} (p : σ → Prop) (f : σ → β → σ) (h : ∀ s x, p s → p (f s x)) (xs : List β) (s : σ) (h0 : p s) :
    p (xs.foldl f s) := by
  induction xs generalizing s with
  | nil => exact h0
  | cons x xs ih => exact ih _ (h _ _ h0)

theorem updBy_find {α : Type} (q p : α → Bool) (f : α → α) (xs : List α) (h : ∀ x, q (if p x then f x else x) = q x) :
    (updBy p f xs).find? q = (xs.find? q).map (fun x => if p x then f x else x) := by
  induction xs with
  | nil => rfl
  | cons x xs ih =>
    unfold updBy at *
    simp only [List.map_cons, List.find?_cons, h]
    cases q x <;> simp [ih]

/-! ## The parts of MemSys -/

theorem wf_parts {m : MemSys} : Memory.wf m = true ↔
    mapWf 0 m.bytes = true ∧ mapWf 0 m.owner = true ∧ mapWf false m.poison = true ∧ mapWf false m.tags = true
      ∧ mapWf 0 m.writer = true ∧ mapWf 0 m.tables = true ∧ mapWf 0 m.roots = true ∧ mapWf 0 m.frames = true ∧ mapWf false m.sram = true := by
  simp [Memory.wf, Bool.and_eq_true, and_assoc]

theorem wf_put {m : MemSys} (h : Memory.wf m = true) (g w pa : Nat) (v : Byte) : Memory.wf (m.put g w pa v) = true := by
  rw [wf_parts] at *
  exact ⟨mapWf_set h.1, mapWf_set h.2.1, h.2.2.1, mapWf_set (k := pa / 16) (v := false) h.2.2.2.1, mapWf_set h.2.2.2.2.1, h.2.2.2.2.2⟩

theorem wf_heal {m : MemSys} (h : Memory.wf m = true) (pas : List Nat) : Memory.wf (m.heal pas) = true := by
  have key : ∀ (c : Nat → Bool) (k : Nat → Nat) (p : Sparse Bool), mapWf false p = true →
      mapWf false (pas.foldl (fun p pa => if c pa then mapSet false p (k pa) false else p) p) = true := fun c k p hp =>
    foldl_inv (fun p => mapWf false p = true) _ (by intro p x hp; split <;> [exact mapWf_set hp; exact hp]) _ _ hp
  rw [wf_parts] at *
  obtain ⟨h1, h2, h3, h4, h5, h6, h7, h8, h9⟩ := h
  exact ⟨h1, h2, key _ _ _ h3, h4, h5, h6, h7, h8, key _ _ _ h9⟩

theorem wf_putLine {m : MemSys} (h : Memory.wf m = true) (line : Nat) (bs : List CopyByte) (tags : List Bool) :
    Memory.wf (m.putLine line bs tags) = true := by
  unfold MemSys.putLine
  have k := foldl_inv (fun m => Memory.wf m = true) (fun (m : MemSys) (b : CopyByte × Nat) =>
    let pa := line * 128 + b.2
    { m with bytes := mapSet 0 m.bytes pa b.1.val, owner := mapSet 0 m.owner pa b.1.owner, writer := mapSet 0 m.writer pa b.1.writer })
    (by
      intro m b hm
      rw [wf_parts] at *
      exact ⟨mapWf_set hm.1, mapWf_set hm.2.1, hm.2.2.1, hm.2.2.2.1, mapWf_set hm.2.2.2.2.1, hm.2.2.2.2.2⟩) bs.zipIdx _ h
  rw [wf_parts] at k ⊢
  exact ⟨k.1, k.2.1, k.2.2.1, mapWf_setRun _ k.2.2.2.1, k.2.2.2.2⟩

theorem wf_moveRun {α : Type} [DecidableEq α] {d : α} {m : Sparse α} (h : mapWf d m = true) (a n b : Nat) :
    mapWf d (moveRun d m a n b) = true :=
  mapWf_foldSet _ _ _ (mapWf_filter _ h)

theorem wf_moveFrame {m : MemSys} (h : Memory.wf m = true) (gen a n b : Nat) : Memory.wf (m.moveFrame gen a n b) = true := by
  rw [wf_parts] at *
  obtain ⟨h1, h2, h3, h4, h5, h6, h7, h8, h9⟩ := h
  exact ⟨mapWf_setRun _ h1, mapWf_setRun _ h2, mapWf_foldSet _ _ _ (mapWf_foldSet _ _ _ h3), mapWf_filter _ (wf_moveRun h4 _ _ _),
    wf_moveRun h5 a n b, h6, h7, h8, wf_moveRun h9 _ _ _⟩

/-! ## Reading a byte after a write -/

/-- One byte put: it reads as written, and every other byte as before. -/
theorem bytes_put (m : MemSys) (g w pa : Nat) (v : Byte) (a : Nat) :
    mapGet 0 (m.put g w pa v).bytes a = if a = pa then v else mapGet 0 m.bytes a := by
  simp only [MemSys.put, mapGet_set]

/-- Bytes outside a run of puts read as before. -/
theorem bytes_puts_other (cells : List (ByteAt × Byte)) (gen : ByteAt → Nat) (wid : Nat) (m : MemSys) (a : Nat) (ha : ∀ c ∈ cells, c.1.pa ≠ a) :
    mapGet 0 (cells.foldl (fun m c => m.put (gen c.1) wid c.1.pa c.2) m).bytes a = mapGet 0 m.bytes a := by
  induction cells generalizing m with
  | nil => rfl
  | cons c cs ih =>
    rw [List.foldl_cons, ih _ (fun x hx => ha x (List.mem_cons_of_mem _ hx)), bytes_put,
      if_neg (fun e => ha c (List.mem_cons_self ..) e.symm)]

/-- A byte that some put writes, and that none writes otherwise, reads as written. -/
theorem bytes_puts_mem (cells : List (ByteAt × Byte)) (gen : ByteAt → Nat) (wid : Nat) (m : MemSys) (a : Nat) (v : Byte) (hc : ∃ c ∈ cells, c.1.pa = a)
    (hu : ∀ x ∈ cells, x.1.pa = a → x.2 = v) :
    mapGet 0 (cells.foldl (fun m c => m.put (gen c.1) wid c.1.pa c.2) m).bytes a = v := by
  induction cells generalizing m with
  | nil => obtain ⟨c, hc, -⟩ := hc; cases hc
  | cons x xs ih =>
    rw [List.foldl_cons]
    by_cases hx : ∃ y ∈ xs, y.1.pa = a
    · exact ih _ hx (fun z hz => hu z (List.mem_cons_of_mem _ hz))
    · obtain ⟨c, hc, e⟩ := hc
      rcases List.mem_cons.1 hc with rfl | hc'
      · rw [bytes_puts_other _ _ _ _ _ (fun q hq eq => hx ⟨q, hq, eq⟩), bytes_put, if_pos e.symm]
        exact hu c (List.mem_cons_self ..) e
      · exact absurd ⟨c, hc', e⟩ hx

/-! ## performBytes and deviceWrite -/

theorem wf_foldPut (cells : List (ByteAt × Byte)) (gen : ByteAt → Nat) (wid : Nat) {m : MemSys} (h : Memory.wf m = true) :
    Memory.wf (cells.foldl (fun m c => m.put (gen c.1) wid c.1.pa c.2) m) = true :=
  foldl_inv (fun m => Memory.wf m = true) _ (fun _ _ h => wf_put h _ _ _ _) _ _ h

theorem killLine_mem (b : Option Nat) (s : State) (hl : Nat × Nat) : (s.killLine b hl).mem = s.mem := by
  unfold State.killLine
  rw [foldl_keep (fun s : State => s.mem) _ (by intro s x; simp)]
  simp

theorem undoFold_mem (xs : List (Nat × Nat)) (s : State) : (xs.foldl State.undoNote s).mem = s.mem :=
  foldl_keep (fun s : State => s.mem) _ (by intro s x; simp) _ _

theorem redoFold_mem (w : Nat) (xs : List (ByteAt × Byte)) (s : State) :
    (xs.foldl (fun s c => s.redoNote w c) s).mem = s.mem :=
  foldl_keep (fun s : State => s.mem) _ (by intro s x; simp) _ _

/-! ### What counts of activity, flits and bytes leave -/

theorem map_updBy {α β : Type} (p : α → Bool) (f : α → α) (g : α → β) (h : ∀ x, g (f x) = g x) (xs : List α) :
    (updBy p f xs).map g = xs.map g := by
  unfold updBy
  rw [List.map_map]
  refine List.map_congr_left (fun x _ => ?_)
  simp only [Function.comp_apply]
  split <;> simp [h]

theorem map_modify {α β : Type} (i : Nat) (f : α → α) (g : α → β) (h : ∀ x, g (f x) = g x) (xs : List α) :
    (xs.modify i f).map g = xs.map g := by
  apply List.ext_getElem?
  intro n
  simp only [List.getElem?_map, List.getElem?_modify]
  cases xs[n]? with
  | none => rfl
  | some x => simp only [Option.map_some]; split <;> simp [h]

theorem flit_still (l : Link) : l.flit.still = l.still := by unfold Link.flit Link.still; split <;> rfl

theorem firing_parts (s : State) (p : Nat) : SameParts s (s.firing p) := by
  unfold SameParts State.firing State.onPart
  dsimp only
  apply map_updBy
  intro p
  rfl

theorem flit_parts (s : State) (c : ChanRef) (m : Msg) : SameParts s (s.flit c m) := by
  unfold State.flit
  split
  · rfl
  · split
    · rfl
    · exact firing_parts _ _

theorem cross_pkg (s : State) (a b : Nat) : SamePkg s (s.cross a b) := by
  have key : ∀ (is : List Nat) (ls : List Link),
      (is.foldl (fun ls i => ls.modify i Link.flit) ls).map Link.still = ls.map Link.still := by
    intro is
    induction is with
    | nil => intro _; rfl
    | cons i is ih =>
      intro ls
      rw [List.foldl_cons, ih]
      exact map_modify _ _ _ flit_still _
  show Pkg.still _ = _
  unfold Pkg.still State.cross State.onLinks
  simp only [key]

theorem crossPeer_pkg (s : State) (p : Nat) : SamePkg s (s.crossPeer p) := by
  show Pkg.still _ = _
  unfold Pkg.still State.crossPeer
  simp only [map_modify _ _ _ flit_still]

theorem count_worlds (s : State) (w n k : Nat) : SameWorlds s (s.count w n k) := by
  unfold State.count
  split
  · rfl
  · unfold SameWorlds State.onWorld
    dsimp only
    apply map_updBy
    intro w
    rfl

theorem post_still (s : State) (c : ChanRef) (m : Msg) (b : Bool) : SameParts s (s.post c m b) ∧ SamePkg s (s.post c m b) := by
  unfold State.post
  dsimp only
  have h := flit_parts { s with ord := { s.ord with chans := pushMsg c m s.ord.chans } } c m
  have k := cross_pkg (State.flit { s with ord := { s.ord with chans := pushMsg c m s.ord.chans } } c m) c.src c.dst
  constructor
  · refine Eq.trans ?_ h
    unfold State.logMsg
    split <;> simp
  · refine Eq.trans ?_ (k.trans (by unfold Pkg.still; simp))
    unfold State.logMsg
    split <;> rfl

/-- A partition but for its marks of activity and its bandwidth buckets. -/
def Part.stiller (p : Part) : Part := { p.still with buckets := [] }

theorem sameParts_stiller {s t : State} (h : SameParts s t) : t.parts.map Part.stiller = s.parts.map Part.stiller := by
  have k : ∀ ps : List Part, ps.map Part.stiller = (ps.map Part.still).map (fun p => { p with buckets := [] }) := fun ps => by
    rw [List.map_map]; rfl
  rw [k, k, show t.parts.map Part.still = s.parts.map Part.still from h]

/-- Everything but memory, the ordering machine, undo records, the message log, and what is kept of activity, flits and bytes. -/
def Elsewhere (s t : State) : Prop :=
  t.own = s.own ∧ t.waves = s.waves ∧ t.groups = s.groups ∧ t.quarters = s.quarters ∧ t.objs = s.objs ∧ t.reqs = s.reqs
    ∧ t.colls = s.colls ∧ t.estates = s.estates ∧ t.holdings = s.holdings ∧ t.launches = s.launches ∧ t.queues = s.queues
    ∧ t.saved = s.saved ∧ t.armedD = s.armedD ∧ t.armedR = s.armedR ∧ SameWorlds s t ∧ t.seqs = s.seqs
    ∧ t.slots = s.slots ∧ t.invals = s.invals ∧ t.parts.map Part.stiller = s.parts.map Part.stiller ∧ t.contexts = s.contexts ∧ SamePkg s t
    ∧ t.records = s.records

theorem Elsewhere.refl (s : State) : Elsewhere s s := by simp [Elsewhere, SameWorlds, SamePkg]

theorem Elsewhere.trans {a b c : State} (h : Elsewhere a b) (k : Elsewhere b c) : Elsewhere a c := by
  unfold Elsewhere SameWorlds SamePkg at *
  obtain ⟨h1, h2, h3, h4, h5, h6, h7, h8, h9, h10, h11, h12, h13, h14, h15, h16, h17, h18, h19, h20, h21, h22⟩ := h
  rw [← h1, ← h2, ← h3, ← h4, ← h5, ← h6, ← h7, ← h8, ← h9, ← h10, ← h11, ← h12, ← h13, ← h14, ← h15, ← h16, ← h17, ← h18,
    ← h19, ← h20, ← h21, ← h22]
  exact k

theorem elsewhere_fold {β : Type} (f : State → β → State) (h : ∀ s x, Elsewhere s (f s x)) (xs : List β) (s : State) :
    Elsewhere s (xs.foldl f s) := by
  induction xs generalizing s with
  | nil => exact .refl s
  | cons x xs ih => exact (h s x).trans (ih _)

theorem post_elsewhere (s : State) (c : ChanRef) (m : Msg) (b : Bool) : Elsewhere s (s.post c m b) := by
  simp [Elsewhere, sameParts_stiller (post_still s c m b).1, (post_still s c m b).2, SameWorlds]

theorem firing_elsewhere (s : State) (p : Nat) : Elsewhere s (s.firing p) := by
  simp [Elsewhere, sameParts_stiller (firing_parts s p), SameWorlds, SamePkg]

theorem cross_elsewhere (s : State) (a b : Nat) : Elsewhere s (s.cross a b) := by
  simp [Elsewhere, cross_pkg, SameWorlds]

theorem crossPeer_elsewhere (s : State) (p : Nat) : Elsewhere s (s.crossPeer p) := by
  simp [Elsewhere, crossPeer_pkg, SameWorlds]

theorem count_elsewhere (s : State) (w n k : Nat) : Elsewhere s (s.count w n k) := by
  simp [Elsewhere, count_worlds, SamePkg]

/-- What a state pays changes buckets of partitions, and nothing else. -/
def Paid (s t : State) : Prop := ∃ ps, t = { s with parts := ps } ∧ ps.map Part.stiller = s.parts.map Part.stiller

theorem Paid.refl (s : State) : Paid s s := ⟨s.parts, rfl, rfl⟩

theorem Paid.trans {a b c : State} (h : Paid a b) (k : Paid b c) : Paid a c := by
  obtain ⟨p, rfl, hp⟩ := h
  obtain ⟨q, rfl, hq⟩ := k
  exact ⟨q, rfl, hq.trans hp⟩

theorem Paid.elsewhere {s t : State} (h : Paid s t) : Elsewhere s t := by
  obtain ⟨p, rfl, hp⟩ := h
  simp [Elsewhere, SameWorlds, SamePkg, hp]

theorem Paid.mem {s t : State} (h : Paid s t) : t.mem = s.mem := by
  obtain ⟨p, rfl, -⟩ := h; rfl

theorem spend_paid {s t : State} {p w n : Nat} {r : Resource} (h : s.spend p w r n = some t) : Paid s t := by
  unfold State.spend at h
  split at h
  · cases h; exact .refl s
  · split at h
    · cases h
    · cases h
      exact ⟨_, rfl, by unfold updBy; rw [List.map_map]; exact List.map_congr_left (fun x _ => by simp only [Function.comp_apply]; split <;> rfl)⟩

theorem spendMem_paid {s t : State} {d w o n : Nat} {p : Bool} (h : s.spendMem d w o p n = some t) : Paid s t := by
  unfold State.spendMem at h
  split at h
  · exact spend_paid h
  · cases k : s.spend (s.partOf d) w .mem n with
    | none => simp [k] at h
    | some u =>
      simp only [k] at h
      split at h
      · cases h; exact spend_paid k
      · exact (spend_paid k).trans (spend_paid h)

theorem ownSpend_paid (s : State) (d w : Nat) (bs : List ByteAt) : Paid s (s.ownSpend d w bs) := by
  unfold State.ownSpend
  split
  · exact .refl s
  · cases h : s.spendMem _ _ _ _ _ with
    | none => exact .refl s
    | some t => exact spendMem_paid h

@[simp] theorem ownSpend_mem (s : State) (d w : Nat) (bs : List ByteAt) : (s.ownSpend d w bs).mem = s.mem := (ownSpend_paid s d w bs).mem

theorem newWrite_elsewhere (s : State) (a : List Nat) (c : Option (List Nat)) : Elsewhere s (s.newWrite a c).2 := by
  simp [Elsewhere, SameWorlds, SamePkg]

theorem dropCopies_elsewhere (s : State) (p : Copy → Bool) : Elsewhere s (s.dropCopies p) := by
  simp [Elsewhere, SameWorlds, SamePkg]

theorem undoNote_elsewhere (s : State) (h : Nat × Nat) : Elsewhere s (s.undoNote h) := by
  simp [Elsewhere, SameWorlds, SamePkg]

theorem redoNote_elsewhere (s : State) (n : Nat) (x : ByteAt × Byte) : Elsewhere s (s.redoNote n x) := by
  simp [Elsewhere, SameWorlds, SamePkg]

theorem killLine_elsewhere (b : Option Nat) (s : State) (hl : Nat × Nat) : Elsewhere s (s.killLine b hl) := by
  unfold State.killLine
  exact (dropCopies_elsewhere s _).trans (elsewhere_fold _ (fun s x => post_elsewhere _ _ _ _) _ _)

/-- A write at home changes memory, the ordering machine, undo records and the message log, and nothing else but marks of activity. -/
theorem performBytes_elsewhere (s : State) (cells : List (ByteAt × Byte)) (w : Nat) (by_ : Option Nat) :
    Elsewhere s (s.performBytes cells w by_) := by
  unfold State.performBytes
  refine Elsewhere.trans ?_ (elsewhere_fold _ (fun s x => killLine_elsewhere _ s x) _ _)
  refine Elsewhere.trans (elsewhere_fold State.undoNote undoNote_elsewhere (linesOf (cells.map (·.1))) s) ?_
  dsimp only
  split
  · exact Elsewhere.trans (elsewhere_fold (fun s c => s.redoNote w c) (fun s x => redoNote_elsewhere s w x) cells _)
      (by simp [Elsewhere, SameWorlds, SamePkg])
  · simp [Elsewhere, SameWorlds, SamePkg]

/-- Bytes that are counted change counters and marks of activity alone. -/
theorem countBytes_elsewhere (s : State) (w d : Nat) (bs : List ByteAt) : Elsewhere s (s.countBytes w d bs) := by
  unfold State.countBytes
  dsimp only
  refine Elsewhere.trans ?_ (count_elsewhere _ _ _ _)
  refine Elsewhere.trans ?_ (count_elsewhere _ _ _ _)
  refine Elsewhere.trans ?_ (count_elsewhere _ _ _ _)
  refine Elsewhere.trans ?_ (count_elsewhere _ _ _ _)
  refine Elsewhere.trans ?_ (elsewhere_fold _ (fun s x => crossPeer_elsewhere s x) _ _)
  refine Elsewhere.trans ?_ (elsewhere_fold (fun s h => s.cross d h) (fun s x => cross_elsewhere s d x) _ _)
  split
  · exact firing_elsewhere _ _
  · exact .refl s

theorem countBytes_mem (s : State) (w d : Nat) (bs : List ByteAt) : (s.countBytes w d bs).mem = s.mem := by
  unfold State.countBytes
  simp only [count_frame]
  rw [foldl_keep (fun s : State => s.mem) State.crossPeer (by intro s x; simp),
    foldl_keep (fun s : State => s.mem) (fun s h => s.cross d h) (by intro s x; simp)]
  split <;> simp

/-- The memory after a write at home: its bytes put, and the words it covers healed. -/
theorem performBytes_mem (s : State) (cells : List (ByteAt × Byte)) (w : Nat) (by_ : Option Nat) :
    ∃ gen : ByteAt → Nat, (s.performBytes cells w by_).mem
      = (cells.foldl (fun m c => m.put (gen c.1) w c.1.pa c.2) s.mem).heal (cells.map (fun c => c.1.pa)) := by
  unfold State.performBytes
  dsimp only
  rw [foldl_keep (fun s : State => s.mem) _ (fun s x => killLine_mem _ s x)]
  split <;> exact ⟨fun b => State.keyGen _ b.kslot, by first | rw [redoFold_mem, undoFold_mem] | rw [undoFold_mem]⟩

theorem performBytes_wf {s : State} (h : Memory.wf s.mem = true) (cells : List (ByteAt × Byte)) (w : Nat) (by_ : Option Nat) :
    Memory.wf (s.performBytes cells w by_).mem = true := by
  obtain ⟨gen, e⟩ := performBytes_mem s cells w by_
  rw [e]; exact wf_heal (wf_foldPut _ _ _ h) _

/-- A write leaves every other byte alone. -/
theorem performBytes_other (s : State) (cells : List (ByteAt × Byte)) (w : Nat) (by_ : Option Nat)
    (a : Nat) (ha : ∀ c ∈ cells, c.1.pa ≠ a) : (s.performBytes cells w by_).byteOf a = s.byteOf a := by
  obtain ⟨gen, e⟩ := performBytes_mem s cells w by_
  unfold State.byteOf
  rw [e]; exact bytes_puts_other cells gen w _ a ha

/-- A byte reads as it was written. -/
theorem performBytes_same (s : State) (cells : List (ByteAt × Byte)) (w : Nat) (by_ : Option Nat)
    (a : Nat) (v : Byte) (hc : ∃ c ∈ cells, c.1.pa = a) (hu : ∀ x ∈ cells, x.1.pa = a → x.2 = v) :
    (s.performBytes cells w by_).byteOf a = v := by
  obtain ⟨gen, e⟩ := performBytes_mem s cells w by_
  unfold State.byteOf
  rw [e]; exact bytes_puts_mem cells gen w _ a v hc hu

theorem deviceWrite_elsewhere (s : State) (w d sp va : Nat) (k : Option Nat) (bs : List Byte) (by_ : Option Nat) :
    Elsewhere s (s.deviceWrite w d sp va k bs by_) := by
  unfold State.deviceWrite
  refine Elsewhere.trans ?_ (countBytes_elsewhere _ _ _ _)
  refine Elsewhere.trans ?_ (performBytes_elsewhere _ _ _ _)
  exact Elsewhere.trans (b := s.ownSpend (agentDie d) w _) (ownSpend_paid s _ _ _).elsewhere (newWrite_elsewhere _ _ _)

theorem deviceWrite_wf {s : State} (h : Memory.wf s.mem = true) (w d sp va : Nat) (k : Option Nat) (bs : List Byte) (by_ : Option Nat) :
    Memory.wf (s.deviceWrite w d sp va k bs by_).mem = true := by
  unfold State.deviceWrite
  rw [countBytes_mem]
  exact performBytes_wf (by simpa using h) _ _ _

/-! ## Translation is not changed by what is stored -/

/-- What translation reads. -/
def SameTables (s t : State) : Prop :=
  t.mem.tlb = s.mem.tlb ∧ t.mem.tables = s.mem.tables ∧ t.mem.roots = s.mem.roots ∧ t.mem.dead = s.mem.dead

theorem SameTables.trans {a b c : State} (h : SameTables a b) (k : SameTables b c) : SameTables a c := by
  unfold SameTables at *
  obtain ⟨h1, h2, h3, h4⟩ := h
  rw [← h1, ← h2, ← h3, ← h4]; exact k

theorem xlate_congr {s t : State} (h : SameTables s t) (d sp va : Nat) : t.xlate d sp va = s.xlate d sp va := by
  obtain ⟨h1, h2, h3, h4⟩ := h
  unfold State.xlate State.walk State.deadPage State.tlbFor
  rw [h1, h2, h3, h4]

theorem puts_tables (cells : List (ByteAt × Byte)) (gen : ByteAt → Nat) (wid : Nat) (m : MemSys) :
    let n := cells.foldl (fun m c => m.put (gen c.1) wid c.1.pa c.2) m
    n.tlb = m.tlb ∧ n.tables = m.tables ∧ n.roots = m.roots ∧ n.dead = m.dead := by
  induction cells generalizing m with
  | nil => simp
  | cons c cs ih => exact ih (m.put (gen c.1) wid c.1.pa c.2)

theorem performBytes_tables (s : State) (cells : List (ByteAt × Byte)) (w : Nat) (by_ : Option Nat) :
    SameTables s (s.performBytes cells w by_) := by
  obtain ⟨gen, e⟩ := performBytes_mem s cells w by_
  unfold SameTables
  rw [e]
  exact puts_tables cells gen w s.mem

theorem countBytes_tables (s : State) (w d : Nat) (bs : List ByteAt) : SameTables s (s.countBytes w d bs) := by
  unfold SameTables; simp only [countBytes_mem, and_self]

theorem deviceWrite_tables (s : State) (w d sp va : Nat) (k : Option Nat) (bs : List Byte) (by_ : Option Nat) :
    SameTables s (s.deviceWrite w d sp va k bs by_) := by
  unfold State.deviceWrite
  dsimp only
  refine SameTables.trans ?_ (countBytes_tables _ _ _ _)
  refine SameTables.trans ?_ (performBytes_tables _ _ _ _)
  simp [SameTables]

/-- A write by the device leaves every byte that none of its addresses translates to. -/
theorem deviceWrite_other (s : State) (w d sp va : Nat) (k : Option Nat) (bs : List Byte) (by_ : Option Nat) (pa : Nat)
    (h : ∀ k < bs.length, ∀ f big e, s.xlate d sp (va + k) = .page f big e → (f.byteAt big (va + k)).pa ≠ pa) :
    (s.deviceWrite w d sp va k bs by_).byteOf pa = s.byteOf pa := by
  unfold State.deviceWrite State.byteOf
  dsimp only
  rw [countBytes_mem]
  refine (performBytes_other _ _ _ _ pa ?_).trans ?_
  rotate_left
  · unfold State.byteOf
    simp
  · intro c hc
    have hc := (List.mem_filter.1 hc).1
    obtain ⟨bi, hb, hx⟩ := List.mem_filterMap.1 hc
    have hi : bi.2 < bs.length := by
      have := List.mem_zipIdx' hb
      omega
    split at hx
    · rename_i l big e he
      simp only [Option.some.injEq] at hx
      subst hx
      exact h _ hi _ _ _ he
    · cases hx

end Sys2Proof.Machine
end

