-- ==== Sys2Proof/Laws/Issue.lean ====
section
/-! SUPPORT. Laws/Issue.lean: finding a wave after an update, reading registers after a write, and what beginning, performing and retiring a word does: the path that every instruction takes. -/

namespace Sys2Proof.Machine

/-! ## Finding a wave -/

theorem wave?_onWave_same (s : State) (u : Nat) (f : Wave → Wave) (hf : ∀ w : Wave, (f w).uid = w.uid) :
    (s.onWave u f).wave? u = (s.wave? u).map f := by
  unfold State.onWave State.wave?
  rw [updBy_find _ _ _ _ (by intro x; split <;> simp [hf])]
  cases h : s.waves.find? (fun w => w.uid == u) with
  | none => rfl
  | some w => have := List.find?_some h; simp_all

theorem wave?_onWave_other (s : State) (u v : Nat) (f : Wave → Wave) (hf : ∀ w : Wave, (f w).uid = w.uid) (h : v ≠ u) :
    (s.onWave u f).wave? v = s.wave? v := by
  unfold State.onWave State.wave?
  rw [updBy_find _ _ _ _ (by intro x; split <;> simp [hf])]
  cases e : s.waves.find? (fun w => w.uid == v) with
  | none => rfl
  | some w =>
    have := List.find?_some e
    simp only [beq_iff_eq] at this
    simp [this, h]

theorem wave?_setWave_same (s : State) (w : Wave) (h : (s.wave? w.uid).isSome = true) : (s.setWave w).wave? w.uid = some w := by
  unfold State.setWave State.wave? at *
  rw [updBy_find _ _ _ _ (by intro x; split <;> simp_all)]
  cases e : s.waves.find? (fun v => v.uid == w.uid) with
  | none => simp [e] at h
  | some v => have := List.find?_some e; simp_all

theorem wave?_setWave_other (s : State) (w : Wave) (v : Nat) (h : v ≠ w.uid) : (s.setWave w).wave? v = s.wave? v := by
  unfold State.setWave State.wave?
  rw [updBy_find _ _ _ _ (by intro x; split <;> simp_all)]
  cases e : s.waves.find? (fun w => w.uid == v) with
  | none => rfl
  | some x =>
    have := List.find?_some e
    simp only [beq_iff_eq] at this
    simp [this, h]

theorem wave?_congr {s t : State} (h : t.waves = s.waves) (u : Nat) : t.wave? u = s.wave? u := by unfold State.wave?; rw [h]

/-! ## Registers -/

theorem slice_setSlices (w : Wave) (g : Nat) (ls : List Nat) (f : Nat → W32) (g' l : Nat) :
    (w.setSlices g ls f).slice g' l = if g' = g ∧ l ∈ ls ∧ l < 64 then f l else if g' = g ∧ 64 ≤ l then 0 else w.slice g' l := by
  unfold Wave.setSlices Wave.slice Wave.row
  dsimp only
  by_cases hg : g' = g
  · subst hg
    rw [mapGet_set_same]
    by_cases hl : l < 64
    · simp [List.getD_eq_getElem?_getD, hl]
      have : ¬ 64 ≤ l := by omega
      simp [this]
    · have : 64 ≤ l := by omega
      simp [List.getD_eq_getElem?_getD, hl, this]
  · rw [mapGet_set_other hg]; simp [hg]

theorem sget_sset (w : Wave) (n : Nat) (v : W64) (m : Nat) :
    (w.sset n v).sget m = if m = n then v else w.sget m := by
  unfold Wave.sset Wave.sget
  exact mapGet_set

theorem mem_maskLanes (m : W64) (l : Nat) : l ∈ maskLanes m ↔ l < 64 ∧ m.getLsbD l = true := by
  simp [maskLanes]

/-! ## Beginning an issue -/

theorem slide_uid (w : Wave) (b : Nat) (k : List Nat) : (w.slide b k).uid = w.uid := by
  unfold Wave.slide; split <;> rfl

/-- With the run already at the base, nothing slides. -/
theorem slide_stay (w : Wave) (k : List Nat) : w.slide w.runBase k = w := by simp [Wave.slide]

/-- A slide leaves every field but those of the run, its records, and the marks of registers that cease to be. -/
theorem slide_frame (w : Wave) (b : Nat) (k : List Nat) :
    let v := w.slide b k
    v.uid = w.uid ∧ v.launch = w.launch ∧ v.group = w.group ∧ v.index = w.index ∧ v.loc = w.loc ∧ v.fibres = w.fibres
      ∧ v.sregs = w.sregs ∧ v.winsize = w.winsize ∧ v.matrix = w.matrix ∧ v.fflags = w.fflags ∧ v.entries = w.entries
      ∧ v.stalls = w.stalls ∧ v.pend = w.pend ∧ v.checkpoint = w.checkpoint ∧ v.runBase = b
      ∧ v.observed = w.observed ∧ v.parked = w.parked := by
  unfold Wave.slide
  split
  · subst_vars; simp
  · simp [Wave.forget]

/-- Writing a wave's records changes memory alone, beside what is kept of activity. -/
theorem syncStacks_elsewhere (s : State) (w v : Wave) : Elsewhere s (s.syncStacks w v) := by
  unfold State.syncStacks
  split
  · exact .refl s
  · split
    · exact .refl s
    · exact elsewhere_fold _ (fun s x => deviceWrite_elsewhere _ _ _ _ _ _ _ _) _ _

/-- What the device reads for a world moves bytes, and changes nothing of memory. -/
theorem deviceReadPaid_still (s : State) (w d sp va n : Nat) :
    Elsewhere s (s.deviceReadPaid w d sp va n) ∧ (s.deviceReadPaid w d sp va n).mem = s.mem := by
  unfold State.deviceReadPaid
  exact ⟨(ownSpend_paid _ _ _ _).elsewhere.trans (countBytes_elsewhere _ _ _ _), by rw [countBytes_mem, ownSpend_mem]⟩

/-- Taking records back reads them, and no more. -/
theorem reload_still (s : State) (w v : Wave) : Elsewhere s (s.reload w v) ∧ (s.reload w v).mem = s.mem := by
  unfold State.reload
  split
  · exact ⟨.refl s, rfl⟩
  · refine ⟨elsewhere_fold _ (fun s x => (deviceReadPaid_still s _ _ _ _ _).1) _ _, ?_⟩
    exact foldl_keep (fun s : State => s.mem) _ (fun s x => (deviceReadPaid_still s _ _ _ _ _).2) _ _

theorem slideTo_wave (s : State) (w : Wave) (b : Nat) (h : (s.wave? w.uid).isSome = true) :
    (s.slideTo w b).1.wave? w.uid = some (s.slideTo w b).2 := by
  unfold State.slideTo
  dsimp only
  rw [wave?_congr (syncStacks_elsewhere _ _ _).2.1, wave?_congr (reload_still _ _ _).1.2.1]
  have := wave?_setWave_same s (w.slide b (s.bequeathed w.uid)) (by rw [slide_uid]; exact h)
  rwa [slide_uid] at this

theorem slideTo_snd (s : State) (w : Wave) (b : Nat) : (s.slideTo w b).2 = w.slide b (s.bequeathed w.uid) := rfl

/-- A world's spaces are no part of what is counted. -/
theorem space_congr {s t : State} (h : SameWorlds s t) (w c : Nat) : t.space w c = s.space w c := by
  have key : ∀ xs ys : List World, xs.map World.still = ys.map World.still →
      (xs.find? (fun x => x.id == w)).map (·.comps) = (ys.find? (fun x => x.id == w)).map (·.comps) := by
    intro xs
    induction xs with
    | nil => intro ys h; cases ys with
      | nil => rfl
      | cons y ys => simp at h
    | cons x xs ih =>
      intro ys h
      cases ys with
      | nil => simp at h
      | cons y ys =>
        simp only [List.map_cons, List.cons.injEq] at h
        have hid : x.id = y.id := (congrArg World.id h.1 : x.still.id = y.still.id)
        have hc : x.comps = y.comps := (congrArg World.comps h.1 : x.still.comps = y.still.comps)
        simp only [List.find?_cons, hid]
        split
        · simp [hc]
        · exact ih _ h.2
  have e := key _ _ h
  unfold State.space State.world?
  cases hs : s.worlds.find? (fun x => x.id == w) <;> cases ht : t.worlds.find? (fun x => x.id == w) <;> simp_all

/-- A slide leaves every byte that no record of the wave's stacks covers. -/
theorem slideTo_other (s : State) (w : Wave) (b pa : Nat) (h : s.OffStacks (s.slideTo w b).2 pa) :
    (s.slideTo w b).1.byteOf pa = s.byteOf pa := by
  rw [slideTo_snd] at h
  obtain ⟨-, hl, hg, hi, hloc, -⟩ := slide_frame w b (s.bequeathed w.uid)
  unfold State.slideTo
  dsimp only
  generalize hv : w.slide b (s.bequeathed w.uid) = v at h hl hg hi hloc
  have hs := reload_still (s.setWave v) w v
  generalize (s.setWave v).reload w v = u at hs
  have hm : u.mem = s.mem := hs.2
  have hws : SameWorlds s u := hs.1.2.2.2.2.2.2.2.2.2.2.2.2.2.2.1
  have hla : u.launches = s.launches := hs.1.2.2.2.2.2.2.2.2.2.1
  have hb : u.byteOf pa = s.byteOf pa := by unfold State.byteOf; rw [hm]
  have ht : SameTables s u := by unfold SameTables; simp [hm]
  unfold State.syncStacks
  split
  · exact hb
  · split
    · exact hb
    · rename_i l el
      have el : s.launch? w.launch = some l := by unfold State.launch? at el ⊢; rwa [hla] at el
      have hh := h l (by rw [hl]; exact el)
      have area : l.area v = l.area w := by unfold Launch.area; rw [hg, hi]
      have ag : v.agent = w.agent := by unfold Wave.agent; rw [hloc]
      rw [area, ag] at hh
      have key : ∀ (xs : List (Nat × List Byte)) (t : State), SameTables s t → SameWorlds s t → t.byteOf pa = s.byteOf pa →
          (∀ r ∈ xs, r ∈ stackBytes v.low v.high l.block.bssize) →
          (xs.foldl (fun t r => t.deviceWrite l.world w.agent (t.space l.world l.comp) (l.area w + r.1)
            (t.seqSlot l.world l.block.seq) r.2 (some l.uid)) t).byteOf pa = s.byteOf pa := by
        intro xs
        induction xs with
        | nil => intro t _ _ h _; exact h
        | cons r xs ih =>
          intro t ht hw hb hm
          refine ih _ (ht.trans (deviceWrite_tables ..)) ?_ ?_ (fun q hq => hm q (List.mem_cons_of_mem _ hq))
          · exact (deviceWrite_elsewhere t _ _ _ _ _ _ _).2.2.2.2.2.2.2.2.2.2.2.2.2.2.1.trans hw
          · rw [deviceWrite_other, hb]
            intro k hk f big e hx
            rw [xlate_congr ht, space_congr hw] at hx
            exact hh r (hm r (List.mem_cons_self ..)) k hk f big e hx
      exact key _ _ ht hws hb (fun _ h => (List.mem_filter.1 h).1)

theorem wave?_uid {s : State} {u : Nat} {w : Wave} (h : s.wave? u = some w) : w.uid = u := by
  have := List.find?_some h; simpa using this

/-- An issue at the run's own base begins in the state as it stands. -/
theorem slideTo_stay (s : State) (w : Wave) : s.slideTo w w.runBase = (s.setWave w, w) := by
  have h : ∀ t : State, t.reload w w = t := by
    intro t
    unfold State.reload
    split
    · rfl
    · dsimp only
      rw [List.filter_eq_nil_iff.2]
      · rfl
      · intro r hr
        have := (List.of_mem_zip (show (r.1, r.2) ∈ _ from hr)).1
        simp only [Bool.and_eq_true, Bool.not_eq_true', not_and, Bool.not_eq_false]
        exact fun _ => List.contains_iff_mem.2 this
  unfold State.slideTo State.syncStacks; rw [slide_stay]; simp [h]

/-! ## The one path of a word -/

/-- An instruction whose checks pass and that does not wait takes its effect and retires. -/
theorem runWord_next {i : Instr} {s s1 : State} {c : Ctx} {chk : Ctx → State → Option Chk}
    {hold : Ctx → State → Option State} {eff : Ctx → State → State}
    (h : Runs i s c s1) (hc : chk c s1 = none) (hh : hold c s1 = none) :
    runWord i chk hold eff s = .next ((eff c (s1.advance c)).retire i c) := by
  obtain ⟨⟨hb, -, hg, hp, hf⟩, ha⟩ := h
  have ha' : c.act.isEmpty = false := by cases e : c.act <;> simp_all
  unfold runWord State.barred State.partly
  rw [hb]
  simp [hg, hp, hf, ha', hc, hh]

/-- An issue that is not presented again has performed no lane yet. -/
theorem heldFrom_none {c : Ctx} (h : c.again = false) : c.heldFrom = (0, 0) := by
  unfold Ctx.again Ctx.stall? at h
  unfold Ctx.heldFrom heldFrom
  split
  · rfl
  · rename_i x hx
    rw [hx] at h
    split
    · rename_i e; simp [e, StallKind.passed] at h
    · rfl

/-- With no lane active a word only passes (R15). -/
theorem runWord_idle {i : Instr} {s s1 : State} {c : Ctx} {chk : Ctx → State → Option Chk}
    {hold : Ctx → State → Option State} {eff : Ctx → State → State}
    (h : Opens i s c s1) (ha : c.act = []) : runWord i chk hold eff s = .next ((s1.advance c).retire i c) := by
  unfold runWord State.barred
  rw [h.1]
  simp [h.2.2.1, h.2.2.2.1, h.2.2.2.2, ha]

/-- A check of steps 12 to 19 that fails raises its fault at the instruction. -/
theorem runWord_fault {i : Instr} {s s1 : State} {c : Ctx} {k : Chk} {chk : Ctx → State → Option Chk}
    {hold : Ctx → State → Option State} {eff : Ctx → State → State}
    (h : Runs i s c s1) (hc : chk c s1 = some k) : runWord i chk hold eff s = .next (s1.precise c k) := by
  obtain ⟨⟨hb, -, hg, -, hf⟩, ha⟩ := h
  have ha' : c.act.isEmpty = false := by cases e : c.act <;> simp_all
  unfold runWord
  rw [hb]
  simp [hg, hf, ha', hc]

/-- An instruction that waits answers the state in which it does. -/
theorem runWord_hold {i : Instr} {s s1 t : State} {c : Ctx} {chk : Ctx → State → Option Chk}
    {hold : Ctx → State → Option State} {eff : Ctx → State → State}
    (h : Runs i s c s1) (hc : chk c s1 = none) (hh : hold c s1 = some t) : runWord i chk hold eff s = .next t := by
  obtain ⟨⟨hb, -, hg, hp, hf⟩, ha⟩ := h
  have ha' : c.act.isEmpty = false := by cases e : c.act <;> simp_all
  unfold runWord State.barred
  rw [hb]
  simp [hg, hp, hf, ha', hc, hh, heldFrom_none hg]

/-- A word never stops the machine: with an issue in progress it answers a next state. -/
theorem runWord_total {i : Instr} {s : State} {chk : Ctx → State → Option Chk} {hold : Ctx → State → Option State}
    {eff : Ctx → State → State} (h : (s.begin i).isSome = true) : ∃ t, runWord i chk hold eff s = .next t := by
  unfold runWord
  cases e : s.begin i with
  | none => simp [e] at h
  | some p =>
    dsimp only
    repeat' split
    all_goals exact ⟨_, rfl⟩

/-- Every instruction word takes the one path. -/
theorem exec_word (i : Instr) (h : i.raw.isSome = true) :
    ∃ chk hold eff, ∀ s, exec i s = runWord i chk hold eff s := by
  cases i
  all_goals first
    | exact absurd h Bool.false_ne_true
    | (simp only [exec, runPlain, runWave, runAccess, runEngine,
      execNop, execBra, execBrx, execCall, execCallx, execRet, execFork, execEndF, execYield, execRegion, execTrap,
      execBrk, execAdd, execSub, execAddc, execSubb, execMul, execMulh, execMad, execMadw, execDiv, execRem, execAbs,
      execNeg, execMin, execMax, execAnd, execOr, execXor, execAndn, execShl, execShr, execSar, execRot, execClz,
      execPopc, execBrev, execBfe, execBfi, execLea, execSel, execIset, execSadd, execSsub, execSmul, execSand,
      execSor, execSxor, execSshl, execSshr, execSsar, execSmin, execSmax, execSset, execSli, execSmov, execSbfe,
      execSlea, execFadd, execFsub, execFmul, execFma, execFmin, execFmax, execFset, execFclass, execFrnd,
      execFscale, execFrcp, execFsqrt, execFrsq, execFexp2, execFlog2, execFsinpi, execFcospi, execFcvt, execFtoi,
      execItof, execPkadd, execPkmul, execPkfma, execFdot2, execFdot4, execMov, execMovi, execPerm, execBallot,
      execVote, execRdlane, execWrlane, execBsel, execScan, execReduce, execPand, execPor, execPxor, execPnot,
      execPmov, execLd, execLds, execLdu, execSt, execSts, execStu, execPref, execAtom, execRed, execAtoms,
      execFence, execBinit, execArrive, execExpect, execWait, execBtest, execBphase, execCpy, execCpy2d, execGather,
      execScatter, execQcpy, execColl, execRpush, execRfree, execMmodeOn, execMmodeOff, execMzero, execMma, execMepi,
      execMsts, execBequeath, execClaim, execEstate, execEstateDrop, execMigrate, execLaunch, execRemit, execSrd,
      execSwr, execGrow, execShrink]
       exact ⟨_, _, _, fun _ => rfl⟩)

/-! ## Retiring -/

theorem endRegion_uid (w : Wave) : w.endRegion.uid = w.uid := rfl

/-- Retiring changes the issuing wave alone, and that only where the instruction ends its region. -/
theorem retire_wave (s : State) (i : Instr) (c : Ctx) (u : Nat) :
    (s.retire i c).wave? u = if u = c.w.uid ∧ endsRegion i = true then (s.wave? u).map Wave.endRegion else s.wave? u := by
  unfold State.retire
  dsimp only
  rw [wave?_congr (s := (if endsRegion i then s.onWave c.w.uid Wave.endRegion else s)) (by simp)]
  split
  · rename_i h
    by_cases e : u = c.w.uid
    · subst e; rw [wave?_onWave_same _ _ _ endRegion_uid, if_pos ⟨rfl, h⟩]
    · rw [wave?_onWave_other _ _ _ _ endRegion_uid e, if_neg (fun x => e x.1)]
  · rename_i h; rw [if_neg (fun x => h x.2)]

/-- Where the region goes on, the wave is as the effect left it. -/
theorem retire_plain (s : State) (i : Instr) (c : Ctx) (h : endsRegion i = false) (u : Nat) :
    (s.retire i c).wave? u = s.wave? u := by rw [retire_wave]; simp [h]

/-- Retiring counts for the world, and marks the partition's activity. -/
theorem retire_still (s : State) (i : Instr) (c : Ctx) : SameParts s (s.retire i c) ∧ SameWorlds s (s.retire i c) := by
  unfold State.retire
  dsimp only
  have hw : ∀ t : State, ∀ l n k : Nat, SameWorlds t (t.countL l n k) := by
    intro t l n k; unfold State.countL; split
    · rfl
    · exact count_worlds _ _ _ _
  constructor
  · refine (firing_parts _ _).trans ?_
    simp only [countL_frame]
    split <;> simp
  · unfold SameWorlds
    simp only [firing_frame]
    refine (hw _ _ _ _).trans ?_
    split <;> simp

theorem passed_uid (c : Ctx) (w : Wave) : (c.passed w).uid = w.uid := rfl

/-- The wave of an issue after an effect of its own. -/
theorem effect_wave {i : Instr} {s s1 : State} {c : Ctx} (h : Runs i s c s1) (f : Wave → Wave) (hf : ∀ w, (f w).uid = w.uid)
    (he : endsRegion i = false) :
    (((s1.advance c).onWave c.w.uid f).retire i c).wave? c.w.uid = some (f (c.passed c.w)) := by
  rw [retire_plain _ _ _ he, wave?_onWave_same _ _ _ hf]
  unfold State.advance
  rw [wave?_onWave_same _ _ _ (passed_uid c), h.1.2.1]
  rfl

/-! ## What an effect on the wave alone does -/

theorem begin_act {s : State} {i : Instr} {c : Ctx} {s1 : State} (h : s.begin i = some (c, s1)) {l : Nat} (hl : l ∈ c.act) :
    l < 64 ∧ ∃ f, c.w.fibre? l = some f := by
  unfold State.begin at h
  split at h
  · cases h
  · rename_i q hq
    split at h
    · cases h
    · rename_i w hw
      simp only [Option.some.injEq, Prod.mk.injEq] at h
      obtain ⟨rfl, rfl⟩ := h
      simp only [List.mem_filter] at hl
      obtain ⟨⟨hm, hf⟩, -⟩ := hl
      refine ⟨((mem_maskLanes _ _).1 hm).1, ?_⟩
      have e : ∀ x, (((s.slideTo w q.base).2.sources x).fibre? l) = w.fibre? l := by
        intro x
        have := (slide_frame w q.base (s.bequeathed w.uid)).2.2.2.2.2.1
        rw [slideTo_snd]
        unfold Wave.fibre? Wave.sources
        split
        · rw [this]
        · split <;> simp [this]
      rw [e]
      cases hf' : w.fibre? l with
      | none => simp [hf'] at hf
      | some f => exact ⟨f, rfl⟩

/-- Everything outside the issuing wave, after an effect on the wave alone. -/
theorem sameBut_effect (s1 : State) (i : Instr) (c : Ctx) (f : Wave → Wave) (hf : ∀ w, (f w).uid = w.uid) :
    SameBut c.w.uid s1 (((s1.advance c).onWave c.w.uid f).retire i c) := by
  have h := retire_still ((s1.advance c).onWave c.w.uid f) i c
  unfold SameParts SameWorlds at h
  unfold SameBut SameBytes State.byteOf SameParts SameWorlds
  simp only [h, retire_frame, onWave_frame, advance_frame, implies_true, true_and]
  intro u hu
  rw [retire_wave, if_neg (fun x => hu x.1), wave?_onWave_other _ _ _ _ hf hu]
  unfold State.advance
  rw [wave?_onWave_other _ _ _ _ (passed_uid c) hu]

/-- An instruction whose effect is on the wave alone completes, with its effect on the wave that has passed it. -/
theorem runWave_spec {i : Instr} {s s1 : State} {c : Ctx} {chk : Ctx → Option Chk} {eff : Ctx → Wave → Wave}
    (h : Runs i s c s1) (hc : chk c = none) (hu : ∀ w, (eff c w).uid = w.uid) (he : endsRegion i = false) :
    ∃ t, runWave i chk eff s = .next t ∧ t.wave? c.w.uid = some (eff c (c.passed c.w)) ∧ SameBut c.w.uid s1 t :=
  ⟨_, runWord_next h hc rfl, effect_wave h _ hu he, sameBut_effect _ _ _ _ hu⟩

theorem sameFibres_passed (c : Ctx) (w : Wave) : (c.passed w).fibres.map Fibre.still = w.fibres.map Fibre.still := by
  unfold Ctx.passed Wave.onLanes updBy
  simp only [List.map_map]
  apply List.map_congr_left
  intro f _
  simp only [Function.comp_apply]
  split <;> rfl

theorem fibre?_onLanes (w : Wave) (ls : List Nat) (f : Fibre → Fibre) (hf : ∀ x : Fibre, (f x).lane = x.lane) (l : Nat) :
    (w.onLanes ls f).fibre? l = (w.fibre? l).map (fun x => if ls.contains x.lane then f x else x) := by
  unfold Wave.onLanes Wave.fibre?
  exact updBy_find _ _ _ _ (by intro x; split <;> simp [hf])

/-- Writing slices leaves the rest of the wave. -/
theorem setSlices_rest (w : Wave) (g : Nat) (ls : List Nat) (f : Nat → W32) :
    (w.setSlices g ls f).sregs = w.sregs ∧ (w.setSlices g ls f).fibres = w.fibres ∧ (w.setSlices g ls f).fflags = w.fflags
      ∧ (w.setSlices g ls f).uid = w.uid ∧ w.SameRest (w.setSlices g ls f) := by
  simp [Wave.setSlices, Wave.SameRest]

theorem vset_rest (w : Wave) (g : Nat) (wide : Bool) (ls : List Nat) (f : Nat → W64) :
    (w.vset g wide ls f).sregs = w.sregs ∧ (w.vset g wide ls f).fibres = w.fibres ∧ (w.vset g wide ls f).fflags = w.fflags
      ∧ (w.vset g wide ls f).uid = w.uid ∧ w.SameRest (w.vset g wide ls f) := by
  unfold Wave.vset
  dsimp only
  split <;> simp [Wave.setSlices, Wave.SameRest]

/-- A register, or a pair, reads back as it was written. -/
theorem vget_vset (w : Wave) (g : Nat) (wide : Bool) (ls : List Nat) (f : Nat → W64) (l : Nat) (hl : l ∈ ls) (h : l < 64) :
    (w.vset g wide ls f).vget g wide l = fits wide (f l) := by
  unfold Wave.vset Wave.vget fits
  cases wide
  · simp only [Bool.false_eq_true, if_false]
    rw [slice_setSlices]; simp [hl, h]
  · simp only [if_true]
    have hi : ∀ v : Wave, (v.setSlices (g + 1) ls (fun l => (f l).extractLsb' 32 32)).slice (g + 1) l = (f l).extractLsb' 32 32 := by
      intro v; rw [slice_setSlices]; simp [hl, h]
    have lo : ∀ v : Wave, (v.setSlices (g + 1) ls (fun l => (f l).extractLsb' 32 32)).slice g l = v.slice g l := by
      intro v; rw [slice_setSlices, if_neg (by omega), if_neg (by omega)]
    rw [hi, lo, slice_setSlices]
    simp only [hl, h, and_self, if_true]
    apply BitVec.eq_of_getElem_eq
    intro j hj
    simp only [BitVec.getElem_append, BitVec.getElem_extractLsb', BitVec.getElem_setWidth]
    split
    · exact (BitVec.getLsbD_eq_getElem hj)
    · rw [show 32 + (j - 32) = j by omega]; exact (BitVec.getLsbD_eq_getElem hj)

theorem sameOthers_vset (w : Wave) (g : Nat) (wide : Bool) (ls : List Nat) (f : Nat → W64) :
    w.SameOthers (w.vset g wide ls f) g wide ls := by
  intro g' l hn hl
  unfold Wave.vset
  have h1 : ¬(g' = g ∧ l ∈ ls ∧ l < 64) := fun x => hn ⟨.inl x.1, x.2.1⟩
  have h2 : ¬(g' = g ∧ 64 ≤ l) := fun x => by omega
  cases wide
  · simp only [Bool.false_eq_true, if_false]
    rw [slice_setSlices, if_neg h1, if_neg h2]
  · simp only [if_true]
    have h3 : ¬(g' = g + 1 ∧ l ∈ ls ∧ l < 64) := fun x => hn ⟨.inr ⟨rfl, x.1⟩, x.2.1⟩
    have h4 : ¬(g' = g + 1 ∧ 64 ≤ l) := fun x => by omega
    rw [slice_setSlices, if_neg h3, if_neg h4, slice_setSlices, if_neg h1, if_neg h2]

/-! ## The three shapes of result -/

theorem orFlags_zero (w : Wave) : w.orFlags 0 = w := by simp [Wave.orFlags]

theorem act_lt {i : Instr} {s s1 : State} {c : Ctx} (h : Runs i s c s1) : ∀ l ∈ c.act, l < 64 :=
  fun _ hl => (begin_act h.1.1 hl).1

/-- The wave after it has passed an instruction, but for the PCs. -/
theorem passed_rest (c : Ctx) : c.w.SameRest (c.passed c.w) := by simp [Wave.SameRest, Ctx.passed, Wave.onLanes]

theorem writesV_intro {i : Instr} {s s1 : State} {c : Ctx} {chk : Ctx → Option Chk} {eff : Ctx → Wave → Wave}
    {d : BitVec 7} {wide : Bool} {lanes : List Nat} {f : Nat → W64} {fl : FFlags} (h : Runs i s c s1)
    (hx : exec i s = runWave i chk eff s) (hc : chk c = none) (he : endsRegion i = false) (hl : ∀ l ∈ lanes, l < 64)
    (heff : ∀ w, eff c w = (w.vset (c.base + d.toNat) wide lanes f).orFlags fl) : WritesV i s c s1 d wide lanes f fl := by
  have hu : ∀ w, (eff c w).uid = w.uid := by
    intro w; rw [heff]; exact (vset_rest w _ _ _ _).2.2.2.1
  obtain ⟨t, ht, hw, hb⟩ := runWave_spec h hc hu he
  have r := vset_rest (c.passed c.w) (c.base + d.toNat) wide lanes f
  refine ⟨t, _, hx.trans ht, hw, ?_, ?_, ?_, ?_, ?_, ?_, hb⟩
  · intro l hm
    rw [heff]
    exact vget_vset (c.passed c.w) _ _ _ _ _ hm (hl l hm)
  · rw [heff]
    exact sameOthers_vset (c.passed c.w) _ _ _ _
  · rw [heff]
    show ((c.passed c.w).vset _ _ _ _).fflags ||| _ = _
    rw [r.2.2.1]; rfl
  · intro n
    rw [heff]
    show mapGet 0 ((c.passed c.w).vset _ _ _ _).sregs n = _
    rw [r.1]; rfl
  · rw [heff]
    show ((c.passed c.w).vset _ _ _ _).fibres.map _ = _
    rw [r.2.1]; exact sameFibres_passed c c.w
  · rw [heff]
    have := r.2.2.2.2
    simp only [Wave.SameRest, Wave.orFlags] at *
    simpa [Ctx.passed, Wave.onLanes] using this

theorem writesS_intro {i : Instr} {s s1 : State} {c : Ctx} {chk : Ctx → Option Chk} {eff : Ctx → Wave → Wave}
    {d : BitVec 6} {x : W64} (h : Runs i s c s1) (hx : exec i s = runWave i chk eff s) (hc : chk c = none)
    (he : endsRegion i = false) (heff : ∀ w, eff c w = w.sset d.toNat x) : WritesS i s c s1 d x := by
  have hu : ∀ w, (eff c w).uid = w.uid := by intro w; rw [heff]; rfl
  obtain ⟨t, ht, hw, hb⟩ := runWave_spec h hc hu he
  refine ⟨t, _, hx.trans ht, hw, ?_, ?_, ?_, ?_, ?_, ?_, hb⟩
  · rw [heff, sget_sset, if_pos rfl]
  · intro n hn; rw [heff, sget_sset, if_neg hn]; rfl
  · rw [heff]; rfl
  · rw [heff]; intro g l; rfl
  · rw [heff]; exact sameFibres_passed c c.w
  · rw [heff]; simp [Wave.SameRest, Wave.sset, Ctx.passed, Wave.onLanes]

/-- A predicate of a fibre after one of them is written. -/
theorem pred_setPred (f : Fibre) (d p : Nat) (v : Bool) (hd : d < 15) (hp : p < 16) :
    (f.setPred d v).pred p = if p = d then v else f.pred p := by
  unfold Fibre.setPred Fibre.pred
  have key : ∀ q : Nat, (BitVec.ofNat 16 (2 ^ d)).getLsbD q = (decide (q < 16) && decide (q = d)) := by
    intro q
    rw [BitVec.getLsbD_ofNat, Nat.testBit_two_pow]
    by_cases h : d = q
    · subst h; simp
    · simp [h, Ne.symm h]
  dsimp only
  by_cases e : p = d
  · subst e
    have h15 : (p == 15) = false := by simp; omega
    cases v
    · simp only [Bool.false_eq_true, if_false, BitVec.getLsbD_and, BitVec.getLsbD_not, key]; simp [h15]
    · simp only [if_true, BitVec.getLsbD_or, key]; simp [hp]
  · cases v
    · simp only [Bool.false_eq_true, if_false, BitVec.getLsbD_and, BitVec.getLsbD_not, key]; simp [e, hp]
    · simp only [if_true, BitVec.getLsbD_or, key]; simp [e]

theorem bare_pset (w : Wave) (d : Nat) (ls : List Nat) (v : Nat → Bool) :
    (w.pset d ls v).fibres.map Fibre.bare = w.fibres.map Fibre.bare := by
  unfold Wave.pset
  split
  · rfl
  · unfold Wave.onLanes updBy
    simp only [List.map_map]
    apply List.map_congr_left
    intro f _
    simp only [Function.comp_apply]
    split <;> rfl

theorem bare_passed (c : Ctx) (w : Wave) : (c.passed w).fibres.map Fibre.bare = w.fibres.map Fibre.bare := by
  unfold Ctx.passed Wave.onLanes updBy
  simp only [List.map_map]
  apply List.map_congr_left
  intro f _
  simp only [Function.comp_apply]
  split <;> rfl

theorem pget_passed (c : Ctx) (w : Wave) (p l : Nat) : (c.passed w).pget p l = w.pget p l := by
  have e : (c.passed w).fibre? l = (w.fibre? l).map (fun x => if c.set_.contains x.lane then
      { x with pc := x.pc + BitVec.ofNat 64 c.len } else x) :=
    fibre?_onLanes w c.set_ (fun f => { f with pc := f.pc + BitVec.ofNat 64 c.len }) (fun _ => rfl) l
  unfold Wave.pget
  rw [e]
  cases w.fibre? l with
  | none => rfl
  | some f => simp only [Option.map_some]; split <;> rfl

/-- Predicates after a write in some lanes: p15 discards. -/
theorem pget_pset (w : Wave) (d : Nat) (ls : List Nat) (v : Nat → Bool) (p l : Nat) (hd : d < 16) (hp : p < 16) {f : Fibre}
    (hf : w.fibre? l = some f) :
    (w.pset d ls v).pget p l = if p = d ∧ l ∈ ls then (d == 15 || v l) else w.pget p l := by
  have hl : f.lane = l := by have := List.find?_some hf; simpa using this
  unfold Wave.pset
  by_cases e : d = 15
  · subst e
    rw [if_pos rfl]
    split
    · rename_i h; unfold Wave.pget; rw [hf, h.1]; simp [Fibre.pred]
    · rfl
  · rw [if_neg e]
    unfold Wave.pget
    rw [fibre?_onLanes w ls (fun f => f.setPred d (v f.lane)) (fun x => rfl) l, hf]
    simp only [Option.map_some, hl]
    by_cases hm : l ∈ ls
    · simp only [List.contains_iff_mem, hm, if_true, and_true]
      rw [pred_setPred _ _ _ _ (by omega) hp]
      have : (d == 15) = false := by simpa using e
      simp [this]
    · simp [hm]

/-- A lane without a fibre reads as before. -/
theorem pget_pset_none (w : Wave) (d : Nat) (ls : List Nat) (v : Nat → Bool) (p l : Nat) (hf : w.fibre? l = none) :
    (w.pset d ls v).pget p l = w.pget p l := by
  unfold Wave.pset
  split
  · rfl
  · unfold Wave.pget; rw [fibre?_onLanes w ls (fun f => f.setPred d (v f.lane)) (fun x => rfl) l, hf]; rfl

theorem pset_rest (w : Wave) (d : Nat) (ls : List Nat) (v : Nat → Bool) :
    (w.pset d ls v).sregs = w.sregs ∧ (w.pset d ls v).vregs = w.vregs ∧ (w.pset d ls v).fflags = w.fflags
      ∧ (w.pset d ls v).uid = w.uid ∧ w.SameRest (w.pset d ls v) := by
  unfold Wave.pset
  split <;> simp [Wave.onLanes, Wave.SameRest]

theorem writesP_intro {i : Instr} {s s1 : State} {c : Ctx} {chk : Ctx → Option Chk} {eff : Ctx → Wave → Wave}
    {d : BitVec 4} {f : Nat → Bool} {fl : FFlags} (h : Runs i s c s1) (hx : exec i s = runWave i chk eff s)
    (hc : chk c = none) (he : endsRegion i = false) (heff : ∀ w, eff c w = (w.pset d.toNat c.act f).orFlags fl) :
    WritesP i s c s1 d f fl := by
  have hu : ∀ w, (eff c w).uid = w.uid := by
    intro w; rw [heff]; exact (pset_rest w _ _ _).2.2.2.1
  obtain ⟨t, ht, hw, hb⟩ := runWave_spec h hc hu he
  have r := pset_rest (c.passed c.w) d.toNat c.act f
  have rd : ∀ p l, p < 16 → ((c.passed c.w).pset d.toNat c.act f).pget p l
      = if p = d.toNat ∧ l ∈ c.act then (d.toNat == 15 || f l) else c.w.pget p l := by
    intro p l hp
    have hd : d.toNat < 16 := d.isLt
    cases e : (c.passed c.w).fibre? l with
    | some x => rw [pget_pset _ _ _ _ _ _ hd hp e, pget_passed]
    | none =>
      rw [pget_pset_none _ _ _ _ _ _ e, pget_passed]
      split
      · rename_i hm
        obtain ⟨_, y, hy⟩ := begin_act h.1.1 hm.2
        have e' : (c.passed c.w).fibre? l = (c.w.fibre? l).map _ :=
          fibre?_onLanes c.w c.set_ (fun f => { f with pc := f.pc + BitVec.ofNat 64 c.len }) (fun _ => rfl) l
        rw [e', hy] at e; cases e
      · rfl
  refine ⟨t, _, hx.trans ht, hw, ?_, ?_, ?_, ?_, ?_, ?_, ?_, hb⟩
  · intro l hm
    rw [heff]
    show ((c.passed c.w).pset d.toNat c.act f).pget d.toNat l = _
    rw [rd _ _ d.isLt, if_pos ⟨rfl, hm⟩]
  · intro p l hp hn
    rw [heff]
    show ((c.passed c.w).pset d.toNat c.act f).pget p l = _
    rw [rd _ _ hp, if_neg hn]
  · rw [heff]
    show ((c.passed c.w).pset d.toNat c.act f).fibres.map _ = _
    rw [bare_pset, bare_passed]
  · rw [heff]
    show ((c.passed c.w).pset d.toNat c.act f).fflags ||| _ = _
    rw [r.2.2.1]; rfl
  · rw [heff]
    intro g l
    show (mapGet zeroRow ((c.passed c.w).pset d.toNat c.act f).vregs g).getD l 0 = _
    rw [r.2.1]; rfl
  · rw [heff]
    intro n
    show mapGet 0 ((c.passed c.w).pset d.toNat c.act f).sregs n = _
    rw [r.1]; rfl
  · rw [heff]
    have := r.2.2.2.2
    simp only [Wave.SameRest, Wave.orFlags] at *
    simpa [Ctx.passed, Wave.onLanes] using this

theorem putV_eq (c : Ctx) (d : BitVec 7) (wide : Bool) (f : Nat → W64) (w : Wave) :
    c.putV d wide f w = (w.vset (c.base + d.toNat) wide c.act f).orFlags 0 := by rw [orFlags_zero]; rfl

/-- An instruction that no check of steps 12 to 19 can stop, and that writes a vector result in its active lanes. -/
theorem plainV {i : Instr} {s s1 : State} {c : Ctx} {eff : Ctx → Wave → Wave} {d : BitVec 7} {wide : Bool} {f : Nat → W64}
    (h : Runs i s c s1) (hx : exec i s = runPlain i eff s) (heff : eff c = c.putV d wide f) (he : endsRegion i = false) :
    WritesV i s c s1 d wide c.act f 0 :=
  writesV_intro h (chk := fun _ => none) hx rfl he (act_lt h) (fun w => by rw [heff, putV_eq])

theorem plainF {i : Instr} {s s1 : State} {c : Ctx} {eff : Ctx → Wave → Wave} {d : BitVec 7} {f : Nat → FRes}
    (h : Runs i s c s1) (hx : exec i s = runPlain i eff s) (heff : eff c = c.putF d f) (he : endsRegion i = false) :
    WritesV i s c s1 d false c.act (fun l => BitVec.ofNat 64 (f l).1) (orFlags (c.act.map (fun l => (f l).2))) :=
  writesV_intro h (chk := fun _ => none) hx rfl he (act_lt h) (fun w => by rw [heff]; rfl)

theorem plainS {i : Instr} {s s1 : State} {c : Ctx} {eff : Ctx → Wave → Wave} {d : BitVec 6} {x : W64}
    (h : Runs i s c s1) (hx : exec i s = runPlain i eff s) (heff : ∀ w, eff c w = w.sset d.toNat x)
    (he : endsRegion i = false) : WritesS i s c s1 d x :=
  writesS_intro h (chk := fun _ => none) hx rfl he heff

theorem plainP {i : Instr} {s s1 : State} {c : Ctx} {eff : Ctx → Wave → Wave} {d : BitVec 4} {f : Nat → Bool}
    (h : Runs i s c s1) (hx : exec i s = runPlain i eff s) (heff : eff c = c.putP d f) (he : endsRegion i = false) :
    WritesP i s c s1 d f 0 :=
  writesP_intro h (chk := fun _ => none) hx rfl he (fun w => by rw [heff, orFlags_zero]; rfl)

end Sys2Proof.Machine
end

