-- ==== Sys2Proof/Laws/Sched.lean ====
section
/-! SUPPORT. Laws/Sched.lean: what the choice of a wave and of its set says (R54, R56), and what a successful decoding says of the bytes. -/

open Sys2Proof

namespace Sys2Proof.Machine

/-- The set that a wave issues is one of its ready sets. -/
theorem mem_choose (w : Wave) (rs : List Ready) (r : Ready) (h : w.choose rs = some r) : r ∈ rs := by
  have hb : ∀ b xs, ∀ r, atBase b xs = some r → r ∈ xs := fun b xs r h => List.mem_of_find?_eq_some h
  have hl : ∀ xs r, r ∈ atLowest xs → r ∈ xs := fun xs r h => (List.mem_filter.1 h).1
  unfold Wave.choose at h
  simp only at h
  split at h
  · have h1 := hb _ _ _ h
    have h2 := hl _ _ h1
    exact (List.mem_filter.1 (List.mem_filter.1 h2).1).1
  · split at h
    · rename_i r' h'; cases h; exact hl _ _ (hb _ _ _ h')
    · exact hl _ _ (hb _ _ _ h)

/-- The least of a list is in it. -/
theorem mem_leastBy (f : Elig → Nat) (es : List Elig) (e : Elig) (h : leastBy f es = some e) : e ∈ es := by
  have key : ∀ (es : List Elig) (m : Option Elig) (P : Elig → Prop), (∀ x, m = some x → P x) → (∀ x ∈ es, P x) →
      ∀ e, es.foldl (fun m e => match m with
    | none => some e
    | some x => if f e < f x || (f e = f x && e.w.loc.slot < x.w.loc.slot) then some e else some x) m = some e → P e := by
    intro es
    induction es with
    | nil => intro m P hm _ e h; exact hm _ h
    | cons a es ih =>
      intro m P hm hp e h
      rw [List.foldl_cons] at h
      refine ih _ P ?_ (fun x hx => hp x (List.mem_cons_of_mem _ hx)) e h
      intro x hx
      cases m with
      | none => cases hx; exact hp _ (List.mem_cons_self ..)
      | some y =>
        simp only at hx
        split at hx
        · cases hx; exact hp _ (List.mem_cons_self ..)
        · cases hx; exact hm _ rfl
  exact key es none (· ∈ es) (by simp) (fun x h => h) e h

theorem mem_byTurn (s : State) (n) (es) (e) (h : s.byTurn n es = some e) : e ∈ es :=
  (List.mem_filter.1 (mem_leastBy _ _ _ h)).1

/-- A wave passed to by the bound of R54 is one of the eligible. -/
theorem mem_pass (s : State) (n) : ∀ k es e, s.pass n k es = some e → e.1 ∈ es := by
  intro k
  induction k with
  | zero => intro es e h; cases h
  | succ k ih =>
    intro es e h
    unfold State.pass at h
    split at h
    · cases h
    · rename_i x hx
      have := mem_byTurn _ _ _ _ hx
      split at h
      · split at h
        · cases h; exact this
        · rename_i r hr; cases h; exact (List.mem_filter.1 (ih _ _ hr)).1
      · cases h; exact this

/-- The wave that a quarter issues from is one of the eligible. -/
theorem mem_chooseWave (s : State) (n es e) (h : s.chooseWave n es = some e) : e.1 ∈ es := by
  unfold State.chooseWave at h
  split at h
  · rename_i x hx; cases h; exact (List.mem_filter.1 (mem_leastBy _ _ _ hx)).1
  · exact mem_pass _ _ _ _ _ h

/-- What a ready set would issue is what its PC fetches, or else the instruction that it has issued. -/
theorem readySet_what (s : State) (l w x r) (h : s.readySet l w x = some r) :
    r.fset = x ∧ r.what = match x.again with
      | none => s.fetch l w.agent x.pc
      | some i => .word i (instrLen i) := by
  have key : ∀ r, (match s.fetch l w.agent x.pc with
      | .wait => none
      | .word i n => if w.clear x.base i x.stall then some (Ready.mk x (.word i n)) else none
      | f => some ⟨x, f⟩) = some r → r.fset = x ∧ r.what = s.fetch l w.agent x.pc := by
    intro r h
    cases hf : s.fetch l w.agent x.pc <;> simp [hf] at h
    · subst h; exact ⟨rfl, rfl⟩
    · subst h; exact ⟨rfl, rfl⟩
    · obtain ⟨-, rfl⟩ := h; exact ⟨rfl, rfl⟩
  unfold State.readySet at h
  unfold FSet.again
  dsimp only at h
  cases hs : x.stall with
  | none =>
    simp only [hs] at h ⊢
    exact key r (by rw [hs]; exact h)
  | some y =>
    simp only [hs] at h ⊢
    split at h
    · cases h
    · by_cases hi : y.issued = true
      · simp only [hi, if_true] at h ⊢
        cases h; exact ⟨rfl, rfl⟩
      · simp only [hi] at h ⊢
        exact key r (by rw [hs]; exact h)

/-- What a quarter issues is what the set's PC fetches from the launch's own space, or else the instruction that the set has
issued. -/
theorem turn_what (s : State) (q t l) (h : s.turn q = some t) (hl : s.launch? t.e.w.launch = some l) :
    t.r.what = match t.r.fset.again with
      | none => s.fetch l t.e.w.agent t.r.fset.pc
      | some i => .word i (instrLen i) := by
  unfold State.turn at h
  simp only at h
  split at h
  · cases h
  · rename_i p hp
    split at h
    · cases h
    · rename_i r hr
      cases h
      have h1 := mem_chooseWave _ _ _ _ hp
      have h2 := mem_choose _ _ _ hr
      unfold State.eligible at h1
      split at h1
      · cases h1
      · obtain ⟨w, -, hw⟩ := List.mem_map.1 (List.mem_filter.1 h1).1
        rw [← hw] at h2 hl
        simp only at h2 hl
        simp only [State.readySets, hl, List.mem_filterMap] at h2
        obtain ⟨x, -, hx⟩ := h2
        obtain ⟨h3, h4⟩ := readySet_what _ _ _ _ _ hx
        rw [← hw, h3]; exact h4

/-- Where decoding succeeds, the bytes hold a whole word, of the length that their first bits give. -/
theorem decode_len (bs i rest) (h : decode bs = .ok (i, rest)) :
    ∃ len, Len.ofCode ((bs.headD 0).setWidth 2) = some len ∧ ¬ bs.length < len.bytes ∧ (encodeBytes i).length = len.bytes := by
  unfold decode at h
  split at h
  · cases h
  · rename_i b bs'
    split at h
    · cases h
    · rename_i len hlen
      split at h
      · cases h
      · rename_i hl
        split at h
        · cases h
        · rename_i j hj
          injection h with h; injection h with h1 h2; subst h1
          refine ⟨len, hlen, hl, ?_⟩
          unfold decodeRaw at hj
          split at hj
          · cases hj
          · split at hj
            · cases hj
            · split at hj
              · cases hj
              · split at hj
                · cases hj
                · split at hj
                  · cases hj
                  · rename_i e he
                    split at hj
                    · cases hj
                    · split at hj
                      · cases hj
                      · rename_i hne
                        injection hj with hj; subst hj
                        have : e = Raw.ofWord len (BitVec.ofNat 128 (bytesNat (List.take len.bytes (b :: bs')))) := by
                          simp at hne; exact hne.1
                        unfold encodeBytes; rw [he]; subst this
                        simp [wordBytes, Raw.ofWord]

end Sys2Proof.Machine
end

