-- ==== Sys2Proof/Tests/Slice0.lean ====
section
/-! SUPPORT. Tests/Slice0.lean: the package's own tests: ill-formed instructions, the manual's worked encodings, small tests of single steps on values of the manual, and a witness for the hypotheses of every statement. -/

open Sys2Proof Sys2Proof.Machine

set_option maxRecDepth 20000
set_option Elab.async false

/-! ## Small states -/

def tG : Guard := ⟨15, false⟩
def tV (r : BitVec 7) : VSrc := ⟨r, .ident⟩
def tR (r : BitVec 7) : RSrc := .vec (tV r)
def tOp2 (ty : IntTy) : OpV2 := ⟨tG, .w64, ty, false, 4, tV 2, .vec (tV 3)⟩
def tOp1 (ty : IntTy) : OpV1 := ⟨tG, ty, false, 4, tV 2⟩
def tOp3 (ty : IntTy) : OpV3 := ⟨tG, ty, false, 4, tV 2, tR 6, tV 8⟩
def tF2 (f : FFmt) : OpF2 := ⟨tG, .w64, f, .rne, 4, tV 2, .vec (tV 3)⟩

/-- One wave of lanes 0 to 3 on die 0, core 0, quarter 0, issuing an instruction at 0x10000, after an edit of the wave. -/
def tAt (i : Instr) (f : Wave → Wave) : State :=
  let s := State.reset.placeWord (encodeBytes i)
  { s with
    own := { s.own with cur := some ⟨2, 0x10000, 0, 15, (encodeBytes i).length⟩, agenda := [] }
    waves := s.waves.map (fun w => f { w with fibres := w.fibres.take 4 }) }

/-- The launch has a backing store of 4,096 bytes for each wave. -/
def tStore (s : State) : State :=
  { s with launches := s.launches.map (fun l => { l with block := { l.block with bsbase := 0x18000, bssize := 4096 } }) }

def tExec (i : Instr) (f : Wave → Wave) : Out := exec i (tAt i f)

/-- The wave of an outcome, and parts of it. -/
def tWave (o : Out) : Option Wave :=
  match o with
  | .next t => t.wave? 2
  | .fault _ => none
  | .refused _ => none
def tVec (o : Out) (r l : Nat) : Option Nat := (tWave o).map (fun w => (w.slice r l).toNat)
def tSca (o : Out) (n : Nat) : Option Nat := (tWave o).map (fun w => (w.sget n).toNat)
def tPrd (o : Out) (p l : Nat) : Option Bool := (tWave o).map (fun w => w.pget p l)
def tFlg (o : Out) : Option Nat := (tWave o).map (fun w => w.fflags.toNat)
def tPc (o : Out) (l : Nat) : Option Nat := (tWave o).map (fun w => ((w.fibre? l).map (fun f => f.pc.toNat)).getD 0)
def tFault (o : Out) : Option FaultName := (tWave o).bind (fun w => w.parked.map (fun p => p.fault))

/-- v2 and v3, or v2, v6 and v8, hold the given words in every lane. -/
def tAB (a b : W32) (w : Wave) : Wave := (w.setSlices 2 [0, 1, 2, 3] (fun _ => a)).setSlices 3 [0, 1, 2, 3] (fun _ => b)
def tABC (a b c : W32) (w : Wave) : Wave :=
  ((w.setSlices 2 [0, 1, 2, 3] (fun _ => a)).setSlices 6 [0, 1, 2, 3] (fun _ => b)).setSlices 8 [0, 1, 2, 3] (fun _ => c)

/-! ## Ill-formed instructions: every check of WellFormed refuses one -/

theorem test_wf_accepts : (Instr.add (tOp2 .i32)).wf = true := by decide
theorem test_wf_guard : (Instr.add { tOp2 .i32 with g := ⟨15, true⟩ }).wf = false := by decide
theorem test_wf_pair : (Instr.add { tOp2 .i64 with d := 5 }).wf = false := by decide
theorem test_wf_pair_source : (Instr.add (tOp2 .i64)).wf = false := by decide
theorem test_wf_mirror : (Instr.add { tOp2 .i32 with a := ⟨2, .mir 7⟩ }).wf = false := by decide
theorem test_wf_imm_long : (Instr.add { tOp2 .i32 with b := .imm 1 }).wf = false := by decide
theorem test_wf_imm_x16 : (Instr.add { tOp2 .i32 with len := .w96, b := .imm 65536 }).wf = false := by decide
theorem test_wf_imm_fits : (Instr.add { tOp2 .i8 with len := .w96, b := .imm 200 }).wf = false := by decide
theorem test_wf_imm_flt : (Instr.fadd { tF2 .f16 with len := .w128, b := .imm 65536 }).wf = false := by decide
theorem test_wf_imm_any : (Instr.shl { tOp2 .i32 with len := .w96, b := .imm 65536 }).wf = false := by decide
theorem test_wf_nop : (Instr.nop ⟨tG, .w128⟩).wf = false := by decide
theorem test_wf_bra : (Instr.bra ⟨tG, .w64, 0⟩).wf = false ∧ (Instr.bra ⟨tG, .w96, 65536⟩).wf = false := by decide
theorem test_wf_target : (Instr.brx ⟨tG, .vec 3⟩).wf = false := by decide
theorem test_wf_frame : (Instr.call ⟨tG, 0, 0⟩).wf = false ∧ (Instr.callx ⟨tG, .scalar 1, 0⟩).wf = false := by decide
theorem test_wf_carry : (Instr.addc ⟨tG, .i32, 4, tV 2, tR 3, 0, 0⟩).wf = false := by decide
theorem test_wf_sat : (Instr.mulh { tOp2 .i32 with sat := true }).wf = false := by decide
theorem test_wf_signed : (Instr.and (tOp2 .i32)).wf = false ∧ (Instr.sar (tOp2 .b32)).wf = false ∧ (Instr.abs (tOp1 .b32)).wf = false := by decide
theorem test_wf_div_sat : (Instr.div { tOp2 .b32 with sat := true }).wf = false := by decide
theorem test_wf_madw : (Instr.madw (tOp3 .i64)).wf = false := by decide
theorem test_wf_bfi : (Instr.bfi (tOp3 .i32)).wf = false := by decide
theorem test_wf_lea : (Instr.lea ⟨tG, .i8, 0, 4, tV 2, tR 6, tV 8⟩).wf = false := by decide
theorem test_wf_count : (Instr.clz (tOp1 .i32)).wf = false := by decide
theorem test_wf_sli : (Instr.sli ⟨tG, .w64, .i64, 1, 0⟩).wf = false ∧ (Instr.sli ⟨tG, .w96, .i32, 1, 65536⟩).wf = false := by decide
theorem test_wf_format : (Instr.fadd (tF2 .e4m3)).wf = false ∧ (Instr.frcp ⟨tG, .bf16, .rne, 4, tV 2⟩).wf = false
    ∧ (Instr.fcvt ⟨tG, .f32, .f32, .rne, 3, tV 2⟩).wf = false ∧ (Instr.pkfma ⟨tG, .f32, .rne, .straight, 4, tV 2, tR 6, tV 8⟩).wf = false
    ∧ (Instr.fdot2 ⟨tG, .f32, .rne, 4, tV 2, tR 6, tV 8⟩).wf = false ∧ (Instr.fdot4 ⟨tG, .f32, .rne, 4, tV 2, tR 6, tV 8⟩).wf = false := by decide
theorem test_wf_mov : (Instr.mov ⟨tG, .i32, 4, tV 2⟩).wf = false ∧ (Instr.movi ⟨tG, .w64, .f32, 4, 0⟩).wf = false := by decide
theorem test_wf_lane : (Instr.rdlane ⟨tG, .w96, .b32, 4, tV 2, .imm 64⟩).wf = false
    ∧ (Instr.wrlane ⟨tG, .w64, .b32, 4, 2, .vec ⟨3, .xor 1⟩⟩).wf = false := by decide
theorem test_wf_scan : (Instr.scan ⟨tG, .and, .int .i32, false, 4, tV 2⟩).wf = false
    ∧ (Instr.reduce ⟨tG, .add, .int .i32, true, 4, tV 2⟩).wf = false := by decide
theorem test_wf_mem : (Instr.ld ⟨tG, .w96, .int .b32, none, .scalar 1, .absent, 0, 4⟩).wf = false
    ∧ (Instr.ld ⟨tG, .w64, .int .b32, none, .scalar 1, .absent, 4, 4⟩).wf = false
    ∧ (Instr.lds ⟨tG, .w64, .int .b32, some .die, 1, .absent, 0, 4⟩).wf = false := by decide
theorem test_wf_atom : (Instr.atom ⟨tG, .fadd, true, none, .scalar 1, tR 2, 4, tV 6, 0⟩).wf = false
    ∧ (Instr.atom ⟨tG, .add, false, none, .scalar 1, tR 2, 4, tV 6, 8⟩).wf = false
    ∧ (Instr.red ⟨tG, .cas, false, none, .scalar 1, tR 2, tV 6⟩).wf = false := by decide
theorem test_wf_binit : (Instr.binit ⟨tG, 4, .imm 1 2147483648⟩).wf = false := by decide
theorem test_wf_token : (Instr.wait ⟨tG, .w96, 2, 4, .imm 16⟩).wf = false ∧ (Instr.expect ⟨tG, .w64, 4, .vec ⟨3, .xor 1⟩⟩).wf = false := by decide
theorem test_wf_grow : (Instr.grow ⟨tG, .w96, 4, .imm 24⟩).wf = false ∧ (Instr.shrink ⟨tG, .w96, .imm 112⟩).wf = false := by decide

def tEng : OpEng where
  g := tG
  ssp := .global
  dsp := .scratch
  var := 0
  gate := false
  d := 5
  a := 32
  b := 0
  imm := 4096
  hnd := 4
  bv := false
  mc := 0
  scap := 0
  dcap := 0
  qb := 0
  qsrc := 0

theorem test_wf_eng : (Instr.cpy tEng).wf = true ∧ (Instr.cpy { tEng with gate := true }).wf = false
    ∧ (Instr.cpy { tEng with scap := 1 }).wf = false ∧ (Instr.cpy { tEng with qb := 1 }).wf = false
    ∧ (Instr.gather tEng).wf = false ∧ (Instr.cpy2d { tEng with gate := true }).wf = false := by decide
theorem test_wf_qcpy : (Instr.qcpy { tEng with imm := 1 * 65536 + 32 }).wf = true ∧ (Instr.qcpy { tEng with imm := 32 }).wf = false
    ∧ (Instr.qcpy { tEng with imm := 1 * 65536 + 32, qb := 7 }).wf = false := by decide
theorem test_wf_coll : (Instr.coll { tEng with ssp := .scratch, mc := 15 }).wf = true ∧ (Instr.coll { tEng with ssp := .scratch, mc := 7 }).wf = false
    ∧ (Instr.coll { tEng with mc := 15 }).wf = false := by decide
theorem test_wf_rpush : (Instr.rpush ⟨tG, 8, 32, 24, 25, false, 0, .global, 0⟩).wf = false := by decide
theorem test_wf_mma : (Instr.mma ⟨tG, .w64, .bf16, .regs 8, .regs 60, 0, 0, 0⟩).wf = false
    ∧ (Instr.mma ⟨tG, .w96, .q4, .regs 8, .regs 16, 64, 41, 0⟩).wf = false ∧ (Instr.mma ⟨tG, .w64, .q4, .desc 9, .desc 12, 0, 0, 0⟩).wf = false
    ∧ (Instr.mma ⟨tG, .w128, .q4, .regs 8, .regs 16, 0, 0, 0⟩).wf = false := by decide
theorem test_wf_mepi : (Instr.mepi ⟨tG, .bf16, .relu, 9, 28, 1, 0⟩).wf = false
    ∧ (Instr.mepi ⟨tG, .bf16, .clamp, 9, 28, 0x3F800000, 0⟩).wf = false := by decide
theorem test_wf_msts : (Instr.msts ⟨tG, .f32, .rz, 1, 2, 3, 0, 64, false⟩).wf = false
    ∧ (Instr.msts ⟨tG, .f32, .rne, 1, 2, 3, 1, 64, false⟩).wf = false := by decide
theorem test_wf_estate : (Instr.bequeath ⟨tG, 4, .vec (tV 8), 1, 0, .int .i32⟩).wf = false
    ∧ (Instr.bequeath ⟨tG, 127, .vec (tV 8), 1, 3, .int .i32⟩).wf = false ∧ (Instr.claim ⟨tG, 6, 40, .vec (tV 9), 2, 2, .int .i32⟩).wf = false
    ∧ (Instr.claim ⟨tG, 6, 40, .vec (tV 10), 2, 9, .int .i32⟩).wf = false ∧ (Instr.estate ⟨tG, 6, 40, .vec (tV 9)⟩).wf = false := by decide
theorem test_wf_srd : (Instr.srd ⟨tG, true, .vec 3, 0, .absent⟩).wf = false ∧ (Instr.srd ⟨tG, false, .vec 3, 27, .absent⟩).wf = false
    ∧ (Instr.srd ⟨tG, false, .vec 3, 25, .absent⟩).wf = false := by decide

/-! ## Worked encodings, byte by byte (02, 06 to 11, 15, 17, 20) -/
/-- spec file 02 R19. -/
theorem test_word_nop : decode [0x01, 0x3C, 0x00, 0x00, 0x00, 0x00, 0x00, 0x00]
    = .ok (.nop ⟨tG, .w64⟩, []) := by decide
/-- spec file 02. -/
theorem test_word_add : decode [0x41, 0x04, 0x82, 0x00, 0xC0, 0x00, 0x99, 0x00]
    = .ok (.add ⟨⟨1, false⟩, .w64, .i32, false, 4, tV 2, .vec ⟨3, .xor 8⟩⟩, []) := by decide
/-- spec file 02. -/
theorem test_word_fma : decode [0x0E, 0x49, 0x43, 0x00, 0x80, 0x00, 0x40, 0x00, 0x83, 0xA0, 0x00, 0x00]
    = .ok (.fma ⟨⟨2, true⟩, .f32, .rz, 6, tV 1, tR 2, ⟨3, .shd 1⟩⟩, []) := by decide
/-- spec file 02. -/
theorem test_word_add_imm : decode [0x43, 0xBC, 0x42, 0x01, 0x00, 0x00, 0x80, 0x40, 0x70, 0x11, 0x01, 0x00, 0x00, 0x00, 0x00, 0x00]
    = .ok (.add ⟨tG, .w128, .i32, false, 5, tV 5, .imm 70000⟩, []) := by decide
/-- spec file 06. -/
theorem test_word_iset : decode [0xB5, 0xBC, 0x00, 0x00, 0xC0, 0x08, 0x80, 0x90]
    = .ok (.iset ⟨tG, .w64, .i32, .lt, 1, tV 0, .scalar 35⟩, []) := by decide
/-- spec file 06. -/
theorem test_word_addc : decode [0x4A, 0x3C, 0x02, 0x00, 0x80, 0x00, 0x80, 0x01, 0x06, 0x00, 0x03, 0x00]
    = .ok (.addc ⟨tG, .b32, 4, tV 0, tR 2, 6, 3⟩, []) := by decide
/-- spec file 07. -/
theorem test_word_fset : decode [0x1A, 0x3D, 0x41, 0x00, 0x00, 0x00, 0x00, 0x50, 0x00, 0x00, 0x00, 0x3F]
    = .ok (.fset ⟨tG, .w96, .f32, .lt, 2, tV 1, .imm 0x3F00⟩, []) := by decide
/-- spec file 07. -/
theorem test_word_fcvt : decode [0x45, 0xBD, 0x81, 0x00, 0x00, 0x00, 0x00, 0x03]
    = .ok (.fcvt ⟨tG, .e4m3, .f32, .rne, 3, tV 2⟩, []) := by decide
/-- spec file 08. -/
theorem test_word_movi : decode [0x87, 0x3D, 0x04, 0x00, 0x00, 0x00, 0x80, 0x01, 0x80, 0x3F, 0x80, 0x3F, 0x00, 0x00, 0x00, 0x00]
    = .ok (.movi ⟨tG, .w128, .int .b32, 8, 0x3F803F80⟩, []) := by decide
/-- spec file 08. -/
theorem test_word_scan : decode [0xA1, 0xBD, 0x81, 0x00, 0x00, 0x00, 0x80, 0x20]
    = .ok (.scan ⟨tG, .add, .int .i32, true, 3, tV 2⟩, []) := by decide
/-- spec file 08. -/
theorem test_word_bra : decode [0x06, 0x4C, 0x00, 0x00, 0x00, 0x00, 0x00, 0x00, 0x00, 0x00, 0xFA, 0xFF]
    = .ok (.bra ⟨⟨3, true⟩, .w96, 0xFFFA⟩, []) := by decide
/-- spec file 08. -/
theorem test_word_call : decode [0x0F, 0x3C, 0x00, 0x00, 0x00, 0x00, 0x00, 0x00, 0x40, 0x00, 0x00, 0x00, 0x08, 0x00, 0x00, 0x00]
    = .ok (.call ⟨tG, 0x40, 8⟩, []) := by decide
/-- spec file 09. -/
theorem test_word_ld : decode [0xC1, 0x05, 0x01, 0x08, 0x40, 0x00, 0x00, 0x02]
    = .ok (.ld ⟨⟨1, false⟩, .w64, .flt .f32, none, .scalar 32, .vec (tV 1), 0, 2⟩, []) := by decide
/-- spec file 09. -/
theorem test_word_st : decode [0xC7, 0xBD, 0x03, 0x0A, 0x00, 0x00, 0x80, 0x31, 0x00, 0x01, 0x00, 0x00, 0x00, 0x00, 0x00, 0x00]
    = .ok (.st ⟨tG, .w128, .int .b32, some .pkg, .scalar 40, .absent, 0x100, 7⟩, []) := by decide
/-- spec file 09. -/
theorem test_word_atom : decode [0x02, 0xBE, 0x02, 0x0A, 0x80, 0x00, 0x00, 0x00, 0x09, 0x00, 0x00, 0x00]
    = .ok (.atom ⟨tG, .add, false, none, .scalar 40, tR 2, 5, tV 9, 0⟩, []) := by decide
/-- spec file 09. -/
theorem test_word_fence : decode [0x0D, 0x3E, 0x00, 0x00, 0x00, 0x00, 0x80, 0x03]
    = .ok (.fence ⟨tG, .rel, .die⟩, []) := by decide
/-- spec file 09. -/
theorem test_word_binit : decode [0x43, 0x3E, 0x00, 0x01, 0x00, 0x00, 0x00, 0x00, 0x00, 0x10, 0x00, 0x00, 0x01, 0x00, 0x00, 0x00]
    = .ok (.binit ⟨tG, 4, .imm 1 4096⟩, []) := by decide
/-- spec file 09. -/
theorem test_word_wait : decode [0x4E, 0xBE, 0x01, 0x01, 0x00, 0x00, 0x00, 0x40, 0x00, 0x00, 0x00, 0x00]
    = .ok (.wait ⟨tG, .w96, 3, 4, .imm 0⟩, []) := by decide
/-- spec file 10. -/
theorem test_word_cpy : decode [0x83, 0xBE, 0x02, 0x08, 0x00, 0x00, 0x00, 0x01, 0x00, 0x10, 0x00, 0x00, 0x04, 0x00, 0x00, 0x00]
    = .ok (.cpy tEng, []) := by decide
/-- spec file 10. -/
theorem test_word_mmode_on : decode [0xC1, 0x3E, 0x00, 0x00, 0x00, 0x00, 0x40, 0x00]
    = .ok (.mmodeOn ⟨tG⟩, []) := by decide
/-- spec file 10. -/
theorem test_word_mmode_off : decode [0xC1, 0x3E, 0x00, 0x00, 0x00, 0x00, 0x00, 0x00]
    = .ok (.mmodeOff ⟨tG⟩, []) := by decide
/-- spec file 10. -/
theorem test_word_mzero : decode [0xC5, 0x3E, 0x00, 0x00, 0x00, 0x00, 0x00, 0x00]
    = .ok (.mzero ⟨tG⟩, []) := by decide
/-- spec file 10. -/
theorem test_word_mma : decode [0xC9, 0x3E, 0x00, 0x02, 0x00, 0x02, 0x00, 0x00]
    = .ok (.mma ⟨tG, .w64, .bf16, .regs 8, .regs 8, 0, 0, 0⟩, []) := by decide
/-- spec file 10. -/
theorem test_word_mma_q4 : decode [0xCA, 0x3E, 0x00, 0x02, 0x00, 0x04, 0x80, 0x01, 0x28, 0x00, 0x29, 0x00]
    = .ok (.mma ⟨tG, .w96, .q4, .regs 8, .regs 16, 40, 41, 0⟩, []) := by decide
/-- spec file 11. -/
theorem test_word_bequeath : decode [0x02, 0x3F, 0x00, 0x01, 0x00, 0x02, 0x00, 0x00, 0x01, 0x00, 0x03, 0x02]
    = .ok (.bequeath ⟨tG, 4, .vec (tV 8), 1, 3, .int .i32⟩, []) := by decide
/-- spec file 11. -/
theorem test_word_claim : decode [0x06, 0x3F, 0x03, 0x0A, 0x80, 0x02, 0x00, 0x00, 0x02, 0x00, 0x02, 0x02]
    = .ok (.claim ⟨tG, 6, 40, .vec (tV 10), 2, 2, .int .i32⟩, []) := by decide
/-- spec file 11. -/
theorem test_word_migrate : decode [0x0D, 0xBF, 0x00, 0x05, 0x00, 0x00, 0x00, 0x00]
    = .ok (.migrate ⟨tG, 1, .scalar 20⟩, []) := by decide
/-- spec file 11. -/
theorem test_word_srd : decode [0x41, 0x3F, 0x00, 0x00, 0x00, 0x00, 0x80, 0x01]
    = .ok (.srd ⟨tG, false, .vec 0, 0, .absent⟩, []) := by decide
/-- spec file 11. -/
theorem test_word_grow : decode [0x4A, 0x3F, 0x02, 0x00, 0x00, 0x00, 0x00, 0x40, 0x00, 0x00, 0x20, 0x00]
    = .ok (.grow ⟨tG, .w96, 4, .imm 32⟩, []) := by decide
/-- spec file 15 line 47. -/
theorem test_word_rpush : decode [0x9A, 0x3E, 0x04, 0x08, 0x00, 0x06, 0x00, 0x00, 0x19, 0x00, 0x01, 0x00]
    = .ok (.rpush ⟨tG, 8, 32, 24, 25, true, 0, .global, 0⟩, []) := by decide
/-- spec file 15 line 60. -/
theorem test_word_wait_scalar : decode [0x4D, 0x3E, 0xC1, 0x01, 0x80, 0x01, 0x00, 0x80]
    = .ok (.wait ⟨tG, .w64, 2, 7, .scalar 6⟩, []) := by decide
/-- spec file 15 line 72. -/
theorem test_word_mma_desc : decode [0xC9, 0x3E, 0x80, 0x02, 0x00, 0x03, 0x80, 0x0D]
    = .ok (.mma ⟨tG, .w64, .q4, .desc 10, .desc 12, 0, 0, 0⟩, []) := by decide
/-- spec file 15 line 87. -/
theorem test_word_mepi : decode [0xCF, 0x3E, 0x40, 0x02, 0x00, 0x07, 0x40, 0x02, 0x00, 0x00, 0x00, 0x00, 0x00, 0x00, 0x00, 0x00]
    = .ok (.mepi ⟨tG, .bf16, .relu, 9, 28, 0, 0⟩, []) := by decide
/-- spec file 17 line 37. -/
theorem test_word_red : decode [0x06, 0x0E, 0x80, 0x02, 0x80, 0x01, 0x00, 0x00, 0x01, 0x00, 0x00, 0x00]
    = .ok (.red ⟨⟨3, false⟩, .add, false, none, .scalar 10, tR 6, tV 1⟩, []) := by decide
/-- spec file 17 line 63. -/
theorem test_word_rdlane : decode [0x96, 0x3D, 0x46, 0x04, 0x00, 0x00, 0x80, 0x41, 0x00, 0x00, 0x00, 0x00]
    = .ok (.rdlane ⟨tG, .w96, .b32, 12, tV 17, .imm 0⟩, []) := by decide
/-- spec file 20 heir 9. -/
theorem test_word_claim_scalar : decode [0x06, 0x3F, 0x02, 0x08, 0x80, 0x00, 0x00, 0x80, 0x01, 0x00, 0x02, 0x02]
    = .ok (.claim ⟨tG, 4, 32, .scalar 2, 1, 2, .int .i32⟩, []) := by decide
/-- R30: OP 0xE0 is unassigned; R10: LEN 00; R31 step 6: GUARD 15 with NEG; step 7: NOP at 128 bits. -/
theorem test_word_refused : decode [0x81, 0x3F, 0, 0, 0, 0, 0, 0] = .error .unassigned ∧ decode [0x00, 0x3C, 0, 0, 0, 0, 0, 0] = .error .lenZero
    ∧ decode [0x01, 0x7C, 0, 0, 0, 0, 0, 0] = .error .guard
    ∧ decode [0x03, 0x3C, 0, 0, 0, 0, 0, 0, 0, 0, 0, 0, 0, 0, 0, 0] = .error .length := by decide
theorem test_table_word : decodeTableWord 64 0x3C01 = some (.nop ⟨tG, .w64⟩) := by decide

/-! ## Single steps, on values of the manual -/

/-- R69: ADD wraps, and saturates under .sat. -/
theorem test_add : tVec (tExec (.add (tOp2 .i32)) (tAB 0x7FFFFFFF 1)) 4 0 = some 0x80000000
    ∧ tVec (tExec (.add { tOp2 .i32 with sat := true }) (tAB 0x7FFFFFFF 1)) 4 0 = some 0x7FFFFFFF := by decide +kernel
/-- R69: SUB of .b8 saturates at 0; R34: the result is zero-extended. -/
theorem test_sub : tVec (tExec (.sub { tOp2 .b8 with sat := true }) (tAB 3 5)) 4 1 = some 0
    ∧ tVec (tExec (.sub (tOp2 .b8)) (tAB 3 5)) 4 1 = some 0xFE := by decide +kernel
/-- R69: MUL keeps the low half, MULH gives the high half by the type's sign. -/
theorem test_mul : tVec (tExec (.mul (tOp2 .b32)) (tAB 0xFFFFFFFF 2)) 4 0 = some 0xFFFFFFFE
    ∧ tVec (tExec (.mulh (tOp2 .b32)) (tAB 0xFFFFFFFF 2)) 4 0 = some 1
    ∧ tVec (tExec (.mulh (tOp2 .i32)) (tAB 0xFFFFFFFF 2)) 4 0 = some 0xFFFFFFFF := by decide +kernel
/-- R71's table: 7 by -2, -7 by 2, 9 by 0, the least number by -1. -/
theorem test_div : tVec (tExec (.div (tOp2 .i32)) (tAB 7 0xFFFFFFFE)) 4 0 = some 0xFFFFFFFD
    ∧ tVec (tExec (.div (tOp2 .i32)) (tAB 0xFFFFFFF9 2)) 4 0 = some 0xFFFFFFFD
    ∧ tVec (tExec (.div (tOp2 .i32)) (tAB 9 0)) 4 0 = some 0xFFFFFFFF
    ∧ tVec (tExec (.div { tOp2 .i32 with sat := true }) (tAB 0x80000000 0xFFFFFFFF)) 4 0 = some 0x7FFFFFFF := by decide +kernel
theorem test_rem : tVec (tExec (.rem (tOp2 .i32)) (tAB 7 0xFFFFFFFE)) 4 0 = some 1
    ∧ tVec (tExec (.rem (tOp2 .i32)) (tAB 0xFFFFFFF9 2)) 4 0 = some 0xFFFFFFFF
    ∧ tVec (tExec (.rem (tOp2 .i32)) (tAB 9 0)) 4 0 = some 9
    ∧ tVec (tExec (.rem (tOp2 .i32)) (tAB 0x80000000 0xFFFFFFFF)) 4 0 = some 0 := by decide +kernel
/-- R72. -/
theorem test_minmax : tVec (tExec (.min (tOp2 .i32)) (tAB 0xFFFFFFFF 1)) 4 0 = some 0xFFFFFFFF
    ∧ tVec (tExec (.max (tOp2 .b32)) (tAB 0xFFFFFFFF 1)) 4 0 = some 0xFFFFFFFF := by decide +kernel
theorem test_abs_neg : tVec (tExec (.abs { tOp1 .i32 with sat := true }) (tAB 0x80000000 0)) 4 0 = some 0x7FFFFFFF
    ∧ tVec (tExec (.neg (tOp1 .i32)) (tAB 0x80000000 0)) 4 0 = some 0x80000000 := by decide +kernel
/-- R73: ANDN, and counts at and above the width. -/
theorem test_logic : tVec (tExec (.and (tOp2 .b32)) (tAB 0xFF00 0x0FF0)) 4 0 = some 0x0F00
    ∧ tVec (tExec (.or (tOp2 .b32)) (tAB 0xFF00 0x0FF0)) 4 0 = some 0xFFF0
    ∧ tVec (tExec (.xor (tOp2 .b32)) (tAB 0xFF00 0x0FF0)) 4 0 = some 0xF0F0
    ∧ tVec (tExec (.andn (tOp2 .b32)) (tAB 0xFF00 0x0FF0)) 4 0 = some 0xF000 := by decide +kernel
theorem test_shifts : tVec (tExec (.shl (tOp2 .b32)) (tAB 1 32)) 4 0 = some 0 ∧ tVec (tExec (.shr (tOp2 .b32)) (tAB 0x80000000 31)) 4 0 = some 1
    ∧ tVec (tExec (.sar (tOp2 .i32)) (tAB 0x80000000 40)) 4 0 = some 0xFFFFFFFF
    ∧ tVec (tExec (.rot (tOp2 .b32)) (tAB 0x80000001 33)) 4 0 = some 3 := by decide +kernel
/-- R74. -/
theorem test_counts : tVec (tExec (.clz (tOp1 .b32)) (tAB 0x00010000 0)) 4 0 = some 15 ∧ tVec (tExec (.clz (tOp1 .b8)) (tAB 0 0)) 4 0 = some 8
    ∧ tVec (tExec (.popc (tOp1 .b32)) (tAB 0xF00F 0)) 4 0 = some 8 ∧ tVec (tExec (.brev (tOp1 .b8)) (tAB 1 0)) 4 0 = some 0x80 := by decide +kernel
/-- R75's table: fields 28 and 40 of 0xF00000A5. -/
theorem test_bfe : tVec (tExec (.bfe (tOp2 .i32)) (tAB 0xF00000A5 (8 * 256 + 28))) 4 0 = some 0xFFFFFFFF
    ∧ tVec (tExec (.bfe (tOp2 .b32)) (tAB 0xF00000A5 (8 * 256 + 28))) 4 0 = some 0xF
    ∧ tVec (tExec (.bfe (tOp2 .i32)) (tAB 0xF00000A5 (8 * 256))) 4 0 = some 0xFFFFFFA5
    ∧ tVec (tExec (.bfe (tOp2 .i32)) (tAB 0xF00000A5 5)) 4 0 = some 0 := by decide +kernel
/-- R76: bits 0 to 7 of A at position 28 of B; those above the width are dropped. -/
theorem test_bfi : tVec (tExec (.bfi (tOp3 .b32)) (tABC 0xA5 0x12345678 (8 * 256 + 28))) 4 0 = some 0x52345678 := by decide +kernel
/-- R70's 96-bit add, its first step. -/
theorem test_addc : let o := tExec (.addc ⟨tG, .b32, 4, tV 2, tR 3, 6, 6⟩) (tAB 0xFFFFFFFF 1)
    tVec o 4 0 = some 0 ∧ tPrd o 6 0 = some true := by decide +kernel
theorem test_subb : let o := tExec (.subb ⟨tG, .b32, 4, tV 2, tR 3, 15, 6⟩) (tAB 5 5)
    tVec o 4 0 = some 0xFFFFFFFF ∧ tPrd o 6 0 = some true := by decide +kernel
/-- R69, R77, R78. -/
theorem test_mad : tVec (tExec (.mad (tOp3 .i32)) (tABC 3 5 7)) 4 0 = some 22
    ∧ tVec (tExec (.madw (tOp3 .b32)) (tABC 0xFFFFFFFF 2 1)) 5 0 = some 1
    ∧ tVec (tExec (.lea ⟨tG, .b32, 3, 4, tV 2, tR 6, tV 8⟩) (tABC 0x1000 5 4)) 4 0 = some 0x102C := by decide +kernel
theorem test_sel : tVec (tExec (.sel ⟨tG, .b32, 4, tV 2, tR 3, 1⟩) (fun w => (tAB 7 9 w).pset 1 [0, 1, 2, 3] (fun l => l == 2))) 4 2 = some 7
    ∧ tVec (tExec (.sel ⟨tG, .b32, 4, tV 2, tR 3, 1⟩) (tAB 7 9)) 4 2 = some 9 := by decide +kernel
/-- R79: signed and unsigned order differ. -/
theorem test_iset : tPrd (tExec (.iset ⟨tG, .w64, .i32, .lt, 1, tV 2, .vec (tV 3)⟩) (tAB 0xFFFFFFFF 1)) 1 0 = some true
    ∧ tPrd (tExec (.iset ⟨tG, .w64, .b32, .lt, 1, tV 2, .vec (tV 3)⟩) (tAB 0xFFFFFFFF 1)) 1 0 = some false := by decide +kernel
/-- R23: the butterfly pattern reads lane l XOR 1; R14: an inactive lane keeps its slice. -/
theorem test_lane_pattern : tVec (tExec (.mov ⟨tG, .b32, 4, ⟨2, .xor 1⟩⟩) (fun w => w.setSlices 2 [0, 1, 2, 3] (fun l => BitVec.ofNat 32 (10 + l)))) 4 2 = some 13
    ∧ tVec (tExec (.mov ⟨⟨1, false⟩, .b32, 4, tV 2⟩) (fun w => (tAB 5 0 w).pset 1 [0, 1, 2, 3] (fun l => l != 3))) 4 3 = some 0 := by decide +kernel

/-- R82, R83: scalar instructions write the whole 64 bits, sign-extended by an .i type. -/
theorem test_scalar : tSca (tExec (.sadd ⟨tG, .w64, .i32, false, 5, 1, .reg 2⟩) (fun w => (w.sset 1 0x7FFFFFFF).sset 2 1)) 5 = some 0xFFFFFFFF80000000
    ∧ tSca (tExec (.ssub ⟨tG, .w64, .b32, false, 5, 1, .reg 2⟩) (fun w => (w.sset 1 0).sset 2 1)) 5 = some 0xFFFFFFFF
    ∧ tSca (tExec (.smul ⟨tG, .w64, .i64, false, 5, 1, .reg 2⟩) (fun w => (w.sset 1 3).sset 2 5)) 5 = some 15
    ∧ tSca (tExec (.sli ⟨tG, .w96, .i32, 5, 0xFFFF⟩) id) 5 = some 0xFFFFFFFFFFFFFFFF
    ∧ tSca (tExec (.slea ⟨tG, .b64, 3, 5, 1, 2, 3⟩) (fun w => ((w.sset 1 0x1000).sset 2 2).sset 3 1)) 5 = some 0x1011 := by decide +kernel
theorem test_scalar_shift : tSca (tExec (.sshl ⟨tG, .w96, .b64, false, 5, 1, .imm 63⟩) (fun w => w.sset 1 3)) 5 = some 0x8000000000000000
    ∧ tSca (tExec (.ssar ⟨tG, .w96, .i64, false, 5, 1, .imm 64⟩) (fun w => w.sset 1 0x8000000000000000)) 5 = some 0xFFFFFFFFFFFFFFFF
    ∧ tSca (tExec (.sbfe ⟨tG, .w96, .b32, false, 5, 1, .imm 0x0C04⟩) (fun w => w.sset 1 0xABCDE)) 5 = some 0xBCD
    ∧ tPrd (tExec (.sset ⟨tG, .w96, .i64, .ne, 2, 1, .imm 0⟩) (fun w => w.sset 1 4)) 2 3 = some true := by decide +kernel

/-- R89's example: FMA rounds once, FMUL rounds the product and sets NX. -/
theorem test_fma : let o := tExec (.fma ⟨tG, .f32, .rne, 4, tV 2, tR 6, tV 8⟩) (tABC 0x3F800001 0x3F800001 0xBF800002)
    tVec o 4 0 = some 0x28800000 ∧ tFlg o = some 0 := by decide +kernel
theorem test_fmul : let o := tExec (.fmul (tF2 .f32)) (tAB 0x3F800001 0x3F800001)
    tVec o 4 0 = some 0x3F800002 ∧ tFlg o = some 16 := by decide +kernel
/-- R36, R37: infinity minus infinity gives the canonical NaN and NV. -/
theorem test_fadd : let o := tExec (.fadd (tF2 .f32)) (tAB 0x7F800000 0xFF800000)
    tVec o 4 0 = some 0x7FC00000 ∧ tFlg o = some 1 := by decide +kernel
theorem test_fsub : tVec (tExec (.fsub (tF2 .f16)) (tAB 0x4200 0x3C00)) 4 0 = some 0x4000 := by decide +kernel
/-- R90's examples. -/
theorem test_fscale : tVec (tExec (.fscale { tF2 .f32 with len := .w96, b := .imm 0xFF6B }) (tAB 0x3F800000 0)) 4 0 = some 1
    ∧ tVec (tExec (.fscale { tF2 .f32 with len := .w96, b := .imm 0xFF6A }) (tAB 0x3F800000 0)) 4 0 = some 0
    ∧ tFlg (tExec (.fscale { tF2 .f32 with len := .w96, b := .imm 0xFF6A }) (tAB 0x3F800000 0)) = some 24 := by decide +kernel
/-- R42's example, and R98's table. -/
theorem test_fcvt : let o := tExec (.fcvt ⟨tG, .e4m3, .f32, .rne, 4, tV 2⟩) (tAB 0x43960000 0)
    tVec o 4 0 = some 0x79 ∧ tFlg o = some 16 := by decide +kernel
theorem test_ftoi : let f := fun ty rm a => tExec (.ftoi ⟨tG, .f32, ty, rm, 4, tV 2⟩) (tAB a 0)
    tVec (f .i32 .rne 0x40200000) 4 0 = some 2 ∧ tVec (f .i32 .rz 0xC0200000) 4 0 = some 0xFFFFFFFE
    ∧ tVec (f .i32 .rne 0x4F32D05E) 4 0 = some 0x7FFFFFFF ∧ tFlg (f .b32 .rne 0xBF800000) = some 1
    ∧ tVec (f .i8 .rne 0x43480000) 4 0 = some 0x7F ∧ tFlg (f .b32 .rne 0xBECCCCCD) = some 16 := by decide +kernel
theorem test_itof : tVec (tExec (.itof ⟨tG, .f32, .i32, .rne, 4, tV 2⟩) (tAB 16777217 0)) 4 0 = some 0x4B800000
    ∧ tVec (tExec (.itof ⟨tG, .e4m3, .i32, .rne, 4, tV 2⟩) (tAB 500 0)) 4 0 = some 0x7E
    ∧ tFlg (tExec (.itof ⟨tG, .e4m3, .i32, .rne, 4, tV 2⟩) (tAB 500 0)) = some 20 := by decide +kernel
/-- The packed example of 07. -/
theorem test_packed : tVec (tExec (.pkmul ⟨tG, .w64, .f16, .rne, .straight, 4, tV 2, .vec (tV 3)⟩) (tAB 0x40003C00 0x44004200)) 4 0 = some 0x48004200
    ∧ tVec (tExec (.pkmul ⟨tG, .w64, .f16, .rne, .sw, 4, tV 2, .vec (tV 3)⟩) (tAB 0x40003C00 0x44004200)) 4 0 = some 0x46004400
    ∧ tVec (tExec (.pkmul ⟨tG, .w64, .f16, .rne, .bh, 4, tV 2, .vec (tV 3)⟩) (tAB 0x40003C00 0x44004200)) 4 0 = some 0x48004400 := by decide +kernel
/-- R100's example. -/
theorem test_fdot4 : let o := tExec (.fdot4 ⟨tG, .e4m3, .rne, 4, tV 2, tR 6, tV 8⟩) (tABC 0x01B84038 0x7E484848 0x3E800000)
    tVec o 4 0 = some 0x41120000 ∧ tFlg o = some 0 := by decide +kernel
/-- 1 / 0 sets DZ; the square root of 2; 2^0.5; log2 of 8 exactly. -/
theorem test_functions : tFlg (tExec (.frcp ⟨tG, .f32, .rne, 4, tV 2⟩) (tAB 0 0)) = some 2
    ∧ tVec (tExec (.fsqrt ⟨tG, .f32, .rne, 4, tV 2⟩) (tAB 0x40000000 0)) 4 0 = some 0x3FB504F3 := by decide +kernel
/-- R93: a signalling NaN sets bit 0 of the class word; no flag. -/
theorem test_fclass : tVec (tExec (.fclass ⟨tG, .f32, 4, tV 2⟩) (tAB 0x7F800001 0)) 4 0 = some 1
    ∧ tFlg (tExec (.fclass ⟨tG, .f32, 4, tV 2⟩) (tAB 0x7F800001 0)) = some 0 := by decide +kernel

/-- R107's examples. -/
theorem test_bsel : tVec (tExec (.bsel ⟨tG, 4, tV 2, tR 6, tV 8⟩) (tABC 0x11223344 0 0x00010203)) 4 0 = some 0x44332211
    ∧ tVec (tExec (.bsel ⟨tG, 4, tV 2, tR 6, tV 8⟩) (tABC 0x84 0 0x10101000)) 4 0 = some 0xFFFFFF84
    ∧ tVec (tExec (.bsel ⟨tG, 4, tV 2, tR 6, tV 8⟩) (tABC 0x01 0 0x08080818)) 4 0 = some 0x80 := by decide +kernel
/-- R109's example: lanes 1 and 2 of four under p1. -/
theorem test_scan : let w := fun w => (tAB 1 0 w).pset 1 [0, 1, 2, 3] (fun l => l == 1 || l == 2)
    tVec (tExec (.scan ⟨⟨1, false⟩, .add, .int .i32, true, 4, tV 2⟩) w) 4 2 = some 1
    ∧ tVec (tExec (.scan ⟨⟨1, false⟩, .add, .int .i32, true, 4, tV 2⟩) w) 4 3 = some 0
    ∧ tVec (tExec (.reduce ⟨⟨1, false⟩, .add, .int .i32, false, 4, tV 2⟩) w) 4 1 = some 2 := by decide +kernel
/-- R109: 2^24 + 1 + 1 rounded once. -/
theorem test_reduce_f32 : tVec (tExec (.reduce ⟨tG, .add, .f32, false, 4, tV 2⟩)
    (fun w => w.setSlices 2 [0, 1, 2] (fun l => if l = 0 then 0x4B800000 else 0x3F800000))) 4 0 = some 0x4B800001 := by decide +kernel
/-- R106, R108. -/
theorem test_ballot : let w := fun w : Wave => w.pset 1 [0, 1, 2, 3] (fun l => l == 1 || l == 2)
    tSca (tExec (.ballot ⟨tG, 4, 1⟩) w) 4 = some 6 ∧ tPrd (tExec (.vote ⟨tG, .any, 2, 1⟩) w) 2 0 = some true
    ∧ tPrd (tExec (.vote ⟨tG, .all, 2, 1⟩) w) 2 0 = some false := by decide +kernel
theorem test_rdlane : tSca (tExec (.rdlane ⟨tG, .w96, .i32, 12, tV 2, .imm 2⟩) (fun w => w.setSlices 2 [2] (fun _ => 0xFFFFFFFF))) 12 = some 0xFFFFFFFFFFFFFFFF
    ∧ tVec (tExec (.wrlane ⟨tG, .w96, .b32, 4, 3, .imm 40⟩) (fun w => w.sset 3 77)) 4 40 = some 77 := by decide +kernel
/-- R110: sources are read before the write; p15 discards. -/
theorem test_predicates : tPrd (tExec (.pand ⟨tG, true, false, 1, 1, 15⟩) id) 1 0 = some true
    ∧ tPrd (tExec (.pnot ⟨tG, 6, 15⟩) id) 6 0 = some false ∧ tPrd (tExec (.pxor ⟨tG, false, false, 15, 15, 15⟩) id) 15 0 = some true := by decide +kernel

/-- R113: the worked branch goes back 24 bytes; an inactive fibre goes on. -/
theorem test_bra : let o := tExec (.bra ⟨⟨3, true⟩, .w96, 0xFFFA⟩) (fun w => w.pset 3 [0, 1, 2, 3] (fun l => l == 1))
    tPc o 0 = some 0xFFE8 ∧ tPc o 1 = some 0x1000C := by decide +kernel
/-- R114: the worked call: the new v0, which is the caller's v8, receives the address after the call. -/
theorem test_call : let o := exec (.call ⟨tG, 0x40, 8⟩) (tStore (tAt (.call ⟨tG, 0x40, 8⟩) id))
    tPc o 0 = some 0x10040 ∧ tVec o 8 0 = some 0x10010 ∧ (tWave o).map (fun w => w.fibres.map (fun f => (f.winbase, f.stack))) = some (List.replicate 4 (8, [8])) := by decide +kernel
theorem test_ret : let o := tExec (.ret ⟨tG⟩) (fun w => { w.setSlices 0 [0, 1, 2, 3] (fun _ => 0x10500) with
      fibres := w.fibres.map (fun f => { f with stack := [8], winbase := 0 }) })
    tPc o 0 = some 0x10500 := by decide +kernel
/-- R118: the last fibres of the last wave end. -/
theorem test_end : (match tExec (.endF ⟨tG⟩) id with
    | .next t => t.waves.isEmpty && t.groups.isEmpty
    | .fault _ => false
    | .refused _ => false) = true := by decide +kernel
/-- R117: lane 9 is free and lane 0 is not. -/
theorem test_fork : let o := tExec (.fork ⟨tG, 2, 7, 0x100⟩) (fun w => w.sset 7 0x201)
    tPc o 9 = some 0x10100 ∧ tPrd o 2 0 = some false := by decide +kernel
/-- R121: TRAP parks with its code. -/
theorem test_trap : tFault (tExec (.trap ⟨tG, 7⟩) id) = some .trap ∧ tFault (tExec (.brk ⟨tG, 7⟩) id) = some .brk := by decide +kernel
/-- R31 step 10: MMA in vector mode; step 11: a register outside the window; R106: NONUNIFORM. -/
theorem test_faults : tFault (tExec (.mma ⟨tG, .w64, .bf16, .regs 8, .regs 8, 0, 0, 0⟩) id) = some .mode
    ∧ tFault (tExec (.add { tOp2 .i32 with d := 40 }) (fun w => { w with winsize := 32 })) = some .windowBound
    ∧ tFault (tExec (.rdlane ⟨tG, .w64, .b32, 12, tV 2, .vec (tV 3)⟩) (fun w => w.setSlices 3 [1] (fun _ => 1))) = some .nonuniform
    ∧ tFault (tExec (.add (tOp2 .i32)) (fun w => { w with vpoison := [(2, 1)] })) = some .poison := by decide +kernel
/-- R139: a handle that the wave does not hold. -/
theorem test_cap : tFault (tExec (.arrive ⟨tG, 4⟩) (fun w => w.sset 4 0xFFFFFFFFFFFFFFFF)) = some .cap := by decide +kernel
/-- R131: REGION, and R119: YIELD. -/
theorem test_region : (tWave (tExec (.region ⟨tG⟩) id)).map (fun w => w.fibres.all (fun f => f.region == 0x10008)) = some true
    ∧ (tWave (tExec (.yield ⟨tG⟩) id)).map Wave.yielded = some true := by decide +kernel
/-- R184, R185. -/
theorem test_srd : tVec (tExec (.srd ⟨tG, false, .vec 4, 0, .absent⟩) id) 4 3 = some 3
    ∧ tVec (tExec (.srd ⟨tG, false, .vec 4, 18, .absent⟩) id) 4 0 = some 128
    ∧ tFlg (tExec (.swr ⟨tG, true, 3⟩) (fun w => w.sset 3 0xFF)) = some 31 := by decide +kernel
/-- R186: a window of 96 grows by 32; p4 says so. -/
theorem test_grow : let o := tExec (.grow ⟨tG, .w96, 4, .imm 32⟩) (fun w => { w with winsize := 96 })
    tPrd o 4 0 = some true ∧ (tWave o).map Wave.winsize = some 128 := by decide +kernel
theorem test_shrink : (tWave (tExec (.shrink ⟨tG, .w96, .imm 32⟩) id)).map Wave.winsize = some 96 := by decide +kernel
/-- R164. -/
theorem test_mmode : (tWave (tExec (.mmodeOn ⟨tG⟩) id)).map Wave.matrix = some true := by decide +kernel
/-- R143: BINIT of a core object at offset 0x40 writes its 16 bytes. -/
theorem test_binit : (match tExec (.binit ⟨tG, 4, .imm 3 64⟩) (fun w => w.sset 4 0x401) with
    | .next t => (t.group? 1 0).map (fun g => mapRun 0 g.scratch 0x40 4)
    | .fault _ => none
    | .refused _ => none) = some [64, 0, 0, 0] := by decide +kernel
/-- R124, R126: LD of an address outside the lease is LEASE. -/
theorem test_ld_lease : tFault (tExec (.ld ⟨tG, .w64, .int .b32, none, .scalar 1, .absent, 0, 4⟩) (fun w => w.sset 1 0x900000)) = some .lease := by decide +kernel

/-- A step fetches the placed word and runs it, and %tick moves on by the free amount. -/
theorem test_step : (match step (State.reset.withFetchWord 64 0x3C01) with
    | .next t => (t.waves.head?.map (fun w => w.fibres.all (fun f => f.pc == 0x10008)), t.own.stepNo, t.own.cur.isNone)
    | .fault _ => (none, 0, false)
    | .refused _ => (none, 0, false)) = (some true, 1, true) := by decide +kernel

/-! ## The opcode map, row by row (R26, R28 to R30) -/

/-- The word of OP, at a length, unguarded, with FN, the bits from 64 up, and every other field zero (R10 to R13, R20). -/
def tOp (len op fn x : Nat) (f : Instr → Bool) : Bool :=
  match decode (leBytes (match len with | 1 => 8 | 2 => 12 | _ => 16) (len + 2 ^ 2 * op + 2 ^ 10 * 15 + 2 ^ 54 * fn + 2 ^ 64 * x)) with
  | .ok (i, []) => f i
  | _ => false
theorem test_map_control :
    ((tOp 1 0x00 0 0 fun | .nop _ => true | _ => false)
      && (tOp 2 0x01 0 0 fun | .bra _ => true | _ => false)
      && (tOp 1 0x02 0 0 fun | .brx _ => true | _ => false)
      && (tOp 3 0x03 0 4294967296 fun | .call _ => true | _ => false)
      && (tOp 2 0x04 0 65536 fun | .callx _ => true | _ => false)
      && (tOp 1 0x05 0 0 fun | .ret _ => true | _ => false)
      && (tOp 3 0x06 0 0 fun | .fork _ => true | _ => false)
      && (tOp 1 0x07 0 0 fun | .endF _ => true | _ => false)
      && (tOp 1 0x08 0 0 fun | .yield _ => true | _ => false)
      && (tOp 1 0x09 0 0 fun | .region _ => true | _ => false)
      && (tOp 2 0x0A 0 0 fun | .trap _ => true | _ => false)
      && (tOp 2 0x0B 0 0 fun | .brk _ => true | _ => false)) = true := by decide +kernel
theorem test_map_int :
    ((tOp 1 0x10 6 0 fun | .add _ => true | _ => false)
      && (tOp 1 0x11 6 0 fun | .sub _ => true | _ => false)
      && (tOp 2 0x12 6 0 fun | .addc _ => true | _ => false)
      && (tOp 2 0x13 6 0 fun | .subb _ => true | _ => false)
      && (tOp 1 0x14 6 0 fun | .mul _ => true | _ => false)
      && (tOp 1 0x15 6 0 fun | .mulh _ => true | _ => false)
      && (tOp 2 0x16 6 0 fun | .mad _ => true | _ => false)
      && (tOp 2 0x17 2 0 fun | .madw _ => true | _ => false)
      && (tOp 1 0x18 6 0 fun | .div _ => true | _ => false)
      && (tOp 1 0x19 6 0 fun | .rem _ => true | _ => false)
      && (tOp 1 0x1A 2 0 fun | .abs _ => true | _ => false)
      && (tOp 1 0x1B 2 0 fun | .neg _ => true | _ => false)
      && (tOp 1 0x1C 6 0 fun | .min _ => true | _ => false)
      && (tOp 1 0x1D 6 0 fun | .max _ => true | _ => false)
      && (tOp 1 0x1E 6 0 fun | .and _ => true | _ => false)
      && (tOp 1 0x1F 6 0 fun | .or _ => true | _ => false)) = true := by decide +kernel
theorem test_map_int_more :
    ((tOp 1 0x20 6 0 fun | .xor _ => true | _ => false)
      && (tOp 1 0x21 6 0 fun | .andn _ => true | _ => false)
      && (tOp 1 0x22 6 0 fun | .shl _ => true | _ => false)
      && (tOp 1 0x23 6 0 fun | .shr _ => true | _ => false)
      && (tOp 1 0x24 2 0 fun | .sar _ => true | _ => false)
      && (tOp 1 0x25 6 0 fun | .rot _ => true | _ => false)
      && (tOp 1 0x26 6 0 fun | .clz _ => true | _ => false)
      && (tOp 1 0x27 6 0 fun | .popc _ => true | _ => false)
      && (tOp 1 0x28 6 0 fun | .brev _ => true | _ => false)
      && (tOp 1 0x29 6 0 fun | .bfe _ => true | _ => false)
      && (tOp 2 0x2A 6 0 fun | .bfi _ => true | _ => false)
      && (tOp 2 0x2B 6 0 fun | .lea _ => true | _ => false)
      && (tOp 2 0x2C 6 0 fun | .sel _ => true | _ => false)
      && (tOp 1 0x2D 6 0 fun | .iset _ => true | _ => false)) = true := by decide +kernel
theorem test_map_scalar :
    ((tOp 1 0x30 6 0 fun | .sadd _ => true | _ => false)
      && (tOp 1 0x31 6 0 fun | .ssub _ => true | _ => false)
      && (tOp 1 0x32 6 0 fun | .smul _ => true | _ => false)
      && (tOp 1 0x33 6 0 fun | .sand _ => true | _ => false)
      && (tOp 1 0x34 6 0 fun | .sor _ => true | _ => false)
      && (tOp 1 0x35 6 0 fun | .sxor _ => true | _ => false)
      && (tOp 1 0x36 6 0 fun | .sshl _ => true | _ => false)
      && (tOp 1 0x37 6 0 fun | .sshr _ => true | _ => false)
      && (tOp 1 0x38 2 0 fun | .ssar _ => true | _ => false)
      && (tOp 1 0x39 6 0 fun | .smin _ => true | _ => false)
      && (tOp 1 0x3A 6 0 fun | .smax _ => true | _ => false)
      && (tOp 1 0x3B 6 0 fun | .sset _ => true | _ => false)
      && (tOp 2 0x3C 6 0 fun | .sli _ => true | _ => false)
      && (tOp 1 0x3D 6 0 fun | .smov _ => true | _ => false)
      && (tOp 1 0x3E 6 0 fun | .sbfe _ => true | _ => false)
      && (tOp 2 0x3F 6 0 fun | .slea _ => true | _ => false)) = true := by decide +kernel
theorem test_map_float :
    ((tOp 1 0x40 0 0 fun | .fadd _ => true | _ => false)
      && (tOp 1 0x41 0 0 fun | .fsub _ => true | _ => false)
      && (tOp 1 0x42 0 0 fun | .fmul _ => true | _ => false)
      && (tOp 2 0x43 0 0 fun | .fma _ => true | _ => false)
      && (tOp 1 0x44 0 0 fun | .fmin _ => true | _ => false)
      && (tOp 1 0x45 0 0 fun | .fmax _ => true | _ => false)
      && (tOp 1 0x46 0 0 fun | .fset _ => true | _ => false)
      && (tOp 1 0x47 0 0 fun | .fclass _ => true | _ => false)
      && (tOp 1 0x48 0 0 fun | .frnd _ => true | _ => false)
      && (tOp 1 0x49 0 0 fun | .fscale _ => true | _ => false)
      && (tOp 1 0x4A 0 0 fun | .frcp _ => true | _ => false)
      && (tOp 1 0x4B 0 0 fun | .fsqrt _ => true | _ => false)
      && (tOp 1 0x4C 0 0 fun | .frsq _ => true | _ => false)
      && (tOp 1 0x4D 0 0 fun | .fexp2 _ => true | _ => false)
      && (tOp 1 0x4E 0 0 fun | .flog2 _ => true | _ => false)
      && (tOp 1 0x4F 0 0 fun | .fsinpi _ => true | _ => false)) = true := by decide +kernel
theorem test_map_float_more :
    ((tOp 1 0x50 0 0 fun | .fcospi _ => true | _ => false)
      && (tOp 1 0x51 32 0 fun | .fcvt _ => true | _ => false)
      && (tOp 1 0x52 0 0 fun | .ftoi _ => true | _ => false)
      && (tOp 1 0x53 0 0 fun | .itof _ => true | _ => false)
      && (tOp 1 0x54 4 0 fun | .pkadd _ => true | _ => false)
      && (tOp 1 0x55 4 0 fun | .pkmul _ => true | _ => false)
      && (tOp 2 0x56 4 0 fun | .pkfma _ => true | _ => false)
      && (tOp 2 0x57 8 0 fun | .fdot2 _ => true | _ => false)
      && (tOp 2 0x58 12 0 fun | .fdot4 _ => true | _ => false)) = true := by decide +kernel
theorem test_map_lanes :
    ((tOp 1 0x60 6 0 fun | .mov _ => true | _ => false)
      && (tOp 2 0x61 6 0 fun | .movi _ => true | _ => false)
      && (tOp 1 0x62 6 0 fun | .perm _ => true | _ => false)
      && (tOp 1 0x63 0 0 fun | .ballot _ => true | _ => false)
      && (tOp 1 0x64 0 0 fun | .vote _ => true | _ => false)
      && (tOp 1 0x65 6 0 fun | .rdlane _ => true | _ => false)
      && (tOp 1 0x66 6 0 fun | .wrlane _ => true | _ => false)
      && (tOp 2 0x67 0 0 fun | .bsel _ => true | _ => false)
      && (tOp 1 0x68 6 0 fun | .scan _ => true | _ => false)
      && (tOp 1 0x69 6 0 fun | .reduce _ => true | _ => false)
      && (tOp 1 0x6A 0 0 fun | .pand _ => true | _ => false)
      && (tOp 1 0x6B 0 0 fun | .por _ => true | _ => false)
      && (tOp 1 0x6C 0 0 fun | .pxor _ => true | _ => false)
      && (tOp 1 0x6D 0 0 fun | .pnot _ => true | _ => false)
      && (tOp 1 0x6E 0 0 fun | .pmov _ => true | _ => false)) = true := by decide +kernel
theorem test_map_access :
    ((tOp 1 0x70 0 0 fun | .ld _ => true | _ => false)
      && (tOp 1 0x71 0 0 fun | .st _ => true | _ => false)
      && (tOp 1 0x72 0 0 fun | .lds _ => true | _ => false)
      && (tOp 1 0x73 0 0 fun | .sts _ => true | _ => false)
      && (tOp 1 0x74 0 0 fun | .ldu _ => true | _ => false)
      && (tOp 1 0x75 0 0 fun | .stu _ => true | _ => false)
      && (tOp 1 0x76 0 0 fun | .pref _ => true | _ => false)) = true := by decide +kernel
theorem test_map_atomics :
    ((tOp 2 0x80 0 0 fun | .atom _ => true | _ => false)
      && (tOp 2 0x81 0 0 fun | .red _ => true | _ => false)
      && (tOp 2 0x82 0 0 fun | .atoms _ => true | _ => false)
      && (tOp 1 0x83 5 0 fun | .fence _ => true | _ => false)) = true := by decide +kernel
theorem test_map_barriers :
    ((tOp 2 0x90 0 0 fun | .binit _ => true | _ => false)
      && (tOp 1 0x91 0 0 fun | .arrive _ => true | _ => false)
      && (tOp 1 0x92 0 0 fun | .expect _ => true | _ => false)
      && (tOp 1 0x93 0 0 fun | .wait _ => true | _ => false)
      && (tOp 1 0x94 0 0 fun | .btest _ => true | _ => false)
      && (tOp 1 0x95 0 0 fun | .bphase _ => true | _ => false)) = true := by decide +kernel
theorem test_map_engines :
    ((tOp 3 0xA0 0 0 fun | .cpy _ => true | _ => false)
      && (tOp 3 0xA1 0 0 fun | .cpy2d _ => true | _ => false)
      && (tOp 3 0xA2 0 549755813888 fun | .gather _ => true | _ => false)
      && (tOp 3 0xA3 0 549755813888 fun | .scatter _ => true | _ => false)
      && (tOp 3 0xA4 0 65568 fun | .qcpy _ => true | _ => false)
      && (tOp 3 0xA5 5 16492674416640 fun | .coll _ => true | _ => false)
      && (tOp 2 0xA6 0 0 fun | .rpush _ => true | _ => false)
      && (tOp 1 0xA7 0 0 fun | .rfree _ => true | _ => false)) = true := by decide +kernel
theorem test_map_matrix :
    ((tOp 1 0xB0 0 0 fun | .mmodeOff _ => true | _ => false)
      && (tOp 1 0xB1 0 0 fun | .mzero _ => true | _ => false)
      && (tOp 1 0xB2 0 0 fun | .mma _ => true | _ => false)
      && (tOp 3 0xB3 0 0 fun | .mepi _ => true | _ => false)
      && (tOp 2 0xB4 0 4194304 fun | .msts _ => true | _ => false)
      && (tOp 1 0xB0 1 0 fun | .mmodeOn _ => true | _ => false)) = true := by decide +kernel
theorem test_map_estates :
    ((tOp 2 0xC0 0 65536 fun | .bequeath _ => true | _ => false)
      && (tOp 2 0xC1 0 65536 fun | .claim _ => true | _ => false)
      && (tOp 1 0xC2 0 0 fun | .estate _ => true | _ => false)
      && (tOp 1 0xC3 0 0 fun | .migrate _ => true | _ => false)
      && (tOp 1 0xC4 0 0 fun | .launch _ => true | _ => false)
      && (tOp 1 0xC5 0 0 fun | .remit _ => true | _ => false)
      && (tOp 1 0xC2 1 0 fun | .estateDrop _ => true | _ => false)) = true := by decide +kernel
theorem test_map_system :
    ((tOp 1 0xD0 6 0 fun | .srd _ => true | _ => false)
      && (tOp 1 (0xD1 + 15 * 2 ^ 13) 6 0 fun | .swr _ => true | _ => false)
      && (tOp 1 0xD2 0 0 fun | .grow _ => true | _ => false)
      && (tOp 1 0xD3 0 0 fun | .shrink _ => true | _ => false)) = true := by decide +kernel
/-! ## Witnesses: states and operands that meet the hypotheses of the statements -/

/-- An issue begins, is no second presentation, is not split, and passes the checks of every issue. -/
def tOpens (i : Instr) (c : Ctx) (s1 : State) : Bool :=
  decide (s1.wave? c.w.uid = some c.w) && !c.again && (c.split s1).isNone && (firstCheck i c (s1.roaming c.w.launch)).isNone

theorem tOpens_spec {i : Instr} {s s1 : State} {c : Ctx} (hb : s.begin i = some (c, s1)) (h : tOpens i c s1 = true) : Opens i s c s1 := by
  simp only [tOpens, Bool.and_eq_true, Bool.not_eq_true', Option.isNone_iff_eq_none, decide_eq_true_eq] at h
  exact ⟨hb, h.1.1.1, h.1.1.2, h.1.2, h.2⟩

/-- An instruction's issue in a state reaches its effect, with an active lane, and satisfies p. -/
def tMeets (i : Instr) (s : State) (p : Ctx → State → Bool) : Bool :=
  match s.begin i with
  | none => false
  | some x => tOpens i x.1 x.2 && !x.1.act.isEmpty && p x.1 x.2

theorem tMeets_runs {i : Instr} {s : State} {p : Ctx → State → Bool} (h : tMeets i s p = true) :
    ∃ c s1, Runs i s c s1 ∧ p c s1 = true := by
  unfold tMeets at h
  split at h
  · cases h
  · rename_i x hx
    simp only [Bool.and_eq_true, Bool.not_eq_true'] at h
    exact ⟨x.1, x.2, ⟨tOpens_spec hx h.1.1, by simpa using h.1.2⟩, h.2⟩

/-- The same for each of several instructions. -/
theorem tMeets_all {is : List Instr} {s : Instr → State} {p : Ctx → State → Bool}
    (h : is.all (fun i => tMeets i (s i) p) = true) : ∀ i ∈ is, ∃ c s1, Runs i (s i) c s1 ∧ p c s1 = true :=
  fun i hi => tMeets_runs (List.all_eq_true.mp h i hi)

def tTrue (_ : Ctx) (_ : State) : Bool := true

/-- An option holds a value that satisfies p. -/
def tSome {α : Type} (o : Option α) (p : α → Bool) : Bool :=
  match o with
  | none => false
  | some x => p x

theorem tSome_spec {α : Type} {o : Option α} {p : α → Bool} (h : tSome o p = true) : ∃ x, o = some x ∧ p x = true := by
  cases o with
  | none => cases h
  | some x => exact ⟨x, rfl, h⟩

def tAtId (i : Instr) : State := tAt i id

/-- Booted, with every link up. -/
def tUp (s : State) : State :=
  { s with pkg := { s.pkg with
      bootStage := 6
      links := s.pkg.links.map (fun l => { l with
        retraining := false
        down := false }) } }

def tTwoSource : List Instr :=
  [.add (tOp2 .i32), .sub (tOp2 .i32), .mul (tOp2 .i32), .mulh (tOp2 .i32), .min (tOp2 .i32), .max (tOp2 .i32), .and (tOp2 .b32),
    .or (tOp2 .b32), .xor (tOp2 .b32), .andn (tOp2 .b32), .shl (tOp2 .b32), .shr (tOp2 .b32), .sar (tOp2 .i32), .rot (tOp2 .b32),
    .bfe (tOp2 .b32)]
theorem witness_IntegerTwoSourceCompletes : ∀ i ∈ tTwoSource, ∃ c s1, Runs i (tAtId i) c s1 ∧ tTrue c s1 = true :=
  tMeets_all (by decide +kernel)

def tOther : List Instr :=
  [.abs (tOp1 .i32), .neg (tOp1 .i32), .mad (tOp3 .i32), .madw (tOp3 .i32), .bfi (tOp3 .b32), .lea ⟨tG, .b32, 3, 4, tV 2, tR 6, tV 8⟩,
    .sel ⟨tG, .b32, 4, tV 2, tR 3, 1⟩, .bsel ⟨tG, 4, tV 2, tR 6, tV 8⟩, .addc ⟨tG, .b32, 4, tV 2, tR 3, 6, 6⟩,
    .subb ⟨tG, .b32, 4, tV 2, tR 3, 15, 6⟩]
theorem witness_IntegerOtherCompletes : ∀ i ∈ tOther, ∃ c s1, Runs i (tAtId i) c s1 ∧ tTrue c s1 = true :=
  tMeets_all (by decide +kernel)

def tCompare : List Instr :=
  [.iset ⟨tG, .w64, .i32, .lt, 1, tV 2, .vec (tV 3)⟩, .sset ⟨tG, .w96, .i64, .ne, 2, 1, .imm 0⟩,
    .fset ⟨tG, .w64, .f32, .lt, 1, tV 2, .vec (tV 3)⟩]
theorem witness_CompareCompletes : ∀ i ∈ tCompare, ∃ c s1, Runs i (tAtId i) c s1 ∧ tTrue c s1 = true :=
  tMeets_all (by decide +kernel)

def tDivide : List Instr := [.div (tOp2 .i32), .rem (tOp2 .i32)]
theorem witness_DivisionIsTotal : ∀ i ∈ tDivide, ∃ c s1, Runs i (tAtId i) c s1 ∧ tTrue c s1 = true :=
  tMeets_all (by decide +kernel)
/-- Its three cases: by zero, the corner, and a quotient between them. -/
theorem witness_DivisionIsTotal_cases : intVal .i32 0 = 0
    ∧ (IntTy.signed .i32 = true ∧ intVal .i32 0x80000000 = intMin .i32 ∧ intVal .i32 0xFFFFFFFF = -1)
    ∧ (intVal .i32 0xFFFFFFFF ≠ 0 ∧ ¬(IntTy.signed .i32 = true ∧ intVal .i32 0x80000001 = intMin .i32 ∧ intVal .i32 0xFFFFFFFF = -1)) := by
  decide +kernel

def tCounts : List Instr := [.clz (tOp1 .b32), .popc (tOp1 .b32), .brev (tOp1 .b32)]
theorem witness_CountsAndReversal : (∀ i ∈ tCounts, ∃ c s1, Runs i (tAtId i) c s1 ∧ tTrue c s1 = true)
    ∧ 31 < IntTy.width .b32 ∧ intBits .b32 0 = 0 ∧ intBits .b32 0x80000000 ≠ 0 :=
  ⟨tMeets_all (by decide +kernel), by decide +kernel⟩

def tS2 : OpS2 := ⟨tG, .w64, .i64, false, 5, 1, .reg 2⟩
def tScalars : List Instr :=
  [.sadd tS2, .ssub tS2, .smul tS2, .sand tS2, .sor tS2, .sxor tS2, .smin tS2, .smax tS2, .sshl tS2, .sshr tS2, .ssar tS2, .sbfe tS2,
    .sli ⟨tG, .w96, .i32, 5, 0xFFFF⟩, .smov ⟨tG, .i64, 5, 1⟩, .slea ⟨tG, .b64, 3, 5, 1, 2, 3⟩]
theorem witness_ScalarCompletes : ∀ i ∈ tScalars, ∃ c s1, Runs i (tAtId i) c s1 ∧ tTrue c s1 = true :=
  tMeets_all (by decide +kernel)

def tF3 (f : FFmt) : OpF3 := ⟨tG, f, .rne, 4, tV 2, tR 6, tV 8⟩
def tFloats : List Instr :=
  [.fadd (tF2 .f32), .fsub (tF2 .f32), .fmul (tF2 .f32), .fscale (tF2 .f32), .fmin ⟨tG, .w64, .f32, true, 4, tV 2, .vec (tV 3)⟩,
    .fmax ⟨tG, .w64, .f32, false, 4, tV 2, .vec (tV 3)⟩, .fma (tF3 .f32), .fdot2 (tF3 .bf16), .fdot4 (tF3 .e4m3),
    .pkadd ⟨tG, .w64, .f16, .rne, .straight, 4, tV 2, .vec (tV 3)⟩, .pkmul ⟨tG, .w64, .f16, .rne, .sw, 4, tV 2, .vec (tV 3)⟩,
    .pkfma ⟨tG, .f16, .rne, .straight, 4, tV 2, tR 6, tV 8⟩]
theorem witness_FloatArithmeticCompletes : ∀ i ∈ tFloats, ∃ c s1, Runs i (tAtId i) c s1 ∧ tTrue c s1 = true :=
  tMeets_all (by decide +kernel)

def tF1 : OpF1 := ⟨tG, .f32, .rne, 4, tV 2⟩
def tFunctions : List Instr :=
  [.frcp tF1, .fsqrt tF1, .frsq tF1, .fexp2 tF1, .flog2 tF1, .fsinpi tF1, .fcospi tF1, .frnd ⟨tG, .f32, .rne, true, 4, tV 2⟩,
    .fcvt ⟨tG, .e4m3, .f32, .rne, 4, tV 2⟩, .itof ⟨tG, .f32, .i32, .rne, 4, tV 2⟩, .ftoi ⟨tG, .f32, .i64, .rne, 4, tV 2⟩,
    .fclass ⟨tG, .f32, 4, tV 2⟩]
theorem witness_FloatFunctionsComplete : ∀ i ∈ tFunctions, ∃ c s1, Runs i (tAtId i) c s1 ∧ tTrue c s1 = true :=
  tMeets_all (by decide +kernel)

def tLanes : List Instr :=
  [.mov ⟨tG, .b32, 4, ⟨2, .xor 1⟩⟩, .movi ⟨tG, .w96, .int .i32, 4, 0⟩, .perm ⟨tG, .b32, 4, tV 2, tR 6⟩, .ballot ⟨tG, 4, 1⟩, .vote ⟨tG, .any, 2, 1⟩,
    .scan ⟨tG, .add, .int .i32, true, 4, tV 2⟩, .reduce ⟨tG, .add, .f32, false, 4, tV 2⟩]
theorem witness_LanesComplete : ∀ i ∈ tLanes, ∃ c s1, Runs i (tAtId i) c s1 ∧ tTrue c s1 = true :=
  tMeets_all (by decide +kernel)
/-- RDLANE and WRLANE, with lane 63, the last, in every active lane. -/
theorem witness_LanesComplete_lane :
    let n : BSrc := .imm 63
    ∀ i ∈ ([.rdlane ⟨tG, .w96, .b32, 12, tV 2, n⟩, .wrlane ⟨tG, .w96, .b32, 4, 3, n⟩] : List Instr), ∃ c s1, Runs i (tAtId i) c s1
      ∧ (c.act.all (fun l => b32 c.w c.base .w96 n l % 64 == b32 c.w c.base .w96 n c.low % 64)) = true :=
  tMeets_all (p := fun c _ => c.act.all (fun l => b32 c.w c.base .w96 (.imm 63) l % 64 == b32 c.w c.base .w96 (.imm 63) c.low % 64))
    (by decide +kernel)

def tPredicates : List Instr :=
  [.pand ⟨tG, true, false, 1, 1, 15⟩, .por ⟨tG, false, false, 1, 2, 3⟩, .pxor ⟨tG, false, false, 15, 15, 15⟩, .pnot ⟨tG, 6, 15⟩, .pmov ⟨tG, 6, 15⟩]
theorem witness_PredicatesComplete : ∀ i ∈ tPredicates, ∃ c s1, Runs i (tAtId i) c s1 ∧ tTrue c s1 = true :=
  tMeets_all (by decide +kernel)

def tControl : List Instr :=
  [.nop ⟨tG, .w64⟩, .pref ⟨tG, .w64, false, .scalar 1, .absent, 0⟩, .yield ⟨tG⟩, .region ⟨tG⟩, .bra ⟨tG, .w96, 0xFFFA⟩, .brx ⟨tG, .vec 4⟩]
theorem witness_ControlCompletes : ∀ i ∈ tControl, ∃ c s1, Runs i (tAtId i) c s1 ∧ tTrue c s1 = true :=
  tMeets_all (by decide +kernel)

/-- CALL and CALLX with the deepest stack but one, 15 frames. -/
def tCallAt (i : Instr) : State :=
  tStore (tAt i (fun w => { w with fibres := w.fibres.map (fun f => { f with stack := List.replicate 15 0 }) }))
theorem witness_CallsAndReturnsComplete_call :
    ∀ i ∈ ([.call ⟨tG, 0x40, 8⟩, .callx ⟨tG, .scalar 3, 8⟩] : List Instr), ∃ c s1, Runs i (tCallAt i) c s1 ∧ (callChk 8 c s1).isNone = true :=
  tMeets_all (p := fun c s1 => (callChk 8 c s1).isNone) (by decide +kernel)
theorem witness_CallsAndReturnsComplete_ret :
    ∃ c s1, Runs (.ret ⟨tG⟩) (tCallAt (.ret ⟨tG⟩)) c s1 ∧ (c.w.fibres.all (fun f => !f.stack.isEmpty)) = true :=
  tMeets_runs (p := fun c _ => c.w.fibres.all (fun f => !f.stack.isEmpty)) (by decide +kernel)

theorem witness_ForkAndEndComplete_fork : ∃ c s1, Runs (.fork ⟨tG, 2, 7, 0x100⟩) (tAtId (.fork ⟨tG, 2, 7, 0x100⟩)) c s1 ∧ tTrue c s1 = true :=
  tMeets_runs (by decide +kernel)
/-- END, and RET in fibres with no frame: of the whole wave, and of some of its fibres. -/
theorem witness_ForkAndEndComplete_end :
    (∀ i ∈ ([.endF ⟨tG⟩, .ret ⟨tG⟩] : List Instr), ∃ c s1, Runs i (tAtId i) c s1
      ∧ (!endBusy c s1 && c.w.pend.isEmpty && c.w.fibres.all (fun f => f.stack.isEmpty && c.act.contains f.lane)) = true)
    ∧ (∀ i ∈ ([.endF ⟨⟨1, false⟩⟩, .ret ⟨⟨1, false⟩⟩] : List Instr), ∃ c s1,
      Runs i (tAt i (fun w => w.pset 1 [0, 1, 2, 3] (fun l => l == 2))) c s1
      ∧ (!endBusy c s1 && c.w.pend.isEmpty && c.w.fibres.all (fun f => f.stack.isEmpty) && c.w.fibres.any (fun f => !c.act.contains f.lane)) = true) :=
  ⟨tMeets_all (p := fun c s1 => !endBusy c s1 && c.w.pend.isEmpty && c.w.fibres.all (fun f => f.stack.isEmpty && c.act.contains f.lane))
      (by decide +kernel),
    tMeets_all (s := fun i => tAt i (fun w => w.pset 1 [0, 1, 2, 3] (fun l => l == 2)))
      (p := fun c s1 => !endBusy c s1 && c.w.pend.isEmpty && c.w.fibres.all (fun f => f.stack.isEmpty) && c.w.fibres.any (fun f => !c.act.contains f.lane))
      (by decide +kernel)⟩

theorem witness_WordsAlwaysAnswer : ∀ i ∈ tTwoSource ++ tControl, i.raw.isSome = true ∧ ((tAtId i).begin i).isSome = true := by decide +kernel

/-- A check that fails: in the mode, in the window, in a register. -/
def tFails (i : Instr) (s : State) (p : Ctx → Chk → Bool → Bool) : Bool :=
  tSome (s.begin i) (fun x => !x.1.again && tSome (firstCheck i x.1 (x.2.roaming x.1.w.launch)) (fun k => p x.1 k (x.2.roaming x.1.w.launch)))
theorem witness_FirstFailingCheckFaults :
    tFails (.mzero ⟨tG⟩) (tAtId (.mzero ⟨tG⟩)) (fun c _ r => modeBad (.mzero ⟨tG⟩) c.w.matrix r) = true
    ∧ (let i : Instr := .add { tOp2 .i32 with d := 32 }
      tFails i (tAt i (fun w => { w with winsize := 32 })) (fun c _ r => !modeBad i c.w.matrix r && windowBad i c.w) = true)
    ∧ (let i : Instr := .add (tOp2 .i32)
      tFails i (tAt i (fun w => { w with vpoison := [(2, 0)] })) (fun c _ r => !modeBad i c.w.matrix r && !windowBad i c.w) = true) := by
  decide +kernel

/-- An issue in which no lane is active, of an instruction that ends its region and of one that does not. -/
def tIdle (i : Instr) : Bool :=
  tSome ((tAtId i).begin i) (fun x => tOpens i x.1 x.2 && x.1.act.isEmpty)
theorem witness_IdleIssueOnlyPasses :
    let i : Instr := .add { tOp2 .i32 with g := ⟨1, false⟩ }
    let j : Instr := .region ⟨⟨1, false⟩⟩
    tIdle i = true ∧ endsRegion i = false ∧ tIdle j = true ∧ endsRegion j = true := by decide +kernel

/-- A launch that parks, and one that ends, on a fault; and a fault that waits for an earlier load. -/
theorem witness_PreciseFaultParksOrEnds :
    let i : Instr := .trap ⟨tG, 7⟩
    let s := tAtId i
    let t : State := { s with launches := s.launches.map (fun l => { l with block := { l.block with faultEnd := true } }) }
    let busy := tAt i (fun w => { w with
      nextEntry := 1
      entries := [⟨0, 0x10000, 0, 15, 15, i, .load, false, none, none, [], [], none⟩] })
    let ok := fun (s : State) (b e : Bool) => tSome (s.begin i) (fun x => tSome (x.2.wave? x.1.w.uid) (fun w => decide (w = x.1.w) && w.unfinished x.1.upto == e
      && tSome (x.2.launch? x.1.w.launch) (fun l => l.block.faultEnd == b && !l.stopped && !x.2.pkg.lemmel.contains l.queue)))
    ok s false false = true ∧ ok t true false = true ∧ ok busy false true = true := by decide +kernel

theorem witness_ExceptionsTaken_words :
    ∀ i ∈ ([.trap ⟨tG, 0xFFFF⟩, .brk ⟨tG, 0⟩] : List Instr), ∃ c s1, Runs i (tAtId i) c s1 ∧ tTrue c s1 = true :=
  tMeets_all (by decide +kernel)
theorem witness_ExceptionsTaken_fetch : let s := tAtId (.trap ⟨tG, 0⟩)
    tSome s.own.cur (fun q => tSome (s.wave? q.wave) (fun w => w.pend.isEmpty
      && tSome (s.launch? w.launch) (fun l => !l.block.faultEnd))) = true := by decide +kernel

theorem witness_FormsThatFault_lane :
    ∀ i ∈ ([.rdlane ⟨tG, .w64, .b32, 12, tV 2, .vec (tV 3)⟩, .wrlane ⟨tG, .w64, .b32, 4, 3, .vec (tV 3)⟩] : List Instr), ∃ c s1,
      Runs i (tAt i (fun w => w.setSlices 3 [3] (fun _ => 1))) c s1
        ∧ (let n := fun k => b32 c.w c.base .w64 (.vec (tV 3)) k % 64
          c.act.contains 3 && n 3 != n c.low && c.act.all (fun k => 3 ≤ k || n k == n c.low)) = true :=
  tMeets_all (s := fun i => tAt i (fun w => w.setSlices 3 [3] (fun _ => 1)))
    (p := fun c _ => let n := fun k => b32 c.w c.base .w64 (.vec (tV 3)) k % 64
      c.act.contains 3 && n 3 != n c.low && c.act.all (fun k => 3 ≤ k || n k == n c.low)) (by decide +kernel)
/-- MMODE.on where fibre 3 alone stands at another base. -/
theorem witness_FormsThatFault_base :
    let f := fun (w : Wave) => { w with fibres := w.fibres.map (fun f => if f.lane = 3 then { f with winbase := 8, pc := 0x20000 } else f) }
    ∃ c s1, Runs (.mmodeOn ⟨tG⟩) (tAt (.mmodeOn ⟨tG⟩) f) c s1 ∧ decide (c.w.fibres.map (·.winbase) = [0, 0, 0, 8]) = true :=
  tMeets_runs (p := fun c _ => decide (c.w.fibres.map (·.winbase) = [0, 0, 0, 8])) (by decide +kernel)
/-! ### Memory and the ordering machine -/

/-- The state after an instruction or an event that answers next. -/
def tNext (o : Out) : State :=
  match o with
  | .next t => t
  | .fault _ => State.reset
  | .refused _ => State.reset

def tAllOk (ps : List (Nat × Plan)) : Bool := ps.all (fun p => match p.2 with
  | .ok _ => true
  | .error _ => false)
def tIssued (i : Instr) (c : Ctx) (s1 : State) (ps : List (Nat × Plan)) : Bool :=
  let accs := s1.markWatch i c (planAccs ps)
  tAllOk ps && accs.all (fun a => a.st != .watched) && decide ((accs.filter Acc.outstanding).length ≤ s1.missFree c.w.loc.die c.w.loc.core none)

/-- s1 points into the leased page; the last word of the page is at s2, the last word of the scratchpad at s3. -/
def tBase (w : Wave) : Wave := ((w.sset 1 0x18000).sset 2 0x1FFFC).sset 3 1020
def tMem : OpMem := ⟨tG, .w64, .int .b32, none, .scalar 2, .absent, 0, 4⟩
def tMemS : OpMemS := ⟨tG, .w64, .int .b32, none, 3, .absent, 0, 4⟩
def tMemU : OpMemU := ⟨tG, .w64, .int .b32, none, 2, .absent, 0, 4⟩
def tAtom : OpAtom := ⟨tG, .add, false, none, .scalar 1, tR 2, 4, tV 6, 0⟩
def tRed : OpRed := ⟨tG, .add, false, none, .scalar 1, tR 2, tV 6⟩
def tAtoms : OpAtoms := ⟨tG, .add, false, none, 4, tR 2, 4, tV 6, 0⟩

theorem witness_MemoryIssueCompletes_load :
    tMeets (.ld tMem) (tAt (.ld tMem) tBase) (fun c s1 => tIssued (.ld tMem) c s1
      (planLanes s1 c.w c.act (eaGlobal c.w c.base tMem.len tMem.base tMem.off tMem.disp) (fun l => s1.planLoad l c.w.agent tMem.ty))) = true
    ∧ tMeets (.lds tMemS) (tAt (.lds tMemS) tBase) (fun c s1 => tIssued (.lds tMemS) c s1 (c.act.map (fun l => (l, planScratch (s1.scratchSize c.w) l
      (eaScratch c.w c.base tMemS.len tMemS.base tMemS.off tMemS.disp l) 4 0 0)))) = true
    ∧ tMeets (.ldu tMemU) (tAt (.ldu tMemU) tBase) (fun c s1 => (uniformOff tMemU c).isNone && tIssued (.ldu tMemU) c s1
      (planLanes s1 c.w [c.low] (eaGlobal c.w c.base tMemU.len (.scalar tMemU.base) tMemU.off tMemU.disp) (fun l => s1.planLoad l c.w.agent tMemU.ty))) = true := by
  decide +kernel
theorem witness_MemoryIssueCompletes_store :
    tMeets (.st tMem) (tAt (.st tMem) tBase) (fun c s1 => tIssued (.st tMem) c s1
      (planLanes s1 c.w c.act (eaGlobal c.w c.base tMem.len tMem.base tMem.off tMem.disp)
        (fun l k ea => s1.planStore l c.w.agent tMem.ty k ea (dataBits tMem.ty (c.w.vget (c.base + 4) false k))))) = true
    ∧ tMeets (.sts tMemS) (tAt (.sts tMemS) tBase) (fun c s1 => !s1.gridReads c.w && tIssued (.sts tMemS) c s1
      (c.act.map (fun l => (l, planScratch (s1.scratchSize c.w) l (eaScratch c.w c.base tMemS.len tMemS.base tMemS.off tMemS.disp l) 4
        (dataBits tMemS.ty (c.w.vget (c.base + 4) false l)) 0)))) = true
    ∧ tMeets (.stu tMemU) (tAt (.stu tMemU) tBase) (fun c s1 => (uniformOff tMemU c).isNone && tIssued (.stu tMemU) c s1
      (planLanes s1 c.w [c.low] (eaGlobal c.w c.base tMemU.len (.scalar tMemU.base) tMemU.off tMemU.disp)
        (fun l k ea => s1.planStore l c.w.agent tMemU.ty k ea (dataBits tMemU.ty (c.w.sget 4))))) = true := by decide +kernel
theorem witness_MemoryIssueCompletes_atomic :
    tMeets (.atom tAtom) (tAt (.atom tAtom) tBase) (fun c s1 => tIssued (.atom tAtom) c s1
      (planLanes s1 c.w c.act (fun l => aBase c.w c.base tAtom.base l + rOff c.w c.base tAtom.off l) (fun l k ea => s1.planAtom l c.w.agent .add false k ea
        (atomMask false (laneRead c.w c.base tAtom.c false k)) (atomMask false (c.w.vget (c.base + 0) false k))))) = true
    ∧ tMeets (.red tRed) (tAt (.red tRed) tBase) (fun c s1 => tIssued (.red tRed) c s1
      (planLanes s1 c.w c.act (fun l => aBase c.w c.base tRed.base l + rOff c.w c.base tRed.off l) (fun l k ea => s1.planAtom l c.w.agent .add false k ea
        (atomMask false (laneRead c.w c.base tRed.c false k)) 0))) = true
    ∧ tMeets (.atoms tAtoms) (tAt (.atoms tAtoms) tBase) (fun c s1 => !s1.gridReads c.w && tIssued (.atoms tAtoms) c s1
      (c.act.map (fun l => (l, planScratch (s1.scratchSize c.w) l (alignDown 4 ((c.w.sget 4 + rOff c.w c.base tAtoms.off l) &&& 0xFFFFFFFF)) 4
        (atomMask false (laneRead c.w c.base tAtoms.c false l)) (atomMask false (c.w.vget (c.base + 0) false l)))))) = true := by
  decide +kernel

/-- An atomic presented again, with no lane left. -/
theorem witness_MemoryIssueCompletes_retire : ∀ i ∈ ([.atom tAtom, .red tRed, .atoms tAtoms] : List Instr),
    tSome ((tAt i (fun w => { tBase w with stalls := [⟨.posted 0, 0x10000, 0, 15, i, 0, [], []⟩] })).begin i) (fun x =>
      decide (x.1.stall? = some (.posted 0)) && x.1.w.entries.isEmpty && (x.1.split x.2).isNone && (x.2.wave? x.1.w.uid).isSome) = true := by decide +kernel

/-- One lane's access in flight: of a load, a store, an atomic. -/
def tSent (i : Instr) : State := tNext (exec i (tAt i tBase))
def tR0 : AccRef := ⟨2, 0, 0⟩
def tClear (s : State) (w : Wave) (a : Acc) : Bool := (a.at_ ++ a.scale.toList).all (fun b => b.peer.isNone && !b.hole
  && s.reachable w.loc.die b.home && !(s.die b.home).held && !s.mem.poisoned b.pa)

theorem witness_LoadStepsComplete_read :
    tSome ((tSent (.ld tMem)).acc? tR0) (fun x => !x.2.2.scratch && x.2.2.whole && x.2.2.got.isEmpty && !x.2.2.at_.isEmpty
      && (tSent (.ld tMem)).canRead tR0 && (tSent (.ld tMem)).asksNow tR0 && ((tSent (.ld tMem)).poisonOf x.1 x.2.1 x.2.2).isNone && tClear (tSent (.ld tMem)) x.1 x.2.2) = true
    ∧ tSome ((tSent (.lds tMemS)).acc? tR0) (fun x => x.2.2.scratch && x.2.2.whole && x.2.2.got.isEmpty && x.2.2.at_.isEmpty && x.2.2.scale.isNone
      && (tSent (.lds tMemS)).canRead tR0 && (tSent (.lds tMemS)).asksNow tR0 && tSome ((tSent (.lds tMemS)).group? x.1.launch x.1.group) (fun g => g.spoison.isEmpty)) = true := by
  decide +kernel
/-- The run holds registers that an entry is to write. -/
def tInRun (w : Wave) (e : Entry) (gs : List Nat) : Bool :=
  gs.all (fun g => decide (w.runBase ≤ g) && decide (g < w.runBase + w.winsize) && !w.dead.contains (e.id, g))
/-- The data of all four lanes has come. -/
def tReadAll (s : State) : State := [0, 1, 2, 3].foldl (fun s k => tNext (exec (.read ⟨2, 0, k⟩) s)) s
theorem witness_LoadStepsComplete_return :
    ∀ i ∈ ([.ld tMem, .lds tMemS] : List Instr), let s := tReadAll (tSent i)
      s.canReturn ⟨2, 0, 3⟩ = true ∧ s.returnsNow ⟨2, 0, 3⟩ = true
        ∧ tSome (s.acc? ⟨2, 0, 3⟩) (fun x => tInRun x.1 x.2.1 [x.2.1.base + 4]) = true := by decide +kernel
theorem witness_LoadStepsComplete_ldu : let s := tNext (exec (.read tR0) (tSent (.ldu tMemU)))
    s.canReturn tR0 = true ∧ s.returnsNow tR0 = true := by decide +kernel

/-- A repairable launch, so that its die issues deterministically. -/
def tDet (s : State) (b : Bool) : State := { s with launches := s.launches.map (fun l => { l with block := { l.block with repair := b } }) }
/-- An atomic's old value that has waited for a round boundary, where no round is any more; and one of a scratchpad. -/
theorem witness_LoadStepsComplete_answers :
    (let s := tDet (tNext (exec (.atomic tR0) (tDet (tSent (.atom tAtom)) true))) false;
      s.canReturn tR0 && s.returnsNow tR0 && tSome (s.acc? tR0) (fun x => tInRun x.1 x.2.1 [x.2.1.base + 4])) = true
    ∧ (let s := tSent (.atoms tAtoms);
      let t : State := { s with waves := s.waves.map (fun w => { w with entries := w.entries.map (fun e => { e with
        accs := e.accs.map (fun a => { a with st := .returned, got := [1, 2, 3, 4] }) }) }) };
      t.canReturn tR0 && t.returnsNow tR0 && tSome (t.acc? tR0) (fun x => tInRun x.1 x.2.1 [x.2.1.base + 4])) = true := by decide +kernel

theorem witness_StoreStepsComplete_accept :
    tSome ((tSent (.st tMem)).acc? tR0) (fun x => (tSent (.st tMem)).canAccept tR0 && !x.2.2.scratch && x.2.2.whole) = true
    ∧ tSome ((tSent (.sts tMemS)).acc? tR0) (fun x => (tSent (.sts tMemS)).canAccept tR0 && x.2.2.scratch && x.2.2.whole && decide (x.2.2.ea.toNat + x.2.2.nbytes ≤ 2 ^ 64)
      && decide (x.2.2.got.length < x.2.2.nbytes)
      && tSome ((tSent (.sts tMemS)).group? x.1.launch x.1.group) (fun g => g.spoison.isEmpty)) = true := by decide +kernel

/-- An unaligned store of the scratchpad, of which one byte has been written. -/
theorem witness_StoreStepsComplete_unaligned : let s := tNext (exec (.accept tR0) (tNext (exec (.sts tMemS) (tAt (.sts tMemS) (fun w => (tBase w).sset 3 1018)))))
    tSome (s.acc? tR0) (fun x => s.canAccept tR0 && x.2.2.scratch && !x.2.2.whole && decide (x.2.2.ea.toNat + x.2.2.nbytes ≤ 2 ^ 64)
      && decide (x.2.2.got.length = 1) && decide (1 < x.2.2.nbytes)
      && tSome (s.group? x.1.launch x.1.group) (fun g => g.spoison.isEmpty)) = true := by decide +kernel
/-- An accepted store in the overlay: its number is that of the write it made. -/
def tAccepted : State := tNext (exec (.accept tR0) (tSent (.st tMem)))
def tOvId : Nat := (tAccepted.ord.overlay.map (·.id)).headD 0
/-- A second wave of the core; and the store's home on die 1. -/
def tTwoWaves : State :=
  { tAccepted with waves := tAccepted.waves ++ tAccepted.waves.map (fun w => { w with uid := 9, index := 1, loc := ⟨0, 0, 1, 0⟩ }) }
def tFar : State :=
  { tUp tAccepted with ord := { tAccepted.ord with overlay := tAccepted.ord.overlay.map (fun e => { e with
      cells := e.cells.map (fun c => ({ c.1 with pa := c.1.pa + 2 ^ 37, home := 1 }, c.2)) }) } }
theorem witness_StoreStepsComplete_reveal : tSome (tTwoWaves.ov? tOvId) (fun _ => tTwoWaves.canReveal tOvId 9) = true := by decide +kernel
theorem witness_StoreStepsComplete_send :
    tSome (tFar.ov? tOvId) (fun e => tFar.canSend tOvId && e.home.2.isNone && tFar.reachable e.die e.home.1) = true := by decide +kernel
theorem witness_PerformWritesItsBytes :
    tSome (tAccepted.ov? tOvId) (fun e => tAccepted.canPerform tOvId && tAccepted.performsNow tOvId && e.cells.all (fun x => !x.1.hole)
      && e.cells.all (fun x => e.cells.all (fun y => x.1.pa != y.1.pa || x.2 == y.2)) && e.home.1 == e.die
      && !tAccepted.mem.halfPoisoned e.whole) = true := by decide +kernel

/-- On a die that issues as it goes, and on one in deterministic issue. -/
theorem witness_AtomicCompletes : ∀ i ∈ ([.atom tAtom, .red tRed] : List Instr), ∀ det ∈ [false, true], let s := tDet (tSent i) det
    tSome (s.acc? tR0) (fun x => s.canAtomic tR0 && s.asksNow tR0 && !x.2.2.scratch && x.2.2.scale.isNone && !x.2.2.at_.isEmpty
      && x.2.2.at_.length == x.2.2.nbytes && decide ((x.2.2.at_.map (·.pa)).Nodup) && tClear s x.1 x.2.2 && s.admits x.1.loc.die == !det
      && x.2.2.at_.all (fun b => b.home == x.1.loc.die) && decide (x.2.2.lane < 64) && tInRun x.1 x.2.1 [x.2.1.base + 4]) = true := by decide +kernel
theorem witness_AtomicCompletes_scratch : let s := tSent (.atoms tAtoms)
    tSome (s.acc? tR0) (fun x => s.canAtomic tR0 && s.asksNow tR0 && x.2.2.scratch && x.2.2.at_.isEmpty && x.2.2.scale.isNone
      && decide (x.2.2.ea.toNat + x.2.2.nbytes ≤ 2 ^ 64) && tSome (s.group? x.1.launch x.1.group) (fun g => g.spoison.isEmpty)
      && decide (x.2.2.lane < 64) && tInRun x.1 x.2.1 [x.2.1.base + 4]) = true := by decide +kernel

/-- A page of another format than the load's, one of its own, a block page of 8-bit elements with its exponent byte; the range of a mantissa of
2 bits; operands of 32 bits. -/
theorem witness_MemoryValues : (fmtOfEfmt 5 = some .e5m2 ∧ FFmt.e5m2 ≠ .f32 ∧ fmtOfEfmt 1 = some .f32 ∧ 2 ^ 32 - 1 < 2 ^ 32)
    ∧ (blockBits 12 = some 8 ∧ (List.replicate 33 (127 : Byte)).drop (4 * 8) = [127])
    ∧ (2 ≤ 2 ∧ 2 ≤ 8 ∧ (-2 ^ (2 - 1) : Int) ≤ -2 ∧ (-2 : Int) < 2 ^ (2 - 1) ∧ 254 < 255) := by decide +kernel

/-- Messages at the heads of channels: an invalidation, and an event of a die-scope object. -/
def tObj : NetObj := ⟨.die, 0, 7, 1, false, ⟨2, 1, 0, 0, 15, false, false⟩, [], [], false⟩
def tChans : State :=
  let s := tAtId (.nop ⟨tG, .w64⟩)
  { s with objs := [tObj], ord := { s.ord with chans := [⟨3, 0, 0, [.inval 5 none], 1⟩, ⟨0, 0, 0, [.event (.net .die 0 7) (.arrive []) none], 1⟩] } }
theorem witness_OrderingStepsComplete_messages :
    (decide (tChans.headMsg? ⟨3, 0, 0⟩ = some (.inval 5 none)) && tChans.admits 0 && !(tChans.die 0).held && tChans.canFill 512 (.l1 0 0 1 1) && tChans.canFill 512 (.l2 1)
      && decide (tChans.headMsg? ⟨0, 0, 0⟩ = some (.event (.net .die 0 7) (.arrive []) none)) && tChans.canEvent ⟨0, 0, 0⟩
      && !tChans.objPoisoned (.net .die 0 7) && (tChans.obj? (.net .die 0 7)).isSome) = true := by decide +kernel
/-- An arrival at the core object at offset 0x40, on its way. -/
def tCoreMsg : State :=
  let s := tAtId (.nop ⟨tG, .w64⟩)
  { s with ord := { s.ord with chans := [⟨0, 0, 0, [.event (.core 1 0 0x40) (.arrive []) none], 1⟩] } }
theorem witness_OrderingStepsComplete_core :
    (decide (tCoreMsg.headMsg? ⟨0, 0, 0⟩ = some (.event (.core 1 0 0x40) (.arrive []) none)) && tCoreMsg.canEvent ⟨0, 0, 0⟩
      && !tCoreMsg.objPoisoned (.core 1 0 0x40) && tSome (tCoreMsg.obj? (.core 1 0 0x40)) (fun b => decide (b.expB < 2 ^ 31))) = true := by decide +kernel
/-- A load whose lanes are unsent, rejected 63 times and 64 times; one whose lane's page was absent and is there again. -/
def tRejected (n : Nat) : State :=
  let s := tSent (.ld tMem)
  { s with waves := s.waves.map (fun w => { w with
      stalls := [⟨.retry 0 n 0, 0x10000, 0, 15, .ld tMem, 1, [], []⟩]
      fibres := w.fibres.map (fun f => { f with pc := 0x10000 })
      entries := w.entries.map (fun e => { e with accs := e.accs.map (fun a => { a with st := .unsent }) }) }) }
theorem witness_OrderingStepsComplete_retry : ∀ n ∈ [63, 64],
    tSome ((tRejected n).wave? 2) (fun w => (tRejected n).canMissRetry 2 0x10000 && tSome (w.retryAt 0x10000) (fun x => x.2.1 == 0 && x.2.2.1 == n
      && (w.entries.find? (fun e => e.id == 0)).isSome)) = true := by decide +kernel
def tAbsent : State :=
  let s := tSent (.ld tMem)
  { s with waves := s.waves.map (fun w => { w with entries := w.entries.map (fun e => { e with accs := e.accs.map (fun a => { a with st := .retry, at_ := [] }) }) }) }
theorem witness_OrderingStepsComplete_resend :
    tSome (tAbsent.acc? tR0) (fun x => tAbsent.canResend tR0 && (match tAbsent.replan x.1 x.2.1 x.2.2 with
      | .ok _ => true
      | .error _ => false)) = true := by decide +kernel
/-- A store's lane, cancelled while its page was unmapped. -/
def tSealedOut : State :=
  let s := tSent (.st tMem)
  { s with
    mem := { s.mem with tlb := [], tables := [] }
    waves := s.waves.map (fun w => { w with entries := w.entries.map (fun e => { e with accs := e.accs.map (fun a => { a with st := .retry, at_ := [] }) }) }) }
theorem witness_OrderingStepsComplete_sealed :
    tSome (tSealedOut.acc? tR0) (fun x => tSealedOut.canResend tR0 && x.1.pend.isEmpty && x.2.1.kind == .store && (match tSealedOut.replan x.1 x.2.1 x.2.2 with
      | .ok _ => false
      | .error d => x.2.1.sealedOut d.1)) = true := by decide +kernel

/-! ### Forms that fault -/

/-- A handle that the wave may not use; a WAIT nine phases ahead of its object; a lane outside the lease. -/
def tGather : OpEng := { tEng with d := 3, b := 2, bv := true, imm := 2 ^ 20 - 1 }
def tHandles (w : Wave) : Wave := (tBase w).sset 4 0xFFFFFFFFFFFFFFFF
theorem witness_FormsThatFault_cap :
    tMeets (.gather tGather) (tAt (.gather tGather) tHandles) (fun c s1 => (s1.launch? c.w.launch).isSome && (gatherAsk tGather c).length != 0
      && (s1.handle? c.w (gatherAsk tGather c).hnd).isNone) = true := by decide +kernel
/-- The core object at offset 0x40 of a fresh scratchpad is at phase 0; handle 0x401 names it. -/
def tCore (w : Wave) : Wave := (tBase w).sset 4 0x401
def tWait (n : BitVec 32) : OpWait := ⟨tG, .w96, 2, 4, .imm n⟩
def tHolds (o : OpWait) (n : Nat) (p : State → ObjRef → Bool) (c : Ctx) (s1 : State) : Bool :=
  tSome (s1.handle? c.w (c.w.sget 4)) (fun h => (uniformB o.b o.len c).isNone && c.stall?.isNone && !c.w.owes h.2
    && !s1.objPoisoned h.2 && s1.distance h.2 (tokenOf o c) == n && p s1 h.2)
theorem witness_FormsThatFault_ahead :
    tMeets (.wait (tWait 7)) (tAt (.wait (tWait 7)) tCore) (tHolds (tWait 7) 9 (fun _ _ => true)) = true := by decide +kernel
/-- The word that every lane of the load reads is poisoned. -/
def tBad : State :=
  let s := tSent (.ld tMem)
  { s with mem := { s.mem with poison := mapSet false s.mem.poison (eccKey (((s.acc? tR0).map (fun x => (x.2.2.at_.map (·.pa)).headD 0)).getD 0)) true } }
theorem witness_FormsThatFault_poison :
    tSome (tBad.acc? tR0) (fun x => tBad.canRead tR0 && tBad.asksNow tR0 && (tBad.poisonOf x.1 x.2.1 x.2.2).isSome && (tBad.poisonLane x.1 x.2.1).isSome
      && (x.2.2.at_ ++ x.2.2.scale.toList).all (fun b => !b.hole)
      && tSome (tBad.launch? x.1.launch) (fun l => !l.stopped && !l.block.faultEnd)) = true := by decide +kernel
theorem witness_FormsThatFault_lease : let pre : List (Nat × Plan) := [(0, .error (.format, 8))]
    ∀ p ∈ pre, ∀ v, p.2 ≠ .error (.lease, v) := by
  intro pre p hp v h
  cases List.mem_singleton.mp hp
  cases h
/-- Lanes outside the lease: a page that is not mapped, and the first byte after the scratchpad; the lowest lane is the first to fail. -/
def tFarW (w : Wave) : Wave := (((tBase w).sset 1 0x20000).sset 2 0x20000).sset 3 1024
def tLeases (ps : List (Nat × Plan)) : Bool := (ps.head?.map (fun p => match p.2 with
  | .error (.lease, _) => true
  | _ => false)).getD false
theorem witness_FormsThatFault_lease_words :
    tMeets (.ld tMem) (tAt (.ld tMem) tFarW) (fun c s1 => tLeases
      (planLanes s1 c.w c.act (eaGlobal c.w c.base tMem.len tMem.base tMem.off tMem.disp) (fun l => s1.planLoad l c.w.agent tMem.ty))) = true
    ∧ tMeets (.st tMem) (tAt (.st tMem) tFarW) (fun c s1 => tLeases (planLanes s1 c.w c.act (eaGlobal c.w c.base tMem.len tMem.base tMem.off tMem.disp)
        (fun l k ea => s1.planStore l c.w.agent tMem.ty k ea (dataBits tMem.ty (c.w.vget (c.base + 4) false k))))) = true
    ∧ tMeets (.lds tMemS) (tAt (.lds tMemS) tFarW) (fun c s1 => tLeases (c.act.map (fun l => (l, planScratch (s1.scratchSize c.w) l
      (eaScratch c.w c.base tMemS.len tMemS.base tMemS.off tMemS.disp l) 4 0 0)))) = true
    ∧ tMeets (.atom tAtom) (tAt (.atom tAtom) tFarW) (fun c s1 => tLeases
      (planLanes s1 c.w c.act (fun l => aBase c.w c.base tAtom.base l + rOff c.w c.base tAtom.off l) (fun l k ea => s1.planAtom l c.w.agent .add false k ea
        (atomMask false (laneRead c.w c.base tAtom.c false k)) (atomMask false (c.w.vget (c.base + 0) false k))))) = true
    ∧ tMeets (.red tRed) (tAt (.red tRed) tFarW) (fun c s1 => tLeases
      (planLanes s1 c.w c.act (fun l => aBase c.w c.base tRed.base l + rOff c.w c.base tRed.off l) (fun l k ea => s1.planAtom l c.w.agent .add false k ea
        (atomMask false (laneRead c.w c.base tRed.c false k)) 0))) = true := by decide +kernel
/-! ### FENCE and barriers -/

def tFence : OpFence := ⟨tG, .rel, .pkg⟩
def tPend (w : Wave) : Wave := { tBase w with pend := [⟨.poison, 0, 0x10000, 15, 0, 0x18000⟩, ⟨.remoteRefused, 2, 0x10000, 15, 1, 0x18004⟩] }
theorem witness_SynchronisationCompletes_fence :
    tMeets (.fence tFence) (tAt (.fence tFence) tBase) (fun c s1 => !fenceBusy c s1 && c.w.pend.isEmpty
      && s1.settledAll c.w.loc.die c.w.loc.core .pkg c.w.observed) = true := by decide +kernel
theorem witness_SynchronisationCompletes_faults :
    ∀ i ∈ ([.fence tFence, .endF ⟨tG⟩] : List Instr), tMeets i (tAt i tPend) (fun c s1 => !endBusy c s1 && !fenceBusy c s1 && !c.w.pend.isEmpty
      && tSome (s1.launch? c.w.launch) (fun l => !l.block.faultEnd)) = true := by decide +kernel

/-- A die-scope object given to the launch, named by handle 0x703; its phase is 15, two arrivals are expected. -/
def tGiven (s : State) : State := { s with objs := [tObj] }
def tNet (w : Wave) : Wave := (tBase w).sset 4 0x703
def tEvents : List Instr := [.binit ⟨tG, 4, .imm 0xFFFF 0x7FFFFFFF⟩, .expect ⟨tG, .w96, 4, .imm 32⟩]
def tObjOk (c : Ctx) (s1 : State) (net : Bool) : Bool :=
  tSome (s1.handle? c.w (c.w.sget 4)) (fun h => !s1.objPoisoned h.2 && tSome (s1.obj? h.2) (fun b => decide (b.expB < 2 ^ 31))
    && !c.w.objPending h.2 && (match h.2 with
      | .core _ _ _ => !net
      | .net _ _ _ => net && !s1.sendsStalled c.w.loc.die (objDie h.2)))
theorem witness_BarrierEventsComplete_set :
    ∀ i ∈ tEvents, i.wf = true ∧ tMeets i (tAt i tCore) (fun c s1 => tObjOk c s1 false && !c.acquiring && (uniformB (.imm 32) .w96 c).isNone) = true
      ∧ tMeets i (tGiven (tAt i tNet)) (fun c s1 => tObjOk c s1 true && !c.acquiring) = true := by decide +kernel
/-- ARRIVE at a core object; and at the other object, where the wave has a request of its own to settle first. -/
def tArrives (c : Ctx) (s1 : State) (net : Bool) : Bool :=
  tObjOk c s1 net && !fenceBusy c s1 && c.w.pend.isEmpty && !s1.gridReads c.w
    && tSome (s1.handle? c.w (c.w.sget 4)) (fun h => s1.settledAll c.w.loc.die c.w.loc.core h.1.scope c.w.observed)
theorem witness_BarrierEventsComplete_arrive :
    let i : Instr := .arrive ⟨tG, 4⟩
    i.wf = true ∧ tMeets i (tAt i tCore) (fun c s1 => tArrives c s1 false) = true
      ∧ tMeets i (tGiven (tAt i tNet)) (fun c s1 => tArrives c s1 true) = true := by decide +kernel
/-- An object of the package, homed on die 1, to which no route is up before the links are. -/
def tFarObj : NetObj := ⟨.pkg, 1, 1, 1, false, ⟨2, 1, 0, 0, 15, false, false⟩, [], [], false⟩
theorem witness_BarrierEventsComplete_unreachable : ∀ up ∈ [false, true],
    let i : Instr := .binit ⟨tG, 4, .imm 0xFFFF 0x7FFFFFFF⟩
    let s : State := { tAt i (fun w => (tBase w).sset 4 0x104) with objs := [tFarObj] }
    tMeets i (if up then tUp s else s) (fun c s1 => tObjOk c s1 true && !c.acquiring && c.w.pend.isEmpty
      && s1.reachable c.w.loc.die 1 == up) = true := by decide +kernel
/-- The algebra at its boundaries: the last arrival and one too many; landings down to the least count; bytes up to 2^31 - 1, and one more. -/
theorem witness_BarrierEventsComplete_algebra :
    let b := fun (a : Nat) (n : Int) => (⟨1, a, 0, n, 15, false, false⟩ : BarObj)
    0 < (b 1 0).penA ∧ (b 0 0).penA = 0 ∧ (-2 ^ 31 ≤ (b 0 (-2 ^ 31 + 256)).penB - (256 : Nat) ∧ (b 0 (-2 ^ 31 + 256)).penB < 2 ^ 31)
      ∧ (b 1 0).penB + (2 ^ 31 - 1 : Nat) ≤ 2 ^ 31 - 1 ∧ 2 ^ 31 - 1 < (b 1 1).penB + (2 ^ 31 - 1 : Nat) := by decide +kernel

/-- WAIT one to eight phases past its token; BTEST; BPHASE. -/
def tAtObj (c : Ctx) (s1 : State) (p : ObjRef → BarObj → Bool) : Bool :=
  tSome (s1.handle? c.w (c.w.sget 4)) (fun h => !s1.objPoisoned h.2 && !c.w.owes h.2 && tSome (s1.obj? h.2) (p h.2))
def tWaits (n : BitVec 32) (e : Nat) : Bool :=
  tMeets (.wait (tWait n)) (tAt (.wait (tWait n)) tCore) (fun c s1 => (uniformB (.imm n) .w96 c).isNone && !fenceBusy c s1 && c.w.pend.isEmpty
    && tAtObj c s1 (fun _ b => !b.lovf && (b.phase + 16 - b32 c.w c.base .w96 (.imm n) c.low % 16) % 16 == e))
theorem witness_BarrierReadsComplete_wait : tWaits 15 1 = true ∧ tWaits 8 8 = true ∧ tWaits 0 0 = true := by decide +kernel
/-- A WAIT that was blocked on the core object, and that one phase, or seventeen, have woken. -/
theorem witness_BarrierReadsComplete_woken : ∀ e ∈ [1, 17],
    tSome ((tAt (.wait (tWait 0)) (fun w => { tCore w with
        stalls := [⟨.wait (.core w.launch w.group 0x40) 0 e false, 0x10000, 0, 15, .wait (tWait 0), 0, (tCore w).sregs, []⟩] })).begin (.wait (tWait 0))) (fun x =>
      !x.1.act.isEmpty && (x.1.split x.2).isNone && !fenceBusy x.1 x.2 && x.1.w.pend.isEmpty && (x.2.wave? x.1.w.uid).isSome
        && tSome (x.2.handle? x.1.w (x.1.w.sget 4)) (fun h => x.1.stall? == some (.wait h.2 0 e false) && !x.2.objPoisoned h.2
          && tSome (x.2.obj? h.2) (fun b => !b.lovf))) = true := by decide +kernel
theorem witness_BarrierReadsComplete_test :
    tMeets (.btest (tWait 0)) (tAt (.btest (tWait 0)) tCore) (fun c s1 => !c.acquiring && (uniformB (.imm 0) .w96 c).isNone
      && tAtObj c s1 (fun _ _ => true)) = true
    ∧ tMeets (.bphase ⟨tG, 5, 4⟩) (tAt (.bphase ⟨tG, 5, 4⟩) tCore) (fun c s1 => !c.acquiring && tAtObj c s1 (fun _ _ => true)) = true := by
  decide +kernel

/-! ### Engines and rings -/

/-- s32 points into the page, s5 at the start of the scratchpad, s6 holds two pitches of 16, s4 names the object at offset 0x40, s7 is 128. -/
def tEngW (w : Wave) : Wave := ((((tBase w).sset 32 0x18000).sset 4 0x401).sset 6 (16 + 16 * 2 ^ 32)).sset 7 128
def tCpy : OpEng := { tEng with imm := 64 }
def tTwoD : OpEng := { tEng with imm := 16 + 2 ^ 20, b := 6 }
def tGat : OpEng := { tEng with imm := 4, b := 2, bv := true }
def tScat : OpEng := { tEng with imm := 4, b := 2, bv := true }
def tQ : OpEng := { tEng with imm := 65536 + 32, b := 6 }
def tAccepts (i : Instr) (s : State) (a : Ctx → EAsk) (long : Bool) : Bool :=
  tMeets i s (fun c s1 => (s1.launch? c.w.launch).isSome && (s1.engChk c (a c)).isNone && !s1.gridReads c.w && ((a c).length != 0) == long
    && (!long || ((s1.handle? c.w (a c).hnd).isSome && s1.engRoom c.w.loc.die (s1.coresOf c.w (s1.targets c.w (a c).dsp (a c).mc)))))
theorem witness_EngineIssueCompletes :
    (tAccepts (.cpy tCpy) (tAt (.cpy tCpy) tEngW) (cpyAsk tCpy) true && tAccepts (.cpy2d tTwoD) (tAt (.cpy2d tTwoD) tEngW) (cpy2dAsk tTwoD) true
      && tAccepts (.gather tGat) (tAt (.gather tGat) tEngW) (gatherAsk tGat) true
      && tAccepts (.scatter tScat) (tAt (.scatter tScat) tEngW) (scatterAsk tScat) true
      && tAccepts (.qcpy tQ) (tAt (.qcpy tQ) tEngW) (qcpyAsk tQ) true) = true := by decide +kernel
/-- A copy of length 0, whose handle nothing checks. -/
theorem witness_EngineIssueCompletes_zero : let o : OpEng := { tEng with imm := 0 }
    tAccepts (.cpy o) (tAt (.cpy o) id) (cpyAsk o) false = true := by decide +kernel
/-- A gated copy through the last unit of a gate from compartment 0 to itself, of the whole page. -/
def tGated : OpEng := { tEng with imm := 64, ssp := .cap, dsp := .scratch, gate := true, b := 8 }
def tGateState : State :=
  let s := tAt (.cpy tGated) (fun w => (tEngW w).sset 32 0)
  { s with worlds := s.worlds.map (fun w => { w with gates := [⟨0, 0, 3, 1, 1, slotCap, 0⟩] }) }
theorem witness_EngineIssueCompletes_gate :
    tAccepts (.cpy tGated) tGateState (cpyAsk tGated) true = true
    ∧ tMeets (.cpy tGated) tGateState (fun c s1 => decide ((cpyAsk tGated c).gate = some 0) && tSome (s1.world? 0) (fun w =>
      tSome w.gates[0]? (fun g => g.limit != 2 ^ 32 - 1 && g.remaining == 1))) = true := by decide +kernel

/-- COLL of a group alone on its quad, whose own position is 0. -/
def tColl : OpEng := { tEng with ssp := .scratch, dsp := .scratch, a := 7, imm := 64, mc := 1 }
/-- A ring of two slots of 64 bytes, its descriptor at 256, its last slot at HEAD; the free object of that slot is two phases on. -/
def tRingState (i : Instr) : State :=
  let s := tAt i (fun w => ((tEngW w).sset 5 256).sset 6 64)
  let d := leBytes 16 (512 + 64 * 2 ^ 32 + 2 * 2 ^ 64 + 1 * 2 ^ 72)
  let o := barBytes ⟨1, 1, 0, 0, 2, false, false⟩
  { s with groups := s.groups.map (fun g => { g with scratch := mapSetRun 0 (mapSetRun 0 g.scratch 256 d) 336 o }) }
def tPush : OpRpush := ⟨tG, 5, 32, 6, 7, false, 0, .global, 0⟩
theorem witness_RingsAndCollectivesComplete_coll :
    tMeets (.coll tColl) (tAt (.coll tColl) tEngW) (fun c s1 => (s1.group? c.w.launch c.w.group).isSome && !s1.gridReads c.w
      && (orStep (s1.engChk c (collAsk tColl c)) (collMcChk tColl c s1)).isNone && s1.collRoom c.w
      && (s1.handle? c.w (c.w.sget tColl.hnd.toNat)).isSome) = true := by decide +kernel
theorem witness_RingsAndCollectivesComplete_push :
    tMeets (.rpush tPush) (tRingState (.rpush tPush)) (fun c s1 => (s1.group? c.w.launch c.w.group).isSome && !s1.gridReads c.w
      && !ringPending tPush.d c && (rpushChk tPush c s1).isNone && (pushShape tPush c).1 != 0 && (s1.launch? c.w.launch).isSome
      && (s1.handle? c.w (rpushAsk tPush (s1.ring c.w (ringAt tPush.d c)) c).hnd).isSome
      && s1.engRoom c.w.loc.die (s1.coresOf c.w [c.w.group]) && s1.reqs.all (fun q => q.id != s1.own.uid)) = true := by decide +kernel
/-- A push of length 0. -/
theorem witness_RingsAndCollectivesComplete_empty : let s := tRingState (.rpush tPush)
    tMeets (.rpush tPush) { s with waves := s.waves.map (fun w => w.sset 6 0) } (fun c s1 => (s1.group? c.w.launch c.w.group).isSome
      && !s1.gridReads c.w && !ringPending tPush.d c && (pushShape tPush c).1 == 0) = true := by decide +kernel
/-- RFREE of slot 1: s3 holds 1. -/
def tFree : OpRfree := ⟨tG, 5, 3⟩
def tFreeState : State :=
  let s := tRingState (.rfree tFree)
  { s with waves := s.waves.map (fun w => w.sset 3 1) }
theorem witness_RingsAndCollectivesComplete_free :
    tMeets (.rfree tFree) tFreeState (fun c s1 =>
      let r : ObjRef := .core c.w.launch c.w.group ((s1.ring c.w (ringAt tFree.a c)).free (rfreeSlot tFree c))
      (s1.group? c.w.launch c.w.group).isSome && !s1.gridReads c.w && !ringPending tFree.a c && (rfreeChk tFree c s1).isNone && !fenceBusy c s1
        && c.w.pend.isEmpty && s1.settledAll c.w.loc.die c.w.loc.core .core c.w.observed
        && tSome (s1.obj? r) (fun b => decide (b.expB < 2 ^ 31)) && !s1.objPoisoned r) = true := by decide +kernel

/-- A copy accepted, and its first piece read. -/
def tCopied : State := tNext (exec (.cpy tCpy) (tAt (.cpy tCpy) tEngW))
def tReqId (s : State) : Nat := (s.reqs.map (·.id)).headD 0
theorem witness_EngineStepsComplete_read :
    tSome (tCopied.req? (tReqId tCopied)) (fun q => tSome (q.piece? 0) (fun p => tCopied.canEngineRead (tReqId tCopied) 0 && tCopied.engineAsksNow (tReqId tCopied) 0
      && tSome (tCopied.readPiece q p) (fun rs => (State.engPlaces rs).all (fun b => !b.hole)))) = true := by decide +kernel
def tPushed : State := tNext (exec (.rpush tPush) (tRingState (.rpush tPush)))
theorem witness_EngineStepsComplete_ring : (tPushed.req? (tReqId tPushed)).isSome = true ∧ tPushed.canRingMet (tReqId tPushed) = true := by decide +kernel
/-- Four members of one collective, by copies of one member's request. -/
def tColls : State :=
  let s := tNext (exec (.coll tColl) (tAt (.coll tColl) tEngW))
  { s with reqs := (List.range 4).flatMap (fun k => s.reqs.map (fun q => { q with
      id := q.id + k, group := k, member := q.member.map (fun m => (m.1, k, m.2.2)) })) }
theorem witness_EngineStepsComplete_coll :
    tSome (tColls.req? (tReqId tColls)) (fun q => tColls.canCollStart (tReqId tColls) && (match tColls.members q with
      | [] => false
      | z :: ms => tColls.reqs.all (fun r => !(collPieces z r (z :: ms)).isEmpty))) = true := by decide +kernel

/-- A piece whose data is there: into the scratchpad, and out of it into memory; and for the memory of die 1, not yet sent. -/
def tLanding (s : State) (id : Nat) (far : Bool) : Bool :=
  tSome (s.req? id) (fun q => tSome (q.piece? 0) (fun p => p.wid.isNone && s.canEngineLanding id 0 && p.dst.length == p.src.length
    && tSome (s.landCells q p) (fun cs =>
      (if far then (s.landChan q p cs).isSome && p.sent.isNone else (s.landChan q p cs).isNone) && cs.all (fun x => !s.sealedDst q x.loc)
      && s.groups.all (fun g => g.waves != 0) && cs.all (fun x => match x.place with
        | none => true
        | some b => !b.hole && b.peer.isNone && !s.cut q.die b && !s.refusedAt q.die b)
      && decide ((cs.map (fun x => x.loc)).Nodup) && decide ((cs.filterMap (fun x => x.place.map (·.pa))).Nodup))))
def tRead1 : State := tNext (exec (.engineRead (tReqId tCopied) 0) tCopied)
def tOut : OpEng := { tEng with ssp := .scratch, dsp := .global, imm := 64, d := 32, a := 5 }
def tCopied2 : State := tNext (exec (.cpy tOut) (tAt (.cpy tOut) tEngW))
def tRead2 : State := tNext (exec (.engineRead (tReqId tCopied2) 0) tCopied2)
/-- The page's frame is on die 1, and belongs to the sequence. -/
def tRead3 : State :=
  let s := tUp tRead2
  let s := s.putLeaf ⟨1, slotVa, false, slotLeaf + BitVec.ofNat 128 (2 ^ 5 + 2 ^ 53)⟩
  { s with mem := { s.mem with
      tlb := []
      owner := mapSetRun 0 s.mem.owner (2 ^ 37 + 0x10000) (List.replicate 16 2) } }
theorem witness_LandingWritesItsBytes : tLanding tRead1 (tReqId tCopied) false = true ∧ tLanding tRead2 (tReqId tCopied2) false = true
    ∧ tLanding tRead3 (tReqId tCopied2) true = true := by decide +kernel

/-! ### The matrix grid -/

/-- A wave in matrix mode in a launch with 64 KiB of scratchpad. -/
def tMat (i : Instr) (f : Wave → Wave) : State :=
  let s := tAt i (fun w => { f w with matrix := true })
  { s with
    launches := s.launches.map (fun l => { l with block := { l.block with scratch := 65536 } })
    quarters := mapSet quarterReset s.quarters 0 { quarterReset with matrix := true } }
def tMma : OpMma := ⟨tG, .w96, .q4, .regs 8, .regs 16, 40, 41, 0⟩
/-- Parameters at 0x8000, output at 0, rows 64 bytes apart. -/
def tMepi : OpMepi := ⟨tG, .e4m3, .plain, 5, 6, 0, 0⟩
def tMsts : OpMsts := ⟨tG, .bf16, .rne, 5, 6, 7, 63, 1, false⟩
def tEpi (w : Wave) : Wave := (w.sset 5 0x8000).sset 6 (64 * 2 ^ 32)
def tSts (w : Wave) : Wave := ((w.sset 5 0).sset 6 128).sset 7 0xFFFFFFFFFFFFFFFF
theorem witness_MatrixWordsComplete_mode :
    tMeets (.mmodeOn ⟨tG⟩) (tAtId (.mmodeOn ⟨tG⟩)) (fun c _ => c.w.fibres.all (fun f => f.winbase == c.base)) = true
    ∧ tMeets (.mmodeOff ⟨tG⟩) (tMat (.mmodeOff ⟨tG⟩) id) (fun c s1 => (s1.gridOf c.w).isEmpty) = true
    ∧ tMeets (.mzero ⟨tG⟩) (tMat (.mzero ⟨tG⟩) id) (fun c s1 => (s1.gridOf c.w).isEmpty) = true
    ∧ tMeets (.mma tMma) (tMat (.mma tMma) id) (fun c s1 => (mmaChk tMma c s1).isNone && (holdMma tMma c s1).isNone) = true := by decide +kernel
theorem witness_MatrixWordsComplete_store :
    tMeets (.mepi tMepi) (tMat (.mepi tMepi) tEpi) (fun c s1 => (s1.gridOf c.w).isEmpty && (mepiChk tMepi c s1).isNone) = true
    ∧ tMeets (.msts tMsts) (tMat (.msts tMsts) tSts) (fun c s1 => (s1.gridOf c.w).isEmpty && (mstsChk tMsts c s1).isNone) = true := by decide +kernel

def tQ0 : QRef := ⟨0, 0, 0⟩
def tGrid (i : Instr) (f : Wave → Wave) : State := tNext (exec i (tMat i f))
/-- The run holds the accumulators. -/
def tAccs (w : Wave) (id base : Nat) : Bool :=
  (List.range 64).all (fun i => decide (w.runBase ≤ base + 64 + i) && decide (base + 64 + i < w.runBase + w.winsize) && !w.dead.contains (id, base + 64 + i))
/-- An MMA of registers: no scratchpad byte was staged, so nothing can have changed. -/
theorem witness_GridLandingsComplete_mma :
    tSome ((tGrid (.mma tMma) id).gridHead tQ0) (fun g => decide (g.instr = .mma tMma) && !((tGrid (.mma tMma) id).die 0).held
      && tSome ((tGrid (.mma tMma) id).wave? g.wave) (fun w => tAccs w g.entry g.base) && decide (g.poisoned = ([], [])) && g.rowsA.length == 64 && g.rowsB.length == 64
      && g.offsA.isEmpty && g.offsB.isEmpty) = true := by decide +kernel
theorem settleRows_nothing (no : Nat) (g : Option Group) (n : Nat) (rows : List (List Nat)) (exps : List Nat) :
    settleRows no g n rows exps [] = (rows, exps) := by
  cases g <;> rfl
theorem witness_GridLandingsComplete_others :
    (∀ x ∈ ([(.mzero ⟨tG⟩, id), (.mepi tMepi, tEpi), (.msts tMsts, tSts)] : List (Instr × (Wave → Wave))),
      tSome ((tGrid x.1 x.2).gridHead tQ0) (fun g => decide (g.instr = x.1) && (tGrid x.1 x.2).canGridOpLanding tQ0
        && tSome ((tGrid x.1 x.2).wave? g.wave) (fun w => tAccs w g.entry g.base
          && tSome ((tGrid x.1 x.2).group? w.launch w.group) (fun gr => gr.spoison.isEmpty))) = true) := by
  decide +kernel
/-- What MSTS stores lies in rising order, and so does what MEPI stores. -/
def tRising : List (Nat × Nat) → Bool
  | x :: y :: xs => x.1 + x.2 ≤ y.1 && tRising (y :: xs)
  | [x] => x.1 + x.2 ≤ 2 ^ 64
  | [] => true
theorem witness_GridLandingsComplete_apart :
    tSome ((tGrid (.msts tMsts) tSts).gridHead tQ0) (fun g => tSome ((tGrid (.msts tMsts) tSts).wave? g.wave) (fun w =>
      tRising ((mstsStores tMsts g w).map (fun x => (x.off, x.size))))) = true
    ∧ tRising (pairs64.map (fun p => (mepiAt tMepi [0x8000, 0, 64] p.1 p.2, epiBytes tMepi.out))) = true := by decide +kernel
/-- Two rows 0 bytes apart: the elements of the second are stored over those of the first. -/
theorem witness_GridLandingsComplete_overlap : let o : OpMsts := { tMsts with row0 := 62, n := 2 }
    let s := tGrid (.msts o) (fun w => ((w.sset 5 0).sset 6 0).sset 7 0xFFFFFFFFFFFFFFFF)
    tSome (s.gridHead tQ0) (fun g => s.canGridOpLanding tQ0 && tSome (s.wave? g.wave) (fun w => let xs := mstsStores o g w;
      2 ≤ xs.length && xs.all (fun x => x.off + x.size ≤ 2 ^ 64)
        && tSome xs.head? (fun x => (xs.drop 1).any (fun y => x.off < y.off + y.size && y.off < x.off + x.size)))) = true := by decide +kernel
/-! ### Estates -/

/-- The launch's classes and flags, by an edit of its block. -/
def tBlock (s : State) (f : Block → Block) : State := { s with launches := s.launches.map (fun l => { l with block := f l.block }) }
def tLaneIds (w : Wave) : Wave := (tBase w).setSlices 8 [0, 1, 2, 3] (fun l => BitVec.ofNat 32 l)
def tBeq : OpBequeath := ⟨tG, 4, .vec (tV 8), 1, 3, .int .i32⟩
theorem witness_BequestsComplete_none :
    (tMeets (.bequeath tBeq) (tAt (.bequeath tBeq) tLaneIds) (fun c s1 => tSome (s1.launch? c.w.launch) (fun l => l.block.bclass == 0))
      && tMeets (.bequeath tBeq) (tBlock (tAt (.bequeath tBeq) tLaneIds) (fun b => { b with bclass := 3, roam := true })) (fun c s1 =>
        tSome (s1.launch? c.w.launch) (fun l => l.block.roam))) = true := by decide +kernel
theorem witness_BequestsComplete_class :
    tMeets (.bequeath tBeq) (tBlock (tAt (.bequeath tBeq) tLaneIds) (fun b => { b with bclass := 3 })) (fun c s1 => tSome (s1.launch? c.w.launch) (fun l =>
      l.block.bclass != 0 && !l.block.roam && (s1.directory c.w.loc.die c.w.loc.core).length + c.act.length ≤ 1024 && s1.estates.isEmpty
        && c.act.all (fun j => c.act.all (fun k => j == k || idOf c.w c.base tBeq.id j != idOf c.w c.base tBeq.id k)))) = true := by decide +kernel

/-- A sealed estate of class 3 and identity 1, of two registers, lies on the wave's core. -/
def tSealed : Estate :=
  { world := 0, seq := 0, cls := 3, ident := 1, launch := 9, die := 0, core := 0, quarter := 0, slot := 1, lane := 1, holding := 1, tags := [3, 3]
    logs := [4, 5], pregs := [0, 1], regs := [7, 8], st := .sealed, order := 1, poison := [] }
def tHeir (i : Instr) : State := { tAt i (fun w => (tLaneIds w).sset 40 3) with estates := [tSealed, { tSealed with ident := 2, st := .kept }] }
def tEst : OpEstate := ⟨tG, 4, 40, .vec (tV 8)⟩
theorem witness_BequestsComplete_report :
    (tMeets (.estate tEst) (tHeir (.estate tEst)) (fun c s1 => (s1.launch? c.w.launch).isSome)
      && tMeets (.estateDrop tEst) (tHeir (.estateDrop tEst)) (fun c s1 => tSome (s1.launch? c.w.launch) (fun l =>
        tSome (s1.findEstate l ((c.w.sget tEst.a.toNat).toNat % 2 ^ 16) (idOf c.w c.base tEst.id 1)) Estate.isSealed))) = true := by decide +kernel

def tClaim : OpClaim := ⟨tG, 6, 40, .vec (tV 8), 2, 2, .int .i32⟩
/-- Lane 0 finds no estate, lane 1 a sealed one, lane 2 one that is not sealed. -/
theorem witness_ClaimsComplete_issue :
    tMeets (.claim tClaim) (tHeir (.claim tClaim)) (fun c s1 => tSome (s1.launch? c.w.launch) (fun l =>
      let find := fun k => s1.findEstate l ((c.w.sget tClaim.a.toNat).toNat % 2 ^ 16) (idOf c.w c.base tClaim.id k)
      c.act.all (fun j => c.act.all (fun k => j == k || idOf c.w c.base tClaim.id j != idOf c.w c.base tClaim.id k))
        && (find 0).isNone && tSome (find 1) Estate.isSealed && tSome (find 2) (fun e => !e.isSealed))) = true := by decide +kernel
def tClaimed : State := tNext (exec (.claim tClaim) (tHeir (.claim tClaim)))
theorem witness_ClaimsComplete_delivery :
    tSome (tClaimed.claimAt 2 0) (fun x => tClaimed.canClaimDelivery 2 0 && decide ((x.2.1.answers.map (·.lane)).Nodup) && x.2.1.answers.all (fun a => a.lane < 64 && (x.1.fibre? a.lane).isSome)
      && x.2.1.answers.all (fun a => tInRun x.1 x.2.1 ((List.range a.regs.length).map (fun k => x.2.1.base + 6 + k)))
      && (x.1.low ++ x.1.high).isEmpty) = true := by
  decide +kernel

/-! ### The system words -/

/-- A roaming launch; MIGRATE to the wave's own page. -/
def tMig : OpMigrate := ⟨tG, 1, .scalar 1⟩
def tRoam (f : Wave → Wave) : State := tBlock (tAt (.migrate tMig) (fun w => f (tBase w))) (fun b => { b with roam := true })
theorem witness_MigrationCompletes_stays :
    tMeets (.migrate tMig) (tRoam id) (fun c s1 => (migrateChk tMig c s1).isNone && !endBusy c s1 && c.w.pend.isEmpty
      && s1.released c && !s1.beingMoved c.w (migrateAddr tMig c c.low).toNat && (s1.migrateTo tMig c).isNone) = true := by decide +kernel
/-- The wave stands on die 1, and its page is homed on die 0. -/
def tAway : State := tUp (tNext (exec (.migrate tMig) (tRoam (fun w => { w with loc := ⟨1, 0, 0, 0⟩ }))))
theorem witness_MigrationCompletes_grant : (tAway.grantFor 2).isSome = true := by decide +kernel
def tOnWay : State := tNext (exec (.migrateGrant 2) tAway)
theorem witness_MigrationCompletes_landing :
    tOnWay.ord.chans.any (fun ch => decide (tOnWay.headMsg? ch.ref = some (.wave 2)) && !(tOnWay.die ch.ref.dst).held && tOnWay.admits ch.ref.dst && !tOnWay.needsRick ch.ref
      && tSome (tOnWay.wave? 2) (fun w => w.transit.isSome)) = true := by decide +kernel

def tLaunchOp : OpLaunch := ⟨tG, 1, 1⟩
def tDevice (s : State) (n : Nat) : State := { s with queues := s.queues.map (fun q => { q with device := List.replicate n ⟨slotBlock, 0, true, []⟩ }) }
/-- LAUNCH of a block of zeros, where the queue's device-side entries are empty and where they are full. -/
theorem witness_LaunchAndRemitComplete_launch :
    ([0, 63, 64].all (fun n => tMeets (.launch tLaunchOp) (tDevice (tAt (.launch tLaunchOp) tBase) n) (fun c s1 => s1.released c
      && (launchChk tLaunchOp c s1).isNone && tSome (s1.launch? c.w.launch) (fun l => (s1.askedBlock tLaunchOp c l).isSome
        && tSome (s1.queue? l.queue) (fun q => q.device.length == n))))) = true := by decide +kernel
def tNode : Node :=
  { id := 1, template := slotBlock, comp := 0, z := 64, g := 64, t := 1, capacity := 2, records := [], first := 0, waiting := [], queue := 0, seen := [] }
def tRemit : OpRemit := ⟨tG, 1, 5, 6⟩
def tNodes (s : State) (cap : Nat) : State := { s with worlds := s.worlds.map (fun w => { w with nodes := [{ tNode with capacity := cap }] }) }
/-- Pools with no room, with room for two of the four lanes, and with room for all. -/
def tRemitState (cap : Nat) : State :=
  tBlock (tNodes (tAt (.remit tRemit) (fun w => ((tBase w).sset 5 1).sset 6 256)) cap) (fun b => { b with node := 1 })
theorem witness_LaunchAndRemitComplete_remit :
    ([0, 2, 64].all (fun n => tMeets (.remit tRemit) (tRemitState n) (fun c s1 => s1.released c && (remitChk tRemit c s1).isNone
      && (s1.group? c.w.launch c.w.group).isSome && tSome (s1.launch? c.w.launch) (fun l => tSome (s1.nodeOf c.w (c.w.sget tRemit.a.toNat)) (fun x =>
        decide (x.1 = l) && x.2.records.length + c.act.length < x.2.g && x.2.capacity == n))))) = true := by decide +kernel

theorem witness_SpecialRegistersComplete_read :
    ([(⟨tG, true, .vec 4, 12, .absent⟩ : OpSrd), ⟨tG, false, .scalar 4, 15, .absent⟩, ⟨tG, false, .vec 5, 26, .vec (tV 2)⟩].all (fun o =>
      tMeets (.srd o) (tAt (.srd o) tBase) (fun c s1 => (s1.gridOf c.w).isEmpty))) = true := by decide +kernel
/-- %tick and %ratio on a die in deterministic issue. -/
theorem witness_SpecialRegistersComplete_listed :
    ([(⟨tG, true, .vec 4, 12, .absent⟩ : OpSrd), ⟨tG, false, .scalar 4, 13, .absent⟩].all (fun o =>
      tMeets (.srd o) (tBlock (tAt (.srd o) tBase) (fun b => { b with repair := true })) (fun c s1 => s1.deterministic c.w.loc.die))) = true := by decide +kernel
theorem witness_SpecialRegistersComplete_write :
    ([(⟨tG, true, 2⟩ : OpSwr), ⟨tG, false, 2⟩].all (fun o => tMeets (.swr o) (tAt (.swr o) tBase) (fun c s1 => (s1.gridOf c.w).isEmpty))) = true := by
  decide +kernel
theorem witness_SpecialRegistersComplete_values :
    tMeets (.nop ⟨tG, .w64⟩) (tAtId (.nop ⟨tG, .w64⟩)) (fun c s1 => (s1.launch? c.w.launch).isSome && (c.w.fibre? 3).isSome) = true := by decide +kernel

/-! ### Windows -/

def tGrow (n : BitVec 32) : OpGrow := ⟨tG, .w96, 4, .imm n⟩
def tSmall (w : Wave) : Wave := { tBase w with winsize := 64 }
/-- GROW past 128 registers; by 0; to 128 exactly. -/
theorem witness_WindowSizeCompletes_grow :
    (tMeets (.grow (tGrow 80)) (tAt (.grow (tGrow 80)) tSmall) (fun c s1 => (uniformB (.imm 80) .w96 c).isNone && !s1.growOk c.w 80)
      && [0, 16, 64].all (fun n => tMeets (.grow (tGrow (BitVec.ofNat 32 n))) (tAt (.grow (tGrow (BitVec.ofNat 32 n))) tSmall) (fun c s1 =>
        s1.growOk c.w n && s1.growNow c.w n))) = true := by decide +kernel
/-- SHRINK by what leaves 32 registers; by more; by no multiple of 16. -/
theorem witness_WindowSizeCompletes_shrink :
    ([32, 48, 24].all (fun n => tMeets (.shrink ⟨tG, .w96, .imm n⟩) (tAt (.shrink ⟨tG, .w96, .imm n⟩) tSmall) (fun c _ =>
      (uniformB (.imm n) .w96 c).isNone))) = true := by decide +kernel
/-- A GROW by 64 that stands blocked, with k other waves of 64 registers on the quarter, which stand blocked too. -/
def tBlocked (k : Nat) : State :=
  let s := tAt (.grow (tGrow 64)) (fun w => { tSmall w with stalls := [⟨.grow 64 1, 0x10000, 0, 15, .grow (tGrow 64), 0, [], []⟩] })
  { s with waves := s.waves ++ (List.range k).flatMap (fun j => s.waves.map (fun w => { w with
      uid := 10 + j, index := 1 + j, loc := { w.loc with slot := 1 + j }, stalls := [⟨.grow 64 (2 + j), 0x10000, 0, 15, .grow (tGrow 64), 0, [], []⟩] })) }
def tQr : QRef := ⟨0, 0, 0⟩
theorem witness_WindowSizeCompletes_serve :
    tSome ((tBlocked 0).servable tQr) (fun g => decide ((tBlocked 0).wave? g.1.uid = some g.1)
      && decide (g.2.1.instr = .grow (tGrow 64))) = true := by decide +kernel
/-- A GROW that the quarter could serve, and that 128 registers have come to bar. -/
theorem witness_WindowSizeCompletes_barred : let s : State := { tBlocked 0 with waves := (tBlocked 0).waves.map (fun w => { w with winsize := 80 }) }
    tSome (s.servable tQr) (fun g => decide (s.wave? g.1.uid = some g.1) && decide (g.2.1.instr = .grow (tGrow 64)) && !s.growOk g.1 g.2.2.1) = true := by
  decide +kernel
theorem witness_WindowSizeCompletes_break :
    ((tBlocked 3).canGrowBreak tQr && ((tBlocked 3).evictable (fun e => e.die == 0 && e.core == 0 && e.quarter == 0)).isEmpty
      && tSome (youngest ((tBlocked 3).residentsAt tQr)) (fun w =>
        tSome (oldestGrow (((tBlocked 3).growsAt tQr).filter (fun g => g.1.uid == w.uid))) (fun g => decide ((tBlocked 3).wave? g.1.uid = some g.1)
          && decide (g.2.1.instr = .grow (tGrow 64))))) = true := by decide +kernel

/-! ### Queues -/

/-- An object of the queue, pkg(800), whose handle is 0x32004, at a phase; and a queue with some packets. -/
def tPkg (ph : Nat) : NetObj := ⟨.pkg, 0, 800, 0, true, ⟨1, 1, 0, 0, ph, false, false⟩, [], [], false⟩
def tQueue (ps : List Packet) (waiting : Bool) (ph : Nat) : State :=
  { tAtId (.nop ⟨tG, .w64⟩) with queues := [⟨0, 0, 0, ps, [], false, waiting, none, [], 2⟩], objs := [tPkg ph] }
def tHnd : W64 := 0x32004
/-- The queue as it stands, neither halted nor closing. -/
def tFreeQ (s : State) (waiting : Bool) (p : Queue → Bool) : Bool :=
  tSome (s.queue? 0) (fun q => !q.halted && q.closing.isNone && q.waiting == waiting && p q)
theorem witness_QueuePacketsComplete_device :
    tFreeQ (tDevice (tQueue [] false 0) 1) false (fun q => !q.device.isEmpty) = true := by decide +kernel
theorem witness_QueuePacketsComplete_launch :
    let s := tQueue [.launch 0x18000 0] false 0
    let t := tQueue [.launch 0x20000 0] false 0
    tFreeQ s false (fun q => q.device.isEmpty && tSome (s.hubBlock (threadAgent q.id) q.part q.world (s.space q.world 0) 0x18000) (fun x => x.1.isSome)) = true
    ∧ tFreeQ t false (fun q => q.device.isEmpty && (t.blockBytes (threadAgent q.id) (t.space q.world 0) 0x20000).isNone) = true := by decide +kernel
/-- WAIT: no object's handle; a token nine phases ahead, and eight. -/
theorem witness_QueuePacketsComplete_wait :
    (tFreeQ (tQueue [.wait 0x401 0] false 0) false (fun q => q.device.isEmpty && (packetObj 0x401).isNone)
      && tFreeQ (tQueue [.wait tHnd 0] false 9) false (fun _ => tSome (packetObj tHnd) (fun o => 9 ≤ (tQueue [] false 9).phaseAhead o 0))
      && tFreeQ (tQueue [.wait tHnd 0] false 8) false (fun _ => tSome (packetObj tHnd) (fun o => (tQueue [] false 8).phaseAhead o 0 < 9))) = true := by
  decide +kernel
theorem witness_QueuePacketsComplete_other : tFreeQ (tQueue [.other 7] false 0) false (fun q => q.device.isEmpty) = true := by decide +kernel
theorem witness_QueuePacketsComplete_return :
    tFreeQ (tQueue [.wait tHnd 15] true 0) true (fun _ => tSome (packetObj tHnd) (fun o => (tQueue [] true 0).phaseAhead o 15 != 0)) = true := by
  decide +kernel
theorem witness_QueuePacketsComplete_arrive :
    let s := tUp (tQueue [.arrive tHnd] false 0)
    (tFreeQ (tQueue [.arrive 0] false 0) false (fun q => q.device.isEmpty && (packetObj 0).isNone)
      && tFreeQ s false (fun q => tSome (packetObj tHnd) (fun o => s.settledAll 0 0 .pkg q.seen && s.hubReaches o && (s.obj? o).isSome
        && !s.objPoisoned o))) = true := by decide +kernel
/-- BINIT: no handle; an object of a die, or one below 768; an object that is not the queue's; one that is, and one that is no one's. -/
theorem witness_QueuePacketsComplete_binit :
    let s := tQueue [.binit tHnd 65535 (2 ^ 31 - 1)] false 0
    let other : State := { s with objs := [{ tPkg 0 with owner := 1 }] }
    let none_ : State := { s with objs := [] }
    (tFreeQ s false (fun q => q.device.isEmpty) && (handleOf 0).isNone && tSome (handleOf 0x703) (fun x => x.scope != .pkg)
      && tSome (handleOf 0x2FF04) (fun x => x.scope == .pkg && x.index < 768)
      && tSome (handleOf tHnd) (fun x => tSome (other.netObj? .pkg (x.index % 8) x.index) (fun o => !(o.byQueue && o.owner == 0))
        && x.scope == .pkg && 768 ≤ x.index && tSome (s.netObj? .pkg (x.index % 8) x.index) (fun o => o.byQueue && o.owner == 0 && !o.poison)
        && (none_.netObj? .pkg (x.index % 8) x.index).isNone)) = true := by decide +kernel
theorem witness_QueuePacketsComplete_sweep : tFreeQ (tQueue [.sweep 0 0] false 0) false (fun q => q.device.isEmpty) = true := by decide +kernel

/-! ### Sequences -/

theorem witness_SequencesComplete_open :
    let s := tQueue [.seqopen 0 1 0x20000 0] false 0
    let t : State := { s with worlds := s.worlds.map (fun w => { w with comps := [⟨0, 2, 1⟩] }) }
    (tFreeQ t false (fun q => q.device.isEmpty && tSome (t.openSlot q 0 1 0x20000 0) (fun k => 0 < k) && (t.seq? q.world 1).isNone)
      && tFreeQ s false (fun q => (s.openSlot q 0 1 0x20000 0).isNone)) = true := by decide +kernel
theorem witness_SequencesComplete_close :
    (tFreeQ (tQueue [.seqclose 0 5] false 0) false (fun q => !(tQueue [] false 0).seqOpen q.world 0 5)
      && tFreeQ (tQueue [.seqclose 0 0] false 0) false (fun q => (tQueue [] false 0).seqOpen q.world 0 0)) = true := by decide +kernel
/-- Sequence 0 with nothing of it left, at each state of its close. -/
def tClosing (st : SeqState) : State :=
  { tQueue [.seqclose 0 0] false 0 with
    seqs := [⟨0, 0, 0, st, 1, 0, 0, some 0, none⟩], launches := [], waves := [], groups := [] }
theorem witness_SequencesComplete_steps :
    ((tClosing .draining).canDrained 0 0 && (tClosing .retiring).canEnginesDone 0 0 && (tClosing .invalidating).canInvalDone 0 0
      && (tClosing .invalidating).worlds.all (fun w => !w.destroying)
      && tFreeQ (tClosing .draining) false (fun q => q.device.isEmpty) && tSome ((tClosing .draining).seq? 0 0) (fun z => z.closer == some 0)) = true := by
  decide +kernel

/-! ### The life of a launch -/

def tLife (f : Launch → Launch) : State := { tQueue [] false 0 with launches := (tAtId (.nop ⟨tG, .w64⟩)).launches.map f }
/-- Held on pkg(800), whose phase has passed the token. -/
theorem witness_LaunchLifeCompletes_release :
    let s := tLife (fun l => { l with st := .held, released := false, block := { l.block with depobj := tHnd, deptok := 15 } })
    ((s.launch? 1).isSome && (s.depReady 1).isSome) = true := by decide +kernel
theorem witness_LaunchLifeCompletes_lease :
    let s := tLife (fun l => { l with st := .setup, leased := false })
    ((s.launch? 1).isSome && s.canLease 1) = true := by decide +kernel
/-- A launch with its grant and no group yet. -/
def tUnplaced : State :=
  { tLife (fun l => { l with st := .waiting, next := 0, live := 0, dealt := 1 }) with waves := [], groups := [] }
theorem witness_LaunchLifeCompletes_placement :
    tSome (tUnplaced.launch? 1) (fun l => !l.block.coop && !l.block.quadset && (tUnplaced.placement 1).isSome) = true := by decide +kernel
/-- Launches of five groups: a quad set's next four, of a cooperative launch all. -/
theorem witness_LaunchLifeCompletes_units : ∀ coop ∈ [false, true],
    let s := tBlock tUnplaced (fun b => { b with coop := coop, quadset := !coop, gx := 5 })
    tSome (s.launch? 1) (fun l => (l.block.coop || l.block.quadset) && (s.placement 1).isSome) = true := by decide +kernel
theorem witness_LaunchLifeCompletes_timed :
    let s := tLife (fun l => { l with st := .waiting, block := { l.block with start := 1 } })
    ({ s with waves := s.waves.map (fun w => { w with started := false }), pkg := { s.pkg with tick := 1 } } : State).canTimed 1 = true := by decide +kernel
/-- The partition is frozen over this launch alone. -/
theorem witness_LaunchLifeCompletes_end :
    let s := tLife id
    let t : State := { s with parts := s.parts.map (fun p => { p with frozen := true, stalled := [1] }) }
    (tSome (t.launch? 1) (fun l => l.st != .ended && !l.stopped) && t.parts.any (fun p => p.frozen && p.stalled == [1])
      && ({ s with waves := [], groups := [], launches := s.launches.map (fun l => { l with live := 0 }) } : State).canEnd 1) = true := by decide +kernel

/-! ### Discard -/

def tArmed : State :=
  { tAtId (.nop ⟨tG, .w64⟩) with armedD := [⟨1, 0, 0, 0x10000, 1, 64, some (0, 15), false⟩] }
theorem witness_DiscardCompletes_choose :
    ((tArmed.stopped 1).isEmpty && tArmed.mayBegin 1 && tSome (tArmed.chosen 1) (fun gs => gs.length == 1)) = true := by decide +kernel
def tStopping : State := let s := tAtId (.nop ⟨tG, .w64⟩); { s with groups := s.groups.map (fun g => { g with stopping := true }) }
theorem witness_DiscardCompletes_save :
    (match tStopping.stopped 1 with
      | [g] => tStopping.mayDiscard [g] && tStopping.quadQuiet g && (tStopping.wavesOf g).all tStopping.quiet && !(tStopping.wavesOf g).isEmpty
          && (tStopping.wavesOf g).all (fun w => decide (tStopping.wave? w.uid = some w) && w.stalls.isEmpty && !w.asStands)
      | _ => false) = true := by decide +kernel
def tSavedG : State := tNext (exec (.priorityDiscard 1) tStopping)
theorem witness_DiscardCompletes_restart :
    tSome tSavedG.saved.head? (fun v => (tSavedG.restart v.id 0 0).isSome && tSome (tSavedG.launch? v.group.launch) (fun l => !l.block.coop)
      && v.group.quadset.isNone && !v.waves.isEmpty) = true := by decide +kernel

/-! ### Nodes and the network -/

def tNop : State := tAtId (.nop ⟨tG, .w64⟩)
theorem witness_NodesAndNetworkComplete_queues :
    ((tUp tNop).booted && ((tUp tNop).queue? 5).isNone && ((tUp tNop).world? 0).isSome && ((tUp tNop).part? 0).isSome
      && tSome (tUnplaced.queue? 0) (fun q => q.closing.isNone)
      && ({ tNop with launches := [] } : State).launches.all (fun l => l.queue != 0 || l.st == .ended)) = true := by decide +kernel
/-- A template of 64 fibres and 64 KiB of scratchpad, and a node entry of 64-byte records; the record size 24 is out of range. -/
def tTemplate : List Byte := List.replicate 16 0 ++ [64, 0, 128, 0, 0, 0, 1, 0] ++ List.replicate 232 0
theorem witness_NodesAndNetworkComplete_write :
    ((tUp tNop).booted && 256 ≤ tTemplate.length && reservedOk tTemplate && nodeOk (tableBlock tTemplate) 64 64 1 && !nodeOk (tableBlock tTemplate) 24 64 1) = true := by
  decide +kernel
theorem witness_NodesAndNetworkComplete_timer :
    let n : Node := { tNode with records := [[1, 2, 3, 4]], first := 0 }
    let s : State := { tNop with worlds := tNop.worlds.map (fun w => { w with nodes := [n] }), pkg := { tNop.pkg with tick := 1000 } }
    (s.timerDue 0 1 && (s.node? 0 1).isSome) = true := by decide +kernel
/-- Entry 0 names queue 0, sources 3 to 5 and the block at 0x18000 with two argument words; source 6 is refused. -/
def tEntry : List Byte := leBytes 8 0x18000 ++ [0, 0, 0, 0, 16, 0, 0, 0, 3, 0, 5, 0] ++ List.replicate 4 0 ++ (List.replicate 3 [1, 0, 0, 0, 0, 0, 0, 0]).flatten ++ List.replicate 16 0
def tTable : State := { tUp tNop with worlds := tNop.worlds.map (fun w => { w with table := [(0, tEntry)] }) }
theorem witness_NodesAndNetworkComplete_network :
    (tEntry.length == 64 && decide (5 ≤ tTable.pkg.bootStage) && tSome (tTable.request 0 0 6 []) (fun x => x.1.isNone)
      && tSome (tTable.request 0 0 5 []) (fun x => tSome x.1 (fun y => (tTable.queue? y.1).isSome))) = true := by
  decide +kernel

/-! ### The host -/

/-- A manifest of one compartment with one open sequence, and one of a version that is not defined. -/
def tManifest : List Byte := [1, 1, 0, 0, 0, 0, 0, 0] ++ [0, 1, 0, 0, 0, 0, 0, 0] ++ List.replicate 56 0
theorem witness_HostWritesComplete_create :
    ((tUp tNop).booted && ((tUp tNop).world? 63).isNone && manifestOk tManifest && (tUp tNop).spacesOk [7] (nComp tManifest)
      && !(manifestOk (2 :: tManifest.tail) && (tUp tNop).spacesOk [7] 1)) = true := by decide +kernel
theorem witness_HostWritesComplete_destroy :
    let s := tUp tNop
    let t : State := { s with seqs := [], launches := [] }
    let closing : State := { s with seqs := s.seqs.map (fun z => { z with st := .retiring }) }
    ((s.world? 0).isSome && !(s.openSeqs 0).isEmpty && (t.world? 0).isSome && (t.openSeqs 0).isEmpty && t.worldIdle 0
      && (closing.openSeqs 0).isEmpty && !closing.worldIdle 0 && tSome (s.world? 0) (fun w => !w.destroying)) = true := by decide +kernel
/-- A granule of a page that is not sealed, and one of a sealed page. -/
theorem witness_HostWritesComplete_mint :
    let s := tUp tNop
    let z := s.putLeaf ⟨1, slotVa, false, slotLeaf + BitVec.ofNat 128 (2 ^ 4 - 2 ^ 2)⟩
    let at_ := fun (s : State) (b : Bool) => s.mintOk 0 (slotCap &&& ~~~(BitVec.ofNat 128 (2 ^ 91))) && (match s.walk (s.space 0 0) 0x18000 with
      | .page f _ _ => f.tier != 2 && f.sealed == b
      | _ => false)
    (!s.mintOk 0 0 && at_ s false && at_ z true && (s.world? 0).isSome) = true := by decide +kernel
theorem witness_HostWritesComplete_split :
    (!(tUp tNop).maySplit && (tUp State.reset).maySplit && (tUp State.reset).booted) = true := by decide +kernel
/-- Entry 63 of the share table, and entry 64, which it does not have; watch range 7. -/
theorem witness_HostWritesComplete_registers :
    let s := tUp State.reset
    ((s.part? (cfgPart (.share 0 63))).isSome && cfgIndex (.share 0 63) < 64 && 64 ≤ cfgIndex (.share 0 64) && (s.part? (cfgPart (.ramp 4))).isNone
      && tSome (s.part? 0) (fun p => p.watch.length == 8)) = true := by decide +kernel

/-! ### A partition's own events -/

def tPart (s : State) (f : Part → Part) : State := { s with parts := s.parts.map f }
def tTick (s : State) (n : Nat) : State := { s with pkg := { s.pkg with tick := n } }
theorem witness_PartitionEventsComplete_ramp :
    tSome ((tTick State.reset 1000).part? 0) (fun p => p.rampAt < 1000 / 1000) = true := by decide +kernel
/-- More than 1,000 stretches in the 100 microseconds before, with no step taken and with one; a step taken 10 ms ago. -/
def tDroops : State :=
  let s := tTick State.reset 200000
  { s with pkg := { s.pkg with dies := s.pkg.dies.map (fun d => { d with recent := List.replicate 1001 50000 }) } }
theorem witness_PartitionEventsComplete_droop :
    (tDroops.canDroopStep 0 && (tPart tDroops (fun p => { p with
        droop := 1
        droopAt := 40000 })).canDroopStep 0 && (tPart (tTick State.reset 10000000) (fun p => { p with droop := 1 })).canDroopRestore 0
      && (tTick State.reset 0).canThermalStep 0 && (tPart (tTick State.reset 10000000) (fun p => { p with thermal := 1 })).canThermalRestore 0) = true := by
  decide +kernel
theorem witness_PartitionEventsComplete_ember :
    let s := tPart (tTick tNop 2000000) (fun p => { p with occupied := some 0 })
    (s.canEmber 0 && s.launches.any (fun l => (s.residents 0).any (fun w => w.launch == l.uid))
      && tSome ((tPart s (fun p => { p with frozen := true })).part? 0) (fun p => p.frozen)) = true := by decide +kernel
theorem witness_PartitionEventsComplete_refill :
    let s := tPart (tTick tNop 1000000) (fun p => { p with share := [(0, 5)], refillAt := periodOf 1000000 - 1 })
    tSome (s.part? 0) (fun p => p.share == [(0, 5)] && p.refillAt + 1 == periodOf 1000000 && (s.world? 0).isSome) = true := by decide +kernel
theorem witness_PartitionEventsComplete_stretch : State.reset.pkg.dies.length = 8 := by decide +kernel
/-- The slice of world 0 is over, and world 1 has the next; and a slice that no other follows. -/
def tOver : State :=
  let s := tTick tNop 1000000000
  tPart { s with worlds := s.worlds ++ [{ slotWorld with id := 1 }], groups := s.groups ++ s.groups.map (fun g => { g with launch := 2 }), launches := s.launches ++ s.launches.map (fun l => { l with uid := 2, world := 1 }) } (fun p => { p with
    quantum := mapSet 0 p.quantum 1 (BitVec.ofNat 64 (2 ^ 31 + 2 ^ 16 + 1)) })
theorem witness_PartitionEventsComplete_expiry :
    let alone : State := tPart (tTick tNop 1000000000) (fun p => { p with quantum := [] })
    ((tOver.expiry 0).isSome && tSome (tOver.part? 0) (fun p => tSome p.world (fun out => tSome (tOver.nextSlice p) (fun i => qWorld (p.entry i) != out)))
      && (alone.expiry 0).isSome && tSome (alone.part? 0) (fun p => p.world.isSome && (alone.nextSlice p).isNone)) = true := by
  decide +kernel
/-- The state in which world 0 is saved, with its slice come again. -/
def tRestoring : State := tPart ((tOver.expiry 0).getD tOver) (fun p => { p with
  slice := some 0
  world := some 0 })
theorem witness_PartitionEventsComplete_restore :
    (tRestoring.canRestore 0 0 && (tRestoring.context? 0 0).isSome && (tRestoring.restored 0 0).isSome) = true := by decide +kernel
/-- With the ramp not enabled. -/
theorem witness_PartitionEventsComplete_unramped : let s := tPart tRestoring (fun p => { p with ramp := 0 })
    (s.canRestore 0 0 && tSome (s.part? 0) (fun p => !rampEn p.ramp)) = true := by decide +kernel

/-! ### Pages, links and errors -/

def tMapReq (leaf : Nat) : MapReq := ⟨1, 0x20000, false, BitVec.ofNat 128 leaf⟩
/-- The same page mapped again, where no launch leases it. -/
def tRemap : State := tUp { tNop with launches := [], waves := [], groups := [] }
def tAgain : MapReq := ⟨1, 0x10000, false, slotLeaf⟩
theorem witness_PagesComplete_map :
    (!(tUp tNop).canMap 0 0 (tMapReq (2 ^ 26)) && (tUp tNop).canMap 0 0 (tMapReq (7 + 2 ^ 8 + 2 ^ 16 + 3 * 2 ^ 32))
      && !(tUp tNop).anyValid ((tUp tNop).mapSpan (tMapReq (7 + 2 ^ 8 + 2 ^ 16 + 3 * 2 ^ 32)))) = true
    ∧ tRemap.canMap 0 0 tAgain = true ∧ tRemap.anyValid (tRemap.mapSpan tAgain) = true := by decide +kernel
theorem witness_PagesComplete_invalidation :
    let s := tNext (exec (.invalidation 1 0x10000 65536) (tUp tNop))
    ((tUp tNop).booted && !s.invals.isEmpty && s.invals.all s.acknowledged) = true := by decide +kernel
theorem witness_PagesComplete_move :
    let s := tUp tNop
    (s.canMove 1 0x10000 0x40000 0 && (match s.walk 1 0x10000 with
      | .page _ _ _ => true
      | _ => false)) = true := by decide +kernel
theorem witness_PagesComplete_wf : Memory.wf (tUp tNop).mem = true := by decide +kernel
theorem witness_PagesComplete_down : (1023 < 1024 ∧ 1023 ≠ State.reset.pkg.pkg) ∧ 7 < 8 := by decide +kernel
/-- A link at work with its sixteenth resend to come, and one in its third retraining. -/
def tLinks : State := tUp State.reset
theorem witness_LinksAndErrorsComplete_links :
    (decide (5 ≤ tLinks.pkg.bootStage) && tSome tLinks.pkg.links[13]? (fun l => !l.retraining && !l.down && l.resends < 16)
      && tSome (tNext (exec (.linkRetrain 0) tLinks)).pkg.links[0]? (fun l => l.retraining && !l.down)
      && decide (5 ≤ (tNext (exec (.linkRetrain 0) tLinks)).pkg.bootStage)) = true := by decide +kernel
/-- A link whose flit 16 resends have not brought over; a link in retraining with no message on its way. -/
theorem witness_LinksAndErrorsComplete_resends :
    let s : State := { tLinks with pkg := { tLinks.pkg with links := tLinks.pkg.links.map (fun l => { l with resends := 16 }) } }
    (tSome s.pkg.links[0]? (fun l => !l.retraining && !l.down && decide (16 ≤ l.resends))
      && (tNext (exec (.linkRetrain 0) tLinks)).ord.chans.all (fun c => c.msgs.isEmpty)) = true := by decide +kernel
/-- A word of a die's own second level, and a register of an estate, which no launch of a repairable world holds. -/
theorem witness_LinksAndErrorsComplete_sram :
    let s : State := { tNop with estates := [tSealed] }
    (EccIs s (.copy (.l2 0) 512 127) && ownL2 (.l2 0) 512 && EccIs s (.estate 1 1 1)
      && ((eccOf s (.estate 1 1 1)).2.2.2.map s.repairs).getD false == false && s.estates.any (fun x => x.holding == 1 && x.lane == 1 && x.inFile)) = true := by
  decide +kernel
theorem witness_LinksAndErrorsComplete_ecc :
    (EccIs tNop (.memory 0x10000) && EccIs tNop (.sreg 2 63) && EccIs tNop (.vreg 2 127 63) && (tNop.wave? 2).isSome
      && tSome (tNop.launch? 1) (fun l => !l.block.repair)) = true := by decide +kernel
theorem witness_LinksAndErrorsComplete_copy :
    let s : State := { tNop with ord := { tNop.ord with copies := [⟨.l2 1, 0, 0, List.replicate 128 ⟨0, 0, 0, false⟩⟩] } }
    (EccIs s (.copy (.l2 1) 0 127) && !ownL2 (.l2 1) 0 && decide (0 < 8 ∧ 1 < 2) && mapGet 0 tNop.pkg.scrubbed 1 == 0
      && decide (mapGet 0 (tTick tNop (2 * dayTicks)).pkg.scrubbed 1 / dayTicks < (tTick tNop (2 * dayTicks)).pkg.tick / dayTicks)) = true := by decide +kernel

/-! ### Repair and lemmel -/

/-- A repairable launch on die 0, whose rick period is over. -/
def tRep : State := tTick (tBlock tNop (fun b => { b with repair := true })) 1000000000
theorem witness_RepairCompletes_rick :
    (tRep.canRick 0 && (tRep.die 0).rickSlot < 2 && (tRep.repair? 0).isNone && tRep.pkg.dies.length == 8 && tRep.canRound 0) = true := by decide +kernel
theorem witness_RepairCompletes_log :
    let s : State := { tRep with repair := [repairBlank 0], msglog := [⟨1, 0, 0, .sent (.inval 0 (some 1)), 0, 0⟩] }
    ((s.repair? 0).isSome && s.msglog.any (fun m => m.src == 1 && m.dst == 0)) = true := by decide +kernel
theorem witness_RepairCompletes_reset :
    let s := tNop
    (!(s.die 0).held && s.atEdge 0 && s.launches.any (fun l => !l.block.repair && l.st != .ended && s.waves.any (fun w => w.launch == l.uid && w.loc.die == 0 && w.transit.isNone))
      && ((s.onDie 0 (fun d => { d with held := true })).die 0).held) = true := by decide +kernel
/-- Inside a round of the die: a step has passed since the last boundary. -/
theorem witness_RepairCompletes_inside :
    let s : State := { tRep with own := { tRep.own with stepNo := 1 }, repair := [repairBlank 0] }
    (!(s.die 0).held && !s.atEdge 0) = true := by decide +kernel
/-- A held die with a round to replay: one of no input and no message sent again; one whose input from die 1 no log holds. -/
def tReplay (a : Admission) : State :=
  tRep.onDie 0 (fun d => { d with held := true }) |> fun s => { s with repair := [{ repairBlank 0 with replay := [a] }] }
theorem witness_RepairCompletes_replay :
    let quiet : Admission := ⟨0, [], []⟩
    let gone : Admission := ⟨0, [(1, .msg (.inval 5 (some 1)))], []⟩
    (((tReplay quiet).die 0).held && tSome ((tReplay quiet).repair? 0) (fun r => decide (r.replay = [quiet])) && ((tReplay quiet).missingFrom 0 quiet).isNone
      && ((tReplay quiet).differs 0 quiet).isNone && ((tReplay gone).missingFrom 0 gone).isSome
      && (tReplay gone).launches.any (fun l => !l.stopped) && (tReplay gone).replaying 0
      && !({ tReplay quiet with repair := [repairBlank 0] } : State).replaying 0 && (({ tReplay quiet with repair := [repairBlank 0] } : State).die 0).held) = true := by
  decide +kernel
def tTrapped : State := tNext (exec (.trap ⟨tG, 7⟩) (tAtId (.trap ⟨tG, 7⟩)))
theorem witness_LemmelCommandsComplete :
    tSome (tTrapped.wave? 2) (fun w => w.parked.isSome && w.uid == 2 && tSome (tTrapped.launch? w.launch) (fun l => !l.stopped && l.st != .ended)) = true := by
  decide +kernel

/-! ### Boot, attestation, the whole machine -/

def ImageFits (k : Nat) (i : Image) : Prop := i.stage = k + 1 ∧ imageOk i = true
/-- Of any six images, either all are for their stages and pass their checks, or there is a first that does not. -/
theorem witness_BootCompletes (is : List Image) (h6 : is.length = 6) : (∃ c, is[5]? = some c)
      ∧ ((∀ k i, k < 6 → is[k]? = some i → ImageFits k i)
        ∨ ∃ n x, n < 6 ∧ is[n]? = some x ∧ ¬ImageFits n x ∧ ∀ k i, k < n → is[k]? = some i → ImageFits k i) := by
  classical
  refine ⟨⟨is[5], List.getElem?_eq_getElem (by omega)⟩, ?_⟩
  by_cases h : ∃ n, n < 6 ∧ ∃ x, is[n]? = some x ∧ ¬ImageFits n x
  · right
    obtain ⟨hn, x, hx, hf⟩ := Nat.find_spec h
    refine ⟨Nat.find h, x, hn, hx, hf, fun k i hk hi => ?_⟩
    by_contra e
    exact Nat.find_min h hk ⟨by omega, i, hi, e⟩
  · left
    intro k i hk hi
    by_contra e
    exact h ⟨k, hk, i, hi, e⟩
/-- An image for another stage fails at once; stage 3 of a boot that failed there can be loaded anew. -/
theorem witness_BootCompletes_fails : let x : Image := ⟨2, [], 0, 0⟩
    ¬ImageFits 0 x ∧ (([x] : List Image)[0]? = some x) := ⟨fun h => absurd h.1 (by decide), rfl⟩
theorem witness_BootCompletes_load : (tUp State.reset).booted = true ∧ ((tUp State.reset).pkg.mrs[6]?).isSome = true := by decide +kernel
theorem witness_BootCompletes_again :
    let i : Image := ⟨3, [], 0, 0⟩
    let s : State := { State.reset with pkg := { State.reset.pkg with
      bootStage := 2
      bootFail := some 3
      flash := List.replicate 6 i } }
    (s.pkg.bootFail == some i.stage && s.pkg.bootStage + 1 == i.stage && i.stage ≤ 6 && i.stage ≤ s.pkg.flash.length) = true := by decide +kernel
/-- Asked over the management port for a certificate slot, by world 0. -/
def tAsked (s : State) (slot : Nat) : State := { s with own := { s.own with asked := ⟨.mctp, slot, some 0⟩ } }
theorem witness_AttestationAndAccountingComplete :
    let s := tTick tNop (10 ^ 6)
    ((tUp tNop).serves && (tAsked (tUp tNop) 1).serves && (tUp tNop).pkg.session == 0 && (tNop.world? 0).isSome && tNop.canSnapshot 0
      && (tAsked tNop 0).canSnapshot 0 && (tAsked tNop 1).own.asked.slot != 0 && (tUp tNop).own.asked.slot == 0
      && tNop.pkg.dies.length == 8 && decide ((s.die 7).energyAt / milliTicks < s.pkg.tick / milliTicks) && (tNop.die 7).ageTick == 0) = true := by
  decide +kernel

/-- A machine with a word placed: the next cue is the quarter's issue. -/
def tPlaced : State := State.reset.withFetchWord 64 (0x3C01 + 2 ^ 16 * 0)
def tTurnOk (s0 : State) (o : Option Turn) : Bool :=
  tSome o (fun t => tSome (s0.launch? t.e.w.launch) (fun l =>
    let va := t.r.fset.pc.toNat
    t.r.fset.stall.isNone && decide (va % 4 = 0) && (List.range 8).all (fun k => s0.mayFetch l (va + k))
      && (match s0.xlate t.e.w.agent (s0.space l.world l.comp) va with
      | .page f big _ =>
        let bs := (List.range (32 - va % 32)).map (fun k => f.byteAt big (va + k))
        f.x && (f.tier == 2 || !(s0.die f.home).held) && (s0.peerStops f va).isNone && bs.all (fun b => !b.hole) && (match decode (bs.map s0.ownByte) with
          | .ok (i, _) => decide (i = .nop ⟨tG, .w64⟩) && (encodeBytes i).length == 8 && !s0.fetchPoison (bs.take (encodeBytes i).length)
          | .error _ => false)
      | _ => false)))
theorem witness_StepRunsTheDecodedInstruction_cue :
    (match tPlaced.own.agenda with
      | .issue q :: cs => let s0 : State := { tPlaced with own := { tPlaced.own with agenda := cs } }; tTurnOk s0 (s0.turn q)
      | _ => false) = true := by decide +kernel
/-- Nothing is on the agenda, and nothing else is due. -/
def tQuietly : State := { tPlaced with own := { tPlaced.own with agenda := [] } }
theorem witness_StepRunsTheDecodedInstruction_turn :
    (tQuietly.own.agenda.isEmpty && (tQuietly.first tQuietly.dueEvents).isNone && tQuietly.own.stepNo % 4 != 3
      && tTurnOk tQuietly (tQuietly.quartersInTurn.findSome? tQuietly.turn)) = true := by decide +kernel
/-- A set that stands at a REMIT that has waited for its release. -/
def tAgain2 : State :=
  let i : Instr := .remit tRemit
  let s : State := { tPlaced with waves := tPlaced.waves.map (fun w => { w with stalls := [⟨.settle .pkg, 0x10000, 0, 0xFFFFFFFFFFFFFFFF, i, 0, [], []⟩] }) }
  { s with own := { s.own with agenda := [] } }
theorem witness_StepRunsTheDecodedInstruction_again :
    (tAgain2.own.agenda.isEmpty && (tAgain2.first tAgain2.dueEvents).isNone && tAgain2.own.stepNo % 4 != 3
      && tSome (tAgain2.quartersInTurn.findSome? tAgain2.turn) (fun t => tSome t.r.fset.stall (fun y => y.issued && y.instr.raw.isSome && y.instr.wf))) = true := by
  decide +kernel
theorem witness_StepRunsTheDecodedInstruction_event :
    let s : State := { State.reset with own := { State.reset.own with agenda := [.happen (.powerCapWrite 0)] } }
    (s.own.agenda.length == 1 && (Instr.powerCapWrite 0).raw.isNone) = true := by decide +kernel

/-! ### The shape, and the spill engine's packing -/

/-- A machine that is up, with an event on its agenda. -/
def tDue : State :=
  let s := tUp State.reset
  { s with own := { s.own with agenda := [.happen (.powerCapWrite 1700)] } }
theorem witness_StepKeepsTheShape : tDue.shaped := by
  unfold State.shaped; decide +kernel
theorem witness_StepKeepsTheShape_next : (match step tDue with
    | .next t => t.pkg.capw == 1700
    | _ => false) = true := by decide +kernel
/-- An instruction word and a remainder. -/
theorem witness_DecodingInvertsEncoding :
    ((Instr.nop ⟨tG, .w64⟩).raw.isSome && (Instr.nop ⟨tG, .w64⟩).wf && !(Instr.powerCapWrite 0).raw.isSome) = true := by decide +kernel
def tRow (f : Nat → Nat) : Row := (List.range 64).map (fun i => BitVec.ofNat 32 (f i))
theorem witness_PackingRestoresEveryBit_uniform : (tRow (fun _ => 9)).length = 64 ∧ ∀ i < 64, (tRow (fun _ => 9)).getD i 0 = (tRow (fun _ => 9)).getD 0 0 := by
  decide +kernel
theorem witness_PackingRestoresEveryBit_affine :
    (tRow (fun i => 2 ^ 31 + 3 * i)).getD 1 0 ≠ (tRow (fun i => 2 ^ 31 + 3 * i)).getD 0 0
      ∧ ∀ i < 64, (tRow (fun i => 2 ^ 31 + 3 * i)).getD i 0 = BitVec.ofNat 32 (2 ^ 31) + BitVec.ofNat 32 i * 3 := by decide +kernel
/-- A row of this kind is no affine one: its first three slices have unequal steps. -/
theorem test_not_affine (x : Nat → W32) (h : x 2 - x 1 ≠ x 1 - x 0) : ¬∃ b d : W32, d ≠ 0 ∧ ∀ i < 64, x i = b + BitVec.ofNat 32 i * d := by
  rintro ⟨b, d, -, k⟩
  refine h ?_
  have k0 := k 0 (by decide)
  have k1 := k 1 (by decide)
  have k2 := k 2 (by decide)
  rw [k0, k1, k2]
  have e0 : BitVec.ofNat 32 0 * d = 0 := by simp
  have e1 : BitVec.ofNat 32 1 * d = d := by simp
  have e2 : BitVec.ofNat 32 2 * d = d + d := by bv_omega
  rw [e0, e1, e2]
  bv_omega
/-- Slices from -128 to 127; from -32768 to 32767; of the whole width: none of them affine. -/
def tBytes : Row := tRow (fun i => if i = 1 then 2 ^ 32 - 128 else 127)
theorem witness_PackingRestoresEveryBit_bytes :
    tBytes.getD 2 0 - tBytes.getD 1 0 ≠ tBytes.getD 1 0 - tBytes.getD 0 0
      ∧ ∀ i < 64, tBytes.getD i 0 = ((tBytes.getD i 0).setWidth 8).signExtend 32 := by decide +kernel
def tHalves : Row := tRow (fun i => if i = 1 then 2 ^ 32 - 32768 else 32767)
theorem witness_PackingRestoresEveryBit_halves :
    tHalves.getD 2 0 - tHalves.getD 1 0 ≠ tHalves.getD 1 0 - tHalves.getD 0 0 ∧ tHalves.getD 0 0 ≠ ((tHalves.getD 0 0).setWidth 8).signExtend 32
      ∧ ∀ i < 64, tHalves.getD i 0 = ((tHalves.getD i 0).setWidth 16).signExtend 32 := by decide +kernel
def tWords : Row := tRow (fun i => if i = 1 then 2 ^ 30 else 0)
theorem witness_PackingRestoresEveryBit_words :
    tWords.getD 2 0 - tWords.getD 1 0 ≠ tWords.getD 1 0 - tWords.getD 0 0 ∧ tWords.getD 1 0 ≠ ((tWords.getD 1 0).setWidth 16).signExtend 32 := by
  decide +kernel

/-! ## The assembler -/

/-- 27_assembler_reference.md, the layout example. -/
def tLayout : Gotis.Output :=
  Gotis.assemble "layout.gts" (
    ".kernel layout\n.window 32\n srd.b32 v0, %laneid\n add.i32 v1, v0, 70000\n iset.lt.i32 p1, v0, 8\n".toList ++
    "?p1 bra skip\n sub.i32 v1, v1, v0\nskip: add.i32 v2, v1, 1\n mul.i32 v3, v2, v2\n and.b32 v4, v3, v0\n end\n.endkernel".toList)

/-- The same example: a NOP at 0x18, line 5 at 0x20 and line 6 at 0x2C with the bytes printed there, 0x70 bytes of code. -/
theorem test_gotis_layout :
    (tLayout.object.map (fun o => (o.code.length, (o.code.drop 0x18).take 32, o.kernels.map (fun k => (k.entry, k.window))))) =
      some (0x70, [0x01, 0x3C, 0, 0, 0, 0, 0, 0, 0xB6, 0xBC, 0, 0, 0, 0, 0x80, 0x50, 0, 0, 0x08, 0,
        0x06, 0x04, 0, 0, 0, 0, 0, 0, 0, 0, 0x05, 0], [(0, 32)]) ∧ tLayout.diags = [] := by
  decide +kernel

/-- R345's own example of data, R343's precedence and signs, and R348: no object beside an error. -/
theorem test_gotis_data_and_diagnostics :
    (Gotis.assemble "d.gts" ".data\n.f32 1\n.align 8\n.b8 -7/2+8, -7%2+8, 1|2^3&6".toList).object.map (fun o => o.data) =
      some [0, 0, 0x80, 0x3F, 0, 0, 0, 0, 5, 7, 1]
    ∧ Gotis.assemble "e.gts" ".kernel k\n.window 32\n?!p15 nop\n add.i64 v3, v0, v2\n.endkernel\n nop".toList =
      ⟨[⟨"e.gts", 3, .a05⟩, ⟨"e.gts", 4, .a03⟩, ⟨"e.gts", 6, .a08⟩], none⟩ := by
  decide +kernel
end

section
/-! PROOFS. The integer values of the types, and what division, counting and reversal do to them (R65, R68, R71, R74). -/

namespace Sys2Proof.Machine

/-! ## The values of an integer type (R65, R68) -/

section
variable {t : IntTy} {x : W64} {e : Int}

/-- An integer that the type holds. -/
def InRange (t : IntTy) (e : Int) : Prop := intMin t ≤ e ∧ e ≤ intMax t

theorem inRange_signed (hs : t.signed = true) : InRange t e ↔ -2 ^ (t.width - 1) ≤ e ∧ e < 2 ^ (t.width - 1) := by
  simp only [InRange, intMin, intMax, hs, if_true, Int.le_sub_one_iff]

theorem inRange_unsigned (hs : t.signed = false) : InRange t e ↔ 0 ≤ e ∧ e < 2 ^ t.width := by
  simp [InRange, intMin, intMax, hs]

theorem intVal_signed (hs : t.signed = true) :
    intVal t x = if (2 : Int) ^ (t.width - 1) ≤ intBits t x then (intBits t x : Int) - 2 ^ t.width else intBits t x := by
  simp only [intVal, hs, Bool.true_and, decide_eq_true_eq, Int.ofNat_eq_natCast, ← Nat.cast_ofNat (R := Int), ← Nat.cast_pow,
    Nat.cast_le]

theorem intVal_unsigned (hs : t.signed = false) : intVal t x = intBits t x := by
  simp [intVal, hs]

theorem width_le (t : IntTy) : t.width ≤ 64 := by cases t <;> decide

/-- The modulus is twice the weight of the sign bit. -/
theorem two_pow_width (t : IntTy) : (2 : Int) ^ t.width = 2 * 2 ^ (t.width - 1) := by cases t <;> rfl

theorem intBits_lt (t : IntTy) (x : W64) : (intBits t x : Int) < 2 ^ t.width :=
  mod_cast Nat.mod_lt x.toNat (Nat.two_pow_pos t.width)

theorem intVal_inRange (t : IntTy) (x : W64) : InRange t (intVal t x) := by
  have hb := intBits_lt t x
  have hw := two_pow_width t
  cases hs : t.signed with
  | false => rw [inRange_unsigned hs, intVal_unsigned hs]; omega
  | true => rw [inRange_signed hs, intVal_signed hs]; split <;> omega

/-- The low w bits determine the value: it is the one integer in range that is congruent to them modulo 2^w. -/
theorem intVal_eq_of_intBits (he : InRange t e) (hx : (intBits t x : Int) = e % 2 ^ t.width) : intVal t x = e := by
  have hw := two_pow_width t
  cases hs : t.signed with
  | false =>
    obtain ⟨hlo, hhi⟩ := (inRange_unsigned hs).1 he
    rw [intVal_unsigned hs, hx, Int.emod_eq_of_lt hlo hhi]
  | true =>
    obtain ⟨hlo, hhi⟩ := (inRange_signed hs).1 he
    rw [intVal_signed hs, hx]
    by_cases hneg : e < 0
    · rw [← Int.add_emod_right, Int.emod_eq_of_lt (by omega) (by omega), if_pos (by omega)]
      omega
    · rw [Int.emod_eq_of_lt (by omega) (by omega), if_neg (by omega)]

/-- Reducing an integer modulo 2^64 first does not change its low w bits. -/
theorem intBits_ofInt (t : IntTy) (e : Int) : (intBits t (BitVec.ofInt 64 e) : Int) = e % 2 ^ t.width := by
  have hd : (2 ^ t.width : Int) ∣ 2 ^ 64 := pow_dvd_pow 2 (width_le t)
  have hn : 0 ≤ e % (2 ^ 64 : Nat) := Int.emod_nonneg e (by decide)
  rw [intBits, BitVec.toNat_ofInt, Int.natCast_emod, Int.toNat_of_nonneg hn]
  exact_mod_cast Int.emod_emod_of_dvd e hd

theorem intBits_intExtend (t : IntTy) (n : Nat) : intBits t (intExtend t n) = n % 2 ^ t.width := by
  have hofNat : BitVec.ofNat 64 (n % 2 ^ t.width) = BitVec.ofInt 64 (n % 2 ^ t.width : Nat) := (BitVec.ofInt_natCast ..).symm
  apply Int.ofNat_inj.1
  unfold intExtend
  dsimp only
  split
  · simp [intBits_ofInt]
  · simp [hofNat, intBits_ofInt]

theorem intBits_intWrap (t : IntTy) (e : Int) : (intBits t (intWrap t e) : Int) = e % 2 ^ t.width := by
  have hn : 0 ≤ e % (2 : Int) ^ t.width := Int.emod_nonneg e (by positivity)
  rw [intWrap, intBits_intExtend, Int.natCast_emod, Int.toNat_of_nonneg hn, Nat.cast_pow, Nat.cast_two, Int.emod_emod]

/-- A value in range reads back as it was stored. -/
theorem intVal_intWrap (he : InRange t e) : intVal t (intWrap t e) = e :=
  intVal_eq_of_intBits he (intBits_intWrap t e)

theorem intMin_nonpos (t : IntTy) : intMin t ≤ 0 := by
  unfold intMin
  split <;> simp

theorem intMax_nonneg (t : IntTy) : 0 ≤ intMax t := by
  have hpos : ∀ n : Nat, (0 : Int) < 2 ^ n := fun n => by positivity
  unfold intMax
  split <;> exact Int.le_sub_one_of_lt (hpos _)

theorem inRange_intMin (t : IntTy) : InRange t (intMin t) := ⟨le_refl _, (intMin_nonpos t).trans (intMax_nonneg t)⟩
theorem inRange_intMax (t : IntTy) : InRange t (intMax t) := ⟨(intMin_nonpos t).trans (intMax_nonneg t), le_refl _⟩

theorem intVal_zero (t : IntTy) : intVal t 0 = 0 :=
  intVal_eq_of_intBits ⟨intMin_nonpos t, intMax_nonneg t⟩ (by simp [intBits])

end

/-! ## Division (R71) -/

section
variable {t : IntTy} {x y : Int}

/-- The one quotient that a type does not hold: its least value by -1. -/
def DivCorner (t : IntTy) (x y : Int) : Prop := t.signed = true ∧ x = intMin t ∧ y = -1

theorem tmod_nonpos (y : Int) (hx : x ≤ 0) : x.tmod y ≤ 0 :=
  Int.neg_nonneg.1 (Int.neg_tmod x y ▸ Int.tmod_nonneg y (Int.neg_nonneg_of_nonpos hx))

/-- A remainder lies between zero and the dividend. -/
theorem tmod_inRange (hx : InRange t x) (y : Int) : InRange t (x.tmod y) := by
  have hmin := intMin_nonpos t
  have hmax := intMax_nonneg t
  obtain ⟨hlo, hhi⟩ := hx
  have hle : (x.tmod y).natAbs ≤ x.natAbs := Int.natAbs_tmod x y ▸ Nat.mod_le ..
  rcases le_total 0 x with hpos | hneg
  · have := Int.tmod_nonneg y hpos
    unfold InRange; omega
  · have := tmod_nonpos y hneg
    unfold InRange; omega

/-- A quotient is no further from zero than its dividend, and by anything but 1 and -1 no further than half of it. -/
theorem tdiv_inRange (hx : InRange t x) (hy : InRange t y) (h0 : y ≠ 0) (hc : ¬DivCorner t x y) : InRange t (x.tdiv y) := by
  have habs : (x.tdiv y).natAbs = x.natAbs / y.natAbs := Int.natAbs_tdiv x y
  have hle : (x.tdiv y).natAbs ≤ x.natAbs := habs ▸ Nat.div_le_self ..
  cases hs : t.signed with
  | false =>
    rw [inRange_unsigned hs] at hx hy ⊢
    have := Int.tdiv_nonneg hx.1 hy.1
    omega
  | true =>
    have hmin : x = -2 ^ (t.width - 1) → y ≠ -1 := fun h h' => hc ⟨hs, by simp [h, intMin, hs], h'⟩
    rw [inRange_signed hs] at hx ⊢
    by_cases h1 : y.natAbs = 1
    · rcases Int.natAbs_eq_iff.1 h1 with rfl | rfl
      · simpa using hx
      · simp only [Nat.cast_one, Int.tdiv_neg, Int.tdiv_one]; omega
    · have hhalf : (x.tdiv y).natAbs ≤ x.natAbs / 2 := habs ▸ Nat.div_le_div_left (by omega) (by decide)
      omega

theorem divCorner_iff : (t.signed && x == intMin t && y == -1) = true ↔ DivCorner t x y := by
  simp [DivCorner, and_assoc]

end

section
variable {t : IntTy} {a b : W64}

/-- DIV and REM by zero: all ones, and the dividend. -/
theorem intDiv_intRem_by_zero (sat : Bool) (h : intVal t b = 0) :
    intBits t (intDiv t sat a b) = 2 ^ t.width - 1 ∧ intVal t (intRem t a b) = intVal t a := by
  constructor
  · rw [intDiv, if_pos h, intBits_intExtend]
    exact Nat.mod_eq_of_lt (Nat.sub_lt (Nat.two_pow_pos _) one_pos)
  · rw [intRem, if_pos h]
    exact intVal_intWrap (intVal_inRange t a)

/-- DIV and REM at the corner: the least value, or the greatest where the result saturates, and nothing over. -/
theorem intDiv_intRem_at_corner (sat : Bool) (h : DivCorner t (intVal t a) (intVal t b)) :
    intVal t (intDiv t sat a b) = (if sat then intMax t else intMin t) ∧ intVal t (intRem t a b) = 0 := by
  have h0 : intVal t b ≠ 0 := by obtain ⟨-, -, hy⟩ := h; rw [hy]; decide
  constructor
  · rw [intDiv, if_neg h0, if_pos (divCorner_iff.2 h)]
    split
    · exact intVal_intWrap (inRange_intMax t)
    · exact intVal_intWrap (inRange_intMin t)
  · rw [intRem, if_neg h0, if_pos (divCorner_iff.2 h)]
    exact intVal_zero t

/-- DIV and REM everywhere else: the truncated quotient and its remainder, both of which the type holds. -/
theorem intDiv_intRem_otherwise (sat : Bool) (h0 : intVal t b ≠ 0) (hc : ¬DivCorner t (intVal t a) (intVal t b)) :
    intVal t (intDiv t sat a b) = (intVal t a).tdiv (intVal t b) ∧ intVal t (intRem t a b) = (intVal t a).tmod (intVal t b) := by
  have ha := intVal_inRange t a
  constructor
  · rw [intDiv, if_neg h0, if_neg (mt divCorner_iff.1 hc)]
    exact intVal_intWrap (tdiv_inRange ha (intVal_inRange t b) h0 hc)
  · rw [intRem, if_neg h0, if_neg (mt divCorner_iff.1 hc), mul_comm, ← Int.tmod_def]
    exact intVal_intWrap (tmod_inRange ha _)

end

/-- A remainder is smaller than its divisor and takes its dividend's sign. -/
theorem tmod_small_with_sign (x : Int) {y : Int} (h0 : y ≠ 0) : (x.tmod y).natAbs < y.natAbs ∧ 0 ≤ x * x.tmod y := by
  refine ⟨Int.natAbs_tmod x y ▸ Nat.mod_lt _ (Int.natAbs_pos.2 h0), ?_⟩
  rcases le_total 0 x with hpos | hneg
  · exact mul_nonneg hpos (Int.tmod_nonneg y hpos)
  · exact mul_nonneg_of_nonpos_of_nonpos hneg (tmod_nonpos y hneg)

/-- Settles O4: the three cases of R71 exclude each other, and in the last one the type holds quotient and remainder. -/
theorem divisionIsTotal : Obligations.DivisionIsTotal := by
  unfold Obligations.DivisionIsTotal
  refine ⟨fun o s s1 c => ⟨fun h => plainV h rfl rfl rfl, fun h => plainV h rfl rfl rfl⟩, fun t sat a b => ⟨?_, ?_, ?_⟩⟩
  · exact intDiv_intRem_by_zero sat
  · exact intDiv_intRem_at_corner sat
  · intro h0 hc
    obtain ⟨hq, hr⟩ := intDiv_intRem_otherwise sat h0 hc
    rw [hq, hr]
    exact ⟨rfl, by rw [Int.tmod_def, mul_comm], tmod_small_with_sign _ h0⟩

/-! ## Counts and reversal (R74) -/

/-- One more bit is read from above, and becomes the lowest of the result. -/
theorem revBits_succ (n x : Nat) : revBits (n + 1) x = Nat.bit (x.testBit n) (revBits n x) := by
  simp only [revBits, List.range_succ, List.foldl_append, List.foldl_cons, List.foldl_nil]
  cases x.testBit n <;> rfl

theorem revBits_lt (n x : Nat) : revBits n x < 2 ^ n := by
  induction n with
  | zero => exact Nat.one_pos
  | succ n ih => rw [revBits_succ]; exact Nat.bit_lt_two_pow_succ_iff.2 ih

/-- Reversal moves bit n - 1 - k to bit k. -/
theorem testBit_revBits {n k : Nat} (x : Nat) (h : k < n) : (revBits n x).testBit k = x.testBit (n - 1 - k) := by
  induction n generalizing k with
  | zero => omega
  | succ n ih =>
    rw [revBits_succ]
    cases k with
    | zero => exact Nat.testBit_bit_zero ..
    | succ k =>
      rw [Nat.testBit_bit_succ, ih (by omega)]
      congr 1; omega

section
variable {t : IntTy} {a : W64}

theorem intBits_intBrev (t : IntTy) (a : W64) : intBits t (intBrev t a) = revBits t.width (intBits t a) := by
  rw [intBrev, intBits_intExtend, Nat.mod_eq_of_lt (revBits_lt ..)]

theorem intClz_of_zero (h : intBits t a = 0) : intClz t a = t.width := by simp [intClz, h]

/-- CLZ of anything but zero counts down to the highest one bit. -/
theorem intClz_of_ne_zero (h : intBits t a ≠ 0) : intClz t a < t.width ∧ t.width - 1 - intClz t a = (intBits t a).log2 := by
  have hlog : (intBits t a).log2 < t.width := (Nat.log2_lt h).2 (mod_cast intBits_lt t a)
  simp only [intClz, if_neg h]
  omega

/-- Every bit that CLZ counts is zero. -/
theorem testBit_of_intClz {k : Nat} (hk : t.width - intClz t a ≤ k) : (intBits t a).testBit k = false := by
  by_cases h : intBits t a = 0
  · rw [h, Nat.zero_testBit]
  · obtain ⟨hlt, hlog⟩ := intClz_of_ne_zero h
    exact Nat.testBit_lt_two_pow ((Nat.log2_lt h).1 (by omega))

/-- The bits that POPC counts are those of the carrier below the width. -/
theorem intPopc_eq (t : IntTy) (a : W64) : intPopc t a = ((List.range t.width).filter (fun k => a.getLsbD k)).length := by
  unfold intPopc
  congr 1
  apply List.filter_congr
  intro k hk
  simp [intBits, Nat.testBit_mod_two_pow, List.mem_range.1 hk, BitVec.testBit_toNat]

end

/-- Settles O5: CLZ by the binary logarithm, BREV by induction on the number of bits reversed. -/
theorem countsAndReversal : Obligations.CountsAndReversal := by
  unfold Obligations.CountsAndReversal
  refine ⟨fun o s s1 c => ⟨fun h => plainV h rfl rfl rfl, fun h => plainV h rfl rfl rfl, fun h => plainV h rfl rfl rfl⟩,
    fun t a => ⟨fun k hk => ?_, intClz_of_zero, fun h => ?_, fun k => testBit_of_intClz, intPopc_eq t a⟩⟩
  · rw [intBits_intBrev, testBit_revBits _ hk]
  · obtain ⟨hlt, hlog⟩ := intClz_of_ne_zero h
    exact ⟨hlt, by rw [hlog, Nat.testBit_log2 h]⟩

end Sys2Proof.Machine
end

section
/-! PROOFS. The predicate operations (R110). -/

namespace Sys2Proof.Machine

/-- Also where the lane holds no fibre (R14, R21). -/
theorem pget_fifteen (w : Wave) (l : Nat) : w.pget 15 l = true := by
  unfold Wave.pget
  cases w.fibre? l with
  | none => rfl
  | some f => simp [Fibre.pred]

/-- What PAND, POR and PXOR share: the sources are those of the wave as the issue found it, so pD may be one of them (R25). -/
theorem writesP_of_predP2 {i : Instr} {s s1 : State} {c : Ctx} {f : Bool → Bool → Bool} {o : OpP2} (h : Runs i s c s1)
    (hx : exec i s = runPlain i (predP2 f o) s) (he : endsRegion i = false) :
    WritesP i s c s1 o.d (fun l => f (c.w.pget o.a.toNat l != o.invA) (c.w.pget o.b.toNat l != o.invB)) 0 :=
  plainP h hx rfl he

/-- Settles O10: each operation is one write of pD in the active lanes, and p15 reads true in every lane. -/
theorem predicatesComplete : Obligations.PredicatesComplete := by
  unfold Obligations.PredicatesComplete
  intro s s1 c
  refine ⟨fun o => ⟨?pand, ?por, ?pxor⟩, fun o => ⟨?pnot, ?pmov⟩, pget_fifteen⟩
  case pand => exact fun h => writesP_of_predP2 (f := and) h rfl rfl
  case por => exact fun h => writesP_of_predP2 (f := or) h rfl rfl
  case pxor => exact fun h => writesP_of_predP2 (f := xor) h rfl rfl
  case pnot => exact fun h => plainP h rfl rfl rfl
  case pmov => exact fun h => plainP h rfl rfl rfl

end Sys2Proof.Machine
end
